-- ==== Sys2Proof/Word.lean ====
section
/-! DEFINITION. The word types of the EXV-5 (R3, R227): bytes, 32-bit words, 64-bit quadwords, and the
1,024-bit lane mask of R111. -/

namespace Sys2Proof

/-- A byte. -/
abbrev Byte := BitVec 8
/-- A 32-bit word: one vector register in one lane, one instruction word. -/
abbrev Word := BitVec 32
/-- A 64-bit quadword: one uniform register, one state register. -/
abbrev Quad := BitVec 64
/-- A set of lanes, bit l for lane l (the 32 mask words of R111 joined; the summary word is computed). -/
abbrev Mask := BitVec 1024

end Sys2Proof
end

