-- ==== Sys2Proof/Machine/Bits.lean ====
section
/-! DEFINITION. Bit-field, sign-extension and byte-order helpers (R3), and the small list functions the
machine uses. -/

namespace Sys2Proof.Machine

/-- Bits [hi:lo] of x as a number. -/
def bits {w : Nat} (x : BitVec w) (hi lo : Nat) : Nat := (x.toNat >>> lo) % 2 ^ (hi + 1 - lo)

/-- Bits [hi:lo] of a number. -/
def nbits (x hi lo : Nat) : Nat := (x >>> lo) % 2 ^ (hi + 1 - lo)

/-- Bit i of x. -/
def bit {w : Nat} (x : BitVec w) (i : Nat) : Bool := x.getLsbD i

/-- x with its bits [hi:lo] replaced by the low bits of v. -/
def setBits {w : Nat} (x : BitVec w) (hi lo v : Nat) : BitVec w :=
  let m := 2 ^ (hi + 1 - lo)
  BitVec.ofNat w (x.toNat - (bits x hi lo) * 2 ^ lo + (v % m) * 2 ^ lo)

/-- The signed reading of the low n bits of v. -/
def signedN (n v : Nat) : Int :=
  let u := v % 2 ^ n
  if n = 0 then 0 else if u < 2 ^ (n - 1) then (u : Int) else (u : Int) - (2 ^ n : Nat)

/-- An integer reduced to w bits (two's complement). -/
def ofInt (w : Nat) (i : Int) : BitVec w := BitVec.ofInt w i

/-- The little-endian value of a list of bytes (R3). -/
def leNat : List Byte → Nat
  | [] => 0
  | b :: r => b.toNat + 256 * leNat r

/-- n bytes of a value, little-endian (R3). -/
def leBytes : Nat → Nat → List Byte
  | 0, _ => []
  | n + 1, v => BitVec.ofNat 8 v :: leBytes n (v / 256)

/-- The number from 0 below n whose bit is set lowest, if any: the lowest lane of a mask. -/
def firstBit (x : Nat) (n : Nat) : Option Nat := (List.range n).find? fun i => x.testBit i

/-- How many of the first n bits are set. -/
def popcount (x : Nat) : Nat → Nat
  | 0 => 0
  | n + 1 => popcount x n + (if x.testBit n then 1 else 0)

/-- ceil(a / b). -/
def ceilDiv (a b : Nat) : Nat := (a + b - 1) / b

/-- floor(log2 n), 0 for 0. -/
def log2n (n : Nat) : Nat := n.log2

/-- A clamp of i to [lo, hi]. -/
def clampInt (lo hi i : Int) : Int := if i < lo then lo else if i > hi then hi else i

/-- The sum of a list of integers. -/
def sumInt (l : List Int) : Int := l.foldl (· + ·) 0

/-- Does a list of numbers hold no number twice? -/
def nodup : List Nat → Bool
  | [] => true
  | x :: r => !(r.contains x) && nodup r

/-- The distinct numbers of a list, in order of first appearance. -/
def distinct (l : List Nat) : List Nat :=
  l.foldl (fun acc x => if acc.contains x then acc else acc ++ [x]) []

/-- An insertion into an ascending list. -/
def insertAsc (x : Nat) : List Nat → List Nat
  | [] => [x]
  | y :: r => if x ≤ y then x :: y :: r else y :: insertAsc x r

/-- A list of numbers in ascending order. -/
def sortAsc (l : List Nat) : List Nat := l.foldr insertAsc []

/-- Replace element i of a list, if it is there. -/
def setAt {α : Type} : List α → Nat → α → List α
  | [], _, _ => []
  | _ :: r, 0, a => a :: r
  | x :: r, n + 1, a => x :: setAt r n a

/-- Element i of a list, or a default. -/
def atD {α : Type} (l : List α) (i : Nat) (d : α) : α := (l[i]?).getD d

/-- Is a word a clause header (R289)? -/
def isHeader (w : Word) : Bool := bits w 31 28 == 11

/-- Lanes of a mask, ascending, below n. -/
def maskLanes (m : Mask) (n : Nat) : List Nat := (List.range n).filter fun l => m.getLsbD l

/-- The mask with the given lanes. -/
def laneMask (l : List Nat) : Mask := l.foldl (fun m i => m ||| (1#1024 <<< i)) 0#1024

/-- The mask of lanes 0 to n - 1. -/
def fullMask (n : Nat) : Mask := BitVec.ofNat 1024 (2 ^ n - 1)

/-- The number of lanes in a mask. -/
def maskCount (m : Mask) : Nat := popcount m.toNat 1024

/-- Mask word i (R111): lanes 32 i to 32 i + 31. -/
def maskWord (m : Mask) (i : Nat) : Word := BitVec.ofNat 32 (m.toNat >>> (32 * i))

/-- The summary word (R111): bit i is set exactly when mask word i is non-zero. -/
def summary (m : Mask) : Word :=
  (List.range 32).foldl (fun s i => if maskWord m i = 0#32 then s else s ||| (1#32 <<< i)) 0#32

/-- The numbers of the non-zero mask words, ascending: the passes of R112. -/
def passes (m : Mask) : List Nat := (List.range 32).filter fun i => maskWord m i ≠ 0#32

end Sys2Proof.Machine
end

