-- ==== Sys2Proof/Config.lean ====
section
/-! DEFINITION. What an implementation fixes and what the spec leaves open: opaque constants with no body. -/

namespace Sys2Proof.Config

/-- The device stepping identifier (R53, R135): each device has one; the spec gives no value for this one
(log entry 3). -/
opaque stepping : BitVec 16

/-- A free number for the n-th open value that a run meets (log entry 5). -/
opaque freeNat : Nat → Nat

/-- A free bit for the n-th open choice that a run meets (log entry 5). -/
opaque freeBit : Nat → Bool

/-- A free choice among the words that a place of a changed kernel object has held (R80), for the n-th open value and the place
(log entry 5). -/
opaque freeCode : Nat → Nat → Nat

/-- The result of a transcendental function within its bound (R241): function code and operand bits give an
offset that the machine clips to the values the bound allows (log entry 6). -/
opaque transPick : Nat → Nat → Nat

/-- The mean or variance of a moment function within its bound (R253): function code, mean bits, variance bits and
scale select a value that the machine clips to the bound (log entry 7). -/
opaque momentPick : Nat → Nat → Nat → Nat

/-- The device's values of Phi, phi and T within their bounds (R252), selected and clipped (log entry 7). -/
opaque tablePick : Nat → Nat → Nat

/-- The device identity key (R59), provisioned at manufacture, which cannot be read out (log entry 8). -/
opaque identityKey : Nat

/-- The nonce of the n-th trial of a signature (R59; log entry 8). -/
opaque nonce : Nat → Nat

/-- The home-slice set index of a line (R160 gives sets and ways and no index bits; log entry 9). -/
opaque l2Set : Nat → Nat

/-- Bytes that firmware keeps at the top of a die's near memory (R461 gives no size; log entry 3). -/
opaque firmwareNear : Nat → Nat

/-- Spare DRAM rows of a die, or of the IOD, after bring-up (R62 gives no number; log entry 3). -/
opaque spareRows : Nat → Nat

/-- Which quadwords of an expansion region's header hold its fields (R424 gives no offsets; log entry 13). -/
opaque exHeader : Nat

/-- The fixed latencies of a stepping other than 0x0001 (R136, R302), by class and core kind (log entry 3). -/
opaque latency : Nat → Nat

end Sys2Proof.Config
end

