-- ==== Sys2Proof/Machine/Store.lean ====
section
/-! DEFINITION. The two containers of the state, both plain lists with strictly rising keys: a map (no entry:
absent) and a store (no entry: zero, and no entry holds zero). Memory is a store of bytes. -/

namespace Sys2Proof.Machine

/-- A map from numbers: strictly rising keys. -/
abbrev AMap (α : Type) := List (Nat × α)

/-- The entry of a key. -/
def AMap.at? {α : Type} : AMap α → Nat → Option α
  | [], _ => none
  | (k, a) :: r, n => if k = n then some a else AMap.at? r n

/-- Set the entry of a key. -/
def AMap.insert {α : Type} : AMap α → Nat → α → AMap α
  | [], n, a => [(n, a)]
  | (k, b) :: r, n, a =>
    if k = n then (n, a) :: r else if n < k then (n, a) :: (k, b) :: r else (k, b) :: AMap.insert r n a

/-- Remove a key. -/
def AMap.erase {α : Type} : AMap α → Nat → AMap α
  | [], _ => []
  | (k, b) :: r, n => if k = n then AMap.erase r n else (k, b) :: AMap.erase r n

/-- The keys, rising. -/
def AMap.keys {α : Type} (m : AMap α) : List Nat := m.map (·.1)

/-- The entries. -/
def AMap.vals {α : Type} (m : AMap α) : List α := m.map (·.2)

/-- Change the entry of a key, if there is one. -/
def AMap.modify {α : Type} (m : AMap α) (n : Nat) (f : α → α) : AMap α :=
  match m.at? n with | some a => m.insert n (f a) | none => m

/-- Apply a function to every entry. -/
def AMap.mapVals {α : Type} (m : AMap α) (f : α → α) : AMap α := m.map fun e => (e.1, f e.2)

/-- A store of w-bit values, zero where nothing is listed. -/
abbrev Store (w : Nat) := List (Nat × BitVec w)

/-- The value at a key. -/
def Store.get {w : Nat} : Store w → Nat → BitVec w
  | [], _ => 0
  | (k, a) :: r, n => if k = n then a else Store.get r n

/-- Remove every entry of a key. -/
def Store.clear {w : Nat} : Store w → Nat → Store w
  | [], _ => []
  | (k, b) :: r, n => if k = n then Store.clear r n else (k, b) :: Store.clear r n

/-- Enter a value at a key. -/
def Store.put {w : Nat} : Store w → Nat → BitVec w → Store w
  | [], n, a => [(n, a)]
  | (k, b) :: r, n, a =>
    if k = n then (n, a) :: r else if n < k then (n, a) :: (k, b) :: r else (k, b) :: Store.put r n a

/-- Set the value at a key; zero removes the entry. -/
def Store.set {w : Nat} (m : Store w) (n : Nat) (a : BitVec w) : Store w :=
  if a = 0 then m.clear n else m.put n a

/-- Set several values in order. -/
def Store.setAll {w : Nat} (m : Store w) (l : List (Nat × BitVec w)) : Store w :=
  l.foldl (fun m e => m.set e.1 e.2) m

/-- Set consecutive keys. -/
def Store.write {w : Nat} : Store w → Nat → List (BitVec w) → Store w
  | m, _, [] => m
  | m, n, b :: r => Store.write (m.set n b) (n + 1) r

/-- Read consecutive keys. -/
def Store.read {w : Nat} (m : Store w) : Nat → Nat → List (BitVec w)
  | _, 0 => []
  | n, k + 1 => m.get n :: Store.read m (n + 1) k

/-- Keep the entries whose key passes a test. -/
def Store.keep {w : Nat} (m : Store w) (f : Nat → Bool) : Store w := m.filter fun e => f e.1

/-- The canonical form: keys strictly rising above a bound, no zero listed. -/
def Store.wfFrom {w : Nat} : Nat → Store w → Bool
  | _, [] => true
  | lo, (k, a) :: r => lo ≤ k && a != 0 && Store.wfFrom (k + 1) r

/-- The canonical form. -/
def Store.wf {w : Nat} (m : Store w) : Bool := Store.wfFrom 0 m

/-- Memory: bytes by address, zero where nothing is listed (log entry 1). -/
abbrev Memory := List Host.Cell

/-- One byte of memory. -/
def Memory.byte (m : Memory) (a : Nat) : Byte := Store.get (w := 8) m a
/-- Write one byte of memory. -/
def Memory.setByte (m : Memory) (a : Nat) (b : Byte) : Memory := Store.set (w := 8) m a b
/-- Read n bytes. -/
def Memory.read (m : Memory) (a n : Nat) : List Byte := Store.read (w := 8) m a n
/-- Write bytes. -/
def Memory.write (m : Memory) (a : Nat) (bs : List Byte) : Memory := Store.write (w := 8) m a bs
/-- The canonical form of memory: addresses strictly rising, no byte listed that an unlisted address reads as. -/
def Memory.wf (m : Memory) : Bool := Store.wf (w := 8) m

end Sys2Proof.Machine
end

