-- ==== Sys2Proof/Syntax.lean ====
section
/-! DEFINITION. The syntax: one constructor of Instr per row of spec/opcode_table.json. 181 rows are Exven
instructions (R312) in the formats A, M, I, B and P of R293 to R298; 90 rows are steps of the device, its host
and its engines. The fields of formats A and M stay the raw fields of R293 and R294, because the repeat prefix
steps them as numbers whatever class they name (R306). -/

namespace Sys2Proof

/-- The extension word of format A (R294). -/
structure ExtA where
  b   : BitVec 8
  c   : BitVec 8
  g   : BitVec 3
  gn  : Bool
  mod : BitVec 10
  deriving DecidableEq, Repr

/-- Format A (R293): `ext = none` is the short form of R296. -/
structure OpA where
  stall : BitVec 2
  d     : BitVec 8
  a     : BitVec 8
  ext   : Option ExtA
  deriving DecidableEq, Repr

/-- Format M (R294): always with an extension word (R296). -/
structure OpM where
  stall : BitVec 2
  d     : BitVec 8
  a     : BitVec 8
  sb    : BitVec 6
  imm   : BitVec 10
  g     : BitVec 3
  gn    : Bool
  mod   : BitVec 10
  deriving DecidableEq, Repr

/-- Format I with X = 0 (R297). -/
structure OpI7 where
  stall : BitVec 2
  d     : BitVec 8
  a     : BitVec 8
  imm   : BitVec 7
  deriving DecidableEq, Repr

/-- Format I with X = 1 (R297); IMM7 must be zero and is kept so that the check of R297 can see it. -/
structure OpI30 where
  stall : BitVec 2
  d     : BitVec 8
  a     : BitVec 8
  imm7  : BitVec 7
  imm   : BitVec 30
  deriving DecidableEq, Repr

/-- Format B (R297) for BRA, BRU and CALL. -/
structure OpB where
  stall : BitVec 2
  psel  : BitVec 3
  pn    : Bool
  h     : Bool
  off   : BitVec 18
  deriving DecidableEq, Repr

/-- Format B for BRC, with its extension word; `rest` is extension bits [11:0], which must be zero. -/
structure OpBRC where
  stall : BitVec 2
  psel  : BitVec 3
  pn    : Bool
  h     : Bool
  off   : BitVec 18
  join  : BitVec 18
  rest  : BitVec 12
  deriving DecidableEq, Repr

/-- Format P, the repeat prefix (R298); STALL and bits [4:0] must be zero. -/
structure OpP where
  stall : BitVec 2
  cntm1 : BitVec 6
  dd    : BitVec 3
  da    : BitVec 3
  db    : BitVec 3
  dc    : BitVec 3
  rest  : BitVec 5
  deriving DecidableEq, Repr

/-- The place of a core: die 0 to 3, cluster 0 to 15, core 0 to 5 for D0 to D5 and 6 for the L-core (R9). -/
structure CoreId where
  die     : Nat
  cluster : Nat
  core    : Nat
  deriving DecidableEq, Repr

/-- A mailbox request (R51): `bmc` tells the board management controller's path from the host's. -/
structure MboxReq where
  bmc     : Bool
  opcode  : BitVec 16
  payload : List Byte
  deriving DecidableEq, Repr

/-- What a bring-up step found, reported by its completion (R49, R36, R168): step 2 the flash is readable;
step 5 modules that trained on the six boundaries; step 6 channels retired per die and trained capacities
in GB with the lanes trained of each expander port; step 7 lanes trained per fabric port. A module lane or redundant lane
that failed at training is listed by its boundary and module, with how many redundant lanes it took. -/
structure StepFinding where
  boundaries : List Nat
  lanesUsed  : List (Nat × Nat × Nat)
  retired    : List (List Nat)
  lpddrGB    : Nat
  expanderGB : List Nat
  lanes      : List Nat
  ports      : List Nat
  deriving DecidableEq, Repr

/-- A location of a data error (R61). -/
inductive EccPlace where
  | near (pa : Nat) | lpddr (pa : Nat) | expander (pa : Nat)
  | cacheClean (core : CoreId) (line : Nat) | cacheDirty (core : CoreId) (line : Nat)
  | sliceClean (slice line : Nat) | sliceDirty (slice line : Nat)
  | scratch (wg : Nat) (block : Nat)
  | vectorReg (team : Nat) | tileReg (team : Nat) | accReg (team : Nat) | lodge (team : Nat)
  deriving DecidableEq, Repr

/-- A request that another package sends here (R33): an atomic by its function, its type (SIZE + 8 × SGN), operand and compare
value (R197, R379). -/
inductive Access where
  | read (bytes : Nat)
  | write (data : List Byte)
  | atomic (fn ty x cmp : Nat)
  deriving DecidableEq, Repr

/-- A host access or snoop that has arrived (R46, R190). -/
inductive HostReq where
  | read (pa bytes : Nat)
  | write (pa : Nat) (data : List Byte)
  | snoop (line : Nat) (inv : Bool)
  deriving DecidableEq, Repr

/-- A fabric request that has arrived (R32, R33): the source package, the virtual channel, the package physical address, the
access. -/
structure FabReq where
  src  : Nat
  chan : Nat
  pa   : Nat
  acc  : Access
  deriving DecidableEq, Repr

/-- What per-lane error checking identifies at a lasting link error (R38): the module, and its lane; on a fabric port
the lane alone. -/
structure Repair where
  module : Nat
  lane   : Nat
  deriving DecidableEq, Repr

/-- A body that the translation service has built (R139): its words, and its own state-mapping and
correspondence entries, as lists of (portable word index, translated word index). -/
structure TransBody where
  ptbase : Nat
  ako    : Nat
  kindL  : Bool
  digest : List Byte
  words  : List Word
  eq     : List (Nat × Nat)
  corr   : List (Nat × Nat)
  live   : List (Nat × List (Nat × Nat × Nat))
  deriving DecidableEq, Repr

/-- The rows of spec/opcode_table.json. -/
inductive Instr where
  -- a port's retraining (R37)
  | retrainComplete (port : Nat) (lanes : Nat)
  -- the Orangery (R165)
  | orangeryDecay (die pid : Nat)
  -- temperature (R15)
  | tempHigh (die : Nat)
  | islandRaise (island : Nat)
  | thermalTrip (die temp : Nat)
  -- links (R33 to R40)
  | flitCrcFail (link : Nat)
  | flitReplayResult (link : Nat) (intact : Bool) (fix : Repair)
  | modulePauseEnd (link : Nat)
  | portNoPartner (port : Nat)
  | portHoldTimeout (port : Nat)
  | fabricCompletion (id : Nat)
  -- the memories (R48, R61)
  | expanderFail (port : Nat)
  | eccUncorrectable (place : EccPlace)
  | eccRereadResult (intact : Bool)
  -- distributors (R66 to R107)
  | queueMonitorWake (pid q : Nat)
  | takeRecord (die pid q : Nat)
  | descriptorReread (pid q : Nat)
  | dependenceWake (grid : Quad)
  | takeChildRecord (die pid : Nat)
  | launchRetry (team split : Nat)
  | placeWorkgroup (die : Nat) (grid : Quad)
  | restoreWorkgroup (wg : Nat)
  | gridBlocking (die : Nat) (grid : Quad)
  | childRescuePreempt (die : Nat) (grid : Quad)
  | priorityPreempt (die : Nat) (grid : Quad)
  | partitionTurn (die : Nat)
  | gridFailure (grid : Quad)
  | gridRetire (grid : Quad)
  | claimGrant (core : CoreId)
  | migrationServe (die cluster : Nat)
  | migrationComplete (team : Nat)
  | digestCheck (grid : Quad) (kindL : Bool)
  -- traps, faults, waits (R81, R202, R264, R279)
  | preemptDelivery (team : Nat)
  | trapEntry (team split : Nat)
  | faultQueueWrite (team : Nat)
  | faultResume (team : Nat)
  | monitorWake (team split : Nat)
  | fifoServe (wg block : Nat)
  -- memory accesses (R187, R195, R176)
  | homeWrite (team flight run : Nat)
  | loadComplete (team : Nat)
  | storeAck (team : Nat)
  | atomicComplete (team : Nat)
  | gatherComplete (team : Nat)
  | releaseFenceComplete (team split : Nat)
  | walkComplete (core : CoreId) (ptbase va : Nat)
  | reservationTimeout (team split : Nat)
  | fairnessRotate (team : Nat)
  | grottoSpillDone (team split : Nat)
  | grottoReloadDone (team split : Nat)
  | phaseSteal (die channel : Nat)
  -- engines and the matrix unit (R395, R396, R403, R414)
  | copyEngineStart (core : CoreId)
  | copyChunk (team ctx : Nat)
  | copyComplete (team ctx : Nat)
  | drainOperationComplete (team ctx : Nat)
  | matrixStart (team : Nat)
  | matrixComplete (team : Nat)
  -- control, OP 0x00 to 0x04 (R331 to R342)
  | bra (w : OpB)
  | brc (w : OpBRC)
  | bru (w : OpB)
  | call (w : OpB)
  | jmpi (w : OpA)
  | calli (w : OpA)
  | ret (w : OpA)
  | join (w : OpA)
  | yield (w : OpA)
  | exit (w : OpA)
  | nop (w : OpA)
  | eqpt (w : OpA)
  | migrate (w : OpA)
  | launch (w : OpA)
  | waitchild (w : OpA)
  | repeatN (w : OpP)
  -- uniform, OP 0x06 to 0x09 (R344 to R351)
  | smov (w : OpA)
  | sadd (w : OpA)
  | ssub (w : OpA)
  | smul (w : OpA)
  | smad (w : OpA)
  | sand (w : OpA)
  | sor (w : OpA)
  | sxor (w : OpA)
  | sshl (w : OpA)
  | sshr (w : OpA)
  | ssar (w : OpA)
  | smin (w : OpA)
  | smax (w : OpA)
  | scmp (w : OpA)
  | ssel (w : OpA)
  | smovi (w : OpI7)
  | smoviImm30 (w : OpI30)
  | saddi (w : OpI7)
  | saddiImm30 (w : OpI30)
  | gets (w : OpA)
  | sets (w : OpA)
  | vote (w : OpA)
  | red (w : OpA)
  | sldp (w : OpA)
  | qop (w : OpA)
  -- vector integer, OP 0x0A to 0x0C (R356 to R359)
  | iadd (w : OpA)
  | isub (w : OpA)
  | imul (w : OpA)
  | imulh (w : OpA)
  | imad (w : OpA)
  | imin (w : OpA)
  | imax (w : OpA)
  | iabs (w : OpA)
  | vand (w : OpA)
  | vor (w : OpA)
  | vxor (w : OpA)
  | vnot (w : OpA)
  | shl (w : OpA)
  | shr (w : OpA)
  | sar (w : OpA)
  | rot (w : OpA)
  | popc (w : OpA)
  | clz (w : OpA)
  | brev (w : OpA)
  | bfe (w : OpA)
  | bfi (w : OpA)
  | sel (w : OpA)
  | mov (w : OpA)
  | lane (w : OpA)
  | icmp (w : OpA)
  | iaddi (w : OpI7)
  | iaddiImm30 (w : OpI30)
  | movi (w : OpI7)
  | moviImm30 (w : OpI30)
  -- vector floating point, OP 0x0D (R360 to R363)
  | fadd (w : OpA)
  | fsub (w : OpA)
  | fmul (w : OpA)
  | ffma (w : OpA)
  | fmin (w : OpA)
  | fmax (w : OpA)
  | fabs (w : OpA)
  | fcmp (w : OpA)
  | fclass (w : OpA)
  | frnd (w : OpA)
  | cvt (w : OpA)
  | i2f (w : OpA)
  | f2i (w : OpA)
  | rcp (w : OpA)
  | rsq (w : OpA)
  | sqrt (w : OpA)
  | exp2 (w : OpA)
  | log2 (w : OpA)
  | sinpi (w : OpA)
  | cospi (w : OpA)
  -- cross-lane and predicates, OP 0x0E and 0x0F (R364 to R369)
  | shfl (w : OpA)
  | scan (w : OpA)
  | topk (w : OpA)
  | rand (w : OpA)
  | pand (w : OpA)
  | por (w : OpA)
  | pxor (w : OpA)
  | pnot (w : OpA)
  | pmov (w : OpA)
  | pset (w : OpA)
  -- memory, OP 0x10 to 0x12 (R370 to R381)
  | ld (w : OpM)
  | lds (w : OpM)
  | ldb (w : OpM)
  | ldres (w : OpM)
  | pref (w : OpM)
  | probe (w : OpM)
  | ldt (w : OpM)
  | st (w : OpM)
  | sts (w : OpM)
  | stb (w : OpM)
  | stcond (w : OpM)
  | stt (w : OpM)
  | atomAdd (w : OpM)
  | atomMin (w : OpM)
  | atomMax (w : OpM)
  | atomAnd (w : OpM)
  | atomOr (w : OpM)
  | atomXor (w : OpM)
  | atomXchg (w : OpM)
  | atomCas (w : OpM)
  | atomFadd (w : OpM)
  -- synchronisation, OP 0x13 (R382 to R387)
  | fence (w : OpA)
  | waitp (w : OpA)
  | barinit (w : OpA)
  | bararr (w : OpA)
  | barwait (w : OpA)
  | barsync (w : OpA)
  | waitw (w : OpA)
  | qpush (w : OpA)
  | qpop (w : OpA)
  -- layouts and engines, OP 0x14 and 0x15 (R388 to R401)
  | lset (w : OpA)
  | lget (w : OpA)
  | lchain (w : OpA)
  | lpart (w : OpA)
  | ltrans (w : OpA)
  | lflat (w : OpA)
  | lslice (w : OpA)
  | lcheck (w : OpA)
  | hset (w : OpA)
  | hget (w : OpA)
  | copy (w : OpA)
  | tlwait (w : OpA)
  | tlread (w : OpA)
  | bankcfg (w : OpA)
  -- matrix and moment, OP 0x16 and 0x17 (R402 to R420)
  | mma (w : OpA)
  | mma2 (w : OpA)
  | accz (w : OpA)
  | accld (w : OpA)
  | drain (w : OpA)
  | fmtset (w : OpA)
  | fmtget (w : OpA)
  | mset (w : OpA)
  | mcoll (w : OpA)
  | madd (w : OpA)
  | msub (w : OpA)
  | mmul (w : OpA)
  | mfma (w : OpA)
  | mscale (w : OpA)
  | mrelu (w : OpA)
  | msigm (w : OpA)
  | mexp (w : OpA)
  | mmov (w : OpA)
  | mmma (w : OpA)
  | mdrain (w : OpA)
  -- expansion, hash sets, gather, OP 0x18 (R421 to R434)
  | expand (w : OpA)
  | exnext (w : OpA)
  | segred (w : OpA)
  | exdone (w : OpA)
  | exsave (w : OpA)
  | exrstr (w : OpA)
  | hins (w : OpA)
  | hprobe (w : OpA)
  | fetch (w : OpA)
  -- system, OP 0x19 (R435 to R445)
  | trap (w : OpA)
  | tret (w : OpA)
  | tretTo (w : OpA)
  | bkpt (w : OpA)
  | movuser (w : OpA)
  | splitsv (w : OpA)
  | splitld (w : OpA)
  | tsaved (w : OpA)
  | rclaim (w : OpA)
  | rrel (w : OpA)
  | rquery (w : OpA)
  | treshape (w : OpA)
  | leaseclk (w : OpA)
  -- further engine steps (R414, R401)
  | drainChunk (team ctx : Nat)
  | bankcfgChangeComplete (team split : Nat)
  -- steps whose operands wait in a queue of the state
  -- bring-up (R49, R60)
  | powerOn
  | bringupStepTimeout
  | hostLinkRetry
  | bringupStepDone
  -- the management mailbox (R51 to R62): the oldest waiting request
  | state
  | capset
  | pcreate
  | premove
  | preport
  | linkst
  | retrain
  | routewr
  | pkgnum
  | measure
  | fwload
  | errcnt
  | event
  | mailboxUnsupported
  -- component registers (R63, R99, R304): the oldest waiting write
  | qtbaseWrite
  | pctlGo
  | pctlHold
  | registerWrite
  -- the host's accesses and snoops (R46, R190), another package's requests (R33): the oldest waiting one
  | hostMemWrite
  | hostMemRead
  | hostSnoop
  | fabricRequest
  -- the translation service's oldest finished body (R139)
  | translatedBodyInstall
  deriving DecidableEq, Repr

end Sys2Proof
end

