-- ==== Sys2Proof/Machine/State.lean ====
section
/-! DEFINITION. The state of the EXV-5 as plain data: the package, its partitions, memory, launch and scheduling
state, workgroups, teams and splits; and the reasons a step can stop. INVENTORY.md lists every piece with its rule. -/

namespace Sys2Proof.Machine

/-! Links, partitions and the device (chapters 01 to 03). -/

/-- A link (R38, R41, R54). The sub-states of a replay, a module pause and a retraining are R38 and R37. -/
structure Link where
  state     : Nat := 0        -- 0 DOWN, 1 TRAINING, 2 UP, 3 DEGRADED
  active    : Nat := 0
  sparemod  : Nat := 0
  sparelane : Nat := 0
  transient : Nat := 0
  lasting   : Nat := 0
  replay    : Bool := false   -- a flit failed its CRC and its replay is awaited
  paused    : Bool := false   -- a module's traffic pauses after a lane remap
  used      : AMap Nat := []  -- redundant lanes taken in each module
  out       : List Nat := []  -- modules out of service, or retired lanes of a port
  deriving DecidableEq, Repr

/-- A reservation partition or partition 0 (R17, R18, R24, R56, R461). -/
structure Part where
  clusters  : BitVec 64 := 0
  opp       : Nat := 0
  vcs       : List Nat := []
  lease     : Nat := 9
  near      : List Nat := [0, 0, 0, 0]     -- GiB per die
  nearBase  : List Nat := [0, 0, 0, 0]     -- GiB from the die's window
  retry     : BitVec 64 := 0
  deriving DecidableEq, Repr

/-- An event record (R57). -/
structure EventRec where
  type    : Nat
  unit    : Nat
  d1      : Nat
  d2      : Nat
  deriving DecidableEq, Repr

/-- An answered mailbox command (R52): CXL Success or Unsupported, then status and payload. -/
structure MboxResp where
  supported : Bool
  status    : Nat
  payload   : List Byte
  deriving DecidableEq, Repr

/-- An error-counter word (R62). -/
structure ErrWord where
  corrected : Nat := 0
  transient : Nat := 0
  lasting   : Nat := 0
  rowspare  : Nat := 0
  blockret  : Nat := 0
  deriving DecidableEq, Repr

/-- The Orangery of a partition on a die (R164, R165): register fields, counters by (slice, index), pinned lines. -/
structure Orangery where
  ways     : Nat := 0
  thresh   : Nat := 16
  decay    : Nat := 6
  counters : Store 8 := []
  pinned   : List Nat := []
  deriving DecidableEq, Repr

/-- The per-package device state. -/
structure Dev where
  bringup     : Nat := 1
  recovery    : Bool := false
  replica     : Bool := true
  tripped     : Bool := false
  pkgnum      : Nat := 0
  stepping    : BitVec 16 := Config.stepping
  cap         : Nat := 280               -- units of 10 W
  measurement : List Byte := []
  bootCount   : Nat := 0
  flash       : Store 8 := []            -- each byte xor 0xFF
  imageLen    : Option Nat := none       -- the image directory
  responses   : List MboxResp := []
  events      : List EventRec := []
  overrun     : Bool := false
  vectors     : List Nat := []           -- MSI-X vectors signalled
  powerFault  : Bool := false            -- the power-stage fault output (R49)
  errs        : AMap ErrWord := []
  rereads     : List EccPlace := []
  retireBlock : AMap Nat := []           -- cache blocks of each core that wait for the BANKCFG that retires them (R61)
  retired     : AMap Nat := []           -- cache blocks of each core out of service (R61)
  links       : AMap Link := []
  routes      : Store 32 := []           -- each entry xor UNREACH
  opp         : Nat := 0                 -- partition 0's point (R16)
  lowered     : Store 8 := []            -- points an island is lowered by heat (R15)
  channels    : AMap (List Nat) := []    -- retired near-memory channels per die (R168)
  lpddrGB     : Nat := 0
  expanders   : List (Nat × Nat) := []   -- trained expanders: port and GB, ascending port (R48)
  signatures  : Nat := 0                 -- reports signed
  creating    : Option (Nat × List Nat) := none  -- a partition being created and the workgroups it awaits (R26)
  deriving DecidableEq, Repr

/-! Memory (chapters 08 and 09). -/

/-- An L1 line (R158): its core, line address, bytes, lease; core 7 is the cluster's gather unit (R9, R159). The list of
lines is in order of use, latest first. -/
structure L1Line where
  core  : CoreId
  line  : Nat
  data  : List Byte
  lease : Option Nat
  deriving DecidableEq, Repr

/-- A TLB entry of a cluster (R175, R177): the leaf, the page it maps and the lines it was built from. -/
structure TlbEntry where
  die     : Nat
  cluster : Nat
  ptbase  : Nat
  page    : Nat      -- first virtual address of the page
  shift   : Nat      -- page size 2^shift
  leaf    : BitVec 64
  lines   : List Nat
  deriving DecidableEq, Repr

/-- Where a location lives: memory by 57-bit physical address, a workgroup's scratchpad by offset, or its TREG bytes. -/
inductive Loc where
  | mem (pa : Nat) | scr (wg off : Nat) | treg (wg off : Nat)
  deriving DecidableEq, Repr

/-- A reservation (R200): the LDRES that takes it, the granules its site has not yet reserved, those it has, the clock of
each site at the LDRES, and how many instructions have issued since, the LDRES among them (R103). -/
structure Resv where
  flight   : Nat
  pending  : List Loc
  granules : List Loc
  clocks   : List (Nat × Nat)
  count    : Nat
  deriving DecidableEq, Repr

/-- One lane's part of an access: the lane, its register, store data or operand, compare value, value returned. -/
structure LaneAcc where
  lane : Nat
  reg  : Nat
  data : Nat
  cmp  : Nat := 0
  old  : Nat := 0
  live : Bool := true     -- false once the access is lost: no register takes its value
  cut  : Nat := 0         -- bit k: a later write of its register has overtaken word k of the result (R303)
  deriving DecidableEq, Repr

/-- The accesses of one instruction that name one location: performed as one run (R113, R381). -/
structure Run where
  loc   : Loc
  bytes : Nat
  accs  : List LaneAcc
  done  : Bool := false
  strm  : Bool := false                -- not allocated in L1 (R158, R173)
  va    : Nat := 0                     -- the address of its first lane
  route : Word := 0                    -- the route entry at issue, to another package (R34)
  chan  : Nat := 0                     -- its virtual channel (R32)
  wait  : Option (Nat × Nat) := none   -- die and WCT the acknowledgment waits for (R188)
  req   : Option Nat := none           -- fabric request awaiting its completion (R35)
  deriving DecidableEq, Repr

/-- What an access in flight does. -/
inductive FKind where
  | load (size : Nat) | loadRec (r : BitVec 320) | loadU (size : Nat) | loadTile (bytes : Nat)
  | store
  | atomic (fn ty : Nat)
  | stcond (pred : Nat)
  | gather (r : BitVec 320) | fifo
  | hash (ins : Bool) (k q : Nat)      -- a probe of a table of 2^k words, and the register for `full`, 4 for none (R431)
  | segred (op ty : Nat)               -- applied at the bank, counted on no path (R427)
  deriving DecidableEq, Repr

/-- An access in flight (R195). -/
structure Flight where
  id     : Nat
  split  : Nat
  path   : Nat                   -- 0 LD, 1 ST, 2 GA, 3 AT, 4 none
  kind   : FKind
  runs   : List Run
  site   : Bool := false         -- served at its site, never from L1
  stream : Bool := false
  scope  : Nat := 0
  anc    : List Nat := []        -- splits whose earlier flights precede it
  lvl    : Nat := 0              -- the handler level that issued it
  pc     : Nat := 0              -- its instruction's word in the running body, and
  slot   : Nat := 0              -- its slot in the clause (R266)
  resv   : Option Resv := none   -- a STCOND's reservation
  resvs  : Bool := false         -- an LDRES: its site reserves as it performs it (R200)
  since  : List Nat := []        -- the dies' clocks at issue (R166)
  zero   : List (Nat × Nat) := []  -- (lane, register) that return zero (R170)
  deriving DecidableEq, Repr

/-! Traps, splits and teams (chapters 06, 07, 13, 14). -/

/-- The fields of a fault record (R266). -/
structure TrapRec where
  cause  : Nat := 0
  resume : Nat := 0       -- 0 N, 1 I, 2 L, 3 X
  team   : Bool := false
  slot   : Nat := 0
  tpc    : Quad := 0
  tpc2   : Quad := 0
  info   : List Quad := [0, 0, 0, 0]
  lanes  : Mask := 0
  tmask  : Option Quad := none  -- TMASK as SPLITLD loaded it, which does not name the lanes (R441)
  exb    : Quad := 0
  teq    : Quad := 0
  len    : Nat := 0       -- words to pass on a return N: 0 at a header fault (R290) and for a deferred trap (R405)
  arrive : Bool := false  -- a return counts as the arrival of R286
  order  : Nat := 0       -- order of waiting traps (R269)
  deriving DecidableEq, Repr

/-- Why a split is parked (R101). The instruction at its PC executes again when the park ends. -/
inductive Park where
  | waitp (path n : Nat)
  | tlwait (ctx n : Nat)
  | waitw (loc : Loc) (bytes cond val len : Nat) (acq : Option Nat)
  | barrier (loc : Loc) (gen len scope : Nat)
  | claim (n len : Nat)
  | migrate
  | launch
  | waitchild (len : Nat)
  | fault (seq : Nat)
  | faultPending
  | lodge
  | release (scope upTo : Nat)            -- earlier flights are those numbered below upTo
  | acquire (scope upTo : Nat) (one sc : Bool)  -- waits for the flight upTo - 1 alone, or for every earlier load
  | fifo (push : Bool) (block order : Nat) (entries : List Nat) (lanes : Mask) (reg len : Nat) (acq : Option Nat)
  | fuse (len : Nat)
  | gang (len : Nat)
  | walk (vas : List Nat)
  | bankcfg (block target len : Nat)
  | engine (ctx : Nat)
  | exdone
  | exrstr
  | matrixQueue
  | held (va access : Nat)  -- a read of the instruction at its PC is held, until a port is up or the data are read again (R37, R61)
  | again (i : Instr) (read : Option (Nat × Nat))  -- firmware's instruction in its handler waits and executes again: what it reads
  | trap                  -- a trap is recorded and its entry is awaited (R264)
  | stopped               -- held by a team-wide stop
  deriving DecidableEq, Repr

/-- Where a split stands in a clause (R290, R292). -/
structure Clause where
  slot  : Nat
  count : Nat
  cls   : Nat
  intl  : Bool
  tail  : Nat
  deriving DecidableEq, Repr

/-- A target that a split checks when it first issues (R286): its word, its address, the length of the dividing
instruction, and whether that was a CALLI. -/
structure Goal where
  idx  : Option Nat
  addr : Quad
  len  : Nat
  call : Bool
  deriving DecidableEq, Repr

/-- A split (R114), with the model's place in its instruction. -/
structure Split where
  id      : Nat
  parent  : Option Nat := none
  pc      : Nat := 0
  clause  : Option Clause := none
  mask    : Mask := 0
  lnk     : Quad := 0
  fmt     : Quad := 0
  park    : Option Park := none
  pend    : List TrapRec := []
  resv    : Option Resv := none
  goal    : Option Goal := none     -- a target not yet checked (R286)
  rep     : Option OpP := none      -- the prefix that control came through (R306)
  redo    : Option Mask := none     -- lanes left of a serviced access (R275)
  stage   : Nat := 0                -- parts of the instruction already done: 1 its release, 2 its arrival
  intl    : Bool := false           -- the rest of the clause is interlocked (R305)
  image   : Option (BitVec 128 × BitVec 512 × BitVec 512) := none  -- handle and layouts captured at issue (R219)
  bpSkip  : Bool := false           -- an address breakpoint is suppressed for one issue (R288)
  spilled : Bool := false           -- held in the Grotto (R121)
  grotto  : Bool := false           -- waits for a spill or reload of 900 ns
  anc     : List Nat := []          -- splits it was made from, whose accesses precede its own (R183)
  cycle   : Nat := 0                -- earliest core cycle of its next pass by stall counts (R302)
  pipe    : Option Nat := none      -- the pipe that issues its clause whole (R102)
  waited  : Nat := 0                -- core cycles that it has been ready without issuing (R102)
  lvl     : Nat := 0                -- 0 interrupted code, 1 user handler, 2 privileged handler
  ready   : Bool := true            -- was it ready as the step began: which split spills (R121)
  deriving DecidableEq, Repr

/-- A join record (R116, R120). -/
structure Join where
  id      : Nat
  parent  : Option Nat
  addr    : Nat            -- word index
  call    : Bool           -- made by CALLI: a RET to the address arrives
  mask    : Mask           -- as it stood at the BRC
  arrived : Mask
  lnk     : Quad
  fmt     : Quad
  pending : Nat
  next    : Nat            -- word index at which the merged split continues
  anc     : List Nat := [] -- splits that arrived, whose accesses are earlier ones of the merged split
  pend    : List TrapRec := []  -- deferred traps of lanes that wait here, which the merged split takes (R405)
  spilled : Bool := false
  lvl     : Nat := 0
  deriving DecidableEq, Repr

/-- A trap frame (R268, R270): the trapped split, and the Lodge registers v240 to v255 and s56 to s63. -/
structure Frame where
  trap    : TrapRec
  split   : Option Split
  v       : Store 32 := []
  s       : Store 64 := []
  ctr     : Nat := 0         -- the privileged engine context's numbers (R429)
  ctrDone : Nat := 0
  deriving DecidableEq, Repr

/-- The bodies of a kernel (R75, R137). -/
inductive BodyKind where
  | portable | nativeD | nativeL | trans (n : Nat)
  deriving DecidableEq, Repr

/-- The running body: its first word's address and its length in words. -/
structure Body where
  kind : BodyKind
  base : Nat
  len  : Nat
  deriving DecidableEq, Repr

/-- A write that stall counts have not waited out (R302, R303): kind by R77, register, the old value of each lane, and the
cycle of the split from which the new value is certain. -/
structure Hazard where
  split : Nat
  kind  : Nat
  reg   : Nat
  olds  : List (Nat × Nat)
  ready : Nat
  deriving DecidableEq, Repr

/-- The kinds of an engine operation (R394, R414, R429). -/
inductive EngKind where
  | copy | drain (add : Bool) | mdrain (add : Bool) | exsave (addr : Nat) (image : List Byte) (region : Option (Nat × Nat))
  deriving DecidableEq, Repr

/-- An engine operation: the images captured at issue (R219), its progress (R276). -/
structure EngOp where
  num     : Nat
  kind    : EngKind
  split   : Nat
  mask    : Mask
  fmt     : Quad
  dstH    : BitVec 128 := 0
  dstL    : BitVec 512 := 0
  srcH    : BitVec 128 := 0
  srcL    : BitVec 512 := 0
  tile    : Store 32 := []       -- accumulator snapshot
  snapped : Bool := true         -- the snapshot is taken
  started : Bool := false
  pass1   : Bool := false
  expo    : Option Int := none   -- s of R239
  chunk   : Nat := 0
  applied : List Nat := []       -- chunks above the index already applied (R276)
  sexp    : Option Int := none   -- the source's exponent, once its scale word is read (R238)
  scaled  : Bool := false        -- the destination's scale word is written (R239)
  reqs    : List Nat := []       -- fabric requests awaiting their completions (R35)
  tpc     : Quad := 0
  slot    : Nat := 0             -- the slot of its instruction in the clause
  seqNo   : Nat := 0             -- order of issue
  since   : List Nat := []       -- the dies' clocks when it last advanced (R166)
  fault   : Bool := false        -- stopped by a fault
  entry   : Option Nat := none   -- the fault-queue entry that it waits for (R81, R276)
  acks    : List (Nat × Nat) := []  -- dies and WCTs of its writes (R188)
  lines   : List Nat := []       -- lines written (R196)
  dead    : Bool := false        -- ended by COPY_CHUNK_FAULT
  deriving DecidableEq, Repr

/-- An instruction in the matrix queue (R403). -/
structure MatOp where
  fn    : Nat × Nat               -- opcode and function
  split : Nat
  mask  : Mask
  wmask : Mask                    -- writing lanes
  fmt   : Quad
  d     : Nat
  a     : Nat
  b     : Nat
  mod   : Nat
  hA    : BitVec 128 := 0
  lA    : BitVec 512 := 0
  hB    : BitVec 128 := 0
  lB    : BitVec 512 := 0
  tpc   : Quad := 0
  slot  : Nat := 0
  ctx   : Option (Nat × Nat) := none   -- context and number of a memory-form drain
  started : Bool := false
  held    : Bool := false              -- an operand fault of ACCLD is being served
  entry   : Option Nat := none         -- its fault-queue entry
  result  : Store 32 := []             -- the accumulator elements it writes, and their range
  range   : Nat × Nat := (0, 0)
  flags   : Nat := 0
  trap    : Option (Nat × List Nat) := none
  lvl     : Nat := 0                   -- the handler level that issued it
  anc     : List Nat := []             -- splits whose earlier accesses precede it
  seqNo   : Nat := 0                   -- order of issue
  deriving DecidableEq, Repr

/-- The expansion context (R423) and what the device holds of a gang member. -/
structure Expan where
  stat    : Quad := 0
  region  : Quad := 0
  total   : Quad := 0
  batch   : Quad := 0
  arrived : Option (List Nat) := none   -- a gang arrival: region, MOD, starts and lengths
  deriving DecidableEq, Repr

/-- A state-mapping entry (R77). -/
structure MapEntry where
  eq   : Nat
  pcp  : Nat
  pcd  : Nat
  pcl  : Nat
  live : List Word
  deriving DecidableEq, Repr

/-- A state transfer in progress (R143, R144): target, equivalence point, predicate of TRY. -/
structure Xfer where
  dest : CoreId
  slot : Nat
  body : Body
  entry : MapEntry
  pred : Option Nat
  deriving DecidableEq, Repr

/-- A team (R108, R114). -/
structure Team where
  wg      : Nat
  idx     : Nat
  core    : CoreId
  slot    : Nat
  twlog   : Nat
  width   : Nat
  regs    : Nat               -- A
  moms    : Nat               -- M
  accs    : Nat
  v       : Store 32 := []    -- register × 1024 + lane
  p       : Store 1024 := []  -- p1 to p7
  m       : Store 64 := []    -- register × 1024 + lane: mean low, variance high
  s       : Store 64 := []
  q       : BitVec 4 := 0
  ly      : Store 512 := []
  h       : Store 128 := []
  acc     : Store 32 := []    -- tile × 4096 + row × 64 + column
  flags   : Quad := 0
  lstat   : Quad := 0
  wct     : Nat := 0          -- WCTMAX
  acks    : List (Nat × Nat × Nat) := []  -- atomics returned before their acknowledgment: flight, die, WCT (R188, R198)
  prefs   : List Loc := []    -- lines that a PREF has asked for (R377)
  tlc     : List Nat := [0, 0, 0, 0]
  tliss   : List Nat := [0, 0, 0, 0]
  mode    : Quad := 0
  thbase  : Quad := 0
  teq     : Quad := 0
  urec    : TrapRec := {}
  krec    : TrapRec := {}
  uframe  : Option Frame := none
  kframe  : Option Frame := none
  splits  : List Split := []  -- in rotation order, front first
  joins   : List Join := []
  body    : Body
  exp     : Expan := {}
  eng     : List (List EngOp) := [[], [], [], [], []]   -- contexts 0 to 3 and the privileged one
  mat     : List MatOp := []
  flights : List Flight := []
  hazards : List Hazard := []
  fused   : Option Nat := none -- the team this one is fused into: its lanes are there, the rest is kept here (R123)
  rotate  : Bool := false     -- a deferred rotation (R104)
  timer   : Nat := 0          -- the fairness timer (R104), and
  counted : Nat := 0          -- the core cycle up to which it has counted
  preempt : Bool := false     -- PREEMPT requested and not yet taken
  stop    : Bool := false     -- a team-wide trap stops every split
  xfer    : Option Xfer := none  -- migration in progress
  forced  : Bool := false     -- R135 applies to the running body
  children : Nat := 0         -- unretired child grids (R342)
  failed  : Nat := 0          -- failed child grids
  preEntry : Option Nat := none  -- the fault-queue entry that the entry of its PREEMPT waits for (R462)
  willRelease : Bool := false -- it runs, and will release the slabs that a claim of another workgroup waits for (R130)
  ended   : Bool := false
  deriving DecidableEq, Repr

/-- The states of a workgroup (R92). -/
inductive WState where
  | resident | saving | saved | ended | terminated
  deriving DecidableEq, Repr

/-- The states of an SRAM block of a workgroup (R152). -/
inductive BState where
  | scr | fifo | lent
  deriving DecidableEq, Repr

/-- A workgroup (R92, R153). -/
structure Wg where
  grid    : Quad
  lin     : Nat
  pid     : Nat
  st      : WState := .resident
  home    : CoreId
  slot    : Nat
  blocks  : List BState := []
  scr     : Store 8 := []
  fifos   : AMap (List Nat) := []
  treg    : Store 8 := []
  param   : Store 8 := []
  brecs   : List (BitVec 320) := []
  lconsts : List (BitVec 512) := []
  seq     : Nat := 0                 -- order of placement
  since   : Nat := 0                 -- its die's clock at placement (R100)
  worn    : List Nat := []           -- blocks with a lasting error, which a BANKCFG retires (R61)
  saveSeq : Nat := 0                 -- order of saving
  hostSave : Bool := false           -- saved by a host request without HOLD (R93)
  ready   : Bool := true             -- its tables are read (R462)
  deriving DecidableEq, Repr

/-- The states of a grid (R84). -/
inductive GState where
  | taken | waiting | eligible | dispatched | retiring | retired | failing | failed
  deriving DecidableEq, Repr

/-- The parsed header of a kernel object (R75). -/
structure Ako where
  base     : Nat
  stepping : Nat
  len      : Nat
  neq      : Nat
  pOff     : Nat
  pLen     : Nat
  dOff     : Nat
  dLen     : Nat
  lOff     : Nat
  lLen     : Nat
  bitmap   : Nat
  smap     : Nat
  corr     : Nat
  ncorr    : Nat
  brec     : Nat
  nbrec    : Nat
  nlconst  : Nat
  lconst   : Nat
  deriving DecidableEq, Repr

/-- A word of a kernel object's bodies (R80): where it lay when the object was checked, and the words that it has held since and
holds no more, latest first. -/
structure CodeWord where
  pa   : Nat
  olds : List Word := []
  deriving DecidableEq, Repr

/-- A grid (R82, R84). -/
structure Grid where
  gid     : Quad
  owner   : Nat
  pid     : Nat
  ptbase  : Nat
  prio    : Nat
  queue   : Nat
  depth   : Nat
  lrec    : List Quad
  st      : GState
  ako     : Option Ako := none
  code    : AMap CodeWord := []     -- the words of its bodies, by address, since the object was checked (R80)
  next    : Nat := 0
  endedN  : Nat := 0
  again   : List Nat := []          -- indices to place again (R278)
  fail    : Option Quad := none
  ages    : AMap Nat := []          -- order of offer, per die
  parent  : Option (Quad × Nat) := none   -- launching grid and team
  root    : Quad := 0
  wcts    : AMap Nat := []          -- latest WCT of its ended teams, by die, and
  reqs    : List Nat := []          -- fabric requests of theirs: what its completion word waits for (R72, R185)
  asked   : List (Nat × Bool) := []  -- dies and core kinds on which it has been placed (R138)
  digestD : Option Nat := none      -- installed bodies whose digest is found equal for it (R139)
  digestL : Option Nat := none
  blocked : AMap Nat := []          -- the clock of a die when it became blocking there (R100)
  deriving DecidableEq, Repr

/-- A launch-queue descriptor as last read and checked (R68). -/
structure Queue where
  ring   : Nat
  ptbase : Nat
  logn   : Nat
  prio   : Nat
  en     : Bool
  bad    : Bool
  ovfl   : Bool
  written : Bool := false   -- the host has written the descriptor's line since it was last read (R66)
  deriving DecidableEq, Repr

/-- A fault-queue entry being served (R81): its team, the entry's RESUME address, what resumes. -/
structure FaultWait where
  team   : Nat
  split  : Nat
  pid    : Nat
  seq    : Nat
  slotPa : Nat
  cause  : Nat
  grid   : Quad
  lanes  : Mask
  engine : Option Nat := none      -- an engine context (R276)
  wg     : Option (Quad × Nat) := none  -- a killed workgroup: its grid and index (R278)
  deriving DecidableEq, Repr

/-- A fault waiting for a slot of the fault queue (R81): its team (which a killed workgroup has no more), place, and what
its entry names; an engine context, 5 for the matrix queue, or 6 for the entry of PREEMPT (R462). -/
structure FaultReq where
  team   : Nat
  core   : CoreId
  pid    : Nat
  grid   : Quad
  split  : Nat
  va     : Quad
  tpc    : Quad
  cause  : Nat
  access : Nat
  lanes  : Mask
  trap   : TrapRec := {}           -- the privileged record that is written at entry (R264, R267)
  engine : Option Nat := none
  wg     : Option (Quad × Nat) := none
  deriving DecidableEq, Repr

/-- A pre-emption request in progress (R99). -/
structure PReq where
  targets : List Nat
  saved   : Nat
  grids   : List Quad
  deriving DecidableEq, Repr

/-- A core (R95, R102, R288): its claim queue (team, split, n), breakpoint registers, the core cycle of its latest issue, and
the cycles from which its pipes are free. -/
structure Core where
  claims : List (Nat × Nat × Nat) := []
  bps    : List Quad := [0, 0, 0, 0]
  now    : Nat := 0
  pipes  : List Nat := [0, 0]
  deriving DecidableEq, Repr

/-- A migration request (R96): team, L-core target, predicate to write. -/
structure MigReq where
  team   : Nat
  split  : Nat
  toL    : Bool
  pred   : Option Nat
  entry  : MapEntry
  deriving DecidableEq, Repr

/-- An installed translated body (R139): the die whose cache holds it, when it was last used. -/
structure Installed where
  body : TransBody
  die  : Nat
  used : Nat
  deriving DecidableEq, Repr

/-- A child record in a device-side queue (R74, R341): its GRIDID, the launching grid and team. -/
structure ChildRec where
  lrec   : List Quad
  gid    : Quad
  parent : Quad
  team   : Nat
  deriving DecidableEq, Repr

/-- A request to the translation service (R138): its die, and what it is to build for, the grid that gives rise to it; once its build has begun, the digest of
the portable body as it was read then (R139). -/
structure TransReq where
  die    : Nat
  ptbase : Nat
  ako    : Ako
  kindL  : Bool
  gid    : Quad := 0
  regs   : Nat := 256     -- A and M of the grid's teams
  moms   : Nat := 32
  begun  : Bool := false
  digest : List Byte := []
  deriving DecidableEq, Repr

/-- A fabric request of this package that awaits its completion (R32, R35): the access, by team, flight and run (an engine
operation's by team alone), its virtual channel, the destination, and the route entry it was issued under. -/
structure FabOut where
  team   : Nat
  flight : Nat
  run    : Nat
  chan   : Nat
  pkg    : Nat
  route  : Word
  deriving DecidableEq, Repr

/-- What another package receives for a request (R33, R48): data, a refusal, or DATA_ERROR. -/
inductive FabAns where
  | data (l : List Byte) | refused | failed
  deriving DecidableEq, Repr

/-- One choice of the environment or of the schedule (log entry 4). -/
inductive Choice where
  | event (i : Instr)                       -- a device step
  | issue (team split : Nat)                -- issue the split's next instruction (R102)
  | advance (die ns : Nat)                  -- time passes on a die's lease clock
  | hostStore (pa : Nat) (data : List Byte) -- a host store to its own memory
  | mailbox (r : MboxReq)
  | regWrite (offset : Nat) (value : Quad)
  | host (r : HostReq)
  | fabric (r : FabReq)
  | built (b : TransBody)
  | found (f : StepFinding)
  | loadRead (team flight run : Nat)        -- a load's location is read before its completion
  | evict (pa : Nat)                        -- a home slice evicts a line (R45, R187)
  | hostInv (line : Nat) (dirty : Option (List Byte))  -- the host gives up a device line: its answer, with the line if dirty (R190)
  | remoteStore (pa : Nat) (data : List Byte)  -- a store of another package to its own memory
  | refused (team flight run : Nat) (failed : Bool)  -- the destination package refuses an access, or it fails there (R33, R48)
  | refusedOp (team ctx : Nat) (failed : Bool)       -- the same for an engine operation
  | refusedWord (grid : Quad)               -- the same for a grid's completion word (R72)
  | prefDone (team n : Nat)                 -- a PREF's line comes in (R377)
  | corrected (unit : Nat)                  -- a value that its code corrects (R61)
  | refusedMat (team : Nat) (failed : Bool)            -- the same for the operands of the matrix queue's oldest instruction
  | refusedFetch (team split : Nat) (failed : Bool)    -- the same for a split's next fetch
  | willRelease (team : Nat)                -- a running team will release the slabs that a claim waits for (R130)
  | firmware (team : Nat) (i : Instr)       -- an instruction of firmware's privileged handler
  deriving DecidableEq, Repr

/-- The state of the machine. -/
structure State where
  dev      : Dev := {}
  parts    : AMap Part := []
  qtbase   : Store 64 := []
  pctl     : Store 64 := []
  ptarget  : Store 64 := []
  dbgctl   : Store 64 := []
  preqs    : AMap PReq := []
  mem      : Memory := []
  leases   : AMap Nat := []            -- latest expiry granted, by line (R187)
  sliceExp : AMap Nat := []            -- latest expiry of an evicted line, by slice
  hostLines : List Nat := []           -- host lines of 64 bytes held through CXL.cache (R44)
  watched  : List Nat := []            -- those that a distributor's monitor watches (R44, R66)
  hostHeld : List Nat := []            -- device lines of 64 bytes that the host may hold under HDM-DB (R190)
  l1       : List L1Line := []
  tlb      : List TlbEntry := []
  orangery : AMap Orangery := []       -- by die × 16 + partition
  clocks   : List Nat := [0, 0, 0, 0]  -- lease clocks (R187)
  turns    : List Nat := [0, 0, 0, 0]  -- distributor turns (R106)
  queues   : AMap Queue := []          -- by partition × 256 + queue
  dqueues  : AMap (List ChildRec) := []  -- device-side queues by partition × 4 + die
  dcount   : Store 64 := []            -- child records ever queued there (R82)
  blocking : List (Nat × Quad) := []   -- die and grid (R87)
  ageNext  : Nat := 0
  grids    : List Grid := []
  wgs      : AMap Wg := []
  teams    : AMap Team := []
  savedTeams : AMap Team := []         -- teams of saved workgroups
  cores    : AMap Core := []           -- by die × 112 + cluster × 7 + core
  migs     : AMap (List MigReq) := []  -- by die × 16 + cluster
  faultQ   : List FaultWait := []      -- entries whose RESUME is watched
  faultReq : List FaultReq := []       -- faults that wait for a slot
  fseq     : Store 64 := []            -- SEQ, by partition
  transReq : List TransReq := []       -- requests of the translation service, oldest first
  prioPre  : AMap Nat := []            -- workgroup a die's distributor pre-empts for a blocking grid (R100)
  trans    : AMap Installed := []      -- installed translated bodies
  steals   : AMap Nat := []                -- clock of the last borrowed phase, by die × 64 + channel (R166)
  fabReqs  : AMap FabOut := []             -- stores to other packages awaiting completion
  remote   : AMap (Nat × Nat × Nat) := []  -- requests served here awaiting their WCT: die, WCT, channel
  fabDone  : List (Nat × Nat) := []        -- completions returned: request and channel
  fabReads : List (Nat × Nat × FabAns) := []  -- requests of other packages answered: source, channel, answer
  hostReads : List (List Byte × Bool) := [] -- CXL.mem reads answered; true: poison
  hostAcks : List (Nat × Nat × Nat) := []   -- CXL.mem writes whose completion waits: number, die, WCT
  hostDone : List Nat := []                 -- CXL.mem writes completed (R46)
  reqMbox  : List MboxReq := []
  reqRegs  : List (Nat × Quad) := []
  reqHost  : List HostReq := []
  reqFab   : List FabReq := []
  hostArr  : List (List Nat) := []     -- the dies' clocks as each of the host's accesses arrived (R166), and
  fabArr   : List (List Nat) := []     -- each request of another package
  reqTrans : List TransBody := []
  findings : List StepFinding := []
  agenda   : List Choice := []
  cur      : Option (Nat × Nat) := none
  fresh    : Nat := 0
  nextId   : Nat := 1
  deriving DecidableEq, Repr

/-- The machine right after power-on (R4, R49, R53): bring-up step 1, replica mode, the cap 2,800 W, no partition,
no team; what the spec gives no reset value for is 0 or empty (log entries 1, 2). -/
def State.reset : State := {}

/-- Why the machine stops. Each is a stop of a run whose agenda asks for what cannot happen. -/
inductive Fault where
  /-- Raised by a device step that the state does not allow at this moment (the event cannot occur now), and by an
  issue of a split that is not ready. Safe: the run ends where the hardware would take another step. -/
  | notEnabled
  /-- Raised by an instruction row executed while no split is issuing. Safe: no hardware step corresponds. -/
  | noSplit
  deriving DecidableEq, Repr

/-- Why an instruction has no meaning. -/
inductive Refusal where
  /-- Raised by Dispatch for an instruction not modelled, by its mnemonic. Safe: the run ends. -/
  | notModelled (mnemonic : String)
  deriving DecidableEq, Repr

/-- The outcome of a step. -/
abbrev Out := Host.Outcome State Fault Refusal

end Sys2Proof.Machine
end

