-- ==== Sys2Proof/Machine/Mem.lean ====
section
/-! DEFINITION. Memory: the physical map (R151, R168), home slices (R160, R161), windows (R147, R148), Translate
(R173, R174, R177), L1 with its leases (R158, R187), and reads and writes at a location. -/

namespace Sys2Proof.Machine

def GB : Nat := 1000000000
def GiB : Nat := 1073741824

/-- Is a location in memory, reached through a physical address? -/
def Loc.isMem : Loc → Bool
  | .mem _ => true
  | .scr _ _ | .treg _ _ => false

/-- The number of a core: die × 112 + cluster × 7 + core. -/
def coreKey (c : CoreId) : Nat := c.die * 112 + c.cluster * 7 + c.core
/-- The number under which a core's, or a gather unit's, blocks out of service are counted (R61). -/
def retireKey (c : CoreId) : Nat := if c.core == 7 then 448 + c.die * 16 + c.cluster else coreKey c
/-- The package-wide number of a core's cluster (R8). -/
def clusterOf (c : CoreId) : Nat := c.die * 16 + c.cluster
/-- Is it an L-core (R9)? -/
def isL (c : CoreId) : Bool := c.core == 6
/-- The core of a key. -/
def keyCore (k : Nat) : CoreId := ⟨k / 112, k % 112 / 7, k % 7⟩

/-- The partition that holds a cluster; 0 when no reservation partition does (R17). -/
def partOf (s : State) (cluster : Nat) : Nat :=
  match s.parts.find? fun e => e.1 != 0 && e.2.clusters.getLsbD cluster with
  | some e => e.1
  | none => 0

/-- Clusters of a partition (R17, R18). -/
def clustersOf (s : State) (pid : Nat) : List Nat := (List.range 64).filter fun c => partOf s c == pid

/-- The clock of a die (R187). -/
def clockOf (s : State) (die : Nat) : Nat := atD s.clocks die 0

/-! The physical map. -/

/-- Near-memory channels in service on a die (R168). -/
def channelsOf (s : State) (die : Nat) : Nat := 64 - ((s.dev.channels.at? die).getD []).length
/-- Mapped near-memory bytes of a die: 1.5 GB per channel in service (R151, R168). -/
def nearSize (s : State) (die : Nat) : Nat := channelsOf s die * 1500000000
/-- Mapped far-memory bytes: LPDDR, then each trained expander (R48). -/
def farSize (s : State) : Nat := s.dev.lpddrGB * GB + (s.dev.expanders.map (·.2 * GB)).foldl (· + ·) 0

/-- The space of a package physical address of this package (R151). -/
inductive Space where
  | near (die : Nat) | far | host | unmapped
  deriving DecidableEq, Repr

/-- The space of a 48-bit package physical address, here. -/
def spaceOf (s : State) (pa : Nat) : Space :=
  if pa < 0x0080_0000_0000 then
    let d := pa / 0x0020_0000_0000
    if pa % 0x0020_0000_0000 < nearSize s d then .near d else .unmapped
  else if 0x1000_0000_0000 ≤ pa && pa < 0x2000_0000_0000 then
    if pa - 0x1000_0000_0000 < farSize s then .far else .unmapped
  else if 0x8000_0000_0000 ≤ pa then .host
  else .unmapped

/-- The package number of a 57-bit physical address (R151). -/
def pkgOf (pa : Nat) : Nat := pa >>> 48
/-- The package physical address. -/
def localOf (pa : Nat) : Nat := pa % 2 ^ 48
/-- Is the address in this package (R151)? -/
def isLocal (s : State) (pa : Nat) : Bool := pkgOf pa == s.dev.pkgnum
/-- Where memory keeps a byte: this package's bytes by package physical address, other packages' above them. -/
def memKey (s : State) (pa : Nat) : Nat :=
  if isLocal s pa then localOf pa else (pkgOf pa + 1) * 2 ^ 48 + localOf pa

/-- The space a remote address names, by the ranges of R151 (capacities are the other package's own). -/
def remoteMemory (pa : Nat) : Bool :=
  let l := localOf pa
  (l < 0x0080_0000_0000 && l % 0x0020_0000_0000 < 96 * GB) ||
  (0x1000_0000_0000 ≤ l && l < 0x1000_0000_0000 + 16384 * GB)

/-- The far-memory expander an address lies on, if any (R48). -/
def expanderOf (s : State) (pa : Nat) : Option Nat :=
  let o := localOf pa - 0x1000_0000_0000
  let rec go : List (Nat × Nat) → Nat → Option Nat
    | [], _ => none
    | (p, g) :: r, base => if base ≤ o && o < base + g * GB then some p else go r (base + g * GB)
  if spaceOf s (localOf pa) == .far then go s.dev.expanders (s.dev.lpddrGB * GB) else none

/-- The partition whose reservation range holds a near-memory address, if any (R18, R461). -/
def rangeOwner (s : State) (die off : Nat) : Option Nat :=
  (s.parts.find? fun e =>
    let b := atD e.2.nearBase die 0 * GiB
    e.1 != 0 && atD e.2.near die 0 != 0 && b ≤ off && off < b + atD e.2.near die 0 * GiB).map (·.1)

/-- A partition's L2 slices on a die: 3c, 3c + 1, 3c + 2 of each cluster c it holds there (R18). -/
def slicesOf (s : State) (pid die : Nat) : List Nat :=
  ((List.range 16).filter fun c => partOf s (die * 16 + c) == pid).flatMap fun c =>
    [die * 48 + 3 * c, die * 48 + 3 * c + 1, die * 48 + 3 * c + 2]

/-- Partition 0's slices on all dies. -/
def slices0 (s : State) : List Nat := (List.range 4).flatMap (slicesOf s 0)

/-- HomeSet (R160). -/
def homeSet (s : State) (pa : Nat) : List Nat :=
  match spaceOf s pa with
  | .near d =>
    match rangeOwner s d (pa % 0x0020_0000_0000) with
    | some p => slicesOf s p d
    | none => if (slicesOf s 0 d).isEmpty then slices0 s else slicesOf s 0 d
  | _ => slices0 s

/-- HomeSlice (R160): none where the home is a controller (R161). -/
def homeSlice (s : State) (pa : Nat) : Option Nat :=
  let b := pa >>> 14
  let h := (b % 4096) ^^^ ((b >>> 12) % 4096) ^^^ ((b >>> 24) % 1024)
  match homeSet s pa with
  | [] => none
  | l => l[h % l.length]?

/-- The die of a location's home: none for a controller on the IOD or another package. -/
def homeDie (s : State) (pa : Nat) : Option Nat :=
  if isLocal s pa then
    match homeSlice s (localOf pa) with
    | some n => some (n / 48)
    | none => (match spaceOf s (localOf pa) with | .near d => some d | _ => none)
  else none

/-- The row of the atomic-site table of a physical address (R197, R380). -/
def siteRow (s : State) (core : CoreId) (pa : Nat) : Nat :=
  if !isLocal s pa then 6
  else match spaceOf s (localOf pa) with
    | .near d => if d == core.die then 2 else 3
    | .far => 4
    | .host => 5
    | .unmapped => 2

/-! Routes (R34) and virtual channels (R23, R32). -/

/-- The route-table entry of a package (R55). -/
def routeOf (s : State) (pkg : Nat) : Word := s.dev.routes.get pkg ^^^ 0x80000000#32

/-- A link by selector (R54). -/
def linkOf (s : State) (sel : Nat) : Link := (s.dev.links.at? sel).getD {}

/-- Is an expander that does not respond behind an address of this package (R48)? -/
def expanderDown (s : State) (pa : Nat) : Bool :=
  isLocal s pa && (match expanderOf s (localOf pa) with | some p => (linkOf s (64 + p)).state == 0 | none => false)

/-- Is a fabric port able to carry traffic? -/
def portUp (s : State) (p : Nat) : Bool := p < 36 && (linkOf s (16 + p)).state == 2

/-- Does a route entry carry traffic now: one of its two ports is up (R34, R37)? -/
def entryCarries (s : State) (e : Word) : Bool :=
  !e.getLsbD 31 && (portUp s (bits e 21 16) || portUp s (bits e 29 24))
/-- The same for a package's entry as it now stands. -/
def routeCarries (s : State) (pkg : Nat) : Bool := entryCarries s (routeOf s pkg)

/-- Can accesses of a route entry still arrive: one of its two ports is up, or held in retraining (R34, R37)? -/
def entryOk (s : State) (e : Word) : Bool :=
  let up := fun p => portUp s p || (p < 36 && (linkOf s (16 + p)).state == 1)
  !e.getLsbD 31 && (up (bits e 21 16) || up (bits e 29 24))
/-- Is a package reachable (R34, R37)? -/
def routeOk (s : State) (pkg : Nat) : Bool := entryOk s (routeOf s pkg)

/-- The virtual channels a partition uses; partition 0 uses every assignable one no other holds (R23). -/
def vcsOf (s : State) (pid : Nat) : List Nat :=
  if pid == 0 then
    (List.range 15).filter fun v => !(s.parts.any fun e => e.1 != 0 && e.2.vcs.contains v)
  else ((s.parts.at? pid).map (·.vcs)).getD []

/-- The virtual channel of a partition's access to a package: the (p mod k)-th of its k, ascending (R32). -/
def chanOf (s : State) (pid pkg : Nat) : Nat :=
  let l := sortAsc (vcsOf s pid)
  atD l (pkg % Nat.max 1 l.length) 0

/-! Memory at its sites. -/

/-- Bytes at a physical address. -/
def State.rdMem (s : State) (pa n : Nat) : List Byte := s.mem.read (memKey s pa) n
/-- A little-endian number at a physical address. -/
def State.rdMemN (s : State) (pa n : Nat) : Nat := leNat (s.rdMem pa n)

/-- The line of an address (R158). -/
def lineOf (a : Nat) : Nat := a / 128 * 128

/-- Does an address of a line lie among the lines of n bytes? -/
def lineAmong (line pa n : Nat) : Bool := lineOf pa ≤ line && line ≤ lineOf (pa + n - 1)

/-- A store to a line removes every translation built from it (R177). -/
def dropTlb (s : State) (pa n : Nat) : State :=
  { s with tlb := s.tlb.filter fun e => !(e.lines.any fun l => lineAmong l pa n) }

/-- The bytes of a list with some of them replaced. -/
def patch (l : List Byte) (off : Nat) (bs : List Byte) : List Byte :=
  l.take off ++ bs ++ l.drop (off + bs.length)

/-- A write at its home: memory changes and translations built from the line go (R160, R177). -/
def State.wrMem (s : State) (pa : Nat) (bs : List Byte) : State :=
  let s := { s with mem := s.mem.write (memKey s pa) bs }
  if bs.isEmpty then s else dropTlb s pa bs.length

/-- Host physical memory as this package's address (R151). -/
def hostPa (s : State) (hpa : Nat) : Nat := s.dev.pkgnum * 2 ^ 48 + 0x8000_0000_0000 + hpa

/-- The host's line of an address: 64 bytes (R64). -/
def hostLine (a : Nat) : Nat := a / 64 * 64
/-- The host lines of n bytes. -/
def hostLinesOf (a n : Nat) : List Nat := (List.range ((a + n - 1) / 64 + 1 - a / 64)).map fun i => (a / 64 + i) * 64
/-- The device takes host lines through CXL.cache (R44, R190). -/
def State.holdHost (s : State) (pa n : Nat) : State :=
  { s with hostLines := (hostLinesOf pa n).filter (fun l => !s.hostLines.contains l) ++ s.hostLines }
/-- The device takes those of some locations that are host memory (R44). -/
def State.holdLocs (s : State) (l : List (Loc × Nat)) : State :=
  l.foldl (fun s e => match e.1 with
    | .mem pa => if isLocal s pa && spaceOf s (localOf pa) == .host then s.holdHost pa e.2 else s
    | _ => s) s

/-- A distributor's monitor watches a host line, which the device holds (R44, R66). -/
def State.watchHost (s : State) (pa n : Nat) : State :=
  { s.holdHost pa n with watched := (hostLinesOf pa n).filter (fun l => !s.watched.contains l) ++ s.watched }
/-- Host lines leave the device: on a snoop, or evicted (R45, R190). -/
def State.loseHost (s : State) (gone : List Nat) : State :=
  { s with hostLines := s.hostLines.filter (fun l => !gone.contains l),
           watched := s.watched.filter fun l => !gone.contains l }
/-- May the host hold a line of n bytes of device memory, so that the home must first back-invalidate it (R190)? -/
def hostMayHold (s : State) (pa n : Nat) : Bool := (hostLinesOf pa n).any s.hostHeld.contains

/-! Windows. -/

/-- Sign-extended 57-bit form (R147). -/
def vaOk (va : Nat) : Bool :=
  let h := va / 2 ^ 56
  h == 0 || h == 0xFF
def inWindow (va : Nat) : Bool := va / 2 ^ 40 == 0xFFFFFE

/-- The blocks that back a workgroup's scratchpad offset (R148, R155). -/
def scrReach (w : Wg) (off : Nat) : Bool :=
  match w.blocks[off / 32768]? with
  | some .scr => true
  | _ => false

/-- Does a workgroup hold its core (R148)? -/
def Wg.live (w : Wg) : Bool := w.st == .resident || w.st == .saving

/-- The location a window address reaches for a team of workgroup `wg` running on `core`, or none: PROTECTION
(R147, R148). -/
def windowLoc (s : State) (core : CoreId) (wg va : Nat) : Option Loc :=
  let off := va % 2 ^ 20
  match nbits va 39 36 with
  | 0 =>
    if nbits va 35 20 != 0 then none
    else match s.wgs.at? wg with
      | some w => if scrReach w off then some (.scr wg off) else none
      | none => none
  | 1 =>
    let c := nbits va 34 32
    let target : CoreId := { core with core := c }
    if nbits va 35 35 != 0 || nbits va 31 26 != 0 || c == 7 then none
    else if c == 6 && core.cluster == 15 then none
    else match s.wgs.find? fun e => e.2.live && e.2.home == target && e.2.slot == nbits va 25 20 with
      | some (k, w) =>
        if (s.wgs.at? wg).map (·.pid) == some w.pid && scrReach w off then some (.scr k off) else none
      | none => none
  | _ => none

/-! Translate (R173, R174). -/

/-- The kinds of access: 0 read, 1 write, 2 atomic, 3 fetch. -/
def permOk (leaf : BitVec 64) (access : Nat) : Bool :=
  match access with
  | 0 => leaf.getLsbD 2
  | 1 => leaf.getLsbD 3
  | 2 => leaf.getLsbD 2 && leaf.getLsbD 3
  | _ => leaf.getLsbD 4

/-- What a walk finds: the leaf, log2 of its page size, the lines read. -/
structure Walk where
  leaf  : BitVec 64
  shift : Nat
  lines : List Nat
  deriving DecidableEq, Repr

/-- log2 of the bytes one entry of a level maps (R173). -/
def levelShift : Nat → Nat
  | 4 => 39 | 3 => 30 | 2 => 21 | _ => 16
/-- The index of an address at a level (R173). -/
def levelIndex (va level : Nat) : Nat :=
  match level with
  | 4 => nbits va 56 39 | 3 => nbits va 38 30 | 2 => nbits va 29 21 | _ => nbits va 20 16

/-- Is an entry malformed at its level (R173, R174)? -/
def pteBad (pte : BitVec 64) (level : Nat) : Bool :=
  let leaf := pte.getLsbD 1
  let addr := bits pte 56 8 * 256
  let al := if leaf then 2 ^ levelShift level else if level == 2 then 256 else 4096
  bits pte 7 6 != 0 || bits pte 63 57 != 0 || addr % al != 0 ||
  (level == 4 && leaf) || (level == 1 && !leaf) || (!leaf && bits pte 56 48 != 0)

/-- The walk below a level: PAGE_FAULT 0x10 or PROTECTION 0x11. -/
def walkFrom (s : State) (va : Nat) : Nat → Nat → List Nat → Except Nat Walk
  | 0, _, _ => .error 0x11
  | n + 1, t, lines =>
    let level := n + 1
    let a := t + 8 * levelIndex va level
    let pte := BitVec.ofNat 64 (s.rdMemN (s.dev.pkgnum * 2 ^ 48 + a) 8)
    let lines := lineOf (s.dev.pkgnum * 2 ^ 48 + a) :: lines
    if !pte.getLsbD 0 then .error 0x10
    else if pteBad pte level then .error 0x11
    else if pte.getLsbD 1 then .ok { leaf := pte, shift := levelShift level, lines := lines }
    else walkFrom s va n (bits pte 56 8 * 256) lines

/-- The walk from a page-table base (R173). -/
def walk (s : State) (ptbase va : Nat) : Except Nat Walk :=
  walkFrom s va 4 (0x8000_0000_0000 + ptbase) []

/-- The TLB entry that maps an address (R175). -/
def tlbFind (s : State) (core : CoreId) (ptbase va : Nat) : Option TlbEntry :=
  s.tlb.find? fun e => e.die == core.die && e.cluster == core.cluster && e.ptbase == ptbase &&
    e.page == va % 2 ^ 57 / 2 ^ e.shift * 2 ^ e.shift

/-- Fill the cluster's TLB; the oldest of its 8,192 entries goes (R175, log entry 36). -/
def tlbFill (s : State) (core : CoreId) (ptbase va : Nat) (w : Walk) : State :=
  let e : TlbEntry := { die := core.die, cluster := core.cluster, ptbase := ptbase,
                        page := va % 2 ^ 57 / 2 ^ w.shift * 2 ^ w.shift, shift := w.shift,
                        leaf := w.leaf, lines := w.lines }
  let s := w.lines.foldl (fun s l => if spaceOf s (localOf l) == .host then s.holdHost l 128 else s) s
  let own := fun x : TlbEntry => x.die == core.die && x.cluster == core.cluster
  { s with tlb := e :: ((s.tlb.filter own).take 8191 ++ s.tlb.filter fun x => !own x) }

/-- What Translate yields: a location, and whether the page streams (R173). -/
structure Tran where
  loc  : Loc
  strm : Bool
  deriving DecidableEq, Repr

/-- A fault of Translate: its cause, and whether the fault queue serves it (R174, R275). -/
structure TFault where
  cause  : Nat
  served : Bool
  deriving DecidableEq, Repr

/-- The checks of a physical address (R151, R168, R34, R23). -/
def paOk (s : State) (pid pa : Nat) : Bool :=
  if isLocal s pa then spaceOf s (localOf pa) != .unmapped
  else remoteMemory pa && routeOk s (pkgOf pa) && !(vcsOf s pid).isEmpty

/-- The leaf under which an address is translated: from the TLB, else by a walk. -/
def leafOf (s : State) (core : CoreId) (ptbase va : Nat) : Except Nat (BitVec 64 × Nat) :=
  match tlbFind s core ptbase va with
  | some e => .ok (e.leaf, e.shift)
  | none =>
    match walk s ptbase va with
    | .ok w => .ok (w.leaf, w.shift)
    | .error c => .error c

/-- Translate (R174) for a team of a workgroup on a core. -/
def translate (s : State) (core : CoreId) (pid wg ptbase va access : Nat) : Except TFault Tran :=
  if !vaOk va then .error ⟨0x11, false⟩
  else if inWindow va then
    match windowLoc s core wg va with
    | some l => .ok ⟨l, false⟩
    | none => .error ⟨0x11, false⟩
  else match leafOf s core ptbase va with
    | .error c => .error ⟨c, true⟩
    | .ok (leaf, sh) =>
      let pa := bits leaf 56 8 * 256 + va % 2 ^ sh
      if !permOk leaf access then .error ⟨0x11, true⟩
      else if !paOk s pid pa then .error ⟨0x11, true⟩
      else .ok ⟨.mem pa, leaf.getLsbD 5⟩

/-- Translate for the device itself, which has no window and no TLB (R70, R71, R462): a cause, or a physical address. Cause 0 is
an access held until a port of its route is up again (R37). A place behind a DOWN expander is read and written as if the expander
answered (R48 speaks of teams, log entry 64). -/
def devTranslate (s : State) (pid ptbase va access : Nat) : Except Nat Nat :=
  if !vaOk va || inWindow va then .error 0x11
  else match walk s ptbase va with
    | .error c => .error c
    | .ok w =>
      let pa := bits w.leaf 56 8 * 256 + va % 2 ^ w.shift
      if !(permOk w.leaf access && paOk s pid pa) then .error 0x11
      else if !isLocal s pa && !routeCarries s (pkgOf pa) then .error 0 else .ok pa

/-- Bytes the device reads at a virtual address, within one 64 KiB page. -/
def devRead (s : State) (pid ptbase va n : Nat) : Except Nat Nat :=
  match devTranslate s pid ptbase va 0 with
  | .ok pa => .ok (s.rdMemN pa n)
  | .error c => .error c

/-- Fill the TLB for an address that translates by a walk. -/
def touchTlb (s : State) (core : CoreId) (ptbase va : Nat) : State :=
  match tlbFind s core ptbase va with
  | some _ => s
  | none => match walk s ptbase va with | .ok w => tlbFill s core ptbase va w | .error _ => s

/-! L1 (R158, R159). -/

/-- SRAM blocks of a core that are not L1 ways: SCR and FIFO blocks of its resident workgroups (R152). -/
def usedBlocks (s : State) (core : CoreId) : Nat :=
  (s.wgs.vals.filter fun w => w.live && w.home == core).foldl
    (fun n w => n + (w.blocks.filter (· != .lent)).length) 0
/-- L1 ways of a core: blocks in CACHE or LENT that are in service (R152, R61); the gather unit's 4 MiB as 128 ways (R9,
R159, log entry 35). -/
def l1Ways (s : State) (core : CoreId) : Nat :=
  if core.core == 7 then 128 - (s.dev.retired.at? (retireKey core)).getD 0
  else (if isL core then 32 else 48) - usedBlocks s core - (s.dev.retired.at? (retireKey core)).getD 0

/-- A valid L1 copy of a line: a leased one until the die's clock passes the lease (R158, R187). -/
def l1Find (s : State) (core : CoreId) (line : Nat) : Option L1Line :=
  s.l1.find? fun l => l.core == core && l.line == line &&
    (match l.lease with | some e => clockOf s core.die ≤ e | none => true)

/-- Put a line first in the order of use; the least recently used of a full set goes. -/
def l1Put (s : State) (l : L1Line) : State :=
  let rest := s.l1.filter fun x => !(x.core == l.core && x.line == l.line)
  let same := fun x : L1Line => x.core == l.core && nbits x.line 14 7 == nbits l.line 14 7
  let ways := l1Ways s l.core
  let n := (rest.filter same).length
  let rest := if n < ways then rest else
    match (rest.reverse.find? same) with
    | some v => rest.filter fun x => !(x.core == v.core && x.line == v.line)
    | none => rest
  if ways == 0 then { s with l1 := rest } else { s with l1 := l :: rest }

/-- The gather unit of a core's cluster, which holds lines as core 7 (R9, R159). -/
def gatherOf (core : CoreId) : CoreId := { core with core := 7 }
/-- Does a line stand in a core's L1 or its cluster's gather unit? -/
def L1Line.near (l : L1Line) (core : CoreId) : Bool := l.core == core || l.core == gatherOf core

/-- Invalidate lines of a core's L1, and the gather unit's copies of them. -/
def l1Drop (s : State) (core : CoreId) (f : L1Line → Bool) : State :=
  { s with l1 := s.l1.filter fun l => !(l.near core && f l) }

/-- Copies of a line near a core take what a read at the site returns, so that its loads never go backwards (R183). -/
def freshen (s : State) (core : CoreId) (line : Nat) (data : List Byte) : State :=
  { s with l1 := s.l1.map fun x => if x.near core && x.line == line then { x with data := data } else x }
/-- So do those of the lines of some locations that were read at their site. -/
def State.seeLocs (s : State) (core : CoreId) (l : List (Loc × Nat)) : State :=
  let seen := fun (x : L1Line) (e : Loc × Nat) => match e.1 with
    | .mem pa => decide (pa < x.line + 128) && decide (x.line < pa + e.2)
    | _ => false
  { s with l1 := s.l1.map fun x => if x.near core && l.any (seen x) then { x with data := s.rdMem x.line 128 } else x }

/-- The lease length of a partition (R17, R24). -/
def leaseOf (s : State) (pid : Nat) : Nat := if pid == 0 then 9 else ((s.parts.at? pid).map (·.lease)).getD 9

/-- The latest expiry the home knows for a line (R187). -/
def expiryOf (s : State) (line : Nat) : Nat :=
  match s.leases.at? line with
  | some e => e
  | none => (s.sliceExp.at? ((homeSlice s (localOf line)).getD 192)).getD 0

/-- WCT (R187): the later of the line's latest expiry and the clock of its die. -/
def wctOf (s : State) (die line : Nat) : Nat := Nat.max (expiryOf s line) (clockOf s die)

/-- May a line of this package enter L1 (R158): memory with a home slice, not host memory? -/
def l1Able (s : State) (pa : Nat) : Bool :=
  isLocal s pa && spaceOf s (localOf pa) != .host && (homeSlice s (localOf pa)).isSome

/-- Read a location for a core (R158, R183, R187): scratchpad at its bank; memory at its site or through L1. -/
def readLoc (s : State) (core : CoreId) (pid : Nat) (loc : Loc) (n : Nat) (atSite stream : Bool) :
    List Byte × State :=
  match loc with
  | .scr wg off => (((s.wgs.at? wg).map fun w => w.scr.read off n).getD (List.replicate n 0), s)
  | .treg wg off => (((s.wgs.at? wg).map fun w => w.treg.read off n).getD (List.replicate n 0), s)
  | .mem pa =>
    let line := lineOf pa
    if !l1Able s pa then
      (s.rdMem pa n, if isLocal s pa && spaceOf s (localOf pa) == .host then s.holdHost pa n else s)
    else
      let home := homeDie s pa
      match (if atSite then none else l1Find s core line) with
      | some l => ((l.data.drop (pa - line)).take n, l1Put s l)
      | none =>
        let data := s.rdMem line 128
        let bytes := (data.drop (pa - line)).take n
        let s := freshen s core line data
        if stream || atSite then (bytes, s)
        else if home == some core.die then
          let e := clockOf s core.die + 2 ^ leaseOf s pid
          let s := { s with leases := s.leases.insert line (Nat.max e (expiryOf s line)) }
          (bytes, l1Put s { core := core, line := line, data := data, lease := some e })
        else (bytes, l1Put s { core := core, line := line, data := data, lease := none })

/-- A reservation without the granules that pass a test: none once it holds and awaits no granule. -/
def Resv.without (r : Resv) (hit : Loc → Bool) : Option Resv :=
  let gs := r.granules.filter fun g => !hit g
  if gs.isEmpty && r.pending.isEmpty then none else some { r with granules := gs }

/-- The reservations that a write to a location clears (R200): every split's and every STCOND's in flight, but for
the holder of a STCOND itself. -/
def clearGranule (s : State) (loc : Loc) (n : Nat) : State :=
  let hit : Loc → Bool := fun g =>
    match g, loc with
    | .mem a, .mem b => lineAmong a b n
    | .scr w a, .scr w' b => w == w' && lineAmong a b n
    | _, _ => false
  let cut : Option Resv → Option Resv := fun r => r.bind fun r => r.without hit
  let touched : Team → Bool := fun t =>
    t.splits.any (fun p => match p.resv with | some r => r.granules.any hit | none => false) ||
    t.flights.any (fun f => match f.resv with | some r => r.granules.any hit | none => false)
  { s with teams := s.teams.map fun e =>
      if touched e.2 then
        (e.1, { e.2 with splits := e.2.splits.map (fun p => { p with resv := cut p.resv }),
                         flights := e.2.flights.map (fun f => { f with resv := cut f.resv }) })
      else e }

/-- Perform a write at a location's site (R159, R160, R183): the bytes change, the writer's L1 copy of the line is
updated in place, translations and reservations over it go. -/
def writeLoc (s : State) (core : Option CoreId) (loc : Loc) (bs : List Byte) : State :=
  let s := clearGranule s loc bs.length
  match loc with
  | .scr wg off => { s with wgs := s.wgs.modify wg fun w => { w with scr := w.scr.write off bs } }
  | .treg wg off => { s with wgs := s.wgs.modify wg fun w => { w with treg := w.treg.write off bs } }
  | .mem pa =>
    let s := s.wrMem pa bs
    match core with
    | none => s
    | some c =>
      { s with l1 := s.l1.map fun l =>
          if l.near c && l.line == lineOf pa then { l with data := patch l.data (pa - l.line) bs } else l }

/-! The Orangery (R164, R165). -/

/-- The set of a line in its home slice. -/
def pinSet (s : State) (line : Nat) : Nat × Nat := ((homeSlice s (localOf line)).getD 192, Config.l2Set line)

/-- Pinned lines that the pinned ways of each set hold, the first pinned before the others. -/
def keepPinned (s : State) (ways : Nat) (l : List Nat) : List Nat :=
  l.foldl (fun acc x => if (acc.filter fun y => pinSet s y == pinSet s x).length < ways then acc ++ [x] else acc) []

/-- The key of a slice's counter for a line (R165). -/
def counterKey (slice line : Nat) : Nat := slice * 1024 + nbits line 16 7

/-- Pin a line: into a free pinned way of its set, or in the place of the pinned line of the set with the lowest counter,
if that counter is lower or the class is 3 (R165). -/
def pinLine (s : State) (o : Orangery) (slice line : Nat) (always : Bool) : Orangery :=
  if o.pinned.contains line then o
  else
    let same := o.pinned.filter fun x => pinSet s x == pinSet s line
    let cnt := fun x => (o.counters.get (counterKey slice x)).toNat
    if same.length < o.ways then { o with pinned := o.pinned ++ [line] }
    else match same.foldl (fun (m : Option Nat) x => match m with
        | some y => if cnt x < cnt y then some x else some y | none => some x) none with
      | some v => if always || cnt v < cnt line then
          { o with pinned := (o.pinned.filter (· != v)) ++ [line] } else o
      | none => o

/-- What a FETCH request of a reuse class does at its home slice (R165). The counters are those of the die's partition: a cluster that
changes partition meets the other partition's (log entry 69). -/
def reuseRequest (s : State) (reuse pa : Nat) : State :=
  if reuse < 2 then s
  else match homeSlice s (localOf pa) with
    | none => s
    | some k =>
      let key := k / 48 * 16 + partOf s (k / 48 * 16 + k % 48 / 3)
      let o := (s.orangery.at? key).getD {}
      if o.ways == 0 then s
      else
        let line := lineOf pa
        let n := Nat.min 255 ((o.counters.get (counterKey k line)).toNat + 1)
        let o := if reuse == 2 then { o with counters := o.counters.set (counterKey k line) (BitVec.ofNat 8 n) } else o
        let o := if reuse == 3 then pinLine s o k line true else if o.thresh ≤ n then pinLine s o k line false else o
        { s with orangery := s.orangery.insert key o }

/-- Read a location for a gather unit (R159): its cache holds lines homed on its own die, under leases; any other line is
read at its home. -/
def readGather (s : State) (core : CoreId) (pid reuse : Nat) (loc : Loc) (n : Nat) (stream : Bool) : List Byte × State :=
  match loc with
  | .mem pa =>
    let line := lineOf pa
    let g := gatherOf core
    let own := l1Able s pa && homeDie s pa == some core.die
    match (if own then l1Find s g line else none) with
    | some l => ((l.data.drop (pa - line)).take n, l1Put (freshen s core line l.data) l)
    | none =>
      let s := if isLocal s pa then reuseRequest s reuse pa else s
      let data := s.rdMem line 128
      let bytes := (data.drop (pa - line)).take n
      if !l1Able s pa then
        (bytes, if isLocal s pa && spaceOf s (localOf pa) == .host then s.holdHost pa n else s)
      else
        let s := freshen s core line data
        if own && !stream then
          let e := clockOf s core.die + 2 ^ leaseOf s pid
          let s := { s with leases := s.leases.insert line (Nat.max e (expiryOf s line)) }
          (bytes, l1Put s { core := g, line := line, data := data, lease := some e })
        else (bytes, s)
  | loc => readLoc s core pid loc n true false

/-- The HomeSets of some blocks change (R162): every line whose home changes leaves the caches and the Orangery, a host line the device
(R190), and an unexpired lease of it moves to its old slice's register. `s` gives the old homes, `s'` is the state with the new
ones. -/
def rehome (s s' : State) : State :=
  let moved := fun line => isLocal s line && homeSet s (localOf line) != homeSet s' (localOf line)
  let out := s'.leases.filter fun e => moved e.1
  { s'.loseHost ((s'.hostLines ++ s'.watched).filter moved) with
    l1 := s'.l1.filter (fun l => !moved l.line),
    orangery := s'.orangery.mapVals (fun o => { o with pinned := o.pinned.filter fun l => !moved l }),
    leases := s'.leases.filter (fun e => !moved e.1),
    sliceExp := out.foldl (fun m e =>
      let k := (homeSlice s (localOf e.1)).getD 192
      m.insert k (Nat.max e.2 ((m.at? k).getD 0))) s'.sliceExp }

/-- The die of a location's site, where a lease clock governs it. -/
def locDie (s : State) : Loc → Option Nat
  | .mem pa => homeDie s pa
  | .scr wg _ => (s.wgs.at? wg).map fun w => w.home.die
  | .treg _ _ => none

end Sys2Proof.Machine
end

