-- ==== Sys2Proof/Machine/Num.lean ====
section
/-! DEFINITION. Number formats and their one rounding (R228 to R234), exact arithmetic on their values, and the
transcendental functions within their bound (R241). -/

namespace Sys2Proof.Machine

/-- An exact value: NaN (signalling or not), an infinity, or ±m × 2^e; `st` says that the true magnitude lies
strictly between m × 2^e and (m + 1) × 2^e. -/
inductive FV where
  | nan (signalling : Bool)
  | inf (neg : Bool)
  | fin (neg : Bool) (m : Nat) (e : Int) (st : Bool)
  deriving DecidableEq, Repr

/-- What a format is: precision P with the hidden bit, exponent of the smallest normal, largest finite, infinity and
NaN codes, the sign bit (0: unsigned), whether it is a binary8 format. -/
structure Fmt where
  prec : Nat
  emin : Int
  maxc : Nat
  infc : Option Nat
  nanc : Nat
  sign : Nat
  q8   : Bool
  deriving DecidableEq, Repr

def fmtF32 : Fmt := { prec := 24, emin := -126, maxc := 0x7F7FFFFF, infc := some 0x7F800000, nanc := 0x7FC00000, sign := 0x80000000, q8 := false }
def fmtF16 : Fmt := { prec := 11, emin := -14, maxc := 0x7BFF, infc := some 0x7C00, nanc := 0x7E00, sign := 0x8000, q8 := false }
def fmtBf16 : Fmt := { prec := 8, emin := -126, maxc := 0x7F7F, infc := some 0x7F80, nanc := 0x7FC0, sign := 0x8000, q8 := false }
/-- The signed binary8 formats (R229). -/
def fmtQs (P : Nat) (inf : Bool) : Fmt :=
  { prec := P, emin := 1 - (2 ^ (7 - P) : Nat), maxc := if inf then 0x7E else 0x7F, infc := if inf then some 0x7F else none,
    nanc := 0x80, sign := 0x80, q8 := true }
/-- The unsigned binary8 formats (R230). -/
def fmtQu (P : Nat) (inf : Bool) : Fmt :=
  { prec := P, emin := 1 - (2 ^ (8 - P) : Nat), maxc := if inf then 0xFD else 0xFE, infc := if inf then some 0xFE else none,
    nanc := 0xFF, sign := 0, q8 := true }

/-- The format codes (R232); every other code is reserved. -/
def fmtOf (code : Nat) : Option Fmt :=
  if code = 0 then some fmtF32
  else if code = 1 then some fmtF16
  else if code = 2 then some fmtBf16
  else if 0x10 ≤ code && code ≤ 0x16 then some (fmtQs (code - 0xF) false)
  else if 0x18 ≤ code && code ≤ 0x1E then some (fmtQs (code - 0x17) true)
  else if 0x20 ≤ code && code ≤ 0x26 then some (fmtQu (code - 0x1F) false)
  else if 0x28 ≤ code && code ≤ 0x2E then some (fmtQu (code - 0x27) true)
  else none

/-- The bytes of an element of a format. -/
def fmtBytes (code : Nat) : Nat := if code = 0 then 4 else if code ≤ 2 then 2 else 1
/-- Is a code a binary8 format? -/
def isQ8 (code : Nat) : Bool := 0x10 ≤ code

/-- Decode a code (R228 to R230); bits above the format are ignored. -/
def decodeF (f : Fmt) (x : Nat) : FV :=
  let width := if f.q8 then 256 else 2 * f.sign
  let x := x % width
  let neg := f.sign != 0 && f.sign ≤ x
  let c := if neg then x - f.sign else x
  if f.q8 && x == f.nanc then .nan false
  else if f.infc == some c then .inf neg
  else if !f.q8 && f.maxc < c then .nan (!(x.testBit (f.prec - 2)))
  else
    let T := 2 ^ (f.prec - 1)
    let E := c / T
    if E = 0 then .fin neg (c % T) (f.emin - (f.prec - 1 : Nat)) false
    else .fin neg (T + c % T) (f.emin + E - 1 - (f.prec - 1 : Nat)) false

/-- Flag bits of FLAGS (R242): IV 1, DZ 2, OF 4, UF 8, NX 16, NVC 32. -/
def flIV : Nat := 1
def flDZ : Nat := 2
def flOF : Nat := 4
def flUF : Nat := 8
def flNX : Nat := 16
def flNVC : Nat := 32

/-- Should a magnitude be rounded up: mode 0 RNE, 1 RZ, 2 RU, 3 RD; `half` compares the discarded part with one half
(0 none, 1 below, 2 tie, 3 above); `odd` is the low bit of the truncated code (R233). -/
def roundUp (mode : Nat) (neg : Bool) (half : Nat) (odd : Bool) : Bool :=
  match mode with
  | 0 => half == 3 || (half == 2 && odd)
  | 1 => false
  | 2 => half != 0 && !neg
  | _ => half != 0 && neg

/-- RoundToFormat (R233): the code and the flags. -/
def roundTo (f : Fmt) (x : FV) (mode : Nat) (sat : Bool) : Nat × Nat :=
  match x with
  | .nan s => (f.nanc, if s then flIV else 0)
  | .inf neg =>
    if neg && f.sign == 0 then (if sat then 0 else 0xFF, flIV)
    else match f.infc with
      | some c => (if neg then f.sign + c else c, 0)
      | none => (if sat then (if neg then f.sign + f.maxc else f.maxc) else f.nanc, flIV)
  | .fin neg m e st =>
    if m == 0 && !st then (if neg && !f.q8 then f.sign else 0, 0)
    else if neg && f.sign == 0 then (if sat then 0 else 0xFF, flIV)
    else
      let E : Int := if m == 0 then e - 1 else m.log2 + e
      let tiny := E < f.emin
      let qe : Int := (if tiny then f.emin else E) - (f.prec - 1 : Nat)
      let n := if qe ≤ e then m * 2 ^ (e - qe).toNat else m / 2 ^ (qe - e).toNat
      let half :=
        if qe ≤ e then (if st then (if qe == e then 1 else 1) else 0)
        else
          let k := (qe - e).toNat
          let r := m % 2 ^ k
          let h := 2 ^ (k - 1)
          if r == 0 && !st then 0 else if r < h then 1 else if r == h && !st then 2 else 3
      let T := 2 ^ (f.prec - 1)
      let c := if tiny then n else (E - f.emin + 1).toNat * T + (n - T)
      let c' := if roundUp mode neg half (c % 2 == 1) then c + 1 else c
      if f.maxc < c' then
        let big := if neg then f.sign + f.maxc else f.maxc
        let inf := match f.infc with
          | some i => if neg then f.sign + i else i
          | none => f.nanc
        (if sat then big
         else if f.q8 then inf
         else match mode with
           | 0 => inf
           | 1 => big
           | 2 => if neg then big else inf
           | _ => if neg then inf else big, flOF + flNX)
      else
        (if c' == 0 then (if neg && !f.q8 then f.sign else 0) else if neg then f.sign + c' else c',
         if half == 0 then 0 else if tiny then flUF + flNX else flNX)

/-- RoundF32RNE (R233). -/
def roundF32 (x : FV) : Nat × Nat := roundTo fmtF32 x 0 false

/-! Exact arithmetic. A flag is reported beside a value: invalid for signalling NaN, ∞ − ∞ and 0 × ∞. -/

def FV.isNan : FV → Bool | .nan _ => true | _ => false
def FV.isSig : FV → Bool | .nan s => s | _ => false
def FV.isInf : FV → Bool | .inf _ => true | _ => false
def FV.isZero : FV → Bool | .fin _ 0 _ false => true | _ => false
def FV.neg? : FV → Bool | .nan _ => false | .inf n => n | .fin n _ _ _ => n
def FV.negate : FV → FV | .nan s => .nan s | .inf n => .inf (!n) | .fin n m e s => .fin (!n) m e s
def FV.abs : FV → FV | .nan s => .nan s | .inf _ => .inf false | .fin _ m e s => .fin false m e s

/-- The signed integer of a finite value at exponent q ≤ e. -/
def FV.atExp (q : Int) : FV → Int
  | .fin n m e _ => let v : Int := (m * 2 ^ (e - q).toNat : Nat); if n then -v else v
  | _ => 0
def FV.exp : FV → Int | .fin _ _ e _ => e | _ => 0

/-- A finite value from a signed integer; `zneg` is the sign of zero. -/
def ofSigned (v : Int) (e : Int) (zneg : Bool) : FV :=
  if v = 0 then .fin zneg 0 e false else .fin (v < 0) v.natAbs e false

/-- Product (IEEE 754): value and flags. -/
def mulF (a b : FV) : FV × Nat :=
  let sig := if a.isSig || b.isSig then flIV else 0
  if a.isNan || b.isNan then (.nan false, sig)
  else
    let n := a.neg? != b.neg?
    if a.isInf || b.isInf then
      if a.isZero || b.isZero then (.nan false, flIV) else (.inf n, 0)
    else match a, b with
      | .fin _ m e _, .fin _ m' e' _ => (.fin n (m * m') (e + e') false, 0)
      | _, _ => (.nan false, 0)

/-- Sum: an exact zero of opposite signs is +0, or −0 under RD (R415 and IEEE 754). -/
def addF (a b : FV) (mode : Nat) : FV × Nat :=
  let sig := if a.isSig || b.isSig then flIV else 0
  if a.isNan || b.isNan then (.nan false, sig)
  else if a.isInf && b.isInf then (if a.neg? == b.neg? then (a, 0) else (.nan false, flIV))
  else if a.isInf then (a, 0)
  else if b.isInf then (b, 0)
  else
    let q := min a.exp b.exp
    let zn := if a.isZero && b.isZero && a.neg? == b.neg? then a.neg? else mode == 3
    (ofSigned (a.atExp q + b.atExp q) q zn, 0)

/-- a × b + c with one rounding to come. -/
def fmaF (a b c : FV) (mode : Nat) : FV × Nat :=
  let (p, f) := mulF a b
  let (r, g) := addF p c mode
  (r, f ||| g ||| (if c.isSig then flIV else 0))

/-- x × 2^k. -/
def scaleF (x : FV) (k : Int) : FV := match x with | .fin n m e s => .fin n m (e + k) s | x => x

/-- Compare finite values or infinities: less, equal, greater as −1, 0, 1. -/
def cmpF (a b : FV) : Int :=
  match a, b with
  | .inf x, .inf y => if x == y then 0 else if x then -1 else 1
  | .inf x, _ => if x then -1 else 1
  | _, .inf y => if y then 1 else -1
  | a, b =>
    let q := min a.exp b.exp
    let u := a.atExp q
    let v := b.atExp q
    if u < v then -1 else if u = v then 0 else 1

/-- The value of an integer. -/
def intF (i : Int) : FV := ofSigned i 0 false

/-- Round a finite magnitude to an integer by mode: the integer and whether a fraction was discarded (R233). -/
def toIntegral (x : FV) (mode : Nat) : Int × Bool :=
  match x with
  | .fin n m e st =>
    if 0 ≤ e then let v : Int := (m * 2 ^ e.toNat : Nat); (if n then -v else v, st)
    else
      let k := (-e).toNat
      let q := m / 2 ^ k
      let r := m % 2 ^ k
      let h := 2 ^ (k - 1)
      let half := if r == 0 && !st then 0 else if r < h then 1 else if r == h && !st then 2 else 3
      let q := if roundUp mode n half (q % 2 == 1) then q + 1 else q
      (if n then -(q : Int) else q, half != 0)
  | _ => (0, false)

/-- Conversion to an integer type of range [lo, hi] (R233). -/
def toInt (x : FV) (mode : Nat) (lo hi : Int) : Int × Nat :=
  match x with
  | .nan _ => (0, flIV)
  | .inf n => (if n then lo else hi, flIV)
  | x =>
    let (v, f) := toIntegral x mode
    if v < lo then (lo, flIV) else if hi < v then (hi, flIV) else (v, if f then flNX else 0)

/-! Integer square root. -/

/-- The bits of the root of n from bit k down, above r. -/
def isqrtFrom (n : Nat) : Nat → Nat → Nat
  | 0, r => r
  | k + 1, r => let t := r + 2 ^ k; isqrtFrom n k (if t * t ≤ n then t else r)
/-- floor(sqrt n). -/
def isqrt (n : Nat) : Nat := isqrtFrom n (n.log2 / 2 + 1) 0

/-- The square root of a positive finite value to 64 significant bits, sticky below. -/
def sqrtF (m : Nat) (e : Int) : FV :=
  let odd := e % 2 != 0
  let m := if odd then 2 * m else m
  let e := if odd then e - 1 else e
  let k : Nat := 64
  let n := m * 2 ^ (2 * k)
  let r := isqrt n
  .fin false r (e / 2 - k) (r * r != n)

/-! Enclosures: fixed point with `fp` fraction bits. -/

def fp : Nat := 320
def one : Nat := 2 ^ fp

/-- ln 2, within 2^-300 (the sum of 1 / (k 2^k)). -/
def ln2 : Nat := ((List.range 330).map fun i => one / ((i + 1) * 2 ^ (i + 1))).foldl (· + ·) 0

/-- atan(1 / n) by its series. -/
def atanInv (n : Nat) : Int :=
  ((List.range 240).map fun i =>
    let t : Int := (one / ((2 * i + 1) * n ^ (2 * i + 1)) : Nat)
    if i % 2 == 0 then t else -t).foldl (· + ·) 0
/-- π by Machin's formula. -/
def piFix : Nat := (16 * atanInv 5 - 4 * atanInv 239).toNat

/-- Σ x^i / i! times the signs of `alt`, taking the terms whose parity passes: exp, sin, cos in fixed point. -/
def series (x : Nat) (start step : Nat) (alt : Bool) : Int :=
  let rec go : Nat → Nat → Nat → Bool → Int → Int
    | 0, _, _, _, acc => acc
    | n + 1, i, t, sgn, acc =>
      -- t is x^i / i!
      let acc := if sgn then acc - t else acc + t
      let t' := (List.range step).foldl (fun t j => t * x / one / (i + j + 1)) t
      go n (i + step) t' (if alt then !sgn else false) acc
  go 100 start (if start == 0 then one else x) false 0

/-- The error allowed for the sums above, in units of 2^-fp. -/
def slack : Nat := 2 ^ 20

/-- The f32 results allowed for a positive exact value between lo and hi, in units of 2^-k: those within one ulp
(R241). `r` truncates; candidates are its neighbours. -/
def ulpCands (lo hi k : Nat) : List Nat :=
  let c := (roundTo fmtF32 (.fin false lo (-(k : Int)) false) 1 false).1
  -- ulp of the exact value, as a number of 2^-k units scaled by 2^160
  let E : Int := (lo.log2 : Int) - k
  let ue : Int := if E < -126 then -149 else E - 23
  let near := [c - 1, c, c + 1, c + 2]
  (distinct near).filter fun x =>
    match decodeF fmtF32 x with
    | .fin _ m e _ =>
      let q := min (min e ue) (-(k : Int))
      let v : Int := (m * 2 ^ (e - q).toNat : Nat)
      let u : Int := (2 ^ (ue - q).toNat : Nat)
      let l : Int := (lo * 2 ^ (-(k : Int) - q).toNat : Nat)
      let h : Int := (hi * 2 ^ (-(k : Int) - q).toNat : Nat)
      h - v ≤ u && v - l ≤ u
    | _ => false

/-- One allowed result, the implementation's choice (log entry 6). -/
def pickUlp (fn x : Nat) (neg : Bool) (lo hi k : Nat) : Nat :=
  let l := ulpCands lo hi k
  let c := match l[Config.transPick fn x % l.length]? with
    | some c => c
    | none => (roundTo fmtF32 (.fin false lo (-(k : Int)) false) 0 false).1
  if neg then 0x80000000 + c else c

/-- The power of two of a magnitude, if it is one. -/
def pow2Exp (m : Nat) (e : Int) : Option Int := if m == 2 ^ m.log2 then some (m.log2 + e) else none

def canonNan : Nat := 0x7FC00000
def posInf : Nat := 0x7F800000
def negInf : Nat := 0xFF800000

/-- f32 MIN (−1) or MAX (1) of a list, NaN ignored, −0 below +0 (R349). -/
def extF32 (sgn : Int) (l : List Nat) : Nat :=
  match l with
  | [] => if sgn < 0 then posInf else negInf
  | _ =>
    let rank := fun x : Nat => let v := decodeF fmtF32 x
      (v, if v.isZero && v.neg? then (0 : Int) else 1)
    let better := fun x y : Nat =>   -- x beats y
      let a := rank x
      let b := rank y
      let o := cmpF a.1 b.1
      decide (0 < sgn * o) || (o == 0 && a.1.isZero && decide (0 < sgn * (a.2 - b.2)))
    match l.filter (fun x => !(decodeF fmtF32 x).isNan) with
    | [] => canonNan
    | x :: r => r.foldl (fun m y => if better y m then y else m) x

/-- RCP (R241): code, flags. -/
def rcpF (x : Nat) : Nat × Nat :=
  match decodeF fmtF32 x with
  | .nan s => (canonNan, if s then flIV else 0)
  | .inf n => (if n then 0x80000000 else 0, 0)
  | .fin n m e _ =>
    let sg := if n then 0x80000000 else 0
    if m == 0 then (sg + posInf, flDZ)
    else match pow2Exp m e with
      | some p => if 127 < -p then (sg + posInf, flOF + flNX) else
          let (c, f) := roundTo fmtF32 (.fin n 1 (-p) false) 0 false
          (c, f)
      | none =>
        -- 1 / (m 2^e) = (2^k / m) 2^(-k - e), in units of 2^-u
        let k : Nat := 400
        let v := 2 ^ k / m
        let sh : Int := -(k : Int) - e
        let lo : Nat := if 0 ≤ sh then v * 2 ^ sh.toNat else v
        let u : Nat := if 0 ≤ sh then 0 else (-sh).toNat
        let c := roundTo fmtF32 (.fin false v sh true) 1 false
        if e + (m.log2 : Int) < -128 then (sg + posInf, flOF + flNX)
        else
          let r := pickUlp 13 x n lo (lo + (if 0 ≤ sh then 2 ^ sh.toNat else 1)) u
          (r, flNX ||| (c.2 &&& flUF))

/-- RSQ (R241). -/
def rsqF (x : Nat) : Nat × Nat :=
  match decodeF fmtF32 x with
  | .nan s => (canonNan, if s then flIV else 0)
  | .inf n => if n then (canonNan, flIV) else (0, 0)
  | .fin n m e _ =>
    if m == 0 then (if n then negInf else posInf, flDZ)
    else if n then (canonNan, flIV)
    else match pow2Exp m e with
      | some p =>
        if p % 2 == 0 then (roundTo fmtF32 (.fin false 1 (-(p / 2)) false) 0 false)
        else
          -- sqrt(2) 2^(-(p+1)/2)
          let h := (-(p + 1)) / 2
          let r := isqrt (2 * 2 ^ 400)
          let sh : Int := h - 200
          (pickUlp 14 x false r (r + 1) (-sh).toNat, flNX)
      | none =>
        let odd := e % 2 != 0
        let m' := if odd then 2 * m else m
        let e' := if odd then e - 1 else e
        let r := isqrt (2 ^ 600 / m')
        -- 1/sqrt(m' 2^e') = r 2^(-300 - e'/2)
        let sh : Int := -300 - e' / 2
        (pickUlp 14 x false r (r + 1) (-sh).toNat, flNX)

/-- SQRT, correctly rounded (R241). -/
def sqrtOp (x mode : Nat) (sat : Bool) : Nat × Nat :=
  match decodeF fmtF32 x with
  | .nan s => (canonNan, if s then flIV else 0)
  | .inf n => if n then (canonNan, flIV) else (posInf, 0)
  | .fin n m e _ =>
    if m == 0 then (x % 2 ^ 32, 0) else if n then (canonNan, flIV) else roundTo fmtF32 (sqrtF m e) mode sat

/-- EXP2 (R241). Results below 2^-149 round as R233, to nearest. -/
def exp2F (x : Nat) : Nat × Nat :=
  match decodeF fmtF32 x with
  | .nan s => (canonNan, if s then flIV else 0)
  | .inf n => (if n then 0 else posInf, 0)
  | .fin n m e _ =>
    let v := FV.fin n m e false
    if m == 0 then (0x3F800000, 0)
    else if cmpF v (intF 128) ≥ 0 then (posInf, flOF + flNX)
    else if cmpF v (intF (-150)) ≤ 0 then (0, flUF + flNX)
    else
      let (fl, frac) := toIntegral v 3
      if !frac then roundTo fmtF32 (.fin false 1 fl false) 0 false
      else
        -- f = v - fl in [0, 1), in fixed point
        let f : Nat := ((v.atExp (min e (-(fp : Int)))) / (2 ^ ((-(fp : Int)) - min e (-(fp : Int))).toNat : Nat) - fl * one).toNat
        let y := (series (f * ln2 / one) 0 1 false).toNat
        let lo := y - slack
        let hi := y + slack
        if fl < -149 then roundTo fmtF32 (.fin false lo (fl - fp) true) 0 false
        else
          let sh : Int := fl - fp
          let r := if sh ≤ 0 then pickUlp 16 x false lo hi (-sh).toNat else 0
          (r, flNX ||| (if fl < -126 then flUF else 0))

/-- Fraction bits of log2 of y in [1, 2), fixed point, by repeated squaring. -/
def log2Frac : Nat → Nat → Nat → Nat
  | 0, _, acc => acc
  | n + 1, y, acc =>
    let y := y * y / one
    if 2 * one ≤ y then log2Frac n (y / 2) (2 * acc + 1) else log2Frac n y (2 * acc)

/-- LOG2 (R241). -/
def log2F (x : Nat) : Nat × Nat :=
  match decodeF fmtF32 x with
  | .nan s => (canonNan, if s then flIV else 0)
  | .inf n => if n then (canonNan, flIV) else (posInf, 0)
  | .fin n m e _ =>
    if m == 0 then (negInf, flDZ)
    else if n then (canonNan, flIV)
    else match pow2Exp m e with
      | some p => ((roundTo fmtF32 (intF p) 0 false).1, 0)
      | none =>
        let E : Int := m.log2 + e
        let y := m * one / 2 ^ m.log2
        let acc := log2Frac 80 y 0
        -- the value is E + [acc, acc + 2] 2^-80
        let lo : Int := E * (2 ^ 80 : Nat) + acc
        let hi : Int := lo + 2
        if 0 ≤ lo then (pickUlp 17 x false lo.toNat hi.toNat 80, flNX)
        else (pickUlp 17 x true (-hi).toNat (-lo).toNat 80, flNX)

/-- sin(π r) or cos(π r) for r in (0, 1/2), r = m 2^-k: an enclosure in fixed point. -/
def sinFix (m k : Nat) : Nat × Nat :=
  let a := m * piFix / 2 ^ k
  let y := (series a 1 2 true).toNat
  (y - y / 2 ^ 60, y + y / 2 ^ 60)
def cosFix (m k : Nat) : Nat × Nat :=
  let a := m * piFix / 2 ^ k
  let y := (series a 0 2 true).toNat
  (y - slack, y + slack)

/-- SINPI and COSPI (R241). -/
def trigF (cos : Bool) (x : Nat) : Nat × Nat :=
  match decodeF fmtF32 x with
  | .nan s => (canonNan, if s then flIV else 0)
  | .inf _ => (canonNan, flIV)
  | .fin n m e _ =>
    if m == 0 then (if cos then 0x3F800000 else x % 2 ^ 32, 0)
    else
      let k := if e < 0 then (-e).toNat else 0
      let M := if e < 0 then m else m * 2 ^ e.toNat
      -- |x| = M 2^-k; j half-turns of 1/2 and a rest r in [0, 1/2)
      let half := 2 ^ (k + 1) / 4          -- 1/2 in units of 2^-k; 0 when k = 0
      if k == 0 || M % 2 ^ k == 0 then
        let i := M / 2 ^ k
        if cos then (if i % 2 == 0 then 0x3F800000 else 0xBF800000, 0)
        else (if n then 0x80000000 else 0, 0)
      else if M % 2 ^ k == 2 ^ (k - 1) then
        let i := M / 2 ^ k
        if cos then (0, 0)
        else (if (i % 2 == 0) == !n then 0x3F800000 else 0xBF800000, 0)
      else
        let i := M / 2 ^ k % 2
        let r := M % 2 ^ k
        let up := half < r                  -- above one half
        let r' := if up then 2 ^ k - r else r
        -- sin(π(i + r)) = (-1)^i sin(π r'); cos(π(i + r)) = (-1)^i (±) cos(π r')
        let (lo, hi) := if cos then cosFix r' k else sinFix r' k
        let neg := if cos then (i == 1) != up else (i == 1) != n
        -- a result below the smallest normal is tiny, and it is inexact (R233)
        (pickUlp (if cos then 19 else 18) x neg lo hi fp, flNX ||| (if lo < 2 ^ (fp - 126) then flUF else 0))

end Sys2Proof.Machine
end

