-- ==== Sys2Proof/Machine/Flights.lean ====
section
/-! DEFINITION. Accesses in flight, performed at their sites (R183, R187, R188, R197, R198, R381). -/

namespace Sys2Proof.Machine

/-- f32 addition of atomics and drains: RNE, canonical NaN, no flag (R198). -/
def faddBits (f : Fmt) (a b : Nat) : Nat := (roundTo f (addF (decodeF f a) (decodeF f b) 0).1 0 false).1

/-- The new value of an atomic (R198, R379): function, type (SIZE + 8 × SGN), old value, operand, compare value. -/
def atomNew (fn ty old x cmp : Nat) : Nat :=
  let n := match ty % 8 with | 5 => 64 | 6 => 128 | _ => 32
  let sg := 8 ≤ ty
  let lt : Bool := if sg then decide (signedN n x < signedN n old) else decide (x < old)
  match fn with
  | 0 => (old + x) % 2 ^ n
  | 1 => if lt then x else old
  | 2 => if lt || x == old then old else x
  | 3 => old &&& x
  | 4 => old ||| x
  | 5 => old ^^^ x
  | 6 => x
  | 7 => if old == cmp then x else old
  | _ =>
    match ty % 8 with
    | 4 => faddBits fmtF32 old x
    | t =>
      let f := if t == 0 then fmtBf16 else fmtF16
      faddBits f (old % 65536) (x % 65536) + 65536 * faddBits f (old / 65536) (x / 65536)

/-- Do two locations with their lengths share a byte? -/
def overlaps (a : Loc) (n : Nat) (b : Loc) (m : Nat) : Bool :=
  match a, b with
  | .mem x, .mem y => decide (x < y + m) && decide (y < x + n)
  | .scr w x, .scr v y => w == v && decide (x < y + m) && decide (y < x + n)
  | .treg w x, .treg v y => w == v && decide (x < y + m) && decide (y < x + n)
  | _, _ => false

/-- May run `ri` of a flight be performed now: no earlier access of the same split to the same bytes waits (R183), nor an earlier
one of the instruction itself (R113, R208)? -/
def runFree (t : Team) (f : Flight) (ri : Nat) (r : Run) : Bool :=
  !((f.runs.take ri).any fun x => !x.done && overlaps x.loc x.bytes r.loc r.bytes) &&
  !(t.flights.any fun g => g.id < f.id && (g.split == f.split || f.anc.contains g.split || (f.path == 4 && g.path == 4)) &&
      g.runs.any fun x => !x.done && overlaps x.loc x.bytes r.loc r.bytes)

/-- Does an access at a location reach the place of a data error (R61)? -/
def errorAt (p : EccPlace) (loc : Loc) (n : Nat) : Bool :=
  match p with
  | .near pa | .lpddr pa | .expander pa => overlaps loc n (.mem (lineOf pa)) 128
  | .cacheClean _ l | .cacheDirty _ l | .sliceClean _ l | .sliceDirty _ l => overlaps loc n (.mem (lineOf l)) 128
  | .scratch w b => overlaps loc n (.scr w (b * 32768)) 32768
  | _ => false

/-- Do locations reach the place of an error? -/
def placeHit (p : EccPlace) (l : List (Loc × Nat)) : Bool := l.any fun e => errorAt p e.1 e.2

/-- Is a run of an access still to be performed at the place? -/
def runAt (p : EccPlace) (r : Run) : Bool := !r.done && errorAt p r.loc r.bytes

/-- May a core's accesses meet the error: a line of a core's cache is met by that core alone, or by its cluster's gathers? -/
def eccCore (p : EccPlace) (core : CoreId) : Bool :=
  match p with
  | .cacheClean c _ | .cacheDirty c _ => core == c || gatherOf core == c
  | _ => true

/-- Is an access of a core held: its data are being read again (R61)? -/
def rereadHeld (s : State) (core : CoreId) (l : List (Loc × Nat)) : Bool :=
  s.dev.rereads.any fun p => eccCore p core && placeHit p l

/-- The granule of a location (R200). -/
def granuleOf : Loc → Loc
  | .mem a => .mem (lineOf a)
  | .scr w o => .scr w (lineOf o)
  | .treg w o => .treg w o

/-- Does a reservation still stand on the clocks of its sites: under 2 µs since the LDRES (R200)? -/
def resvLive (s : State) (q : Resv) : Bool := q.clocks.all fun e => decide (clockOf s e.1 < e.2 + 2000)

/-- Does a split hold a live reservation? -/
def Split.holds (p : Split) (s : State) : Bool := match p.resv with | some q => resvLive s q | none => false

/-- The LDRES of a reservation is performed at a site: its granule is reserved from now on, on that die's clock (R200). -/
def Resv.take (q : Resv) (s : State) (flight : Nat) (g : Loc) : Resv :=
  if q.flight == flight && q.pending.contains g then
    { q with pending := q.pending.filter (· != g), granules := q.granules ++ [g],
             clocks := (match locDie s g with
               | some d => if q.clocks.any (·.1 == d) then q.clocks else q.clocks ++ [(d, clockOf s d)]
               | none => q.clocks) }
  else q

/-- The same in the team: the split's reservation, or that of a STCOND in flight which took it over. -/
def Team.take (t : Team) (s : State) (flight : Nat) (g : Loc) : Team :=
  { t with splits := t.splits.map (fun p => { p with resv := p.resv.map fun q => q.take s flight g }),
           flights := t.flights.map fun f => { f with resv := f.resv.map fun q => q.take s flight g } }

/-- Replace a flight. -/
def Team.setFlight (t : Team) (f : Flight) : Team :=
  { t with flights := t.flights.map fun g => if g.id == f.id then f else g }

/-- Change a team. -/
def State.modTeam (s : State) (tid : Nat) (f : Team → Team) : State := { s with teams := s.teams.modify tid f }

/-- Does an access of the flight write? -/
def FKind.writes : FKind → Bool
  | .store => true | .atomic _ _ => true | .stcond _ => true | .hash b _ _ => b | .segred _ _ => true | _ => false

/-- The lanes of an atomic run at its word, ascending: memory after, and each lane's old value (R381). -/
def atomRun (fn ty : Nat) : Nat → List LaneAcc → Nat × List LaneAcc
  | m, [] => (m, [])
  | m, a :: r =>
    let (m', l) := atomRun fn ty (atomNew fn ty m a.data a.cmp) r
    (m', { a with old := m } :: l)

/-! Hash sets (R431, R432). -/

def hashEmpty : Nat := 0xFFFFFFFF

/-- Probe a table of n words from slot h: the slot found with the key, or the free slot, or neither. -/
def hashProbe (rd : Nat → Nat) (key n h : Nat) : Nat → Nat → Option (Nat × Bool)
  | 0, _ => none
  | f + 1, i =>
    let slot := (h + i) % n
    let x := rd slot
    if x == key then some (slot, true)
    else if x == hashEmpty then some (slot, false)
    else hashProbe rd key n h f (i + 1)

/-- One lane's probe of a table of 2^k words, an insertion among them (R431): the state after, and slot + 2^32 found +
2^33 full. -/
def hashLane (s : State) (core : CoreId) (ins : Bool) (k : Nat) (loc : Loc) (key : Nat) : State × Nat :=
  match loc with
  | .scr wg off =>
    if key == hashEmpty then (s, hashEmpty)
    else
      let rd := fun slot => leNat (((s.wgs.at? wg).map fun w => w.scr.read (off + 4 * slot) 4).getD [])
      match hashProbe rd key (2 ^ k) (key * 0x9E3779B1 % 2 ^ 32 / 2 ^ (32 - k)) (2 ^ k) 0 with
      | some (slot, true) => (s, slot + 2 ^ 32)
      | some (slot, false) =>
        if ins then (writeLoc s (some core) (.scr wg (off + 4 * slot)) (leBytes 4 key), slot) else (s, hashEmpty)
      | none => (s, hashEmpty + (if ins then 2 ^ 33 else 0))
  | _ => (s, hashEmpty)

/-- An accumulator of an expansion after one value (R427): operation 0 add, 1 min, 2 max; type 0 f32, 1 i32. -/
def segOp (op ty acc v : Nat) : Nat :=
  if ty == 0 then
    match op with
    | 0 => faddBits fmtF32 acc v
    | 1 => extF32 (-1) [acc, v]
    | _ => extF32 1 [acc, v]
  else
    match op with
    | 0 => (acc + v) % 2 ^ 32
    | 1 => if signedN 32 v < signedN 32 acc then v else acc
    | _ => if signedN 32 acc < signedN 32 v then v else acc

/-- What the home returns for a write (R187, R188, R35): the team's WCTMAX, or what the acknowledgment waits for. -/
def acked (s : State) (tid : Nat) (core : CoreId) (fid ri : Nat) (r : Run) : State × Run :=
  match r.loc with
  | .scr _ _ => (s, r)
  | .treg _ _ => (s, r)
  | .mem pa =>
    if !isLocal s pa then
      let id := s.nextId
      let o : FabOut := { team := tid, flight := fid, run := ri, chan := r.chan, pkg := pkgOf pa, route := r.route }
      ({ s with nextId := id + 1, fabReqs := s.fabReqs.insert id o }, { r with req := some id })
    else
      let s := if spaceOf s (localOf pa) == .host then s.holdHost pa r.bytes else s
      match homeDie s pa with
      | none => (s, r)
      | some d =>
        let w := wctOf s d (lineOf pa)
        if d == core.die then (s.modTeam tid fun t => { t with wct := Nat.max t.wct w }, r)
        else (s, { r with wait := some (d, w) })

/-- A run as it is issued: to another package it takes the route entry as it stands, and its channel (R32, R34). -/
def Run.issued (r : Run) (s : State) (pid : Nat) : Run :=
  match r.loc with
  | .mem pa => if isLocal s pa then r else { r with route := routeOf s (pkgOf pa), chan := chanOf s pid (pkgOf pa) }
  | _ => r

/-- Is a run held: until a port of its route is up again (R37), or, when it writes, until the host has answered the
back-invalidation of a line it may hold (R190)? -/
def heldRun (s : State) (writes : Bool) (r : Run) : Bool :=
  match r.loc with
  | .mem pa => if isLocal s pa then writes && hostMayHold s pa r.bytes else !entryCarries s r.route
  | _ => false

/-- Does a peer access reach a workgroup that has ended or is saved (R148)? -/
def goneRun (s : State) (wg : Nat) (r : Run) : Bool :=
  match r.loc with
  | .scr w _ => w != wg && !((s.wgs.at? w).map Wg.live).getD false
  | _ => false

/-- Does a probe of n words from slot h meet a word it does not reach, before it ends? -/
def probeOut (reach : Nat → Bool) (rd : Nat → Nat) (key n h : Nat) : Nat → Nat → Bool
  | 0, _ => false
  | f + 1, i =>
    let slot := (h + i) % n
    !reach slot || (rd slot != key && rd slot != hashEmpty && probeOut reach rd key n h f (i + 1))

/-- Does the next probe of a hash access reach beyond the allocation of its table (R148, R431)? -/
def hashOut (s : State) (f : Flight) (r : Run) : Bool :=
  match f.kind, r.loc, r.accs.head? with
  | .hash _ k _, .scr wg off, some a =>
    f.runs.contains r && (f.runs.takeWhile (· != r)).all (·.done) && a.data != hashEmpty &&
    probeOut (fun slot => ((s.wgs.at? wg).map fun w => scrReach w (off + 4 * slot)).getD false)
      (fun slot => leNat (((s.wgs.at? wg).map fun w => w.scr.read (off + 4 * slot) 4).getD []))
      a.data (2 ^ k) (a.data * 0x9E3779B1 % 2 ^ 32 / 2 ^ (32 - k)) (2 ^ k) 0
  | _, _, _ => false

/-- Is a location behind an expander that does not respond (R48)? -/
def deadLoc (s : State) : Loc → Bool | .mem pa => expanderDown s pa | _ => false
def deadRun (s : State) (r : Run) : Bool := deadLoc s r.loc

/-- Perform run `ri` of flight `fid` of a team at its site; none where it cannot be performed now. -/
def performRun (s : State) (tid fid ri : Nat) : Option State :=
  match s.teams.at? tid with
  | none => none
  | some t =>
    match t.flights.find? (·.id == fid) with
    | none => none
    | some f =>
      match f.runs[ri]? with
      | none => none
      | some r =>
        if r.done || !runFree t f ri r || heldRun s f.kind.writes r || deadRun s r || goneRun s t.wg r ||
            rereadHeld s t.core [(r.loc, r.bytes)] then none
        else
          let pid := ((s.wgs.at? t.wg).map (·.pid)).getD 0
          let put : State → Run → State := fun s r' =>
            s.modTeam tid fun t => match t.flights.find? (·.id == fid) with
              | some f => t.setFlight { f with runs := setAt f.runs ri { r' with done := true } }
              | none => t
          match f.kind with
          | .store =>
            let s := r.accs.foldl (fun s a => writeLoc s (some t.core) r.loc (leBytes r.bytes a.data)) s
            let (s, r) := acked s tid t.core fid ri r
            some (put s r)
          | .atomic fn ty =>
            let old := leNat (readLoc s t.core pid r.loc r.bytes true false).1
            let (new, accs) := atomRun fn ty old r.accs
            let s := writeLoc s none r.loc (leBytes r.bytes new)
            let s := match r.loc with
              | .mem pa => l1Drop s t.core fun l => l.line == lineOf pa
              | _ => s
            let (s, r) := acked s tid t.core fid ri { r with accs := accs }
            some (put s r)
          | .stcond _ =>
            -- the lanes are tested in ascending order (R376), each once its granule's LDRES is performed
            let ok := (f.resv.map fun q => q.granules.contains (granuleOf r.loc) && resvLive s q).getD false
            if (f.runs.take ri).any (fun x => !x.done) ||
               (f.resv.map fun q => q.pending.contains (granuleOf r.loc)).getD false then none
            else if ok then
              let s := r.accs.foldl (fun s a => writeLoc s (some t.core) r.loc (leBytes r.bytes a.data)) s
              -- the STCOND's own stores leave its reservation until every lane is tested (R376)
              let s := s.modTeam tid fun t => match t.flights.find? (·.id == fid) with
                | some g => t.setFlight { g with resv := f.resv }
                | none => t
              let (s, r) := acked s tid t.core fid ri { r with accs := r.accs.map fun a => { a with old := 1 } }
              some (put s r)
            else some (put s { r with accs := r.accs.map fun a => { a with old := 0 } })
          | .hash ins k _ =>
            -- the lanes of one instruction probe in ascending order
            if (f.runs.take ri).any fun x => !x.done then none
            else
              let key := match r.accs.head? with | some a => a.data | none => 0
              let x := hashLane s t.core ins k r.loc key
              some (put x.1 { r with accs := r.accs.map fun a => { a with old := x.2 } })
          | .segred op ty =>
            let old := leNat (readLoc s t.core pid r.loc r.bytes true false).1
            let new := r.accs.foldl (fun m a => segOp op ty m a.data) old
            some (put (writeLoc s (some t.core) r.loc (leBytes 4 new)) r)
          | .gather b =>
            -- a row is one request to each line (R433)
            let row := fun (x : Run) => (x.accs.map (·.lane), granuleOf x.loc)
            let asked := f.runs.any fun x => x.done && row x == row r
            let (bs, s) := readGather s t.core pid (if asked then 1 else bits b 152 151) r.loc r.bytes r.strm
            let v := leNat bs
            some (put s { r with accs := r.accs.map fun a => { a with old := v } })
          | _ =>
            let (bs, s) := readLoc s t.core pid r.loc r.bytes f.site (f.stream || r.strm)
            let v := leNat bs
            let s := if f.resvs then s.modTeam tid fun t => t.take s fid (granuleOf r.loc) else s
            some (put s { r with accs := r.accs.map fun a => { a with old := v } })

/-- The runs of an access that one performance at a site applies: an atomic's words of one host line together (R45), else the
run alone. -/
def runsAt (s : State) (f : Flight) (ri : Nat) : List Nat :=
  match f.kind, (f.runs[ri]?).map Run.loc with
  | .atomic _ _, some (.mem pa) =>
    if isLocal s pa && spaceOf s (localOf pa) == .host then
      (List.range f.runs.length).filter fun i => match f.runs[i]? with
        | some r => !r.done && (match r.loc with | .mem a => hostLine a == hostLine pa | _ => false)
        | none => false
    else [ri]
  | _, _ => [ri]

/-- Perform runs one after another; none where one of them cannot be performed now. -/
def performAll (s : State) (tid fid : Nat) : List Nat → Option State
  | [] => some s
  | ri :: l => (performRun s tid fid ri).bind fun s => performAll s tid fid l

/-- Perform run after run, skipping those that cannot be performed. -/
def performRuns (s : State) (tid fid : Nat) (l : List Nat) : State :=
  l.foldl (fun s ri => (performRun s tid fid ri).getD s) s

/-- Perform every run of a team's flights in issue order: what a termination and a pre-emption wait for (R264,
R279). -/
def drainFlights (s : State) (tid : Nat) : State :=
  match s.teams.at? tid with
  | none => s
  | some t => t.flights.foldl (fun s f => performRuns s tid f.id (List.range f.runs.length)) s

/-- Is a run acknowledged (R188, R35): performed, its WCT passed on the home's die, its completion returned? -/
def runAcked (s : State) (r : Run) : Bool :=
  r.done && (match r.wait with | some (d, w) => decide (w < clockOf s d) | none => true) &&
  (match r.req with | some id => (s.fabReqs.at? id).isNone | none => true)

/-- The number of flights of a path: its counter (R195). -/
def pathCount (t : Team) (path : Nat) : Nat := (t.flights.filter (·.path == path)).length

end Sys2Proof.Machine
end

