-- ==== Sys2Proof/Machine/Sig.lean ====
section
/-! DEFINITION. What each format-A field names, which values are legal, and which MOD bits are allowed: the
content of stage 5 of R315 (R295, R296, R299, R300) as one signature per function, written from the field
tables of the instruction chapters. Stage 7 (R126) reads the same signatures. -/

namespace Sys2Proof.Machine

/-- The class a field names. -/
inductive Fld where
  | no                 -- not used: zero in a full form, and zero in D and A of either form (R295)
  | v                  -- a vector register
  | vp                 -- an even-odd vector pair (R354)
  | vn (n : Nat)       -- n consecutive vector registers, no alignment
  | vw (n : Nat)       -- the same, all within v0 to v255 (R367, R421)
  | vg (n al : Nat)    -- n consecutive vector registers, aligned to al (R371, R379)
  | vb                 -- a base vector register reached through a register layout (R209)
  | mb                 -- a base moment register reached through a register layout (R413)
  | s (n : Nat)        -- n consecutive uniform registers
  | p                  -- p0 to p7
  | pd                 -- a predicate destination, p1 to p7 (R353)
  | q                  -- q0 to q3
  | m                  -- a moment register
  | ly | h
  | acc                -- an accumulator
  | accE               -- an even accumulator, the pair (R402)
  | tile               -- handle × 16 + layout
  | lim (n : Nat)      -- a number up to n
  | lims (lo hi : Nat) -- a number in a range
  deriving DecidableEq, Repr

/-- The value is legal for the class (R295): stage 5. -/
def Fld.legal : Fld → Nat → Bool
  | .no, x => x == 0
  | .v, x => x ≤ 255
  | .vp, x => x % 2 == 0 && x ≤ 254
  | .vn _, x => x ≤ 255
  | .vw n, x => x + n ≤ 256
  | .vg _ al, x => x % al == 0 && x ≤ 255
  | .vb, x => x ≤ 255
  | .mb, x => x ≤ 31
  | .s n, x => x + n ≤ 64
  | .p, x => x ≤ 7
  | .pd, x => 1 ≤ x && x ≤ 7
  | .q, x => x ≤ 3
  | .m, x => x ≤ 31
  | .ly, x => x ≤ 15
  | .h, x => x ≤ 15
  | .acc, x => x ≤ 7
  | .accE, x => x % 2 == 0 && x ≤ 6
  | .tile, x => x ≤ 255
  | .lim n, x => x ≤ n
  | .lims lo hi, x => lo ≤ x && x ≤ hi

/-- Is the field used at all (R296)? -/
def Fld.used : Fld → Bool
  | .no => false
  | _ => true

/-- Does the field name a register, so that a repeat prefix steps it (R306)? -/
def Fld.isReg : Fld → Bool
  | .no => false
  | .lim _ => false
  | .lims _ _ => false
  | _ => true

/-- The vector registers a field names. -/
def Fld.vregs : Fld → Nat → List Nat
  | .v, x => [x]
  | .vp, x => [x, x + 1]
  | .vn n, x => (List.range n).map (x + ·)
  | .vw n, x => (List.range n).map (x + ·)
  | .vg n _, x => (List.range n).map (x + ·)
  | .vb, x => [x]
  | _, _ => []

/-- The bank of a vector source (R309, R354), where the field is one. -/
def Fld.bank : Fld → Nat → Option Nat
  | .v, x => some (x % 2)
  | .vn _, x => some (x % 2)
  | .vw _, x => some (x % 2)
  | .vp, x => some (x / 2 % 2)
  | _, _ => none

/-- The first register of a field outside the team's allocation (R126, R402), as kind × 256 + number (R265):
`A` vector registers, `M` moment registers, `ACCS` accumulators; in trap context v240 to v255 are Lodge
registers (R268). -/
def Fld.outside (f : Fld) (A M ACCS : Nat) (trapCtx : Bool) (x : Nat) : Option Nat :=
  match f with
  | .m => if x < M then none else some (0x400 + x)
  | .mb => if x < M then none else some (0x400 + x)
  | .acc => if x < ACCS then none else some (0x700 + x)
  | .accE => if x + 1 < ACCS then none else some (0x700 + (if x < ACCS then x + 1 else x))
  | f => ((f.vregs x).find? fun n => !(n < A || (trapCtx && 240 ≤ n && n ≤ 255))).map (· % 256)

/-- A signature: the classes of D, A, B and C, whether the MOD bits are all allowed, and whether C is a vector
source bound to the bank of D (R310). -/
structure Sig where
  d : Fld := .no
  a : Fld := .no
  b : Fld := .no
  c : Fld := .no
  ok : Bool := true
  deriving DecidableEq, Repr

end Sys2Proof.Machine

namespace Sys2Proof

/-- The modifier bits; a short form reads them as zero (R296). -/
def OpA.modN (w : OpA) : Nat := match w.ext with | some e => e.mod.toNat | none => 0
/-- The guard predicate; p0 in a short form. -/
def OpA.gN (w : OpA) : Nat := match w.ext with | some e => e.g.toNat | none => 0
def OpA.gnB (w : OpA) : Bool := match w.ext with | some e => e.gn | none => false
def OpA.dN (w : OpA) : Nat := w.d.toNat
def OpA.aN (w : OpA) : Nat := w.a.toNat
/-- Fields B and C as a full form holds them; what a short form reads depends on the function (OpA.bOf). -/
def OpA.bRaw (w : OpA) : Option Nat := w.ext.map fun e => e.b.toNat
def OpA.cRaw (w : OpA) : Option Nat := w.ext.map fun e => e.c.toNat
/-- Bits [hi:lo] of MOD. -/
def OpA.md (w : OpA) (hi lo : Nat) : Nat := Machine.nbits w.modN hi lo

end Sys2Proof

namespace Sys2Proof.Machine

/-- Field B under a signature: in a short form D where the function uses B, else zero (R296). -/
def Sig.bOf (g : Sig) (w : OpA) : Nat :=
  match w.bRaw with | some b => b | none => if g.b.used then w.dN else 0
/-- Field C under a signature (R296). -/
def Sig.cOf (g : Sig) (w : OpA) : Nat :=
  match w.cRaw with | some c => c | none => if g.c.used then w.dN else 0

/-- Stage 5 of R315 for the fields and MOD of a format-A instruction. -/
def Sig.stage5 (g : Sig) (w : OpA) : Bool :=
  g.ok && g.d.legal w.dN && g.a.legal w.aN && g.b.legal (g.bOf w) && g.c.legal (g.cOf w)

/-- The D-core bank rule (R310) on a full form. -/
def Sig.bankOk (g : Sig) (w : OpA) : Bool :=
  match w.ext with
  | none => true
  | some _ =>
    (match g.a.bank w.aN, g.b.bank (g.bOf w) with
     | some x, some y => x != y || w.aN == g.bOf w
     | _, _ => true) &&
    (match g.c.bank (g.cOf w), g.d.bank w.dN with
     | some x, some y => x == y
     | _, _ => true)

/-- Stage 7 (R126): the first register outside the allocation, in the order D, A, B, C. -/
def Sig.range (g : Sig) (A M ACCS : Nat) (tc : Bool) (w : OpA) : Option Nat :=
  (g.d.outside A M ACCS tc w.dN).or <| (g.a.outside A M ACCS tc w.aN).or <|
  (g.b.outside A M ACCS tc (g.bOf w)).or (g.c.outside A M ACCS tc (g.cOf w))

/-- Repetition j of a repeated instruction: the used register fields stepped, after the defaults of a short
form (R306). A field that runs past 255 is held at 256, which no class accepts: the result is none. -/
def Sig.stepped (g : Sig) (r : OpP) (j : Nat) (w : OpA) : Option OpA :=
  let d := if g.d.isReg then w.dN + j * r.dd.toNat else w.dN
  let a := if g.a.isReg then w.aN + j * r.da.toNat else w.aN
  let b := if g.b.isReg then g.bOf w + j * r.db.toNat else g.bOf w
  let c := if g.c.isReg then g.cOf w + j * r.dc.toNat else g.cOf w
  if d ≤ 255 && a ≤ 255 && b ≤ 255 && c ≤ 255 then
    some { w with d := BitVec.ofNat 8 d, a := BitVec.ofNat 8 a,
                  ext := some { b := BitVec.ofNat 8 b, c := BitVec.ofNat 8 c,
                                g := BitVec.ofNat 3 w.gN, gn := w.gnB, mod := BitVec.ofNat 10 w.modN } }
  else none

/-- The MOD layout of R300, read from a word. -/
structure Mod300 where
  au : Bool
  bu : Bool
  type : Nat
  round : Nat
  sat : Bool
  nega : Bool
  negb : Bool
  cond : Nat
  deriving DecidableEq, Repr

def mod300 (w : OpA) : Mod300 :=
  { au := w.md 9 9 == 1, bu := w.md 8 8 == 1, type := w.md 7 5, round := w.md 4 3, sat := w.md 2 2 == 1,
    nega := w.md 1 1 == 1, negb := w.md 0 0 == 1, cond := w.md 4 1 }

/-- The fields of a MOD value that a function may set. -/
def modAllowed (m : Mod300) (round sat nega negb : Bool) : Bool :=
  (round || m.round == 0) && (sat || !m.sat) && (nega || !m.nega) && (negb || !m.negb)

/- Control, OP 0x04 (R334). -/

def sigJmpi (w : OpA) : Sig := { a := .v, ok := w.modN == 0 }
def sigCalli (w : OpA) : Sig := { a := .v, ok := w.modN == 0 }
/-- RET, JOIN, YIELD, EXIT and NOP use no field. -/
def sigNone (w : OpA) : Sig := { ok := w.modN == 0 }
def sigEqpt (w : OpA) : Sig := { d := .lim 255, a := .lim 255, ok := w.modN == 0 }
/-- MIGRATE: A[0] is the kind, A[1] TRY, A[7:2] zero; D names qN only with TRY. -/
def sigMigrate (w : OpA) : Sig :=
  { d := if bit w.a 1 then .q else .no, a := .lim 3, ok := w.modN == 0 }
def sigLaunch (w : OpA) : Sig := { d := .s 1, a := .s 1, ok := w.modN == 0 }
def sigWaitchild (w : OpA) : Sig := { d := .s 1, ok := w.modN == 0 }

/- Uniform ALU, OP 0x06 (R300, R344). -/

/-- The MOD of UALU: AU, BU and ROUND zero, TYPE up to 3, SAT only where allowed, NEGB only where B is used. -/
def ualuOk (w : OpA) (sat useB : Bool) : Bool :=
  let m := mod300 w
  !m.au && !m.bu && m.type ≤ 3 && modAllowed m false sat true useB
def sigS2 (w : OpA) : Sig := { d := .s 1, a := .s 1, ok := ualuOk w false false }
def sigS3 (w : OpA) : Sig := { d := .s 1, a := .s 1, b := .s 1, ok := ualuOk w false true }
def sigS3Sat (w : OpA) : Sig := { d := .s 1, a := .s 1, b := .s 1, ok := ualuOk w true true }
def sigS4Sat (w : OpA) : Sig := { d := .s 1, a := .s 1, b := .s 1, c := .s 1, ok := ualuOk w true true }
def sigScmp (w : OpA) : Sig :=
  let m := mod300 w
  { d := .q, a := .s 1, b := .s 1, ok := !m.au && !m.bu && m.type ≤ 3 && m.cond ≤ 5 }
def sigSsel (w : OpA) : Sig := { d := .s 1, a := .s 1, b := .s 1, c := .q, ok := ualuOk w false true }

/- UMISC, OP 0x09 (R347 to R351). -/

/-- The state register indices below 0x100 (R347). -/
def stateIndexOk (n : Nat) : Bool :=
  n ≤ 0x006 || (0x010 ≤ n && n ≤ 0x016) || (0x018 ≤ n && n ≤ 0x023) || (0x030 ≤ n && n ≤ 0x033) ||
  (0x040 ≤ n && n ≤ 0x049) || n == 0x050 || 0x100 ≤ n
def sigGets (w : OpA) : Sig := { d := .s 1, ok := stateIndexOk w.modN }
def sigSets (w : OpA) : Sig := { a := .s 1, ok := stateIndexOk w.modN }
def sigVote (w : OpA) : Sig :=
  { d := if w.md 1 0 ≤ 1 then .q else .s 1, a := .p, b := if w.md 1 0 == 2 then .lim 15 else .no,
    ok := w.md 9 2 == 0 }
/-- The operation and type of RED and SCAN: operations up to 5, types up to 2, no logic on f32. -/
def redOk (op ty : Nat) : Bool := op ≤ 5 && ty ≤ 2 && !(ty == 2 && 3 ≤ op)
def sigRed (w : OpA) : Sig := { d := .s 1, a := .v, ok := redOk (w.md 2 0) (w.md 4 3) && w.md 9 5 == 0 }
def sigSldp (w : OpA) : Sig := { d := .s 1, a := .lim 255, ok := w.modN == 0 }
def sigQop (w : OpA) : Sig :=
  { d := .q, a := if w.md 2 0 == 5 then .no else .q, b := if w.md 2 0 ≤ 2 then .q else .no,
    ok := w.md 2 0 ≤ 5 && (w.md 3 3 == 0 || w.md 2 0 == 5) && w.md 9 4 == 0 }

/- Vector integer, OP 0x0A (R356, R357, R354). -/

def is64 (m : Mod300) : Bool := m.type == 2 || m.type == 3
/-- The class of a full-width operand. -/
def vw (m : Mod300) : Fld := if is64 m then .vp else .v
def srcA (m : Mod300) (f : Fld) : Fld := if m.au then .s 1 else f
def srcB (m : Mod300) (f : Fld) : Fld := if m.bu then .s 1 else f
def valuOk (m : Mod300) (sat neg : Bool) : Bool := m.type ≤ 3 && modAllowed m false sat neg neg

/-- IADD, ISUB, IMUL (SAT allowed) and IMULH, IMIN, IMAX (not). -/
def sigI3 (sat : Bool) (w : OpA) : Sig :=
  let m := mod300 w
  { d := vw m, a := srcA m (vw m), b := srcB m (vw m), ok := valuOk m sat true }
def sigImad (w : OpA) : Sig :=
  let m := mod300 w
  { d := vw m, a := srcA m (vw m), b := srcB m (vw m), c := vw m, ok := valuOk m true true }
def sigIabs (w : OpA) : Sig :=
  let m := mod300 w
  { d := vw m, a := srcA m (vw m), ok := valuOk m true false && !m.bu && (m.type == 0 || m.type == 2) }
def sigLogic (w : OpA) : Sig :=
  let m := mod300 w
  { d := vw m, a := srcA m (vw m), b := srcB m (vw m), ok := valuOk m false false }
/-- NOT, BREV and MOV: one full-width source. -/
def sigUn (w : OpA) : Sig :=
  let m := mod300 w
  { d := vw m, a := srcA m (vw m), ok := valuOk m false false && !m.bu }
/-- The shifts and BFE: B is a 32-bit operand in every TYPE (R354). -/
def sigShift (w : OpA) : Sig :=
  let m := mod300 w
  { d := vw m, a := srcA m (vw m), b := srcB m .v, ok := valuOk m false false }
/-- POPC and CLZ write a single register. -/
def sigCount (w : OpA) : Sig :=
  let m := mod300 w
  { d := .v, a := srcA m (vw m), ok := valuOk m false false && !m.bu }
def sigBfi (w : OpA) : Sig :=
  let m := mod300 w
  { d := vw m, a := srcA m (vw m), b := srcB m .v, c := vw m, ok := valuOk m false false }
def sigSel (w : OpA) : Sig :=
  let m := mod300 w
  { d := vw m, a := srcA m (vw m), b := srcB m (vw m), c := .p, ok := valuOk m false false }
def sigLane (w : OpA) : Sig := { d := .v, ok := w.modN == 0 }
def sigIcmp (w : OpA) : Sig :=
  let m := mod300 w
  { d := .pd, a := srcA m (vw m), b := srcB m (vw m), ok := m.type ≤ 3 && m.cond ≤ 5 }

/- Vector floating point, OP 0x0D (R360, R361, R363). -/

/-- FADD, FSUB, FMUL. -/
def sigF3 (w : OpA) : Sig :=
  let m := mod300 w
  { d := .v, a := srcA m .v, b := srcB m .v, ok := m.type ≤ 2 }
def sigFfma (w : OpA) : Sig :=
  let m := mod300 w
  { d := .v, a := srcA m .v, b := srcB m .v, c := .v, ok := m.type ≤ 2 }
/-- FMIN, FMAX: NEGA and NEGB only. -/
def sigFmm (w : OpA) : Sig :=
  let m := mod300 w
  { d := .v, a := srcA m .v, b := srcB m .v, ok := m.type ≤ 2 && modAllowed m false false true true }
/-- FABS, FCLASS: no modifier. -/
def sigFun (w : OpA) : Sig :=
  let m := mod300 w
  { d := .v, a := srcA m .v, ok := m.type ≤ 2 && !m.bu && modAllowed m false false false false }
def sigFcmp (w : OpA) : Sig :=
  let m := mod300 w
  { d := .pd, a := srcA m .v, b := srcB m .v, ok := m.type ≤ 2 && m.cond ≤ 7 }
def sigFrnd (w : OpA) : Sig :=
  let m := mod300 w
  { d := .v, a := srcA m .v, ok := m.type ≤ 2 && !m.bu && modAllowed m true false true true }
/-- CVT: B and C hold format codes in [5:0]; a code is no register, so REPEAT does not step it. -/
def sigCvt (w : OpA) : Sig :=
  let m := mod300 w
  { d := .v, a := srcA m .v, b := .lim 63, c := .lim 63,
    ok := m.type == 0 && !m.bu && modAllowed m true true false false }
/-- The integer type code of I2F and F2I, C[1:0]; B, which must be zero, and C equal D in a short form (R363). -/
def intTypeC (w : OpA) : Nat := (match w.cRaw with | some c => c | none => w.dN) % 4
def sigI2f (w : OpA) : Sig :=
  let m := mod300 w
  { d := .v, a := srcA m (if 2 ≤ intTypeC w then .vp else .v), b := .lim 0, c := .lim 3,
    ok := m.type ≤ 2 && !m.bu && modAllowed m true true false false }
def sigF2i (w : OpA) : Sig :=
  let m := mod300 w
  { d := if 2 ≤ intTypeC w then .vp else .v, a := srcA m .v, b := .lim 0, c := .lim 3,
    ok := m.type ≤ 2 && !m.bu && modAllowed m true false false false }
/-- RCP to COSPI: f32 only; ROUND and SAT may be set, NEGA applies. -/
def sigTrans (w : OpA) : Sig :=
  let m := mod300 w
  { d := .v, a := srcA m .v, ok := m.type == 0 && !m.bu && modAllowed m true true true false }

/- Cross-lane, OP 0x0E (R365 to R368), and predicates, OP 0x0F (R369). -/

def sigShfl (w : OpA) : Sig :=
  { d := .v, a := .v, b := if w.md 8 8 == 1 then .s 1 else .v,
    ok := w.md 5 2 ≤ 10 && w.md 7 6 == 0 && w.md 9 9 == 0 }
def sigScan (w : OpA) : Sig := { d := .v, a := .v, ok := redOk (w.md 2 0) (w.md 4 3) && w.md 9 6 == 0 }
def sigTopk (w : OpA) : Sig := { d := .vw 2, a := .v, b := .s 1, ok := w.md 1 0 ≤ 2 && w.md 9 3 == 0 }
def sigRand (w : OpA) : Sig := { d := .v, a := .v, b := .s 1, ok := w.modN == 0 }
def sigP3 (w : OpA) : Sig := { d := .pd, a := .p, b := .p, ok := w.md 9 2 == 0 }
def sigP2 (w : OpA) : Sig := { d := .pd, a := .p, ok := w.modN == 0 }
def sigPset (w : OpA) : Sig :=
  let au := w.md 9 9 == 1
  { d := .pd, a := if au then .s 1 else .v, ok := w.md 8 6 == 0 && w.md 5 0 ≤ (if au then 63 else 31) }

/- Synchronisation, OP 0x13 (R382), with the memory MOD of R301. -/

/-- SCOPE up to 5, STREAM and REC zero, and the SIZE and ORD given. -/
def syncOk (w : OpA) (ords sizes : List Nat) : Bool :=
  w.md 9 7 ≤ 5 && w.md 1 0 == 0 && ords.contains (w.md 6 5) && sizes.contains (w.md 4 2)
def sigFence (w : OpA) : Sig := { ok := syncOk w [0, 1, 2, 3] [0] }
def sigWaitp (w : OpA) : Sig := { d := .lim 3, a := .s 1, ok := w.modN == 0 }
def sigBarinit (w : OpA) : Sig := { a := .s 1, b := .s 1, ok := syncOk w [0, 2] [0] }
def sigBararr (w : OpA) : Sig := { d := .s 1, a := .s 1, ok := syncOk w [0, 2] [0] }
def sigBarwait (w : OpA) : Sig := { a := .s 1, b := .s 1, ok := syncOk w [0, 1] [0] }
def sigBarsync (w : OpA) : Sig := { a := .s 1, ok := syncOk w [0] [0] }
def sigWaitw (w : OpA) : Sig := { a := .s 1, b := .s 1, c := .lim 5, ok := syncOk w [0, 1] [4, 5] }
def sigQpush (w : OpA) : Sig := { a := .s 1, b := .v, ok := syncOk w [0, 2] [4] }
def sigQpop (w : OpA) : Sig := { d := .v, a := .s 1, ok := syncOk w [0, 1] [4] }

/- Layouts, OP 0x14, and engines, OP 0x15 (R389). -/

def sigLset (w : OpA) : Sig :=
  { d := .ly, a := if w.md 0 0 == 1 then .lim 63 else .s 8, ok := w.md 9 1 == 0 }
def sigLget (w : OpA) : Sig := { d := .s 8, a := .ly, ok := w.modN == 0 }
def sigLchain (w : OpA) : Sig := { d := .ly, a := .ly, b := .ly, ok := w.modN == 0 }
def sigLpart (w : OpA) : Sig := { d := .ly, a := .ly, b := .s 1, ok := w.md 5 3 ≤ 4 && w.md 9 6 == 0 }
def sigLtrans (w : OpA) : Sig := { d := .ly, a := .ly, b := .s 1, ok := w.modN == 0 }
def sigLflat (w : OpA) : Sig := { d := .ly, a := .ly, ok := w.md 9 3 == 0 }
def sigLslice (w : OpA) : Sig := { d := .ly, a := .ly, b := .s 1, ok := w.md 9 3 == 0 }
def sigLcheck (w : OpA) : Sig := { a := .tile, ok := w.md 2 0 ≤ 5 && w.md 9 3 == 0 }
def sigHset (w : OpA) : Sig := { d := .h, a := .s 2, ok := w.modN == 0 }
def sigHget (w : OpA) : Sig := { d := .s 2, a := .h, ok := w.modN == 0 }
def sigCopy (w : OpA) : Sig :=
  { d := .tile, a := .tile, ok := w.md 9 7 ≤ 5 && (w.md 6 5 == 0 || w.md 6 5 == 2) && w.md 4 2 == 0 }
def sigTlwait (w : OpA) : Sig :=
  { d := .lim 3, a := .s 1, ok := w.md 9 7 ≤ 5 && w.md 6 5 ≤ 1 && w.md 4 0 == 0 }
def sigTlread (w : OpA) : Sig := { d := .s 2, a := .lim 3, ok := w.modN == 0 }
def sigBankcfg (w : OpA) : Sig := { a := .s 1, ok := w.md 1 0 ≤ 2 && w.md 9 2 == 0 }

/- Matrix, OP 0x16, and moment, OP 0x17 (R402, R413, R418). -/

def sigMma (w : OpA) : Sig := { d := .acc, a := .tile, b := .tile, ok := w.modN == 0 }
def sigMma2 (w : OpA) : Sig := { d := .accE, a := .tile, b := .tile, ok := w.modN == 0 }
def sigAccz (w : OpA) : Sig := { d := .acc, ok := w.modN == 0 }
def sigAccld (w : OpA) : Sig := { d := .acc, a := .tile, ok := w.modN == 0 }
/-- The MOD of DRAIN and MDRAIN (R413): register form MOD[3] = 1 with [2:0] zero; memory form SCOPE, ORD 0 or 2,
[2] zero. -/
def drainOk (w : OpA) : Bool :=
  if w.md 3 3 == 1 then w.md 2 0 == 0
  else w.md 9 7 ≤ 5 && (w.md 6 5 == 0 || w.md 6 5 == 2) && w.md 2 2 == 0
def sigDrain (w : OpA) : Sig :=
  if w.md 3 3 == 1 then { d := .vb, a := .acc, b := .ly, ok := drainOk w }
  else { d := .tile, a := .acc, ok := drainOk w }
def sigMdrain (w : OpA) : Sig :=
  if w.md 3 3 == 1 then { d := .mb, a := .accE, b := .ly, ok := drainOk w }
  else { d := .tile, a := .accE, ok := drainOk w }
def sigFmtset (w : OpA) : Sig :=
  match w.md 9 8 with
  | 0 => { a := .s 1, ok := w.md 7 0 == 0 }
  | 3 => { ok := w.md 7 5 == 0 }
  | _ => { a := .s 1, ok := w.md 7 6 == 0 }
def sigFmtget (w : OpA) : Sig := { d := .s 1, ok := w.modN == 0 }
def sigMset (w : OpA) : Sig := { d := .m, a := .v, b := .v, ok := w.modN == 0 }
def sigMcoll (w : OpA) : Sig :=
  { d := .v, a := .m, b := if w.md 1 0 == 3 then .v else .no, ok := w.md 9 2 == 0 }
/-- MADD, MSUB, MMUL, MFMA: C always names a vector register (R402). -/
def sigM4 (w : OpA) : Sig := { d := .m, a := .m, b := .m, c := .v, ok := w.modN == 0 }
def sigMscale (w : OpA) : Sig :=
  { d := .m, a := .m, b := if w.md 8 8 == 1 then .s 1 else .v, ok := w.md 9 9 == 0 && w.md 7 0 == 0 }
def sigM2 (w : OpA) : Sig := { d := .m, a := .m, ok := w.modN == 0 }

/- Irregular, OP 0x18 (R421), and system, OP 0x19 (R435). -/

def sigExpand (w : OpA) : Sig :=
  { a := .v, b := .v, c := .s 1,
    ok := w.md 4 3 ≤ 2 && w.md 9 6 == 0 && (w.md 0 0 == 1 || w.md 2 1 == 0) }
def sigExnext (w : OpA) : Sig := { d := .vw 2, c := .pd, ok := w.md 9 2 == 0 }
def sigSegred (w : OpA) : Sig := { a := .v, b := .v, ok := w.modN == 0 }
def sigExdone (w : OpA) : Sig := { d := .v, ok := w.modN == 0 }
def sigExsave (w : OpA) : Sig := { d := .lim 3, a := .s 1, ok := w.modN == 0 }
def sigExrstr (w : OpA) : Sig := { a := .s 1, ok := w.modN == 0 }
def sigHins (w : OpA) : Sig :=
  { d := .v, a := .v, b := .s 1, c := .pd, ok := 1 ≤ w.md 4 0 && w.md 4 0 ≤ 18 && w.md 9 7 == 0 }
def sigHprobe (w : OpA) : Sig :=
  { d := .v, a := .v, b := .s 1, c := .pd, ok := 1 ≤ w.md 4 0 && w.md 4 0 ≤ 18 && w.md 9 5 == 0 }
def sigFetch (w : OpA) : Sig := { d := .vb, a := .v, b := .s 1, c := .tile, ok := w.modN == 0 }
def sigTrap (w : OpA) : Sig := { d := .lim 255, a := .lim 255, ok := w.modN == 0 }
def sigTretTo (w : OpA) : Sig := { a := .s 1, ok := w.modN == 1 }
/-- MOVUSER (R435, R439): A names v240 to v255 or s56 to s63 of the interrupted context. -/
def sigMovuser (w : OpA) : Sig :=
  let scalar := w.md 0 0 == 1
  { d := if scalar then .s 1 else .v, a := if scalar then .lims 56 63 else .lims 240 255, ok := w.md 9 3 == 0 }
def sigSaddr (w : OpA) : Sig := { a := .s 1, ok := w.modN == 0 }
/-- RCLAIM and RREL: n in field A, or an s register with S = 1. -/
def sigClaim (w : OpA) : Sig := { a := if w.md 0 0 == 1 then .s 1 else .lim 255, ok := w.md 9 1 == 0 }
def sigSdst (w : OpA) : Sig := { d := .s 1, ok := w.modN == 0 }
def sigTreshape (w : OpA) : Sig := { ok := w.md 9 1 == 0 }

/- Format M: LDF 0x10, STF 0x11 (R370), ATOM 0x12 (R379), with the memory MOD of R301. -/

end Sys2Proof.Machine

namespace Sys2Proof

def OpM.dN (w : OpM) : Nat := w.d.toNat
def OpM.aN (w : OpM) : Nat := w.a.toNat
def OpM.sbN (w : OpM) : Nat := w.sb.toNat
/-- Bits [hi:lo] of MOD. -/
def OpM.md (w : OpM) (hi lo : Nat) : Nat := Machine.nbits w.mod.toNat hi lo
def OpM.scope (w : OpM) : Nat := w.md 9 7
def OpM.ord (w : OpM) : Nat := w.md 6 5
def OpM.size (w : OpM) : Nat := w.md 4 2
def OpM.stream (w : OpM) : Bool := w.md 1 1 == 1
def OpM.isRec (w : OpM) : Bool := w.md 0 0 == 1
def OpM.gN (w : OpM) : Nat := w.g.toNat

end Sys2Proof

namespace Sys2Proof.Machine

/-- The access size in bytes of a SIZE code (R301). -/
def sizeBytes (sz : Nat) : Nat := match sz with | 0 => 1 | 1 => 1 | 2 => 2 | 3 => 2 | 4 => 4 | 5 => 8 | _ => 16

/-- The registers a per-lane data operand takes (R371); with REC the record decides, and one is checked here. -/
def dataFld (w : OpM) : Fld :=
  if w.isRec then .v else match w.size with | 5 => .vp | 6 => .vg 4 4 | _ => .v

/-- SCOPE up to 5, ORD and SIZE within the cells of R370, REC only where allowed. -/
def memOk (w : OpM) (sizes ords : List Nat) (recOk : Bool) : Bool :=
  w.scope ≤ 5 && ords.contains w.ord && sizes.contains w.size && (recOk || !w.isRec)

def sizes06 : List Nat := [0, 1, 2, 3, 4, 5, 6]

def sigLd (w : OpM) : Sig := { d := dataFld w, a := .v, ok := memOk w sizes06 [0, 1] true }
def sigLds (w : OpM) : Sig := { d := .s 1, ok := memOk w [0, 1, 2, 3, 4, 5] [0, 1] false }
def sigLdb (w : OpM) : Sig := { d := dataFld w, ok := memOk w sizes06 [0, 1] false }
def sigLdres (w : OpM) : Sig := { d := dataFld w, a := .v, ok := memOk w [4, 5] [0, 1] false }
/-- PREF and PROBE: D zero, relaxed only. -/
def sigPref (w : OpM) : Sig := { a := .v, ok := memOk w sizes06 [0] false }
/-- LDT and STT: the register layout in SB[3:0], IMM10 zero, SIZE 4. -/
def sigLdt (w : OpM) : Sig :=
  { d := .vb, a := .tile, ok := memOk w [4] [0, 1] false && w.sbN < 16 && w.imm == 0 }
def sigSt (w : OpM) : Sig := { d := dataFld w, a := .v, ok := memOk w sizes06 [0, 2] true }
def sigSts (w : OpM) : Sig := { d := .s 1, ok := memOk w [0, 1, 2, 3, 4, 5] [0, 2] false }
def sigStb (w : OpM) : Sig := { d := dataFld w, ok := memOk w sizes06 [0, 2] false }
/-- STCOND: IMM10[9:7] is the predicate, p1 to p7. -/
def sigStcond (w : OpM) : Sig :=
  { d := dataFld w, a := .v, ok := memOk w [4, 5] [0, 1, 2, 3] false && bits w.imm 9 7 != 0 }
def sigStt (w : OpM) : Sig :=
  { d := .vb, a := .tile, ok := memOk w [4] [0, 2] false && w.sbN < 16 && w.imm == 0 }

/-- ATOM (R379): `sizes` are the SIZE codes of the function; SGN is 1 exactly for signed MIN and MAX; with REC the
SIZE field is a field number and the record gives the type. -/
def atomOk (w : OpM) (sizes : List Nat) (sgn : Bool) : Bool :=
  w.scope ≤ 5 && (if w.isRec then w.size ≤ 6 else sizes.contains w.size) && (sgn || !w.stream)
def atomFld (w : OpM) : Fld := if w.isRec then .v else match w.size with | 5 => .vp | _ => .v
def sigAtom (sgn : Bool) (w : OpM) : Sig := { d := atomFld w, a := .v, ok := atomOk w [4, 5] sgn }
def sigCas (w : OpM) : Sig :=
  { d := if w.isRec then .v else match w.size with | 4 => .vn 2 | 5 => .vg 4 2 | _ => .vg 8 4,
    a := .v, ok := atomOk w [4, 5, 6] false }
def sigFadd (w : OpM) : Sig := { d := .v, a := .v, ok := atomOk w [0, 1, 4] false }

/-- Stage 5 of R315 for a format-M instruction. -/
def Sig.stage5M (g : Sig) (w : OpM) : Bool := g.ok && g.d.legal w.dN && g.a.legal w.aN

/-- Stage 7 (R126) for a format-M instruction. -/
def Sig.rangeM (g : Sig) (A M ACCS : Nat) (tc : Bool) (w : OpM) : Option Nat :=
  (g.d.outside A M ACCS tc w.dN).or (g.a.outside A M ACCS tc w.aN)

end Sys2Proof.Machine
end

