-- ==== Sys2Proof/Machine/Form.lean ====
section
/-! DEFINITION. The form of each instruction: its opcode and function (R312, R330's index), its operand fields and the
signature that checks them. -/

namespace Sys2Proof.Machine

/-- The forms of R293 to R298; `dev` is a step that is no instruction word. -/
inductive Form where
  | a (op fn : Nat) (w : OpA) (g : Sig)
  | m (op fn : Nat) (w : OpM) (g : Sig)
  | i7 (op : Nat) (w : OpI7) (lane useA : Bool)
  | i30 (op : Nat) (w : OpI30) (lane useA : Bool)
  | b (op : Nat) (w : OpB)
  | brc (w : OpBRC)
  | p (w : OpP)
  | dev
  deriving DecidableEq, Repr

/-- The form of an instruction (R312). -/
def form : Instr → Form
  | .bra w => .b 0 w
  | .bru w => .b 2 w
  | .call w => .b 3 w
  | .brc w => .brc w
  | .repeatN w => .p w
  | .smovi w => .i7 7 w false false
  | .smoviImm30 w => .i30 7 w false false
  | .saddi w => .i7 8 w false true
  | .saddiImm30 w => .i30 8 w false true
  | .iaddi w => .i7 11 w true true
  | .iaddiImm30 w => .i30 11 w true true
  | .movi w => .i7 12 w true false
  | .moviImm30 w => .i30 12 w true false
  | .jmpi w => .a 4 0 w (sigJmpi w)
  | .calli w => .a 4 1 w (sigCalli w)
  | .ret w => .a 4 2 w (sigNone w)
  | .join w => .a 4 3 w (sigNone w)
  | .yield w => .a 4 4 w (sigNone w)
  | .exit w => .a 4 5 w (sigNone w)
  | .nop w => .a 4 6 w (sigNone w)
  | .eqpt w => .a 4 7 w (sigEqpt w)
  | .migrate w => .a 4 8 w (sigMigrate w)
  | .launch w => .a 4 9 w (sigLaunch w)
  | .waitchild w => .a 4 10 w (sigWaitchild w)
  | .smov w => .a 6 0 w (sigS2 w)
  | .sadd w => .a 6 1 w (sigS3Sat w)
  | .ssub w => .a 6 2 w (sigS3Sat w)
  | .smul w => .a 6 3 w (sigS3Sat w)
  | .smad w => .a 6 4 w (sigS4Sat w)
  | .sand w => .a 6 5 w (sigS3 w)
  | .sor w => .a 6 6 w (sigS3 w)
  | .sxor w => .a 6 7 w (sigS3 w)
  | .sshl w => .a 6 8 w (sigS3 w)
  | .sshr w => .a 6 9 w (sigS3 w)
  | .ssar w => .a 6 10 w (sigS3 w)
  | .smin w => .a 6 11 w (sigS3 w)
  | .smax w => .a 6 12 w (sigS3 w)
  | .scmp w => .a 6 13 w (sigScmp w)
  | .ssel w => .a 6 14 w (sigSsel w)
  | .gets w => .a 9 0 w (sigGets w)
  | .sets w => .a 9 1 w (sigSets w)
  | .vote w => .a 9 2 w (sigVote w)
  | .red w => .a 9 3 w (sigRed w)
  | .sldp w => .a 9 4 w (sigSldp w)
  | .qop w => .a 9 5 w (sigQop w)
  | .iadd w => .a 10 0 w (sigI3 true w)
  | .isub w => .a 10 1 w (sigI3 true w)
  | .imul w => .a 10 2 w (sigI3 true w)
  | .imulh w => .a 10 3 w (sigI3 false w)
  | .imad w => .a 10 4 w (sigImad w)
  | .imin w => .a 10 5 w (sigI3 false w)
  | .imax w => .a 10 6 w (sigI3 false w)
  | .iabs w => .a 10 7 w (sigIabs w)
  | .vand w => .a 10 8 w (sigLogic w)
  | .vor w => .a 10 9 w (sigLogic w)
  | .vxor w => .a 10 10 w (sigLogic w)
  | .vnot w => .a 10 11 w (sigUn w)
  | .shl w => .a 10 12 w (sigShift w)
  | .shr w => .a 10 13 w (sigShift w)
  | .sar w => .a 10 14 w (sigShift w)
  | .rot w => .a 10 15 w (sigShift w)
  | .popc w => .a 10 16 w (sigCount w)
  | .clz w => .a 10 17 w (sigCount w)
  | .brev w => .a 10 18 w (sigUn w)
  | .bfe w => .a 10 19 w (sigShift w)
  | .bfi w => .a 10 20 w (sigBfi w)
  | .sel w => .a 10 21 w (sigSel w)
  | .mov w => .a 10 22 w (sigUn w)
  | .lane w => .a 10 23 w (sigLane w)
  | .icmp w => .a 10 24 w (sigIcmp w)
  | .fadd w => .a 13 0 w (sigF3 w)
  | .fsub w => .a 13 1 w (sigF3 w)
  | .fmul w => .a 13 2 w (sigF3 w)
  | .ffma w => .a 13 3 w (sigFfma w)
  | .fmin w => .a 13 4 w (sigFmm w)
  | .fmax w => .a 13 5 w (sigFmm w)
  | .fabs w => .a 13 6 w (sigFun w)
  | .fcmp w => .a 13 7 w (sigFcmp w)
  | .fclass w => .a 13 8 w (sigFun w)
  | .frnd w => .a 13 9 w (sigFrnd w)
  | .cvt w => .a 13 10 w (sigCvt w)
  | .i2f w => .a 13 11 w (sigI2f w)
  | .f2i w => .a 13 12 w (sigF2i w)
  | .rcp w => .a 13 13 w (sigTrans w)
  | .rsq w => .a 13 14 w (sigTrans w)
  | .sqrt w => .a 13 15 w (sigTrans w)
  | .exp2 w => .a 13 16 w (sigTrans w)
  | .log2 w => .a 13 17 w (sigTrans w)
  | .sinpi w => .a 13 18 w (sigTrans w)
  | .cospi w => .a 13 19 w (sigTrans w)
  | .shfl w => .a 14 0 w (sigShfl w)
  | .scan w => .a 14 1 w (sigScan w)
  | .topk w => .a 14 2 w (sigTopk w)
  | .rand w => .a 14 3 w (sigRand w)
  | .pand w => .a 15 0 w (sigP3 w)
  | .por w => .a 15 1 w (sigP3 w)
  | .pxor w => .a 15 2 w (sigP3 w)
  | .pnot w => .a 15 3 w (sigP2 w)
  | .pmov w => .a 15 4 w (sigP2 w)
  | .pset w => .a 15 5 w (sigPset w)
  | .fence w => .a 19 0 w (sigFence w)
  | .waitp w => .a 19 1 w (sigWaitp w)
  | .barinit w => .a 19 2 w (sigBarinit w)
  | .bararr w => .a 19 3 w (sigBararr w)
  | .barwait w => .a 19 4 w (sigBarwait w)
  | .barsync w => .a 19 5 w (sigBarsync w)
  | .waitw w => .a 19 6 w (sigWaitw w)
  | .qpush w => .a 19 7 w (sigQpush w)
  | .qpop w => .a 19 8 w (sigQpop w)
  | .lset w => .a 20 0 w (sigLset w)
  | .lget w => .a 20 1 w (sigLget w)
  | .lchain w => .a 20 2 w (sigLchain w)
  | .lpart w => .a 20 3 w (sigLpart w)
  | .ltrans w => .a 20 4 w (sigLtrans w)
  | .lflat w => .a 20 5 w (sigLflat w)
  | .lslice w => .a 20 6 w (sigLslice w)
  | .lcheck w => .a 20 7 w (sigLcheck w)
  | .hset w => .a 20 8 w (sigHset w)
  | .hget w => .a 20 9 w (sigHget w)
  | .copy w => .a 21 0 w (sigCopy w)
  | .tlwait w => .a 21 1 w (sigTlwait w)
  | .tlread w => .a 21 2 w (sigTlread w)
  | .bankcfg w => .a 21 3 w (sigBankcfg w)
  | .mma w => .a 22 0 w (sigMma w)
  | .mma2 w => .a 22 1 w (sigMma2 w)
  | .accz w => .a 22 2 w (sigAccz w)
  | .accld w => .a 22 3 w (sigAccld w)
  | .drain w => .a 22 4 w (sigDrain w)
  | .fmtset w => .a 22 5 w (sigFmtset w)
  | .fmtget w => .a 22 6 w (sigFmtget w)
  | .mset w => .a 23 0 w (sigMset w)
  | .mcoll w => .a 23 1 w (sigMcoll w)
  | .madd w => .a 23 2 w (sigM4 w)
  | .msub w => .a 23 3 w (sigM4 w)
  | .mmul w => .a 23 4 w (sigM4 w)
  | .mfma w => .a 23 5 w (sigM4 w)
  | .mscale w => .a 23 6 w (sigMscale w)
  | .mrelu w => .a 23 7 w (sigM2 w)
  | .msigm w => .a 23 8 w (sigM2 w)
  | .mexp w => .a 23 9 w (sigM2 w)
  | .mmov w => .a 23 10 w (sigM2 w)
  | .mmma w => .a 23 11 w (sigMma2 w)
  | .mdrain w => .a 23 12 w (sigMdrain w)
  | .expand w => .a 24 0 w (sigExpand w)
  | .exnext w => .a 24 1 w (sigExnext w)
  | .segred w => .a 24 2 w (sigSegred w)
  | .exdone w => .a 24 3 w (sigExdone w)
  | .exsave w => .a 24 4 w (sigExsave w)
  | .exrstr w => .a 24 5 w (sigExrstr w)
  | .hins w => .a 24 6 w (sigHins w)
  | .hprobe w => .a 24 7 w (sigHprobe w)
  | .fetch w => .a 24 8 w (sigFetch w)
  | .trap w => .a 25 0 w (sigTrap w)
  | .tret w => .a 25 1 w (sigNone w)
  | .tretTo w => .a 25 1 w (sigTretTo w)
  | .bkpt w => .a 25 2 w (sigNone w)
  | .movuser w => .a 25 3 w (sigMovuser w)
  | .splitsv w => .a 25 4 w (sigSaddr w)
  | .splitld w => .a 25 5 w (sigSaddr w)
  | .tsaved w => .a 25 6 w (sigNone w)
  | .rclaim w => .a 25 7 w (sigClaim w)
  | .rrel w => .a 25 8 w (sigClaim w)
  | .rquery w => .a 25 9 w (sigSdst w)
  | .treshape w => .a 25 10 w (sigTreshape w)
  | .leaseclk w => .a 25 11 w (sigSdst w)
  | .ld w => .m 16 0 w (sigLd w)
  | .lds w => .m 16 1 w (sigLds w)
  | .ldb w => .m 16 2 w (sigLdb w)
  | .ldres w => .m 16 3 w (sigLdres w)
  | .pref w => .m 16 4 w (sigPref w)
  | .probe w => .m 16 5 w (sigPref w)
  | .ldt w => .m 16 6 w (sigLdt w)
  | .st w => .m 17 0 w (sigSt w)
  | .sts w => .m 17 1 w (sigSts w)
  | .stb w => .m 17 2 w (sigStb w)
  | .stcond w => .m 17 3 w (sigStcond w)
  | .stt w => .m 17 4 w (sigStt w)
  | .atomAdd w => .m 18 0 w (sigAtom false w)
  | .atomMin w => .m 18 1 w (sigAtom true w)
  | .atomMax w => .m 18 2 w (sigAtom true w)
  | .atomAnd w => .m 18 3 w (sigAtom false w)
  | .atomOr w => .m 18 4 w (sigAtom false w)
  | .atomXor w => .m 18 5 w (sigAtom false w)
  | .atomXchg w => .m 18 6 w (sigAtom false w)
  | .atomCas w => .m 18 7 w (sigCas w)
  | .atomFadd w => .m 18 8 w (sigFadd w)
  | .retrainComplete _ _ => .dev
  | .orangeryDecay _ _ => .dev
  | .tempHigh _ => .dev
  | .islandRaise _ => .dev
  | .thermalTrip _ _ => .dev
  | .flitCrcFail _ => .dev
  | .flitReplayResult _ _ _ => .dev
  | .modulePauseEnd _ => .dev
  | .portNoPartner _ => .dev
  | .portHoldTimeout _ => .dev
  | .fabricCompletion _ => .dev
  | .expanderFail _ => .dev
  | .eccUncorrectable _ => .dev
  | .eccRereadResult _ => .dev
  | .queueMonitorWake _ _ => .dev
  | .takeRecord _ _ _ => .dev
  | .descriptorReread _ _ => .dev
  | .dependenceWake _ => .dev
  | .takeChildRecord _ _ => .dev
  | .launchRetry _ _ => .dev
  | .placeWorkgroup _ _ => .dev
  | .restoreWorkgroup _ => .dev
  | .gridBlocking _ _ => .dev
  | .childRescuePreempt _ _ => .dev
  | .priorityPreempt _ _ => .dev
  | .partitionTurn _ => .dev
  | .gridFailure _ => .dev
  | .gridRetire _ => .dev
  | .claimGrant _ => .dev
  | .migrationServe _ _ => .dev
  | .migrationComplete _ => .dev
  | .digestCheck _ _ => .dev
  | .preemptDelivery _ => .dev
  | .trapEntry _ _ => .dev
  | .faultQueueWrite _ => .dev
  | .faultResume _ => .dev
  | .monitorWake _ _ => .dev
  | .fifoServe _ _ => .dev
  | .homeWrite _ _ _ => .dev
  | .loadComplete _ => .dev
  | .storeAck _ => .dev
  | .atomicComplete _ => .dev
  | .gatherComplete _ => .dev
  | .releaseFenceComplete _ _ => .dev
  | .walkComplete _ _ _ => .dev
  | .reservationTimeout _ _ => .dev
  | .fairnessRotate _ => .dev
  | .grottoSpillDone _ _ => .dev
  | .grottoReloadDone _ _ => .dev
  | .phaseSteal _ _ => .dev
  | .copyEngineStart _ => .dev
  | .copyChunk _ _ => .dev
  | .copyComplete _ _ => .dev
  | .drainOperationComplete _ _ => .dev
  | .matrixStart _ => .dev
  | .matrixComplete _ => .dev
  | .drainChunk _ _ => .dev
  | .bankcfgChangeComplete _ _ => .dev
  | .powerOn => .dev
  | .bringupStepTimeout => .dev
  | .hostLinkRetry => .dev
  | .bringupStepDone => .dev
  | .state => .dev
  | .capset => .dev
  | .pcreate => .dev
  | .premove => .dev
  | .preport => .dev
  | .linkst => .dev
  | .retrain => .dev
  | .routewr => .dev
  | .pkgnum => .dev
  | .measure => .dev
  | .fwload => .dev
  | .errcnt => .dev
  | .event => .dev
  | .mailboxUnsupported => .dev
  | .qtbaseWrite => .dev
  | .pctlGo => .dev
  | .pctlHold => .dev
  | .registerWrite => .dev
  | .hostMemWrite => .dev
  | .hostMemRead => .dev
  | .hostSnoop => .dev
  | .fabricRequest => .dev
  | .translatedBodyInstall => .dev

/-- Stage 5 of R315, but for the bank rule: must-be-zero fields, register classes, MOD values. -/
def Form.stage5 : Form → Bool
  | .a _ _ w g => g.stage5 w
  | .m _ _ w g => g.stage5M w
  | .i7 _ w lane useA =>
      (lane || w.d.toNat ≤ 63) && (if useA then lane || w.a.toNat ≤ 63 else w.a == 0)
  | .i30 _ w lane useA =>
      (lane || w.d.toNat ≤ 63) && (if useA then lane || w.a.toNat ≤ 63 else w.a == 0) && w.imm7 == 0
  | .b op w => if op = 2 then w.psel.toNat ≤ 3 && !w.h else w.psel == 0 && !w.pn && !w.h
  | .brc w => w.rest == 0
  | .p w => w.stall == 0 && w.rest == 0
  | .dev => true

/-- The opcode (R293). -/
def Form.op : Form → Nat
  | .a op _ _ _ => op
  | .m op _ _ _ => op
  | .i7 op _ _ _ => op
  | .i30 op _ _ _ => op
  | .b op _ => op
  | .brc _ => 1
  | .p _ => 5
  | .dev => 64

/-- The function, where the format has one. -/
def Form.fn : Form → Nat
  | .a _ fn _ _ => fn
  | .m _ fn _ _ => fn
  | _ => 0

/-- STALL (R302). -/
def Form.stall : Form → Nat
  | .a _ _ w _ => w.stall.toNat
  | .m _ _ w _ => w.stall.toNat
  | .i7 _ w _ _ => w.stall.toNat
  | .i30 _ w _ _ => w.stall.toNat
  | .b _ w => w.stall.toNat
  | .brc w => w.stall.toNat
  | .p w => w.stall.toNat
  | .dev => 0

/-- How many words the instruction has (R294). -/
def Form.len : Form → Nat
  | .a _ _ w _ => if w.ext.isSome then 2 else 1
  | .m _ _ _ _ => 2
  | .i30 _ _ _ _ => 2
  | .brc _ => 2
  | .dev => 0
  | _ => 1

/-- The clause classes that accept the instruction in any slot (R292): VEC 0 to MIX 7; control instructions are
accepted in the last slot of any class. -/
def Form.classOk (f : Form) (cls : Nat) : Bool :=
  let op := f.op
  cls == 7 || (5 ≤ op && op ≤ 8) ||
  (match cls with
   | 0 => 5 ≤ op && op ≤ 15
   | 1 => 16 ≤ op && op ≤ 19
   | 2 => op == 22 || (op == 23 && 11 ≤ f.fn)
   | 3 => op == 20 || op == 21
   | 4 => op == 23 || (op == 22 && (f.fn == 0 || f.fn == 4))
   | 5 => op == 24
   | 6 => op == 9 || op == 25
   | _ => false)

/-- Is it a control instruction, opcodes 0 to 4 (R292)? -/
def Form.control (f : Form) : Bool := f.op ≤ 4

/-- May a repeat prefix stand before it (R306)? -/
def Form.repeatable (f : Form) : Bool :=
  (f.op == 10 || f.op == 11 || f.op == 12 || f.op == 13 || f.op == 15) || (f.op == 23 && f.fn ≤ 10)

end Sys2Proof.Machine
end

