-- ==== Sys2Proof/Machine/Ops.lean ====
section
/-! DEFINITION. The named operations: registers (R114, R126, R268), bodies and kernel objects (R75 to R78), taking a
trap (R262 to R275), failing a grid (R73), moving past an instruction. -/

namespace Sys2Proof.Machine

/-! Teams and splits. -/

def State.setTeam (s : State) (tid : Nat) (t : Team) : State := { s with teams := s.teams.insert tid t }
def State.modWg (s : State) (w : Nat) (f : Wg → Wg) : State := { s with wgs := s.wgs.modify w f }
def State.gridOf (s : State) (g : Quad) : Option Grid := s.grids.find? (·.gid == g)
def State.modGrid (s : State) (g : Quad) (f : Grid → Grid) : State :=
  { s with grids := s.grids.map fun x => if x.gid == g then f x else x }
def Team.split? (t : Team) (sid : Nat) : Option Split := t.splits.find? (·.id == sid)
def Team.modSplit (t : Team) (sid : Nat) (f : Split → Split) : Team :=
  { t with splits := t.splits.map fun x => if x.id == sid then f x else x }
def Team.dropSplit (t : Team) (sid : Nat) : Team := { t with splits := t.splits.filter fun x => x.id != sid }
def Team.modJoin (t : Team) (j : Nat) (f : Join → Join) : Team :=
  { t with joins := t.joins.map fun x => if x.id == j then f x else x }
def State.coreOf (s : State) (c : CoreId) : Core := (s.cores.at? (coreKey c)).getD {}
def State.setCore (s : State) (c : CoreId) (x : Core) : State := { s with cores := s.cores.insert (coreKey c) x }
def State.wgOf (s : State) (t : Team) : Option Wg := s.wgs.at? t.wg
def State.pidOf (s : State) (t : Team) : Nat := ((s.wgOf t).map (·.pid)).getD 0
def State.teamGrid (s : State) (t : Team) : Option Grid := (s.wgOf t).bind fun w => s.gridOf w.grid
def State.ptbaseOf (s : State) (t : Team) : Nat := ((s.teamGrid t).map (·.ptbase)).getD 0
def State.akoOf (s : State) (t : Team) : Option Ako := (s.teamGrid t).bind (·.ako)
/-- Has a team migrated away from its workgroup's home core (R145)? -/
def State.migrated (s : State) (t : Team) : Bool := ((s.wgOf t).map fun w => w.home != t.core).getD false
/-- A field of a launch record (R69): quadword q, bits [hi:lo]. -/
def lrF (l : List Quad) (q hi lo : Nat) : Nat := bits (atD l q 0) hi lo
/-- Every lane of a team. -/
def Team.all (t : Team) : Mask := fullMask t.width
/-- Lanes still in the team (R111, R119). -/
def Team.live (t : Team) : Mask :=
  (t.splits.map (·.mask)).foldl (· ||| ·) ((t.joins.map (·.arrived)).foldl (· ||| ·) 0)
/-- Teams of a workgroup that have not ended. -/
def State.teamsOf (s : State) (w : Nat) : List (Nat × Team) := s.teams.filter fun e => e.2.wg == w
/-- mask words in use (R110). -/
def Team.words (t : Team) : Nat := ceilDiv t.width 32
/-- Converged: one split, no join record, nothing spilled (R141, code 0x01). -/
def Team.converged (t : Team) : Bool := t.splits.length == 1 && t.joins.isEmpty && t.uframe.isNone

/-! Registers; in trap context v240 to v255 and s56 to s63 are the Lodge frame's (R268). -/

def Team.frame (t : Team) (lvl : Nat) : Option Frame := if lvl == 1 then t.uframe else if lvl == 2 then t.kframe else none
def Team.setFrame (t : Team) (lvl : Nat) (f : Frame) : Team :=
  if lvl == 1 then { t with uframe := some f } else { t with kframe := some f }

/-- Read vr in a lane. -/
def Team.rdV (t : Team) (lvl r lane : Nat) : Word :=
  match (if 240 ≤ r then t.frame lvl else none) with
  | some f => f.v.get ((r - 240) * 1024 + lane)
  | none => t.v.get (r * 1024 + lane)
/-- Write vr in a lane. -/
def Team.wrV (t : Team) (lvl r lane : Nat) (x : Word) : Team :=
  match (if 240 ≤ r then t.frame lvl else none) with
  | some f => t.setFrame lvl { f with v := f.v.set ((r - 240) * 1024 + lane) x }
  | none => { t with v := t.v.set (r * 1024 + lane) x }
/-- Read sr. -/
def Team.rdS (t : Team) (lvl r : Nat) : Quad :=
  match (if 56 ≤ r then t.frame lvl else none) with
  | some f => f.s.get (r - 56)
  | none => t.s.get r
/-- Write sr. -/
def Team.wrS (t : Team) (lvl r : Nat) (x : Quad) : Team :=
  match (if 56 ≤ r then t.frame lvl else none) with
  | some f => t.setFrame lvl { f with s := f.s.set (r - 56) x }
  | none => { t with s := t.s.set r x }
/-- Read a 64-bit pair (R354). -/
def Team.rdV64 (t : Team) (lvl r lane : Nat) : Quad := t.rdV lvl (r + 1) lane ++ t.rdV lvl r lane
/-- Write a 64-bit pair. -/
def Team.wrV64 (t : Team) (lvl r lane : Nat) (x : Quad) : Team :=
  (t.wrV lvl r lane (x.extractLsb' 0 32)).wrV lvl (r + 1) lane (x.extractLsb' 32 32)
/-- Read pn as a lane mask; p0 is always true (R353). -/
def Team.rdP (t : Team) (n : Nat) : Mask := if n == 0 then BitVec.allOnes 1024 else t.p.get n
/-- Write pn in the selected lanes. -/
def Team.wrP (t : Team) (n : Nat) (sel bits : Mask) : Team :=
  if n == 0 then t else { t with p := t.p.set n ((t.p.get n &&& ~~~sel) ||| (bits &&& sel)) }
/-- Read qn. -/
def Team.rdQ (t : Team) (n : Nat) : Bool := t.q.getLsbD n
/-- Write qn. -/
def Team.wrQ (t : Team) (n : Nat) (b : Bool) : Team :=
  { t with q := (t.q &&& ~~~(1#4 <<< n)) ||| (if b then 1#4 <<< n else 0#4) }
/-- Read mn in a lane: the mean is the low word, the variance the high word (R246). -/
def Team.rdM (t : Team) (r lane : Nat) : Quad := t.m.get (r * 1024 + lane)
def Team.wrM (t : Team) (r lane : Nat) (x : Quad) : Team := { t with m := t.m.set (r * 1024 + lane) x }
/-- Write a register in several lanes. -/
def Team.wrVs (t : Team) (lvl r : Nat) (l : List (Nat × Word)) : Team := l.foldl (fun t e => t.wrV lvl r e.1 e.2) t
def Team.wrV64s (t : Team) (lvl r : Nat) (l : List (Nat × Quad)) : Team := l.foldl (fun t e => t.wrV64 lvl r e.1 e.2) t
/-- Set bits of FLAGS (R115, R242). -/
def Team.orFlags (t : Team) (f : Nat) : Team := { t with flags := t.flags ||| BitVec.ofNat 64 f }

/-! The split that issues. -/

/-- The issuing split in its team. -/
structure Ctx where
  s   : State
  tid : Nat
  t   : Team
  sp  : Split
  ov  : List (Nat × Nat × Nat × Nat) := []   -- values read early: kind (R77), register, lane, value (R303)

/-- Run a meaning for the issuing split. -/
def withCtx (s : State) (k : Ctx → Out) : Out :=
  match s.cur with
  | none => .fault .noSplit
  | some (tid, sid) =>
    match s.teams.at? tid with
    | none => .fault .noSplit
    | some t =>
      match t.split? sid with
      | none => .fault .noSplit
      | some sp => k { s := s, tid := tid, t := t, sp := sp }

/-- Put the team back. -/
def Ctx.put (c : Ctx) (t : Team) : State := c.s.setTeam c.tid t
/-- Active lanes, ascending (R113); under a serviced resumption only the lanes left (R275). -/
def Ctx.active (c : Ctx) : Mask := match c.sp.redo with | some r => c.sp.mask &&& r | none => c.sp.mask
def Ctx.lanes (c : Ctx) (m : Mask) : List Nat := maskLanes m c.t.width
/-- A value that a read before its write's completion returns. -/
def Ctx.early? (c : Ctx) (kind reg lane : Nat) : Option Nat :=
  (c.ov.find? fun e => e.1 == kind && e.2.1 == reg && e.2.2.1 == lane).map (·.2.2.2)
/-- The sources as the instruction reads them. -/
def Ctx.rdV (c : Ctx) (r lane : Nat) : Word :=
  match c.early? 0 r lane with | some x => BitVec.ofNat 32 x | none => c.t.rdV c.sp.lvl r lane
def Ctx.rdV64 (c : Ctx) (r lane : Nat) : Quad := c.rdV (r + 1) lane ++ c.rdV r lane
def Ctx.rdS (c : Ctx) (r : Nat) : Quad :=
  match c.early? 1 r 0 with | some x => BitVec.ofNat 64 x | none => c.t.rdS c.sp.lvl r
def Ctx.rdP (c : Ctx) (n : Nat) : Mask :=
  if c.ov.isEmpty then c.t.rdP n
  else (c.lanes c.t.all).foldl (fun m l => match c.early? 2 n l with
    | some x => if x == 1 then m ||| (1#1024 <<< l) else m &&& ~~~(1#1024 <<< l)
    | none => m) (c.t.rdP n)
def Ctx.rdQ (c : Ctx) (n : Nat) : Bool :=
  match c.early? 3 n 0 with | some x => x == 1 | none => c.t.rdQ n
def Ctx.rdM (c : Ctx) (r lane : Nat) : Quad :=
  match c.early? 4 r lane with | some x => BitVec.ofNat 64 x | none => c.t.rdM r lane
/-- A guard as a lane mask. -/
def Ctx.guard (c : Ctx) (g : Nat) (gn : Bool) : Mask := if gn then ~~~(c.rdP g) else c.rdP g
/-- Writing lanes of a guard (R353). -/
def Ctx.writing (c : Ctx) (g : Nat) (gn : Bool) : Mask := c.active &&& c.guard g gn

/-- The split past an instruction of n words: the next slot of its clause, or the next clause header (R272, R290). -/
def nextSplit (n : Nat) (p : Split) : Split :=
  let p := { p with pc := p.pc + n, rep := none, redo := none, stage := 0, bpSkip := false, goal := none, image := none }
  match p.clause with
  | none => p
  | some c =>
    if c.count ≤ c.slot + 1 then { p with clause := none, intl := false }
    else { p with clause := some { c with slot := c.slot + 1 } }

/-- The split at a branch target: a clause header or an instruction start. -/
def jumpSplit (pc : Nat) (p : Split) : Split :=
  { p with pc := pc, clause := none, rep := none, redo := none, stage := 0, bpSkip := false, goal := none, image := none,
           intl := false }

/-- One instruction more of the window (R103): the count rises by its repetitions. -/
def countIssue (k : Nat) (p : Split) : Split :=
  { p with resv := p.resv.map fun r => { r with count := r.count + k } }

/-- How many times the instruction executes (R306). -/
def repsOf (p : Split) : Nat := match p.rep with | some r => r.cntm1.toNat + 1 | none => 1

/-- The team after the instruction, its split past n words. -/
def Ctx.doneTeam (c : Ctx) (t : Team) (n : Nat) : Team :=
  t.modSplit c.sp.id fun p => nextSplit n (countIssue (repsOf c.sp) p)
/-- The instruction is complete: the team it leaves, its length in words. -/
def Ctx.done (c : Ctx) (t : Team) (n : Nat) : Out := .next (c.put (c.doneTeam t n))
/-- The split parks with its PC at the instruction (R101). -/
def Ctx.parkIn (c : Ctx) (t : Team) (p : Park) : Out :=
  .next (c.put (t.modSplit c.sp.id fun x => { x with park := some p }))
def Ctx.park (c : Ctx) (p : Park) : Out := c.parkIn c.t p

/-! Bodies and tables of the kernel object. -/

/-- The translated body a team runs. -/
def State.transOf (s : State) (t : Team) : Option TransBody :=
  match t.body.kind with | .trans n => (s.trans.at? n).map (·.body) | _ => none

/-- Bytes at a virtual address under a team's page table, read by the device (R462). Cause 0 is a read held until a port of its
route is up again (R37), or until its data have been read again (R61). -/
def rdVa (s : State) (t : Team) (va n access : Nat) : Except TFault Nat :=
  match translate s t.core (s.pidOf t) t.wg (s.ptbaseOf t) va access with
  | .ok ⟨.mem pa, _⟩ =>
    if expanderDown s pa then .error ⟨0x9F, false⟩
    else if (!isLocal s pa && !routeCarries s (pkgOf pa)) || rereadHeld s t.core [(.mem pa, n)] then .error ⟨0, false⟩
    else .ok (s.rdMemN pa n)
  | .ok ⟨.scr w off, _⟩ =>
    if rereadHeld s t.core [(.scr w off, n)] then .error ⟨0, false⟩
    else .ok (leNat (((s.wgs.at? w).map fun x => x.scr.read off n).getD []))
  | .ok ⟨.treg _ _, _⟩ => .error ⟨0x11, false⟩
  | .error e => .error e

/-- Is a read at a virtual address held: until a port of its route is up again (R37), or until its data have been read again (R61)? -/
def readHeld (s : State) (t : Team) (va access : Nat) : Bool :=
  match translate s t.core (s.pidOf t) t.wg (s.ptbaseOf t) va access with
  | .ok ⟨.mem pa, _⟩ => (!isLocal s pa && !routeCarries s (pkgOf pa)) || rereadHeld s t.core [(.mem pa, 1)]
  | .ok tr => rereadHeld s t.core [(tr.loc, 1)]
  | .error _ => false

/-- Is a split parked (R101)? One whose read is held stands at its instruction. -/
def Split.parked (p : Split) : Bool := match p.park with | none => false | some (.held _ _) => false | some _ => true

/-- Quadwords at consecutive virtual addresses; each is read byte by byte where it is not aligned. -/
def rdQuads (s : State) (t : Team) (va : Nat) : Nat → Except (TFault × Nat) (List Nat)
  | 0 => .ok []
  | n + 1 =>
    match rdQuad with
    | .error e => .error e
    | .ok x => (rdQuads s t ((va + 8) % 2 ^ 64) n).map fun l => x :: l
where
  /-- The quadword at the address. -/
  rdQuad : Except (TFault × Nat) Nat :=
    if va % 8 == 0 then (rdVa s t va 8 0).mapError fun e => (e, va)
    else (List.range 8).foldl (fun r i =>
      match r, rdVa s t ((va + i) % 2 ^ 64) 1 0 with
      | .ok x, .ok b => .ok (x + b * 2 ^ (8 * i))
      | .error e, _ => .error e
      | _, .error e => .error (e, (va + i) % 2 ^ 64)) (.ok 0)

/-- The words that a fetch at an address of a kernel object may give, of which `w` stands there now: that one, the one where it lay
when the object was checked, and those that were there before (R80). -/
def codeChoices (s : State) (t : Team) (va : Nat) (w : Word) : List Word :=
  match (s.teamGrid t).bind fun g => g.code.at? va with
  | none => [w]
  | some c =>
    let was := BitVec.ofNat 32 (s.rdMemN c.pa 4)
    (if was == w then [w] else [w, was]) ++ c.olds

/-- Word i of the running body (R146), one of those that a change may leave (R80): fetched under the page table; a translated body's words are the service's. -/
def codeWord (s : State) (t : Team) (i : Nat) : Except TFault Word :=
  match s.transOf t with
  | some b => .ok (atD b.words i 0)
  | none =>
    let va := t.body.base + 4 * i
    (rdVa s t va 4 3).map fun n =>
      let w := BitVec.ofNat 32 n
      match codeChoices s t va w with
      | [] | [_] => w
      | l => atD l (Config.freeCode s.fresh va % l.length) w

/-- Bit i of the portable body's bitmap (R76). -/
def startBit (s : State) (t : Team) (i : Nat) : Except TFault Bool :=
  match s.akoOf t with
  | none => .ok false
  | some a => (rdVa s t (a.base + a.bitmap + i / 8) 1 0).map fun b => b.testBit (i % 8)

def BodyKind.native : BodyKind → Bool
  | .portable => false
  | _ => true

/-- What the check of word i as a branch target reads: the header in a native body, else the byte of the bitmap; address and
kind of access (R285). -/
def targetVa (s : State) (t : Team) (i : Nat) : Nat × Nat :=
  if t.body.kind.native then (t.body.base + 4 * i, 3)
  else match s.akoOf t with
    | some a => (a.base + a.bitmap + i / 8, 0)
    | none => (0, 0)

/-- Is word i an acceptable branch target of the running body (R133, R285)? -/
def targetOk (s : State) (t : Team) (i : Nat) : Except TFault Bool :=
  if t.body.len ≤ i then .ok false
  else if t.body.kind.native then (codeWord s t i).map isHeader
  else startBit s t i

/-- The address of word i of the running body (R146). -/
def Team.addrOf (t : Team) (i : Nat) : Quad :=
  match t.body.kind with
  | .trans _ => BitVec.ofNat 64 (2 ^ 63 + i)
  | _ => BitVec.ofNat 64 (t.body.base + 4 * i)

/-- The word index an address names in the running body, if it lies there. -/
def Team.indexOf (t : Team) (a : Quad) : Option Nat :=
  match t.body.kind with
  | .trans _ => if a.getLsbD 63 && a.toNat % 2 ^ 63 < t.body.len then some (a.toNat % 2 ^ 63) else none
  | _ =>
    let n := a.toNat
    if t.body.base ≤ n && n < t.body.base + 4 * t.body.len && (n - t.body.base) % 4 == 0 then
      some ((n - t.body.base) / 4) else none

/-- A correspondence entry (R78): word indices in the portable body, D-body and L-body. -/
structure Corr where
  p : Nat
  d : Nat
  l : Nat
  deriving DecidableEq, Repr

/-- Words of the correspondence table, from an address: a fault names the address (R462). -/
def readWords (s : State) (t : Team) (va : Nat) : Nat → Except (TFault × Nat) (List Nat)
  | 0 => .ok []
  | n + 1 =>
    match rdVa s t va 4 0 with
    | .error e => .error (e, va)
    | .ok w => (readWords s t (va + 4) n).map fun l => w :: l

/-- The correspondence table as it reads now (R78). -/
def readCorr (s : State) (t : Team) : Except (TFault × Nat) (List Corr) :=
  match s.akoOf t with
  | none => .ok []
  | some a => (readWords s t (a.base + a.corr) (3 * a.ncorr)).map fun l =>
      (List.range a.ncorr).map fun i => ⟨atD l (3 * i) 0, atD l (3 * i + 1) 0, atD l (3 * i + 2) 0⟩

/-- The read of the table that is held (R37, R61), on which a trap entry waits. -/
def corrHeldAt (s : State) (t : Team) : Option Nat :=
  match readCorr s t with | .error (e, va) => if e.cause == 0 then some va else none | .ok _ => none
def corrHeld (s : State) (t : Team) : Bool := (corrHeldAt s t).isSome

/-- The table, once it translates: a trap entry that finds a fault of it waits for its service (R462). -/
def corrTable (s : State) (t : Team) : List Corr := match readCorr s t with | .ok l => l | .error _ => []

/-- The fault of the table that the fault queue serves before a trap entry proceeds (R462). -/
def corrFault (s : State) (t : Team) : Option (Nat × Nat) :=
  match readCorr s t with | .error (e, va) => if e.served then some (e.cause, va) else none | .ok _ => none

def absent : Nat := 0xFFFFFFFF

/-- The pair of a list whose key is the greatest not above a number. -/
def greatestLe {α : Type} (key : α → Nat) (l : List α) (i : Nat) : Option α :=
  (l.filter fun x => key x ≤ i).foldl (fun m x => match m with
    | some y => if key y ≤ key x then some x else some y
    | none => some x) none

/-- The entry an index belongs to: the one whose own index is the greatest not above it, since a native index is the first
word derived from its portable instruction (R78). -/
def corrAt (tab : List Corr) (f : Corr → Nat) (i : Nat) : Option Corr :=
  greatestLe f (tab.filter fun c => f c != absent) i

/-- TPC2 (R146). -/
def tpc2Of (s : State) (t : Team) (pc : Nat) : Quad :=
  let tpc := t.addrOf pc
  match s.akoOf t with
  | none => tpc
  | some a =>
    let port := fun i => BitVec.ofNat 64 (a.base + a.pOff + 4 * i)
    let dAd := fun i => BitVec.ofNat 64 (a.base + a.dOff + 4 * i)
    let lAd := fun i => BitVec.ofNat 64 (a.base + a.lOff + 4 * i)
    let tab := corrTable s t
    match t.body.kind with
    | .nativeD => (match corrAt tab (·.d) pc with
        | some c => if c.l != absent && a.lLen != 0 then lAd c.l
            else if a.pLen != 0 && c.p != absent then port c.p else tpc
        | none => tpc)
    | .nativeL => (match corrAt tab (·.l) pc with
        | some c => if c.d != absent && a.dLen != 0 then dAd c.d
            else if a.pLen != 0 && c.p != absent then port c.p else tpc
        | none => tpc)
    | .trans n => (match (((s.trans.at? n).map (·.body)).bind fun b => greatestLe (·.2) b.corr pc) with
        | some e => port e.1
        | none => tpc)
    | .portable => (match corrAt tab (·.p) pc with
        | some c =>
          let own := if isL t.core then c.l else c.d
          let oth := if isL t.core then c.d else c.l
          let ad := fun lk i => if lk then lAd i else dAd i
          if own != absent then ad (isL t.core) own else if oth != absent then ad (!isL t.core) oth else tpc
        | none => tpc)

/-- The word of the running body at which the user handler starts (R263), before its check as a branch target: outside the
running body THBASE has the entry that TPC2 would have there (R146). -/
def handlerIndex (s : State) (t : Team) : Option Nat :=
  match t.indexOf t.thbase with
  | some i => some i
  | none =>
    match s.akoOf t with
    | none => none
    | some a =>
      let n := t.thbase.toNat
      let rel := fun off len => if a.base + off ≤ n && n < a.base + off + 4 * len && n % 4 == 0 then
        some ((n - a.base - off) / 4) else none
      let tab := corrTable s t
      let entry : Option Corr :=
        match rel a.pOff a.pLen, rel a.dOff a.dLen, rel a.lOff a.lLen with
        | some i, _, _ => corrAt tab (·.p) i
        | _, some i, _ => corrAt tab (·.d) i
        | _, _, some i => corrAt tab (·.l) i
        | _, _, _ => none
      entry.bind fun c =>
        match t.body.kind with
        | .portable => if c.p == absent then none else some c.p
        | .nativeD => if c.d == absent then none else some c.d
        | .nativeL => if c.l == absent then none else some c.l
        | .trans k => ((s.trans.at? k).map (·.body)).bind fun b => (b.corr.find? (·.1 == c.p)).map (·.2)

/-! Events and grid failure. -/

/-- Post an event (R51, R57): 64 are held; the oldest is dropped and OVERRUN noted. MSI-X vector 0 is signalled. -/
def postEvent (s : State) (type unit d1 d2 : Nat) : State :=
  let e : EventRec := { type := type, unit := unit, d1 := d1 % 2 ^ 32, d2 := d2 % 2 ^ 64 }
  let full := 64 ≤ s.dev.events.length
  let ev := if full then s.dev.events.drop 1 else s.dev.events
  { s with dev := { s.dev with events := ev ++ [e], overrun := s.dev.overrun || full, vectors := s.dev.vectors ++ [0] } }

/-- The failure word (R72). -/
def failWord (cause detail wg : Nat) : Quad := BitVec.ofNat 64 (2 ^ 63 + cause * 2 ^ 48 + detail * 2 ^ 40 + wg)

/-- The first failure of a grid is recorded for its owner (R73). -/
def reportFail (s : State) (g : Quad) (cause detail wg : Nat) : State :=
  s.modGrid g fun x => if x.fail.isSome then x else { x with fail := some (failWord cause detail wg) }

/-- PCTL fields (R99). -/
def pctlGoBit (x : Quad) : Bool := x.getLsbD 0
def pctlHoldBit (x : Quad) : Bool := x.getLsbD 3

/-- A pre-emption request ends when no targeted workgroup is left resident (R99). -/
def endRequests (s : State) : State :=
  s.preqs.foldl (fun s e =>
    let busy := e.2.targets.any fun w => ((s.wgs.at? w).map (·.live)).getD false
    if busy then s
    else
      let n := Nat.min e.2.saved 0xFFFFFFFF
      let r := s.pctl.get e.1
      let s := { s with preqs := s.preqs.erase e.1,
                        pctl := s.pctl.set e.1 (setBits (setBits (setBits r 0 0 0) 4 4 0) 47 16 n) }
      postEvent s 6 e.1 n 0) s

/-! Operating points (R11, R13, R15, R16, R25). -/

/-- The budget of a cluster island at an operating point, in W (R11). -/
def pointWatts (p : Nat) : Nat := match p with | 0 => 35 | 1 => 27 | 2 => 19 | _ => 12

/-- The power sum with partition 0 at a point (R16, R25). -/
def powerSum (s : State) (p0 : Nat) : Nat :=
  (List.range 64).foldl (fun n c =>
    match partOf s c with
    | 0 => n + pointWatts p0
    | p => n + pointWatts (((s.parts.at? p).map (·.opp)).getD 0)) 0
/-- The cluster budget in W: the cap less 560 W (R13). -/
def budget (cap : Nat) : Nat := cap * 10 - 560

/-- How far a cluster island is lowered below its partition's point (R15). -/
def loweredBy (s : State) (island : Nat) : Nat := (s.dev.lowered.get island).toNat

/-- The operating point at which a cluster island stands: partition 0's, lowered by heat, also while a partition that is to
hold it is being created (R11, R15, R16, R26); a reservation partition's own (R18). -/
def islandPoint (s : State) (island : Nat) : Nat :=
  let p := partOf s island
  let moves := match s.dev.creating with | some (q, _) => q == p | none => false
  if p == 0 || moves then Nat.min 3 (s.dev.opp + loweredBy s island) else ((s.parts.at? p).map (·.opp)).getD 0

/-- Partition 0's point: the highest at which the sum fits; an island lowered below P3 stands at P3 (R15, R16). -/
def repoint (s : State) : State :=
  let p := ((List.range 4).find? fun p => powerSum s p ≤ budget s.dev.cap).getD 3
  let low : Store 8 := Store.setAll [] (s.dev.lowered.map fun e => (e.1, BitVec.ofNat 8 (Nat.min e.2.toNat (3 - p))))
  { s with dev := { s.dev with opp := p, lowered := low } }

/-- A partition whose clusters every pre-empted workgroup has left is created: its islands move to their operating point,
then the OK is returned (R26, R51). -/
def endCreate (s : State) : State :=
  match s.dev.creating with
  | some (pid, ws) =>
    if ws.any fun w => ((s.wgs.at? w).map (·.live)).getD false then s
    else
      let s := repoint { s with dev := { s.dev with
        creating := none, lowered := s.dev.lowered.keep fun c => partOf s c != pid } }
      { s with dev := { s.dev with responses := s.dev.responses ++ [{ supported := true, status := 0, payload := [] }] } }
  | none => s

/-- Take a team off its core: out of claim and migration queues, its faults no longer awaited, and its saved image gone. -/
def removeTeam (s : State) (tid : Nat) : State :=
  { s with teams := s.teams.erase tid, savedTeams := s.savedTeams.erase tid,
           cores := s.cores.map fun e => (e.1, { e.2 with claims := e.2.claims.filter fun c => c.1 != tid }),
           migs := s.migs.map fun e => (e.1, e.2.filter fun m => m.team != tid),
           faultReq := s.faultReq.filter fun f => f.team != tid || f.wg.isSome }

/-- What a grid's completion word waits for of a team that leaves (R72, R185): its WCTMAX, writes of its flights and engine
operations not acknowledged. -/
def noteWct (s : State) (t : Team) : State :=
  let runs := t.flights.flatMap (·.runs)
  let ops := t.eng.flatten
  let ws := (t.core.die, t.wct) :: runs.filterMap (·.wait) ++ t.acks.map (·.2) ++ ops.flatMap (·.acks)
  let rs := (runs.filterMap (·.req) ++ ops.flatMap (·.reqs)).filter fun r => (s.fabReqs.at? r).isSome
  let gid := ((s.wgs.at? t.wg).map (·.grid)).getD 0
  s.modGrid gid fun g =>
    { g with wcts := ws.foldl (fun (m : AMap Nat) (e : Nat × Nat) => m.insert e.1 (Nat.max e.2 ((m.at? e.1).getD 0))) g.wcts,
             reqs := g.reqs ++ rs }

/-- A workgroup leaves its core: accesses in flight are performed, its teams go, its blocks return to CACHE with
their contents discarded (R153). -/
def releaseWg (s : State) (w : Nat) (st : WState) : State :=
  let ts := s.teamsOf w
  let s := ts.foldl (fun s e => drainFlights s e.1) s
  let s := (s.teamsOf w).foldl (fun s e => noteWct s e.2) s
  let s := ts.foldl (fun s e => removeTeam s e.1) s
  -- blocks with a lasting error go back to the core's caches, not told apart from the others (R61)
  let s := match s.wgs.at? w with
    | some x => if x.worn.isEmpty then s else { s with dev := { s.dev with
        retireBlock := s.dev.retireBlock.insert (coreKey x.home)
          ((s.dev.retireBlock.at? (coreKey x.home)).getD 0 + x.worn.length) } }
    | none => s
  endCreate (endRequests (s.modWg w fun x => { x with st := st, scr := [], fifos := [], treg := [], blocks := [], worn := [] }))

/-- A workgroup is terminated and its grid fails with a cause (R73, R92, R262). -/
def failWg (s : State) (w cause : Nat) : State :=
  match s.wgs.at? w with
  | none => s
  | some x => reportFail (releaseWg s w .terminated) x.grid cause 0 x.lin

/-! Taking a trap. -/

/-- Causes (R265). -/
def cIllegal : Nat := 0x01
def cBranch : Nat := 0x02
def cStall : Nat := 0x03
def cPriv : Nat := 0x04
def cRange : Nat := 0x05
def cPage : Nat := 0x10
def cProt : Nat := 0x11
def cMatrix : Nat := 0x12
def cChunk : Nat := 0x13
def cMisal : Nat := 0x14
def cHandle : Nat := 0x15
def cLayout : Nat := 0x20
def cFlatten : Nat := 0x21
def cChain : Nat := 0x22
def cFormat : Nat := 0x23
def cPart : Nat := 0x24
def cNegVar : Nat := 0x30
def cFp : Nat := 0x31
def cExpOver : Nat := 0x32
def cPool : Nat := 0x40
def cClaim : Nat := 0x41
def cQuiesce : Nat := 0x42
def cAtomic : Nat := 0x50
def cDepth : Nat := 0x60
def cRecord : Nat := 0x61
def cPreempt : Nat := 0x70
def cTrap : Nat := 0x80
def cBreak : Nat := 0x81
def cDouble : Nat := 0x90
def cData : Nat := 0x9F

/-- Is the cause of the user level (R265)? -/
def userCause (c : Nat) : Bool :=
  c ≤ 0x05 || (0x20 ≤ c && c ≤ 0x24) || (0x30 ≤ c && c ≤ 0x32) || (0x40 ≤ c && c ≤ 0x42) || c == 0x50 ||
  c == 0x80 || c == 0x81

/-- Does the cause stop the whole team (R264)? -/
def teamCause (c : Nat) : Bool := c == 0x10 || c == 0x11 || c == 0x13 || c == 0x70 || c == 0x90 || c == 0x9F

/-- TCAUSE.RESUME (R265): 0 N, 1 I, 2 L, 3 X; an address breakpoint resumes by I (R288). -/
def resumeOf (c : Nat) (info0 : Nat) : Nat :=
  if c == 0x03 || c == 0x40 then 1
  else if c == 0x81 then (if info0 == 0 then 0 else 1)
  else if userCause c then 0
  else if c == 0x10 then 2
  else 3

/-- The lanes a cause names beside the trapping split's (R266). -/
def allLanesCause (c : Nat) : Bool := c == 0x70 || c == 0x90 || c == 0x9F || c == 0x13

/-- EXB (R266). -/
def exbOf (t : Team) : Quad := BitVec.ofNat 64 (t.exp.batch.toNat % 2 ^ 32 + (if t.exp.stat.getLsbD 0 then 2 ^ 32 else 0))

/-- A fault record (R266) at word pc, slot; a repeated instruction is named by its REPEAT (R308). -/
def mkRec (s : State) (t : Team) (p : Split) (cause : Nat) (info : List Nat) (lanes : Mask) (len : Nat) : TrapRec :=
  let back := if p.rep.isSome then 1 else 0
  let slot := match p.clause with | some c => c.slot - back | none => 0
  { cause := cause, resume := resumeOf cause (atD info 0 0), team := teamCause cause, slot := slot,
    tpc := t.addrOf (p.pc - back), tpc2 := tpc2Of s t (p.pc - back),
    info := (List.range 4).map fun i => BitVec.ofNat 64 (atD info i 0),
    lanes := if allLanesCause cause then t.live else lanes,
    exb := exbOf t, teq := t.teq, len := len, order := s.nextId,
    arrive := (p.goal.map (·.call)).getD false }

/-- The split that issued something, as it stood then: its level, the word of its instruction and the slot; the front split where it
is gone. What that issue raises later is recorded there (R146, R266). -/
def Team.actor (t : Team) (sid lvl pc slot : Nat) : Option Split :=
  ((t.split? sid).or t.splits.head?).map fun p =>
    { p with lvl := lvl, pc := pc, rep := none, goal := none,
             clause := some { slot := slot, count := 0, cls := 0, intl := false, tail := 0 } }

/-- A split between a REPEAT and the instruction it repeats, as it stands at the REPEAT again (R308). -/
def Split.unprefix (p : Split) : Split :=
  if p.rep.isSome && p.park.isNone then
    { p with pc := p.pc - 1, rep := none, clause := p.clause.map fun c => { c with slot := c.slot - 1 } }
  else p

/-- KiB of a Lodge frame (R268). -/
def frameKiB (width : Nat) : Nat := ceilDiv (64 * width + 64) 1024
/-- Lodge KiB of a core (R132). -/
def lodgeKiB (c : CoreId) : Nat := if isL c then 128 else 256
/-- User frames on a core, in KiB. -/
def userLodge (s : State) (c : CoreId) : Nat :=
  (s.teams.vals.filter fun t => t.core == c && t.uframe.isSome).foldl (fun n t => n + frameKiB t.width) 0
/-- Privileged frames on a core, in KiB. -/
def privLodge (s : State) (c : CoreId) : Nat :=
  (s.teams.vals.filter fun t => t.core == c && t.kframe.isSome).foldl (fun n t => n + frameKiB t.width) 0
/-- Is there room for a user frame: the last 65 KiB serve privileged frames first (R269)? -/
def userRoom (s : State) (t : Team) : Bool :=
  userLodge s t.core + (privLodge s t.core - 65) + frameKiB t.width ≤ lodgeKiB t.core - 65

/-- The Lodge frame at entry (R268): bit 0 of v255 in the lanes named, all else zero. -/
def newFrame (r : TrapRec) (p : Option Split) (width : Nat) : Frame :=
  { trap := r, split := p, v := Store.setAll [] ((maskLanes r.lanes width).map fun l => (15 * 1024 + l, 1#32)) }

/-! Entries of the split table (R121). -/

/-- Entries in the table: splits, join records and trap frames, those in the Grotto apart. The privileged handler's split
stands for its frame. -/
def Team.entries (t : Team) : Nat :=
  (t.splits.filter (!·.spilled)).length + (t.joins.filter (!·.spilled)).length + (if t.uframe.isSome then 1 else 0)

/-- The lowest number of a list: the oldest entry. -/
def oldest (l : List Nat) : Option Nat :=
  l.foldl (fun m x => match m with | some y => some (Nat.min x y) | none => some x) none

/-- One entry goes to the Grotto (R121): the oldest join record, the oldest parked split, the ready split nearest the back. The
oldest is the one with the lowest number; where none of these stands in the table, the last split of the rotation goes
(log entry 66). -/
def Team.spillOne (t : Team) : Team :=
  let js := (t.joins.filter (!·.spilled)).map (·.id)
  let ps := (t.splits.filter fun p => !p.spilled && p.parked).map (·.id)
  let ready := t.splits.reverse.find? fun p => !p.spilled && !p.grotto && p.pend.isEmpty && p.ready
  match oldest js, oldest ps, ready.or (t.splits.reverse.find? (!·.spilled)) with
  | some j, _, _ => t.modJoin j fun r => { r with spilled := true }
  | none, some p, _ => t.modSplit p fun x => { x with spilled := true }
  | none, none, some p => t.modSplit p.id fun x => { x with spilled := true }
  | none, none, none => t

/-- Is the table full, so that a new entry spills one? -/
def Team.full (t : Team) : Bool := 32 ≤ t.entries
/-- The table with room for one entry more (R121). -/
def Team.makeRoom (t : Team) : Team := if t.full then t.spillOne else t

/-- A new split at the back of the rotation; it waits for the spill that its entry causes (R121). -/
def Team.addSplit (t : Team) (p : Split) : Team :=
  let t' := t.makeRoom
  { t' with splits := t'.splits ++ [{ p with grotto := p.grotto || t.full }] }
/-- A new join record, which takes the entry of the split it replaces. -/
def Team.addJoin (t : Team) (r : Join) : Team := { t.makeRoom with joins := t.makeRoom.joins ++ [r] }

/-- Enter the user handler at word h in the place of split p (R263, R266, R268, R270): the user record is written,
the frame holds the trapped split and takes an entry of the table (R121), reservations of the split are cleared (R200). -/
def enterUser (t : Team) (p : Split) (r : TrapRec) (h : Nat) : Team :=
  let kept := { p with resv := none, park := none, pend := p.pend.filter fun x => x != r }
  let hs : Split := jumpSplit h { kept with pend := [] }
  let hs := { hs with lvl := 1, cycle := p.cycle, spilled := false, grotto := p.grotto || t.full }
  let t' := (t.modSplit p.id fun _ => hs).makeRoom
  { t' with hazards := t.hazards.filter (fun h => h.split != p.id), urec := r,
            uframe := some (newFrame r (some kept) t.width) }

/-- Does a split stand at an instruction boundary, so that a pending trap can be taken (R405)? -/
def atBoundary (p : Split) : Bool :=
  match p.park with
  | none => p.rep.isNone
  | some (.held _ _) => p.rep.isNone
  | some .lodge => true
  | some .trap => true
  | _ => false

/-- Does an older trap of a team wait, with a number below `order`, at a split that could take it? -/
def Team.olderTrap (t : Team) (order : Nat) : Bool :=
  t.splits.any fun p => atBoundary p && match p.pend.head? with
    | some q => userCause q.cause && decide (q.order < order)
    | none => false

/-- May a user-level trap be entered (R269): the team's frame is free, the Lodge has room, and no older trap waits, of the
team or of another team of the core that could take it? -/
def mayEnter (s : State) (tid : Nat) (t : Team) (order : Nat) : Bool :=
  t.uframe.isNone && userRoom s t && !t.olderTrap order &&
  !(s.teams.any fun e => e.1 != tid && e.2.core == t.core && e.2.uframe.isNone && e.2.kframe.isNone && !e.2.stop &&
      e.2.olderTrap order)

/-- A fault of a team to be reported (R81). -/
def mkReq (s : State) (tid : Nat) (t : Team) (split va : Nat) (tpc : Quad) (cause access : Nat) (lanes : Mask) : FaultReq :=
  { team := tid, core := t.core, pid := s.pidOf t, grid := ((s.wgOf t).map (·.grid)).getD 0, split := split,
    va := BitVec.ofNat 64 va, tpc := tpc, cause := cause, access := access, lanes := lanes }

/-- A served fault stops the whole team, its reservations go (R200), and its record waits for its entry (R264, R275). -/
def fileFault (s : State) (tid : Nat) (t : Team) (q : FaultReq) : State :=
  { s.setTeam tid { t with splits := t.splits.map (fun x => { x with resv := none }), stop := true } with
    faultReq := s.faultReq ++ [q] }

/-- A trap entry that needs a word of the kernel object which does not translate: the trap stays pending, the fault is served,
and the entry proceeds once RESUME is 1 (R275, R462). -/
def serveEntry (s : State) (tid : Nat) (t : Team) (p : Split) (r : TrapRec) (cause va access : Nat) : State :=
  let t := t.modSplit p.id fun x =>
    { x with park := some .faultPending, pend := if x.pend.contains r then x.pend else x.pend ++ [r] }
  let q := mkReq s tid t p.id va r.tpc cause access 0
  let k := { r with cause := cause, resume := 2, team := true, lanes := p.mask, info := [BitVec.ofNat 64 va, 0, 0, 0] }
  fileFault s tid t { q with trap := k }

/-- Is the check of the user handler's address held (R37, R61)? -/
def handlerHeld (s : State) (t : Team) : Bool :=
  match handlerIndex s t with
  | some h => (match targetOk s t h with | .error e => e.cause == 0 | .ok _ => false)
  | none => false

/-- Is the entry to a user handler held by one of the reads it makes (R37, R61, R462)? -/
def entryHeld (s : State) (t : Team) : Bool := corrHeld s t || ((corrFault s t).isNone && handlerHeld s t)

/-- Deliver a user-level trap to a split (R262, R263, R269): no usable handler ends the workgroup; a busy frame
leaves the trap pending with the split parked. -/
def deliverUser (s : State) (tid : Nat) (t : Team) (p : Split) (r : TrapRec) : State :=
  let pending := s.setTeam tid (t.modSplit p.id fun x =>
    { x with park := some .lodge, pend := if x.pend.contains r then x.pend else x.pend ++ [r] })
  if t.thbase == 0 then failWg s t.wg r.cause
  else match corrFault s t with
  | some (c, va) => serveEntry s tid t p r c va 0
  | none =>
    if entryHeld s t then pending else
    match handlerIndex s t with
    | none => failWg s t.wg r.cause
    | some h =>
      match targetOk s t h with
      | .error e =>
        if e.served then serveEntry s tid t p r e.cause (targetVa s t h).1 (targetVa s t h).2
        else failWg s t.wg e.cause
      | .ok false => failWg s t.wg r.cause
      | .ok true => if mayEnter s tid t r.order then s.setTeam tid (enterUser t p r h) else pending

/-- The privileged record (R267). -/
def Team.setK (t : Team) (r : TrapRec) : Team := { t with krec := r }

/-- Has a privileged trap without return stopped the team for good (R265)? -/
def Team.dead (t : Team) : Bool := t.krec.cause != 0 && t.krec.resume == 3 && t.krec.team

/-- Is a path counter of a team other than zero (R195)? -/
def Team.pathsBusy (t : Team) : Bool := t.flights.any fun f => f.path < 4

/-- A privileged trap without return: the record is written, the team stops, or the trapping split alone as the cause's reach
says, and the grid fails (R73, R264, R265, R267); in a privileged handler the workgroup is terminated at once (R92, R274). A
team-wide cause waits until the path counters are zero (R264). -/
def deliverX (s : State) (tid : Nat) (t : Team) (p : Split) (r : TrapRec) : State :=
  if r.team && t.pathsBusy then
    s.setTeam tid { (t.modSplit p.id fun x => { x with park := some .trap, pend := [r] }) with stop := true }
  else
    let t' := (t.setK { r with resume := 3 }).modSplit p.id fun x =>
      { x with park := if r.team then x.park else some .trap, pend := x.pend.filter fun q => userCause q.cause && r.team }
    let s := s.setTeam tid { t' with stop := t'.stop || r.team }
    let s := if p.lvl == 2 then failWg s t.wg r.cause
      else match s.wgs.at? t.wg with
        | some x => reportFail s x.grid r.cause 0 x.lin
        | none => s
    if r.cause == cDouble then
      postEvent s 7 (s.pidOf t) (bits (atD r.info 0 0) 7 0) (((s.wgOf t).map (·.grid.toNat)).getD 0)
    else s

/-- A privileged trap whose record needs the table (R267, R462): a fault of it is served first, and the entry waits while its read
is held (R37). A handler's fault in privileged code needs none: its team is killed (R274). -/
def deliverPriv (s : State) (tid : Nat) (t : Team) (p : Split) (r : TrapRec) : State :=
  if p.lvl == 2 then deliverX s tid t p r
  else match corrFault s t with
  | some (c, va) => serveEntry s tid t p r c va 0
  | none =>
    if corrHeld s t then
      s.setTeam tid { (t.modSplit p.id fun x => { x with park := some .trap, pend := [r] }) with stop := t.stop || r.team }
    else deliverX s tid t p r

/-- Raise a trap at an instruction of `len` words: by the level of its cause, and by where it is raised: a fault in a
user handler is a DOUBLE_FAULT, one in a privileged handler kills the team (R262, R265, R274). -/
def raise (s : State) (tid : Nat) (t : Team) (p : Split) (cause : Nat) (info : List Nat) (lanes : Mask) (len : Nat) :
    State :=
  let r := mkRec s t p cause info lanes len
  let s := { s with nextId := s.nextId + 1 }
  let d := if p.lvl == 0 then r else { r with cause := cDouble, resume := 3, team := true, lanes := t.live,
                                              info := [BitVec.ofNat 64 cause, atD r.info 0 0, 0, 0] }
  if p.lvl != 2 && userCause d.cause then deliverUser s tid t p d else deliverPriv s tid t p d

/-- The pending trap of a split with its second address as the table now gives it (R146, R462). -/
def TrapRec.fresh (r : TrapRec) (s : State) (t : Team) : TrapRec :=
  match t.indexOf r.tpc with | some i => { r with tpc2 := tpc2Of s t i } | none => r

/-- Is a run still outstanding: not performed, or its completion not returned (R35)? -/
def runOpen (s : State) (r : Run) : Bool :=
  !r.done || (match r.req with | some id => (s.fabReqs.at? id).isSome | none => false)

/-- Accesses of a team that are lost or refused: they leave the flights, no register takes their values, and the split that
issued the first of them traps, at that instruction (R146) and the level at which it issued it; where it is no lane access, the
split given (R33, R40, R48, R61, R148). -/
def lostAccess (s : State) (tid : Nat) (lost : Run → Bool) (cause : Nat) (info : List Nat) (other : Option Split := none) :
    State :=
  match s.teams.at? tid with
  | none => s
  | some t =>
    let hit := fun r : Run => runOpen s r && lost r
    let gone := (t.flights.flatMap (·.runs)).filter hit
    let ids := gone.filterMap (·.req)
    let lanes := laneMask (gone.flatMap fun r => r.accs.map (·.lane))
    let who := ((t.flights.find? fun f => f.runs.any hit).bind fun f => t.actor f.split f.lvl f.pc f.slot).or
      (other.or t.splits.head?)
    let cut := fun (r : Run) => if hit r then
      { r with done := true, req := none, wait := none, accs := r.accs.map fun a => { a with live := false } } else r
    let t := { t with flights := t.flights.map fun f => { f with runs := f.runs.map cut } }
    let s := { s.setTeam tid t with fabReqs := s.fabReqs.filter fun e => !ids.contains e.1 }
    match who with
    | some p => raise s tid t p cause info lanes 0
    | none => failWg s t.wg cause

/-- DATA_ERROR of a team (R40, R48, R61): its lost accesses leave, and the grid fails. -/
def dataError (s : State) (tid : Nat) (lost : Run → Bool) (place va : Nat) (other : Option Split := none) : State :=
  lostAccess s tid lost cData [place, va] other

/-- PROTECTION at an access that its destination refuses: the address of the first lane (R33, R148). -/
def refuseAccess (s : State) (tid : Nat) (lost : Run → Bool) : State :=
  let va := (((s.teams.at? tid).bind fun t => (t.flights.flatMap (·.runs)).find? fun r => runOpen s r && lost r).map (·.va)).getD 0
  lostAccess s tid lost cProt [va]

/-- The trap as an outcome, naming the active lanes. -/
def Ctx.trap (c : Ctx) (cause : Nat) (info : List Nat) (len : Nat) : Out :=
  .next (raise c.s c.tid c.t c.sp cause info c.sp.mask len)
/-- The trap naming given lanes, the team as the instruction left it. -/
def Ctx.trapLanes (c : Ctx) (t : Team) (cause : Nat) (info : List Nat) (lanes : Mask) (len : Nat) : Out :=
  .next (raise (c.put t) c.tid t c.sp cause info lanes len)

/-- A translation fault that the host serves (R81, R275): the whole team stops, the fault waits for its entry, and with it
the privileged record (R264), which names the faulting lanes, or every active lane where the fault is no lane's (R266). A fault of
the table that the record needs is served first (R462); while its read is held the instruction stands, and issues again for the lanes
that faulted (R37). In a privileged handler it kills the team (R274). -/
def serveFault (s : State) (tid : Nat) (t : Team) (p : Split) (va access cause : Nat) (lanes : Mask) : State :=
  if p.lvl == 2 then raise s tid t p cause [va] lanes 0
  else match corrHeldAt s t with
  | some a => s.setTeam tid (t.modSplit p.id fun x =>
      { x with park := some (.held a 0), redo := if lanes == 0 then x.redo else some lanes })
  | none =>
    let (cause, va, access) := match corrFault s t with
      | some (c, a) => (c, a, 0)
      | none => (cause, va, access)
    let r := { mkRec s t p cause [va] (if lanes == 0 then p.mask else lanes) 0 with resume := 2 }
    let q := mkReq s tid t p.id va r.tpc cause access lanes
    fileFault s tid (t.modSplit p.id fun x => { x with park := some .faultPending }) { q with trap := r }

/-- A read of the instruction at a virtual address is held: the instruction executes again once it is not (R37, R61). -/
def Ctx.hold (c : Ctx) (va access : Nat) : Out := c.park (.held va access)

/-- A fault of Translate at an instruction: served, or failing the grid (R174, R275). An access that is held leaves the
instruction to issue again (R37). -/
def Ctx.tfault (c : Ctx) (e : TFault) (va access : Nat) (lanes : Mask) (len : Nat) : Out :=
  if e.cause == 0 then c.hold va access
  else if e.served then .next (serveFault c.s c.tid c.t c.sp va access e.cause lanes)
  else .next (raise c.s c.tid c.t c.sp e.cause [va] lanes len)

end Sys2Proof.Machine
end

