-- ==== Sys2Proof/Machine/Place.lean ====
section
/-! DEFINITION. Placing a team for the fetch of one instruction (the load that withFetchWord stands for). -/

namespace Sys2Proof.Machine

/-- Where withFetchWord places its body: near memory of die 0, mapped at the same virtual address. -/
def probeBase : Nat := 0x10000

/-- A workgroup's grid for the probe. -/
def probeGrid : Grid :=
  { gid := 0, owner := 0, pid := 0, ptbase := 0, prio := 0, queue := 0, depth := 0, lrec := List.replicate 16 0,
    st := .dispatched, next := 1,
    ako := some { base := 0, stepping := 0, len := 0x20000, neq := 0, pOff := 0, pLen := 0, dOff := 0, dLen := 0,
                  lOff := probeBase, lLen := 4, bitmap := 0, smap := 0, corr := 0, ncorr := 0, brec := 0, nbrec := 0,
                  nlconst := 0, lconst := 0 } }

/-- The header of the probe's clause: class MIX, one slot (R289); two when the word is a REPEAT. -/
def probeHeader (w : Nat) : Word := if w / 2 ^ 26 % 64 == 5 then 0xB2E00000#32 else 0xB1E00000#32

/-- A team of 8 lanes on the L-core of cluster 0, die C0, about to fetch the header of its L-body. -/
def probeTeam : Team :=
  { wg := 0, idx := 0, core := ⟨0, 0, 6⟩, slot := 0, twlog := 3, width := 8, regs := 64, moms := 4, accs := 2,
    mode := 1, splits := [{ id := 0, mask := fullMask 8, fmt := 0x82 }],
    body := { kind := .nativeL, base := probeBase, len := 4 } }

/-- The state with that team placed, its body's words in memory, its page in the TLB, and its issue next. -/
def probe (s : State) (nbits w : Nat) : State :=
  let x := w % 2 ^ nbits
  let second := if x / 2 ^ 26 % 64 == 5 then x % 2 ^ 32 + 0x28000000 * 2 ^ 32 else x
  { s with
    mem := s.mem.write probeBase (leBytes 4 (probeHeader (x % 2 ^ 32)).toNat ++ leBytes 12 second),
    grids := [probeGrid],
    wgs := [(0, { grid := 0, lin := 0, pid := 0, home := ⟨0, 0, 6⟩, slot := 0, blocks := [.scr], st := .resident })],
    teams := [(0, probeTeam)],
    tlb := [{ die := 0, cluster := 0, ptbase := 0, page := probeBase, shift := 16,
              leaf := BitVec.ofNat 64 (probeBase + 0x1F), lines := [] }],
    agenda := [.issue 0 0] }

end Sys2Proof.Machine
end

