-- ==== Sys2Proof/WellFormed.lean ====
section
/-! DEFINITION. Which instructions are well formed: the checks of stage 5 of R315 that do not depend on the body
(R295, R296, R299, R300, R301), and the ranges of a device step's operands. -/

namespace Sys2Proof

open Machine

/-- A link selector (R54). -/
def linkSelOk (n : Nat) : Bool := n ≤ 5 || (16 ≤ n && n ≤ 51) || (64 ≤ n && n ≤ 71)

/-- The place of a core (R7 to R9). -/
def CoreId.ok (c : CoreId) : Bool := c.die < 4 && c.cluster < 16 && c.core < 7

/-- The ranges of a device step's operands: dies, ports, channels, link selectors, partitions, queues. -/
def devWf : Instr → Bool
  | .retrainComplete p l => p < 36 && (l == 0 || l == 1 || l == 2 || l == 4)
  | .orangeryDecay d p => d < 4 && p < 16
  | .tempHigh d => d < 4
  | .islandRaise n => n < 64
  | .thermalTrip d _ => d < 4
  | .flitCrcFail l => linkSelOk l
  | .flitReplayResult l _ _ => linkSelOk l
  | .modulePauseEnd l => l ≤ 5
  | .portNoPartner p => p < 36
  | .portHoldTimeout p => p < 36
  | .expanderFail p => p < 8
  | .queueMonitorWake p q => p < 16 && q < 256
  | .takeRecord d p q => d < 4 && p < 16 && q < 256
  | .descriptorReread p q => p < 16 && q < 256
  | .takeChildRecord d p => d < 4 && p < 16
  | .placeWorkgroup d _ => d < 4
  | .gridBlocking d _ => d < 4
  | .childRescuePreempt d _ => d < 4
  | .priorityPreempt d _ => d < 4
  | .partitionTurn d => d < 4
  | .claimGrant c => c.ok
  | .migrationServe d c => d < 4 && c < 16
  | .walkComplete c _ _ => c.ok
  | .phaseSteal d c => d < 4 && c < 64
  | .copyEngineStart c => c.ok
  | .copyChunk _ c => c < 5
  | .copyComplete _ c => c < 5
  | .drainChunk _ c => c < 4
  | .drainOperationComplete _ c => c < 4
  | _ => true

/-- Well formed. -/
def Instr.wf (i : Instr) : Bool := (form i).stage5 && devWf i

end Sys2Proof
end

