-- ==== Sys2Proof/Decode.lean ====
section
/-! DEFINITION. The decoder (R293 to R298, R311 to R313, stages 1 to 3 of R315) and, after it, the encoder. -/

namespace Sys2Proof

open Machine

/-- Why words are no instruction: the stage of R315 that fails. -/
inductive DecodeError where
  | reserved      -- stage 1: a reserved opcode (R316)
  | header        -- stage 1: a clause-header mark in an instruction position (R289)
  | noExtension   -- stage 2: X = 1 in the last word of the body (R294)
  | badMark       -- stage 2: the extension word has no 0b01 mark (R294)
  | badX          -- stage 2: X against the format (R311)
  | badFunction   -- stage 3: FN beyond the opcode's list (R312)
  deriving DecidableEq, Repr

/-- Format-A fields of word 0 and, with X = 1, the extension word (R293, R294). -/
def readA (w0 : Word) (ext : Option Word) : OpA :=
  { stall := w0.extractLsb' 23 2, d := w0.extractLsb' 15 8, a := w0.extractLsb' 7 8,
    ext := ext.map fun e => { b := e.extractLsb' 22 8, c := e.extractLsb' 14 8, g := e.extractLsb' 11 3,
                              gn := e.getLsbD 10, mod := e.extractLsb' 0 10 } }

/-- Format-M fields (R294). -/
def readM (w0 e : Word) : OpM :=
  { stall := w0.extractLsb' 23 2, d := w0.extractLsb' 15 8, a := w0.extractLsb' 7 8,
    sb := e.extractLsb' 24 6, imm := e.extractLsb' 14 10, g := e.extractLsb' 11 3, gn := e.getLsbD 10,
    mod := e.extractLsb' 0 10 }

/-- Format-I fields (R297). -/
def readI7 (w0 : Word) : OpI7 :=
  { stall := w0.extractLsb' 23 2, d := w0.extractLsb' 15 8, a := w0.extractLsb' 7 8, imm := w0.extractLsb' 0 7 }
def readI30 (w0 e : Word) : OpI30 :=
  { stall := w0.extractLsb' 23 2, d := w0.extractLsb' 15 8, a := w0.extractLsb' 7 8,
    imm7 := w0.extractLsb' 0 7, imm := e.extractLsb' 0 30 }

/-- Format-B fields (R297). -/
def readB (w0 : Word) : OpB :=
  { stall := w0.extractLsb' 23 2, psel := w0.extractLsb' 20 3, pn := w0.getLsbD 19, h := w0.getLsbD 18,
    off := w0.extractLsb' 0 18 }
def readBRC (w0 e : Word) : OpBRC :=
  { stall := w0.extractLsb' 23 2, psel := w0.extractLsb' 20 3, pn := w0.getLsbD 19, h := w0.getLsbD 18,
    off := w0.extractLsb' 0 18, join := e.extractLsb' 12 18, rest := e.extractLsb' 0 12 }

/-- Format-P fields (R298). -/
def readP (w0 : Word) : OpP :=
  { stall := w0.extractLsb' 23 2, cntm1 := w0.extractLsb' 17 6, dd := w0.extractLsb' 14 3,
    da := w0.extractLsb' 11 3, db := w0.extractLsb' 8 3, dc := w0.extractLsb' 5 3, rest := w0.extractLsb' 0 5 }

/-- The format-A functions of opcode 0x04 (R312). -/
def fnA4 (w : OpA) : Nat → Option Instr
  | 0 => some (.jmpi w)
  | 1 => some (.calli w)
  | 2 => some (.ret w)
  | 3 => some (.join w)
  | 4 => some (.yield w)
  | 5 => some (.exit w)
  | 6 => some (.nop w)
  | 7 => some (.eqpt w)
  | 8 => some (.migrate w)
  | 9 => some (.launch w)
  | 10 => some (.waitchild w)
  | _ => none

/-- The format-A functions of opcode 0x06 (R312). -/
def fnA6 (w : OpA) : Nat → Option Instr
  | 0 => some (.smov w)
  | 1 => some (.sadd w)
  | 2 => some (.ssub w)
  | 3 => some (.smul w)
  | 4 => some (.smad w)
  | 5 => some (.sand w)
  | 6 => some (.sor w)
  | 7 => some (.sxor w)
  | 8 => some (.sshl w)
  | 9 => some (.sshr w)
  | 10 => some (.ssar w)
  | 11 => some (.smin w)
  | 12 => some (.smax w)
  | 13 => some (.scmp w)
  | 14 => some (.ssel w)
  | _ => none

/-- The format-A functions of opcode 0x09 (R312). -/
def fnA9 (w : OpA) : Nat → Option Instr
  | 0 => some (.gets w)
  | 1 => some (.sets w)
  | 2 => some (.vote w)
  | 3 => some (.red w)
  | 4 => some (.sldp w)
  | 5 => some (.qop w)
  | _ => none

/-- The format-A functions of opcode 0x0A (R312). -/
def fnA10 (w : OpA) : Nat → Option Instr
  | 0 => some (.iadd w)
  | 1 => some (.isub w)
  | 2 => some (.imul w)
  | 3 => some (.imulh w)
  | 4 => some (.imad w)
  | 5 => some (.imin w)
  | 6 => some (.imax w)
  | 7 => some (.iabs w)
  | 8 => some (.vand w)
  | 9 => some (.vor w)
  | 10 => some (.vxor w)
  | 11 => some (.vnot w)
  | 12 => some (.shl w)
  | 13 => some (.shr w)
  | 14 => some (.sar w)
  | 15 => some (.rot w)
  | 16 => some (.popc w)
  | 17 => some (.clz w)
  | 18 => some (.brev w)
  | 19 => some (.bfe w)
  | 20 => some (.bfi w)
  | 21 => some (.sel w)
  | 22 => some (.mov w)
  | 23 => some (.lane w)
  | 24 => some (.icmp w)
  | _ => none

/-- The format-A functions of opcode 0x0D (R312). -/
def fnA13 (w : OpA) : Nat → Option Instr
  | 0 => some (.fadd w)
  | 1 => some (.fsub w)
  | 2 => some (.fmul w)
  | 3 => some (.ffma w)
  | 4 => some (.fmin w)
  | 5 => some (.fmax w)
  | 6 => some (.fabs w)
  | 7 => some (.fcmp w)
  | 8 => some (.fclass w)
  | 9 => some (.frnd w)
  | 10 => some (.cvt w)
  | 11 => some (.i2f w)
  | 12 => some (.f2i w)
  | 13 => some (.rcp w)
  | 14 => some (.rsq w)
  | 15 => some (.sqrt w)
  | 16 => some (.exp2 w)
  | 17 => some (.log2 w)
  | 18 => some (.sinpi w)
  | 19 => some (.cospi w)
  | _ => none

/-- The format-A functions of opcode 0x0E (R312). -/
def fnA14 (w : OpA) : Nat → Option Instr
  | 0 => some (.shfl w)
  | 1 => some (.scan w)
  | 2 => some (.topk w)
  | 3 => some (.rand w)
  | _ => none

/-- The format-A functions of opcode 0x0F (R312). -/
def fnA15 (w : OpA) : Nat → Option Instr
  | 0 => some (.pand w)
  | 1 => some (.por w)
  | 2 => some (.pxor w)
  | 3 => some (.pnot w)
  | 4 => some (.pmov w)
  | 5 => some (.pset w)
  | _ => none

/-- The format-A functions of opcode 0x13 (R312). -/
def fnA19 (w : OpA) : Nat → Option Instr
  | 0 => some (.fence w)
  | 1 => some (.waitp w)
  | 2 => some (.barinit w)
  | 3 => some (.bararr w)
  | 4 => some (.barwait w)
  | 5 => some (.barsync w)
  | 6 => some (.waitw w)
  | 7 => some (.qpush w)
  | 8 => some (.qpop w)
  | _ => none

/-- The format-A functions of opcode 0x14 (R312). -/
def fnA20 (w : OpA) : Nat → Option Instr
  | 0 => some (.lset w)
  | 1 => some (.lget w)
  | 2 => some (.lchain w)
  | 3 => some (.lpart w)
  | 4 => some (.ltrans w)
  | 5 => some (.lflat w)
  | 6 => some (.lslice w)
  | 7 => some (.lcheck w)
  | 8 => some (.hset w)
  | 9 => some (.hget w)
  | _ => none

/-- The format-A functions of opcode 0x15 (R312). -/
def fnA21 (w : OpA) : Nat → Option Instr
  | 0 => some (.copy w)
  | 1 => some (.tlwait w)
  | 2 => some (.tlread w)
  | 3 => some (.bankcfg w)
  | _ => none

/-- The format-A functions of opcode 0x16 (R312). -/
def fnA22 (w : OpA) : Nat → Option Instr
  | 0 => some (.mma w)
  | 1 => some (.mma2 w)
  | 2 => some (.accz w)
  | 3 => some (.accld w)
  | 4 => some (.drain w)
  | 5 => some (.fmtset w)
  | 6 => some (.fmtget w)
  | _ => none

/-- The format-A functions of opcode 0x17 (R312). -/
def fnA23 (w : OpA) : Nat → Option Instr
  | 0 => some (.mset w)
  | 1 => some (.mcoll w)
  | 2 => some (.madd w)
  | 3 => some (.msub w)
  | 4 => some (.mmul w)
  | 5 => some (.mfma w)
  | 6 => some (.mscale w)
  | 7 => some (.mrelu w)
  | 8 => some (.msigm w)
  | 9 => some (.mexp w)
  | 10 => some (.mmov w)
  | 11 => some (.mmma w)
  | 12 => some (.mdrain w)
  | _ => none

/-- The format-A functions of opcode 0x18 (R312). -/
def fnA24 (w : OpA) : Nat → Option Instr
  | 0 => some (.expand w)
  | 1 => some (.exnext w)
  | 2 => some (.segred w)
  | 3 => some (.exdone w)
  | 4 => some (.exsave w)
  | 5 => some (.exrstr w)
  | 6 => some (.hins w)
  | 7 => some (.hprobe w)
  | 8 => some (.fetch w)
  | _ => none

/-- The format-A functions of opcode 0x19 (R312). -/
def fnA25 (w : OpA) : Nat → Option Instr
  | 0 => some (.trap w)
  | 1 => some (if w.modN % 2 == 1 then .tretTo w else .tret w)
  | 2 => some (.bkpt w)
  | 3 => some (.movuser w)
  | 4 => some (.splitsv w)
  | 5 => some (.splitld w)
  | 6 => some (.tsaved w)
  | 7 => some (.rclaim w)
  | 8 => some (.rrel w)
  | 9 => some (.rquery w)
  | 10 => some (.treshape w)
  | 11 => some (.leaseclk w)
  | _ => none

/-- The format-M functions of opcode 0x10 (R312). -/
def fnM16 (w : OpM) : Nat → Option Instr
  | 0 => some (.ld w)
  | 1 => some (.lds w)
  | 2 => some (.ldb w)
  | 3 => some (.ldres w)
  | 4 => some (.pref w)
  | 5 => some (.probe w)
  | 6 => some (.ldt w)
  | _ => none

/-- The format-M functions of opcode 0x11 (R312). -/
def fnM17 (w : OpM) : Nat → Option Instr
  | 0 => some (.st w)
  | 1 => some (.sts w)
  | 2 => some (.stb w)
  | 3 => some (.stcond w)
  | 4 => some (.stt w)
  | _ => none

/-- The format-M functions of opcode 0x12 (R312). -/
def fnM18 (w : OpM) : Nat → Option Instr
  | 0 => some (.atomAdd w)
  | 1 => some (.atomMin w)
  | 2 => some (.atomMax w)
  | 3 => some (.atomAnd w)
  | 4 => some (.atomOr w)
  | 5 => some (.atomXor w)
  | 6 => some (.atomXchg w)
  | 7 => some (.atomCas w)
  | 8 => some (.atomFadd w)
  | _ => none

/-- What a format-A opcode names. -/
def fnA (op : Nat) (w : OpA) (fn : Nat) : Option Instr :=
  match op with
  | 4 => fnA4 w fn
  | 6 => fnA6 w fn
  | 9 => fnA9 w fn
  | 10 => fnA10 w fn
  | 13 => fnA13 w fn
  | 14 => fnA14 w fn
  | 15 => fnA15 w fn
  | 19 => fnA19 w fn
  | 20 => fnA20 w fn
  | 21 => fnA21 w fn
  | 22 => fnA22 w fn
  | 23 => fnA23 w fn
  | 24 => fnA24 w fn
  | 25 => fnA25 w fn
  | _ => none

/-- What a format-M opcode names. -/
def fnM (op : Nat) (w : OpM) (fn : Nat) : Option Instr :=
  match op with
  | 16 => fnM16 w fn
  | 17 => fnM17 w fn
  | 18 => fnM18 w fn
  | _ => none

/-- The opcode of a word 0. -/
def opOf (w0 : Word) : Nat := (w0.extractLsb' 26 6).toNat
/-- X of a word 0. -/
def xOf (w0 : Word) : Bool := w0.getLsbD 25
/-- FN of a word 0. -/
def fnOf (w0 : Word) : Nat := (w0.extractLsb' 0 7).toNat

/-- Stage 1: is the opcode assigned to an instruction (R312)? -/
def opAssigned (op : Nat) : Bool := op ≤ 25

/-- Stage 2: is this X allowed by the format (R296, R297, R298, R311)? -/
def xAllowed (op : Nat) (x : Bool) : Bool :=
  match op with
  | 0 => !x
  | 1 => x
  | 2 => !x
  | 3 => !x
  | 5 => !x
  | 16 => x
  | 17 => x
  | 18 => x
  | _ => true

/-- The instruction of a word 0 with X = 0, its opcode and X already accepted. -/
def decodeShort (w0 : Word) : Option Instr :=
  match opOf w0 with
  | 0 => some (.bra (readB w0))
  | 2 => some (.bru (readB w0))
  | 3 => some (.call (readB w0))
  | 5 => some (.repeatN (readP w0))
  | 7 => some (.smovi (readI7 w0))
  | 8 => some (.saddi (readI7 w0))
  | 11 => some (.iaddi (readI7 w0))
  | 12 => some (.movi (readI7 w0))
  | op => fnA op (readA w0 none) (fnOf w0)

/-- The instruction of a word 0 with X = 1 and its extension word. -/
def decodeLong (w0 e : Word) : Option Instr :=
  match opOf w0 with
  | 1 => some (.brc (readBRC w0 e))
  | 7 => some (.smoviImm30 (readI30 w0 e))
  | 8 => some (.saddiImm30 (readI30 w0 e))
  | 11 => some (.iaddiImm30 (readI30 w0 e))
  | 12 => some (.moviImm30 (readI30 w0 e))
  | 16 => fnM 16 (readM w0 e) (fnOf w0)
  | 17 => fnM 17 (readM w0 e) (fnOf w0)
  | 18 => fnM 18 (readM w0 e) (fnOf w0)
  | op => fnA op (readA w0 (some e)) (fnOf w0)

/-- Decode word 0 and the word after it, if the body has one: stages 1 to 3 of R315. -/
def decodeWords (w0 : Word) (next : Option Word) : Except DecodeError Instr :=
  let op := opOf w0
  if isHeader w0 then .error .header
  else if !opAssigned op then .error .reserved
  else if xOf w0 then
    match next with
    | none => .error .noExtension
    | some e =>
      if e.extractLsb' 30 2 = 1#2 then
        if !xAllowed op true then .error .badX
        else match decodeLong w0 e with | some i => .ok i | none => .error .badFunction
      else .error .badMark
  else if !xAllowed op false then .error .badX
  else match decodeShort w0 with | some i => .ok i | none => .error .badFunction

/-- The word of four bytes, little-endian (R3). -/
def wordOfBytes (a b c d : Byte) : Word := d ++ c ++ b ++ a

/-- Decode the instruction at the head of a byte list, total on any bytes: the instruction and how many bytes it
takes. -/
def decodeBytes : List Byte → Except DecodeError (Instr × Nat)
  | a :: b :: c :: d :: e :: f :: g :: h :: _ =>
    (decodeWords (wordOfBytes a b c d) (some (wordOfBytes e f g h))).map fun i => (i, 4 * (form i).len)
  | a :: b :: c :: d :: _ =>
    (decodeWords (wordOfBytes a b c d) none).map fun i => (i, 4 * (form i).len)
  | _ => .error .reserved

/-- The bytes of an instruction given as one number, first word lowest (R3, R293). -/
def tableBytes (w : Nat) : List Byte := leBytes 8 w

/-- What the decoder reads from the table's words: bit 0 is bit 0 of word 0, bits 63:32 are the extension word. -/
def decodeTableWord (nbits w : Nat) : Option Instr :=
  match decodeBytes (tableBytes (w % 2 ^ nbits)) with
  | .ok (i, _) => some i
  | .error _ => none

/- The encoder. -/

/-- Word 0 of formats A and M (R312). -/
def word0 (op : Nat) (x : Bool) (stall : BitVec 2) (d a : BitVec 8) (fn : Nat) : Word :=
  BitVec.ofNat 6 op ++ BitVec.ofBool x ++ stall ++ d ++ a ++ BitVec.ofNat 7 fn

/-- The extension word of format A (R294). -/
def extA (e : ExtA) : Word := 1#2 ++ e.b ++ e.c ++ e.g ++ BitVec.ofBool e.gn ++ e.mod
/-- The extension word of format M (R294). -/
def extM (w : OpM) : Word := 1#2 ++ w.sb ++ w.imm ++ w.g ++ BitVec.ofBool w.gn ++ w.mod

/-- The words of an instruction; a device step has none. -/
def encode (i : Instr) : List Word :=
  match form i with
  | .a op fn w _ =>
    (match w.ext with
     | none => [word0 op false w.stall w.d w.a fn]
     | some e => [word0 op true w.stall w.d w.a fn, extA e])
  | .m op fn w _ => [word0 op true w.stall w.d w.a fn, extM w]
  | .i7 op w _ _ => [BitVec.ofNat 6 op ++ 0#1 ++ w.stall ++ w.d ++ w.a ++ w.imm]
  | .i30 op w _ _ => [BitVec.ofNat 6 op ++ 1#1 ++ w.stall ++ w.d ++ w.a ++ w.imm7, 1#2 ++ w.imm]
  | .b op w =>
    [BitVec.ofNat 6 op ++ 0#1 ++ w.stall ++ w.psel ++ BitVec.ofBool w.pn ++ BitVec.ofBool w.h ++ w.off]
  | .brc w =>
    [1#6 ++ 1#1 ++ w.stall ++ w.psel ++ BitVec.ofBool w.pn ++ BitVec.ofBool w.h ++ w.off,
     1#2 ++ w.join ++ w.rest]
  | .p w => [5#6 ++ 0#1 ++ w.stall ++ w.cntm1 ++ w.dd ++ w.da ++ w.db ++ w.dc ++ w.rest]
  | .dev => []

/-- Decode a list of one or two words. -/
def decodeList : List Word → Option Instr
  | [w] => (decodeWords w none).toOption
  | [w, e] => (decodeWords w (some e)).toOption
  | _ => none

end Sys2Proof
end

