-- ==== Sys2Proof/Machine/Land.lean ====
section
/-! DEFINITION. Buffer records (R169 to R172), and how the results of an access land in registers (R171, R195, R371, R374). -/

namespace Sys2Proof.Machine

/-! Buffer records (R169 to R172). -/

abbrev BRec := BitVec 320
def BRec.f (r : BRec) (q hi lo : Nat) : Nat := bits r (64 * q + hi) (64 * q + lo)
def BRec.base (r : BRec) : Nat := BRec.f r 0 63 0
def BRec.extent (r : BRec) : Nat := BRec.f r 1 31 0
def BRec.fmtc (r : BRec) : Nat := BRec.f r 2 5 0
def BRec.etype (r : BRec) : Nat := BRec.f r 2 8 6
def BRec.sat (r : BRec) : Bool := BRec.f r 2 9 9 == 1
def BRec.rnd (r : BRec) : Nat := BRec.f r 2 11 10
def BRec.sexp (r : BRec) : Int := signedN 8 (BRec.f r 2 19 12)
def BRec.nf (r : BRec) : Nat := BRec.f r 2 22 20 + 1
def BRec.reuse (r : BRec) : Nat := BRec.f r 2 24 23
def BRec.scale (r : BRec) : Nat := BRec.f r 3 31 0
/-- Element bytes (R169). -/
def BRec.elem (r : BRec) : Nat :=
  match BRec.etype r with | 0 => fmtBytes (BRec.fmtc r) | 1 => 1 | 2 => 1 | 3 => 2 | 4 => 2 | 5 => 4 | _ => 8
def BRec.stride (r : BRec) : Nat := if BRec.f r 1 47 32 == 0 then BRec.nf r * BRec.elem r else BRec.f r 1 47 32
/-- Does the record convert (R171)? -/
def BRec.converts (r : BRec) : Bool :=
  !(BRec.etype r == 5 || BRec.etype r == 6 ||
    (BRec.etype r == 0 && BRec.fmtc r == 0 && BRec.sexp r == 0 && BRec.scale r == 0x3F800000))

/-- The fault of a record access (R172): `need` holds the R, W and AT bits. -/
def recFault (l : List BRec) (n need : Nat) : Option (Nat × List Nat) :=
  match l[n]? with
  | none => some (cProt, [n])
  | some r =>
    if BRec.f r 2 28 28 == 0 || BRec.f r 1 63 48 != 0 || BRec.f r 2 63 29 != 0 || BRec.f r 3 63 32 != 0 ||
        BRec.f r 4 63 0 != 0 || BRec.etype r == 7 || (BRec.f r 2 27 25) &&& need != need then some (cProt, [n])
    else if (fmtOf (BRec.fmtc r)).isNone then some (cFormat, [])
    else none

/-- The registers of one value of a record, or of an access size. -/
def valueRegs (bytes : Nat) : Nat := Nat.max 1 (bytes / 4)

/-- The SIZE an atomic through a record takes, none where the record does not accept the function (R379). -/
def recAtomSize (r : BRec) (fn : Nat) : Option Nat :=
  if BRec.converts r then none
  else if BRec.etype r == 5 then (if fn == 8 then none else some 4)
  else if BRec.etype r == 6 then (if fn == 8 then none else some 5)
  else some 4

/-- The record `n` through which an access moves its data (R171, R372, R379): none where the record refuses the access. -/
def recData (l : List BRec) (n op fn : Nat) (w : OpM) : Option BRec :=
  if !w.isRec || (op == 16 && fn != 0) then none
  else match recFault l n (if op == 16 then 1 else if op == 17 then 2 else 5), l[n]? with
    | none, some r => if BRec.nf r ≤ w.size || (op == 18 && (recAtomSize r fn).isNone) then none else some r
    | _, _ => none

/-- The data registers beyond D of an access through a record: a 64-bit value takes a pair, CAS twice as many (R372, R379). -/
def recMore (l : List BRec) (n op fn : Nat) (w : OpM) : List Nat :=
  match recData l n op fn w with
  | some r => (List.range (valueRegs (BRec.elem r) * (if op == 18 && fn == 7 then 2 else 1) - 1)).map (w.dN + 1 + ·)
  | none => []

/-- Is D odd where a record moves 64-bit values, which take a pair (R354, R372, R379)? -/
def recOdd (l : List BRec) (n op fn : Nat) (w : OpM) : Bool :=
  (recData l n op fn w).any fun r => BRec.elem r == 8 && w.dN % 2 == 1

/-- A value loaded through a record, with its flags (R171). -/
def recLoad (r : BRec) (raw : Nat) : Nat × Nat :=
  match BRec.etype r with
  | 0 =>
    if !BRec.converts r then (raw, 0)
    else match fmtOf (BRec.fmtc r) with
      | none => (raw, 0)
      | some f =>
        let p := mulF (decodeF f raw) (decodeF fmtF32 (BRec.scale r))
        let v := match p.1 with | .nan _ => FV.nan false | x => scaleF x (BRec.sexp r)
        let o := roundF32 v
        (o.1, p.2 ||| o.2)
  | 2 => ((ofInt 32 (signedN 8 raw)).toNat, 0)
  | 4 => ((ofInt 32 (signedN 16 raw)).toNat, 0)
  | _ => (raw, 0)

/-- A value stored through a record, with its flags (R171). -/
def recStore (r : BRec) (x : Nat) : Nat × Nat :=
  let clampTo := fun (lo hi v : Int) (n : Nat) => if BRec.sat r then (ofInt n (clampInt lo hi v)).toNat else x % 2 ^ n
  match BRec.etype r with
  | 0 =>
    if !BRec.converts r then (x, 0)
    else match fmtOf (BRec.fmtc r) with
      | none => (x, 0)
      | some f => roundTo f (scaleF (decodeF fmtF32 x) (-(BRec.sexp r))) (BRec.rnd r) (BRec.sat r)
  | 1 => (clampTo 0 255 x 8, 0)
  | 2 => (clampTo (-128) 127 (signedN 32 x) 8, 0)
  | 3 => (clampTo 0 65535 x 16, 0)
  | 4 => (clampTo (-32768) 32767 (signedN 32 x) 16, 0)
  | _ => (x, 0)

/-! Results of accesses. -/

/-- The low words of a value, in consecutive registers. -/
def regWords (reg n v : Nat) : List (Nat × Nat) := (List.range n).map fun k => (reg + k, v / 2 ^ (32 * k) % 2 ^ 32)

/-- A value loaded, as the words of consecutive registers from the lane's destination (R371, R379). -/
def loadedWords (k : FKind) (bytes : Nat) (a : LaneAcc) : List (Nat × Nat) :=
  match k with
  | .load 1 => [(a.reg, (ofInt 32 (signedN 8 a.old)).toNat)]
  | .load 3 => [(a.reg, (ofInt 32 (signedN 16 a.old)).toNat)]
  | .load _ => regWords a.reg (ceilDiv bytes 4) a.old
  | .atomic _ _ => regWords a.reg (ceilDiv bytes 4) a.old
  | .loadRec _ => regWords a.reg (if bytes == 8 then 2 else 1) a.old
  | .loadTile _ => [(a.reg, a.old)]
  | .gather _ => [(a.reg, a.old)]
  | .hash _ _ _ => if a.reg < 256 then [(a.reg, a.old % 2 ^ 32)] else []
  | .fifo => [(a.reg, a.old)]
  | _ => []

/-- A loaded value as a uniform register holds it (R374). -/
def uniValue (sz old : Nat) : Quad :=
  match sz with
  | 1 => ofInt 64 (signedN 8 old)
  | 3 => ofInt 64 (signedN 16 old)
  | _ => BitVec.ofNat 64 old

/-- A register of a flight's level; a Lodge register only while its frame stands (R268). -/
def Team.land (t : Team) (lvl reg lane : Nat) (x : Word) : Team :=
  if 240 ≤ reg && lvl != 0 && (t.frame lvl).isNone then t else t.wrV lvl reg lane x

/-- The registers that an access writes as it lands, as kind (R77), register and lane: word by word. -/
def FKind.targets (k : FKind) (bytes : Nat) (a : LaneAcc) : List (Nat × Nat × Nat) :=
  match k with
  | .store => []
  | .segred _ _ => []
  | .stcond p => [(2, p, a.lane)]
  | .loadU _ => [(1, a.reg, 0)]
  | .hash _ _ _ => [if a.reg < 256 then (0, a.reg, a.lane) else (2, a.reg - 256, a.lane)]
  | k => (loadedWords k bytes { a with old := 0 }).map fun e => (0, e.1, a.lane)

/-- Those of a list by word that no later write has overtaken (R303). -/
def LaneAcc.kept {α : Type} (a : LaneAcc) (l : List α) : List α :=
  if a.live then ((l.zip (List.range l.length)).filter fun e => !a.cut.testBit e.2).map (·.1) else []

/-- The flags that an element sets as it lands, also where a later write has overtaken its register (R171, R243). -/
def FKind.raised (k : FKind) (a : LaneAcc) : Nat :=
  match k with
  | .loadRec b => if a.live then (recLoad b a.old).2 else 0
  | .gather b => if a.live then (recLoad b a.old).2 else 0
  | _ => 0

/-- The results of a run written to the registers; records convert and set flags (R171). -/
def landRun (f : Flight) (t : Team) (r : Run) : Team :=
  r.accs.foldl (fun t a =>
    let t := t.orFlags (f.kind.raised a)
    if (a.kept (f.kind.targets r.bytes a)).isEmpty then t
    else match f.kind with
      | .loadU sz => t.wrS f.lvl a.reg (uniValue sz a.old)
      | .loadRec b =>
        let x := recLoad b a.old
        ((a.kept (loadedWords f.kind r.bytes { a with old := x.1 })).foldl
          (fun t e => t.land f.lvl e.1 a.lane (BitVec.ofNat 32 e.2)) t)
      | .loadTile n =>
        let old := (t.rdV f.lvl a.reg a.lane).toNat
        let lo := 2 ^ (8 * n * a.data)
        t.land f.lvl a.reg a.lane (BitVec.ofNat 32 (old % lo + a.old * lo + old / (lo * 2 ^ (8 * n)) * (lo * 2 ^ (8 * n))))
      | .gather b =>
        let x := recLoad b a.old
        t.land f.lvl a.reg a.lane (BitVec.ofNat 32 x.1)
      | .hash _ _ _ =>
        if a.reg < 256 then t.land f.lvl a.reg a.lane (BitVec.ofNat 32 a.old)
        else t.wrP (a.reg - 256) (1#1024 <<< a.lane) (if a.old.testBit 32 then 1#1024 <<< a.lane else 0)
      | .stcond p => t.wrP p (1#1024 <<< a.lane) (if a.old == 1 then 1#1024 <<< a.lane else 0)
      | k => (a.kept (loadedWords k r.bytes a)).foldl (fun t e => t.land f.lvl e.1 a.lane (BitVec.ofNat 32 e.2)) t) t

/-- The registers an access in flight will write, as kind (R77), register and lane, where no later write has overtaken it
(R303). -/
def Flight.dests (f : Flight) : List (Nat × Nat × Nat) :=
  (f.runs.flatMap fun r => r.accs.flatMap fun a => a.kept (f.kind.targets r.bytes a)) ++
  (match f.kind with | .hash true _ q => if q < 4 then [(3, q, 0)] else [] | _ => []) ++
  f.zero.map fun e => (0, e.2, e.1)

/-- An incomplete write once later ones of some of its lanes are complete from a cycle on: those lanes no longer show what was
before it (R303). -/
def Hazard.until (h : Hazard) (hit : Nat → Bool) (ready : Nat) : List Hazard :=
  [{ h with olds := h.olds.filter fun e => !hit e.1 },
   { h with olds := h.olds.filter (fun e => hit e.1), ready := Nat.min h.ready ready }].filter fun h =>
    !h.olds.isEmpty && h.ready != 0

/-- A flight's results land, and it leaves the team. -/
def landFlight (t : Team) (f : Flight) : Team :=
  let l := f.dests
  let t := { t with hazards := t.hazards.flatMap fun h => h.until (fun n => l.contains (h.kind, h.reg, n)) 0 }
  let t := f.runs.foldl (landRun f) t
  let t := f.zero.foldl (fun t e => t.land f.lvl e.2 e.1 0) t
  let t := match f.kind with
    | .hash true _ q => if q < 4 then t.wrQ q (f.runs.any fun r => r.accs.any fun a => a.old.testBit 33) else t
    | _ => t
  { t with flights := t.flights.filter fun g => g.id != f.id }

/-- An access in flight after a write that overtakes some of its registers (R303): the last-issued writer's value remains.
An insertion whose table-full predicate is overtaken writes none. -/
def Flight.overtakenBy (f : Flight) (hit : Nat × Nat × Nat → Bool) : Flight :=
  let mark := fun (n : Nat) (a : LaneAcc) =>
    let l := f.kind.targets n a
    { a with cut := ((l.zip (List.range l.length)).filter fun e => hit e.1).foldl (fun m e => m ||| 2 ^ e.2) a.cut }
  let kind := match f.kind with
    | .hash true k q => if hit (3, q, 0) then .hash true k 4 else .hash true k q
    | k => k
  { f with kind := kind, zero := f.zero.filter (fun e => !hit (0, e.2, e.1)),
           runs := f.runs.map fun r => { r with accs := r.accs.map (mark r.bytes) } }

/-- A register of a kind in a lane, as a number. -/
def Team.regVal (t : Team) (lvl kind reg lane : Nat) : Nat :=
  match kind with
  | 0 => (t.rdV lvl reg lane).toNat
  | 1 => (t.rdS lvl reg).toNat
  | 2 => if (t.rdP reg).getLsbD lane then 1 else 0
  | 3 => if t.rdQ reg then 1 else 0
  | _ => (t.rdM reg lane).toNat

/-- What the registers of an access in flight hold once it lands, where its runs are already performed (R303): elements that
share a register, and what an insertion finds over all its lanes, once all are. -/
def Flight.landed (t : Team) (f : Flight) : List (Nat × Nat × Nat × Nat) :=
  let whole := match f.kind with | .loadTile _ => true | .hash _ _ _ => true | _ => false
  let done := f.runs.filter (·.done)
  if whole && done.length != f.runs.length then []
  else
    let g := { f with runs := done }
    let t' := landFlight t g
    g.dests.map fun e => (e.1, e.2.1, e.2.2, t'.regVal f.lvl e.1 e.2.1 e.2.2)

end Sys2Proof.Machine
end

