-- ==== Sys2Proof/Machine/Issue.lean ====
section
/-! DEFINITION. Issuing an instruction: stages 6 to 8 of R315, what a read before a write's completion returns (R302 to
R304), repetition (R306 to R308), and the traps that follow the last repetition (R243, R260). -/

namespace Sys2Proof.Machine

/-! Registers an instruction reads and writes. -/

/-- The registers of a field, as kind (R77: 0 v, 1 s, 2 p, 3 q, 4 m) and number; those that a base reaches through a layout
(R209), the layout gives. -/
def Fld.regList : Fld → Nat → List (Nat × Nat)
  | .s n, x => (List.range n).map fun i => (1, x + i)
  | .p, x => if x == 0 then [] else [(2, x)]
  | .pd, x => [(2, x)]
  | .q, x => [(3, x)]
  | .m, x => [(4, x)]
  | .vb, _ => []
  | .mb, _ => []
  | f, x => (f.vregs x).map fun r => (0, r)

/-- The source fields of a form, in the order D, A, B, C (SB), guard: D is a source of the stores, the atomics,
MOVUSER's writes and MFMA. -/
def Form.reads : Form → List (Fld × Nat)
  | .a op fn w g =>
    (if op == 23 && fn == 5 then [(g.d, w.dN)] else []) ++
    (if op == 25 && fn == 3 && w.md 1 1 == 1 then [(g.d, w.dN)] else [(g.a, w.aN)]) ++ [(g.b, g.bOf w)] ++ (if g.c == .pd then [] else [(g.c, g.cOf w)]) ++ [(.p, w.gN)]
  | .m op fn w g =>
    (if op == 16 then [] else [(g.d, w.dN)]) ++ [(g.a, w.aN)] ++
    (if (op == 16 && fn == 6) || (op == 17 && fn == 4) then [] else [(.s 1, w.sbN)]) ++ [(.p, w.gN)]
  | .i7 _ w lane useA => if useA then [(if lane then .v else .s 1, w.a.toNat)] else []
  | .i30 _ w lane useA => if useA then [(if lane then .v else .s 1, w.a.toNat)] else []
  | .b op w => if op == 2 then [(.q, w.psel.toNat)] else []
  | .brc w => [(.p, w.psel.toNat)]
  | _ => []

/-- The registers that the sources of a form name. -/
def Form.sources (f : Form) : List (Nat × Nat) := f.reads.flatMap fun e => e.1.regList e.2

/-- The registers that the destination fields of a form name. -/
def Form.writes : Form → List (Nat × Nat)
  | .a _ _ w g => g.d.regList w.dN ++ (if g.c == .pd then g.c.regList (g.cOf w) else [])
  | .i7 _ w lane _ => [(if lane then 0 else 1, w.d.toNat)]
  | .i30 _ w lane _ => [(if lane then 0 else 1, w.d.toNat)]
  | _ => []

/-- Does the split issue interlocked (R134, R135, R291, R305)? -/
def interlocked (t : Team) (p : Split) : Bool :=
  !t.body.kind.native || t.mode.getLsbD 0 || t.forced || p.intl ||
  (match p.clause with | some c => c.intl || c.cls == 7 | none => false)

/-- Do two registers named at two levels differ because one of them is a Lodge register (R126, R268)? -/
def lodgeApart (kind reg l1 l2 : Nat) : Bool :=
  l1 != l2 && ((kind == 0 && 240 ≤ reg) || (kind == 1 && 56 ≤ reg))

/-- A write not complete at a read of the split: a fixed latency not run out (R302) as (kind, register, lane, old value), or an
access performed and not complete as (kind, register, lane, new value) (R303). -/
def Ctx.unready (c : Ctx) : List (Nat × Nat × Nat × Nat) :=
  ((c.t.hazards.filter fun h => h.split == c.sp.id && c.sp.cycle < h.ready).flatMap fun h =>
    h.olds.map fun e => (h.kind, h.reg, e.1, e.2)) ++
  (c.t.flights.flatMap fun f => (f.landed c.t).filter fun e =>
    !lodgeApart e.1 e.2.1 f.lvl c.sp.lvl && (e.1 == 1 || e.1 == 3 || c.sp.mask.getLsbD e.2.2.1))

/-- The register that an access of the team in flight will write, in a lane of the split (R304). -/
def Ctx.pendingLoad (c : Ctx) (kind reg : Nat) : Bool :=
  c.t.flights.any fun f => !lodgeApart kind reg f.lvl c.sp.lvl && f.dests.any fun e =>
    e.1 == kind && e.2.1 == reg && (kind == 1 || kind == 3 || c.sp.mask.getLsbD e.2.2)

/-- Is a register's last write not complete at this issue? -/
def Ctx.notReady (c : Ctx) (kind reg : Nat) : Bool :=
  (c.t.hazards.any fun h => h.split == c.sp.id && c.sp.cycle < h.ready && h.kind == kind && h.reg == reg &&
    h.olds.any fun e => kind == 1 || kind == 3 || c.sp.mask.getLsbD e.1) ||
  c.pendingLoad kind reg

/-- Stage 8: the first of some registers that an instruction issued by stall counts reads too early, with MODE.SBCHK on
(R304). -/
def Ctx.firstEarly (c : Ctx) (l : List (Nat × Nat)) : Option Nat :=
  if interlocked c.t c.sp || !c.t.mode.getLsbD 1 then none
  else l.findSome? fun r => if c.notReady r.1 r.2 then some (r.1 * 256 + r.2) else none

/-- Stage 8 of the registers that the fields of a form name. What a layout or a record reaches beyond them, the
instruction's own meaning checks. -/
def Ctx.tooEarly (c : Ctx) (f : Form) : Option Nat := c.firstEarly f.sources

/-- What registers read by an instruction issued by stall counts return: in each lane whose write is not complete, the old
or the new value, a free choice (R303, log entry 5). -/
def Ctx.earlyOf (c : Ctx) (regs : List (Nat × Nat)) : Ctx :=
  if interlocked c.t c.sp then c
  else
    let l := c.unready.filter fun e => regs.contains (e.1, e.2.1)
    if l.isEmpty then c
    else
      let n := c.s.fresh
      { c with s := { c.s with fresh := n + l.length },
               ov := c.ov ++ (l.zip (List.range l.length)).filterMap fun x =>
                 if Config.freeBit (n + x.2) then some x.1 else none }

/-- The sources of a form as the instruction reads them (R303). -/
def Ctx.early (c : Ctx) (f : Form) : Ctx := c.earlyOf f.sources

/-- Stage 8 of vector registers, or the rest of the instruction. -/
def Ctx.afterEarly (c : Ctx) (regs : List Nat) (len : Nat) (k : Ctx → Out) : Out :=
  match c.firstEarly (regs.map fun r => (0, r)) with
  | some r => c.trap cStall [r] len
  | none => k (c.earlyOf (regs.map fun r => (0, r)))

/-- Do two splits have different registers' hazards? The hazards of a split pass to those made from it. -/
def Team.forkHazards (t : Team) (from_ : Nat) (ids : List Nat) : Team :=
  { t with hazards := t.hazards.flatMap fun h =>
      if h.split == from_ then ids.map (fun n => { h with split := n }) else [h] }

/-- COND of integers (R300). -/
def condInt (cond : Nat) (a b : Int) : Bool :=
  match cond with
  | 0 => a == b
  | 1 => a != b
  | 2 => decide (a < b)
  | 3 => decide (a ≤ b)
  | 4 => decide (b < a)
  | _ => decide (b ≤ a)

/-! The wrappers. -/

/-- The reservation is dropped before the 64th instruction after the LDRES (R103). -/
def Ctx.window (c : Ctx) : Ctx :=
  match c.sp.resv with
  | some r =>
    if 64 < r.count + repsOf c.sp then
      let p := { c.sp with resv := none }
      { c with sp := p, t := c.t.modSplit p.id fun x => { x with resv := none } }
    else c
  | none => c

/-- The length of a format-A instruction in words. -/
def lenA (w : OpA) : Nat := if w.ext.isSome then 2 else 1

/-- Stages 6 to 8 of a format-A instruction that no prefix repeats, then its own effect. `pre` is stage 6: the first
TINFO word of PRIVILEGED (R314); `more` is what its own entry adds to stage 7. -/
def issueKR (pre more : Ctx → Option Nat) (op fn : Nat) (g : Sig) (w : OpA) (s : State) (k : Ctx → Out) : Out :=
  withCtx s fun c0 =>
    let c := c0.window
    match pre c with
    | some x => c.trap cPriv [x] (lenA w)
    | none =>
      match (g.range c.t.regs c.t.moms c.t.accs (c.sp.lvl != 0) w).or (more c) with
      | some r => c.trap cRange [r] (lenA w)
      | none =>
        match c.tooEarly (.a op fn w g) with
        | some r => c.trap cStall [r] (lenA w)
        | none => k (c.early (.a op fn w g))

/-- An instruction whose entry adds nothing to stage 7. -/
def issueK (pre : Ctx → Option Nat) (op fn : Nat) (g : Sig) (w : OpA) (s : State) (k : Ctx → Out) : Out :=
  issueKR pre (fun _ => none) op fn g w s k

/-- An instruction without a condition of stage 6. -/
def issueA (op fn : Nat) (g : Sig) (w : OpA) (s : State) (k : Ctx → Out) : Out :=
  issueK (fun _ => none) op fn g w s k

/-- Is the guard true in at least one active lane (R330)? An instruction that executes again for the lane of a record that
faulted has all its lanes (R341). -/
def Ctx.guarded (c : Ctx) (w : OpA) : Bool := c.sp.mask &&& c.guard w.gN w.gnB != 0

/-- An instruction whose guard acts on the whole split (R330). -/
def issueU (op fn : Nat) (g : Sig) (w : OpA) (s : State) (k : Ctx → Out) : Out :=
  issueA op fn g w s fun c => if c.guarded w then k c else c.done c.t (lenA w)

/-- A format-M instruction. Through a record it may name more data registers than D (R172, R379), checked with it; an odd D of a
pair is no legal encoding (R354), which stage 5 tells before any later one. `lay` is what a layout adds to stage 7 (R209). -/
def issueMR (lay : Ctx → Option Nat) (op fn : Nat) (g : Sig) (w : OpM) (s : State) (k : Ctx → Out) : Out :=
  withCtx s fun c0 =>
    let c := c0.window
    let c1 := c.early (.m op fn w g)
    let recs := ((c.s.wgOf c.t).map (·.brecs)).getD []
    let n := (c1.rdS w.sbN).toNat % 256
    let more := recMore recs n op fn w
    if recOdd recs n op fn w then c.trap cIllegal [(word0 op true w.stall w.d w.a fn).toNat, 0xFFFFFFFF] 2
    else match ((g.rangeM c.t.regs c.t.moms c.t.accs (c.sp.lvl != 0) w).or
        (more.findSome? fun r => Fld.outside .v c.t.regs 0 0 (c.sp.lvl != 0) r)).or (lay c) with
    | some r => c.trap cRange [r] 2
    | none =>
      let data := if op == 16 then [] else more.map fun r => (0, r)
      match (c.tooEarly (.m op fn w g)).or (c.firstEarly data) with
      | some r => c.trap cStall [r] 2
      | none => k (c1.earlyOf data)

/-- A format-M instruction whose layouts add nothing to stage 7. -/
def issueM (op fn : Nat) (g : Sig) (w : OpM) (s : State) (k : Ctx → Out) : Out := issueMR (fun _ => none) op fn g w s k

/-- The forms of a repeatable instruction's repetitions, or itself alone (R306). -/
def repForms (g : OpA → Sig) (p : Split) (w : OpA) : List OpA :=
  match p.rep with
  | none => [w]
  | some r => (List.range (r.cntm1.toNat + 1)).filterMap fun j => (g w).stepped r j w

/-- What a repetition reports: lanes and flags of FP_EXCEPTION, lanes of NEGATIVE_VARIANCE with its register. -/
structure Report where
  flags : Nat := 0                       -- flags reported by writing lanes
  fpLanes : List (Nat × Nat) := []       -- lane and its flags
  nvLanes : Mask := 0
  nvReg  : Nat := 0
  nvBits : Nat := 0                      -- the first negative variance (R260)
  deriving DecidableEq, Repr

/-- The enabled flags among those reported (R242, R243). -/
def enabledFlags (t : Team) (f : Nat) : Nat := f &&& bits t.flags 12 8

/-- The repetitions in ascending order, each from the team the one before left, each reading early what earlier
instructions have not completed (R307, R353). -/
def runReps (op fn : Nat) (g : OpA → Sig) (eff : OpA → Ctx → Team × Report) :
    List OpA → Ctx → List (Nat × Nat) → List Report → Ctx × List Report
  | [], c, _, rs => (c, rs)
  | w :: ws, c, done, rs =>
    let c1 := c.early (.a op fn w (g w))
    let c1 := { c1 with ov := c1.ov.filter fun e => !done.contains (e.1, e.2.1) }
    let (t, r) := eff w c1
    runReps op fn g eff ws { c1 with t := t, ov := [] } (done ++ (g w).d.regList w.dN) (rs ++ [r])

/-- The traps that follow the last repetition: NEGATIVE_VARIANCE before FP_EXCEPTION (R243, R260, R308). -/
def finishReps (c : Ctx) (w : OpA) (reps : List Report) : Out :=
  let t := c.t.orFlags ((reps.map (·.flags)).foldl (· ||| ·) 0)
  match reps.find? (fun r => r.nvLanes != 0) with
  | some r => c.trapLanes t cNegVar [r.nvReg, r.nvBits] ((reps.map (·.nvLanes)).foldl (· ||| ·) 0) (lenA w)
  | none =>
    let hit := fun r : Report => (r.fpLanes.filter fun e => enabledFlags c.t e.2 != 0)
    match reps.find? (fun r => !(hit r).isEmpty) with
    | some r =>
      c.trapLanes t cFp [((hit r).map fun e => enabledFlags c.t e.2).foldl (· ||| ·) 0]
        (laneMask ((reps.flatMap hit).map (·.1))) (lenA w)
    | none => c.done t (lenA w)

/-- Issue a repeatable format-A instruction (R306 to R308): every repetition is checked, then they execute in order.
`chk` is stage 9: a trap of the instruction's own entry. -/
def issueRC (op fn : Nat) (g : OpA → Sig) (chk : OpA → Ctx → Option (Nat × List Nat)) (w : OpA) (s : State)
    (eff : OpA → Ctx → Team × Report) : Out :=
  withCtx s fun c0 =>
    let c := c0.window
    let forms := repForms g c.sp w
    match forms.findSome? fun x => (g x).range c.t.regs c.t.moms c.t.accs (c.sp.lvl != 0) x with
    | some r => c.trap cRange [r] (lenA w)
    | none =>
      match forms.findSome? fun x => c.tooEarly (.a op fn x (g x)) with
      | some r => c.trap cStall [r] (lenA w)
      | none =>
        match forms.findSome? fun x => chk x c with
        | some e => c.trap e.1 e.2 (lenA w)
        | none =>
          let r := runReps op fn g eff forms c [] []
          finishReps r.1 w r.2

/-- A repeatable instruction whose entry names no trap of its own. -/
def issueR (op fn : Nat) (g : OpA → Sig) (w : OpA) (s : State) (eff : OpA → Ctx → Team × Report) : Out :=
  issueRC op fn g (fun _ _ => none) w s eff

/-- A repeatable instruction that reports nothing. -/
def issueV (op fn : Nat) (g : OpA → Sig) (w : OpA) (s : State) (eff : OpA → Ctx → Team) : Out :=
  issueR op fn g w s fun w c => (eff w c, {})

/-! Format I (R297): D, A, the immediate; a lane form can be repeated, D and A stepping (R306). -/

/-- The registers D and A of each repetition. -/
def immForms (p : Split) (useA : Bool) (d a : Nat) : List (Nat × Nat) :=
  match p.rep with
  | none => [(d, a)]
  | some r => (List.range (r.cntm1.toNat + 1)).map fun j =>
      (d + j * r.dd.toNat, if useA then a + j * r.da.toNat else a)

/-- The team after the repetitions of a lane immediate form, in every active lane (R359). -/
def immReps (mk : Nat → Nat → Form) (eff : Word → Word) : List (Nat × Nat) → Ctx → List (Nat × Nat) → Ctx
  | [], c, _ => c
  | (d, a) :: r, c, done =>
    let c1 := c.early (mk d a)
    let c1 := { c1 with ov := c1.ov.filter fun e => !done.contains (e.1, e.2.1) }
    let t := c1.t.wrVs c1.sp.lvl d ((c1.lanes c1.active).map fun l => (l, eff (c1.rdV a l)))
    immReps mk eff r { c1 with t := t, ov := [] } (done ++ [(0, d)])

/-- Issue a lane immediate form (R359). -/
def issueIV (mk : Nat → Nat → Form) (useA : Bool) (d a len : Nat) (s : State) (eff : Word → Word) : Out :=
  withCtx s fun c0 =>
    let c := c0.window
    let forms := immForms c.sp useA d a
    let bad := fun x : Nat × Nat =>
      (Fld.outside .v c.t.regs 0 0 (c.sp.lvl != 0) x.1).or
        (if useA then Fld.outside .v c.t.regs 0 0 (c.sp.lvl != 0) x.2 else none)
    match forms.findSome? bad with
    | some r => c.trap cRange [r] len
    | none =>
      match forms.findSome? fun x => c.tooEarly (mk x.1 x.2) with
      | some r => c.trap cStall [r] len
      | none => let c' := immReps mk eff forms c []; c'.done c'.t len

/-- Issue a uniform immediate form (R345). -/
def issueIS (f : Form) (d a len : Nat) (s : State) (eff : Quad → Quad) : Out :=
  withCtx s fun c0 =>
    let c := c0.window
    match c.tooEarly f with
    | some r => c.trap cStall [r] len
    | none => let c' := c.early f; c'.done (c'.t.wrS c'.sp.lvl d (eff (c'.rdS a))) len

end Sys2Proof.Machine
end

