-- ==== Sys2Proof/Machine/Access.lean ====
section
/-! DEFINITION. Memory accesses of a split: fences at issue (R184 to R186, R193, R194), translation of the lanes and
their faults (R174, R275, R463), flights, and buffer records (R169 to R172). -/

namespace Sys2Proof.Machine

/-! Fences. -/

/-- The scope an ordering takes: team and wg act as cl for a migrated team (R145, R180). -/
def Ctx.scopeOf (c : Ctx) (scope : Nat) : Nat := if scope < 2 && c.s.migrated c.t then 2 else scope

/-- Is the location in another package? -/
def remoteLoc (s : State) : Loc → Bool
  | .mem pa => !isLocal s pa
  | _ => false

/-- Is an access a store, and no atomic, which is also a load (R198)? -/
def FKind.stores : FKind → Bool | .store => true | .stcond _ => true | _ => false

/-- Has a run of an access reached what a release fence waits for (R185): a store to another package is excepted below
sys? -/
def fencedRun (s : State) (scope : Nat) (stores : Bool) (r : Run) : Bool :=
  (stores && remoteLoc s r.loc && scope < 5) || runAcked s r

/-- Does a queued instruction still have to read operands from memory or TREG: MMA, MMA2, ACCLD, MMMA (R404)? These are relaxed
loads of the split that issued it. -/
def MatOp.unread (m : MatOp) : Bool := !m.started && [(22, 0), (22, 1), (22, 3), (23, 11)].contains m.fn

/-- What a release fence at a scope waits for (R185): the accesses of the team numbered below `upTo`, atomics that have
returned (R198) and operand reads of queued matrix instructions (R404) among them. -/
def fenceDone (s : State) (t : Team) (scope upTo : Nat) : Bool :=
  (t.mat.all fun m => upTo ≤ m.seqNo || !m.unread) &&
  (t.flights.all fun f => upTo ≤ f.id || f.runs.all (fencedRun s scope f.kind.stores)) &&
  (t.acks.all fun a => upTo ≤ a.1 || decide (a.2.2 < clockOf s a.2.1)) &&
  (scope < 2 || decide (t.wct < clockOf s t.core.die))

/-- Perform the release part of an instruction, or park in it (R184). -/
def Ctx.withRelease (c : Ctx) (ord scope : Nat) (k : Ctx → Out) : Out :=
  if ord < 2 || c.sp.stage.testBit 0 then k c
  else
    let sc := c.scopeOf scope
    if fenceDone c.s c.t sc c.s.nextId then k c else c.park (.release sc c.s.nextId)

/-- Has what an acquire waits for returned (R186, R193): one access, or every earlier load of the split, operand reads among them
(R404)? -/
def acquireDone (t : Team) (p : Split) (upTo : Nat) (one : Bool) : Bool :=
  (one || t.mat.all fun m => upTo ≤ m.seqNo || !m.unread || !(m.split == p.id || p.anc.contains m.split)) &&
  !(t.flights.any fun f => if one then f.id + 1 == upTo
    else f.id < upTo && (f.split == p.id || p.anc.contains f.split) && (f.path == 0 || f.path == 2 || f.path == 3))

/-- What an acquire invalidates (R186, R193): at pkg and sys the core's lines homed on another die; for FENCE.sc every
line. -/
def acquireInval (s : State) (core : CoreId) (scope : Nat) (sc : Bool) : State :=
  if sc then l1Drop s core fun _ => true
  else if 4 ≤ scope then l1Drop s core fun l => homeDie s l.line != some core.die
  else s

/-- Wake the splits of a team whose acquire is complete. -/
def settleAcquire (s : State) (tid : Nat) : State :=
  match s.teams.at? tid with
  | none => s
  | some t => t.splits.foldl (fun s p =>
      match p.park with
      | some (.acquire scope upTo one sc) =>
        if acquireDone t p upTo one then
          (acquireInval s t.core scope sc).modTeam tid fun t => t.modSplit p.id fun x => { x with park := none }
        else s
      | _ => s) s

/-! Lanes of an access. -/

/-- Where the elements of an access go: those that translate, by lane, address and location; those whose fault fails
the grid; those whose fault is served (R463). -/
structure Mapped where
  ok     : List (Nat × Nat × Tran) := []
  bad    : List (Nat × Nat × Nat) := []    -- lane, address, cause
  served : List (Nat × Nat × Nat) := []
  deriving DecidableEq, Repr

/-- The checks of one element in the order of R463; `want` is the handle kind's (R211). -/
def Ctx.checkVa (c : Ctx) (size access : Nat) (want : Loc → Bool) (va : Nat) : Except (Bool × Nat) Tran :=
  if !vaOk va then .error (false, cProt)
  else if inWindow va && (windowLoc c.s c.t.core c.t.wg va).isNone then .error (false, cProt)
  else if va % size != 0 then .error (false, cMisal)
  else match translate c.s c.t.core (c.s.pidOf c.t) c.t.wg (c.s.ptbaseOf c.t) va access with
    | .error e => .error (e.served, e.cause)
    | .ok tr => if want tr.loc then .ok tr else .error (tr.loc.isMem, cProt)

/-- Map the elements (lane, address) of an access; elements of a lane that faults are repeated with it (R375). -/
def Ctx.mapLanes (c : Ctx) (size access : Nat) (want : Loc → Bool) (l : List (Nat × Nat)) : Mapped :=
  let r := l.map fun e => (e, c.checkVa size access want e.2)
  let bad := r.filterMap fun e => match e.2 with | .error (false, x) => some (e.1.1, e.1.2, x) | _ => none
  let served := r.filterMap fun e => match e.2 with | .error (true, x) => some (e.1.1, e.1.2, x) | _ => none
  let out := (bad ++ served).map (·.1)
  { ok := r.filterMap fun e => match e.2 with
      | .ok t => if out.contains e.1.1 then none else some (e.1.1, e.1.2, t)
      | _ => none,
    bad := bad, served := served }

/-- The first element of the lowest lane of a list of faults. -/
def lowest (l : List (Nat × Nat × Nat)) : Option (Nat × Nat × Nat) :=
  l.foldl (fun m e => match m with | some x => if e.1 < x.1 then some e else some x | none => some e) none

/-- Addresses that miss in the TLB, one in each 64 KiB region; none once the split has waited for them (R175, R176). -/
def Ctx.misses (c : Ctx) (l : List (Nat × Nat)) : List Nat :=
  if c.sp.stage.testBit 2 then []
  else
    let pt := c.s.ptbaseOf c.t
    let vas := (l.map (·.2)).filter fun va => vaOk va && !inWindow va && (tlbFind c.s c.t.core pt va).isNone
    (distinct (vas.map (· / 65536))).map (· * 65536)

/-- Add an access in flight to the team. -/
def Ctx.fly (c : Ctx) (f : Flight) : Ctx :=
  let f := { f with id := c.s.nextId, split := c.sp.id, anc := c.sp.anc, lvl := c.sp.lvl, since := c.s.clocks,
                    pc := c.sp.pc, slot := (c.sp.clause.map (·.slot)).getD 0,
                    runs := f.runs.map fun r => r.issued c.s (c.s.pidOf c.t) }
  { c with s := { c.s with nextId := c.s.nextId + 1 }, t := { c.t with flights := c.t.flights ++ [f] } }

/-- The end of an access at issue: a fault that fails the grid, faults to be served, or the next instruction, held by an
acquire (R186, R463). The lanes without a fault are in flight already. -/
def Ctx.endAccess (c : Ctx) (m : Mapped) (access len : Nat) (acq : Option Nat) (fence : Bool) : Out :=
  match lowest m.bad, lowest m.served with
  | some (_, va, cause), _ =>
    .next (raise (c.put c.t) c.tid c.t c.sp cause [va] (laneMask (m.bad.map (·.1))) len)
  | none, some (_, va, cause) =>
    .next (serveFault (c.put c.t) c.tid c.t c.sp va access cause (laneMask (m.served.map (·.1))))
  | none, none =>
    match acq with
    | none => c.done c.t len
    | some scope =>
      let t := c.doneTeam c.t len
      let t := t.modSplit c.sp.id fun p => { p with park := some (.acquire scope c.s.nextId (!fence) false) }
      .next (settleAcquire (c.put t) c.tid)

/-- Group accesses by location, in order: each location is one run (R113, R381). -/
def addRun (l : List Run) (loc : Loc) (bytes : Nat) (strm : Bool) (va : Nat) (a : LaneAcc) : List Run :=
  if l.any fun r => r.loc == loc then
    l.map fun r => if r.loc == loc then { r with accs := r.accs ++ [a] } else r
  else l ++ [{ loc := loc, bytes := bytes, accs := [a], strm := strm, va := va }]

/-- A 16-byte access to far or host memory, here or in another package, is two of 8 bytes (R182). -/
def twoHalves (loc : Loc) (bytes : Nat) : Bool :=
  bytes == 16 && (match loc with
    | .mem pa => decide (0x1000_0000_0000 ≤ localOf pa)
    | _ => false)

/-- A location a number of bytes further. -/
def Loc.plus : Loc → Nat → Loc
  | .mem a, n => .mem (a + n)
  | .scr w a, n => .scr w (a + n)
  | .treg w a, n => .treg w (a + n)

/-- The runs of the elements that translate. -/
def mkRuns (size : Nat) (l : List (Nat × Nat × Tran)) (acc : Nat → Nat → LaneAcc) : List Run :=
  l.foldl (fun rs e =>
    let a := acc e.1 e.2.1
    if twoHalves e.2.2.loc size then
      let rs := addRun rs e.2.2.loc 8 e.2.2.strm e.2.1 { a with data := a.data % 2 ^ 64 }
      addRun rs (e.2.2.loc.plus 8) 8 e.2.2.strm (e.2.1 + 8) { a with reg := a.reg + 2, data := a.data / 2 ^ 64 }
    else addRun rs e.2.2.loc size e.2.2.strm e.2.1 a) []

/-- The runs of a STCOND, one for each lane, ascending (R376). -/
def laneRuns (size : Nat) (l : List (Nat × Nat × Tran)) (acc : Nat → LaneAcc) : List Run :=
  l.map fun e => { loc := e.2.2.loc, bytes := size, accs := [acc e.1], strm := e.2.2.strm, va := e.2.1 }

end Sys2Proof.Machine
end

