-- ==== Sys2Proof/Machine/MemOps.lean ====
section
/-! DEFINITION. Lane and uniform loads and stores, reservations, PREF and PROBE (R370 to R378). -/

namespace Sys2Proof.Machine

/-- The signed offset IMM10 (R294). -/
def OpM.imm10 (w : OpM) : Int := w.imm.toInt
/-- Writing lanes of a format-M instruction. -/
def Ctx.writingM (c : Ctx) (w : OpM) : Mask := c.writing w.g.toNat w.gn

/-- A sum of addresses modulo 2^64 (R296). -/
def addrSum (base : Quad) (off : Nat) (imm : Int) (size : Nat) : Nat :=
  (((base.toNat + off : Nat) : Int) + imm * size).emod (2 ^ 64 : Nat) |>.toNat

/-- What a lane access reaches: the element size, (lane, address) of the lanes, lanes at or above EXTENT, the record. -/
structure Plan where
  size  : Nat
  pairs : List (Nat × Nat)
  zero  : List Nat := []
  brec  : Option BRec := none
  deriving DecidableEq, Repr

/-- The plan of a lane instruction addressed by s[SB] + v[A] + offset, or through a record (R170, R172, R372). -/
def Ctx.plan (c : Ctx) (w : OpM) (need : Nat) (imm : Int) : Except (Nat × List Nat) Plan :=
  let lanes := c.lanes (c.writingM w)
  if !w.isRec then
    let size := sizeBytes w.size
    .ok { size := size,
          pairs := lanes.map fun l => (l, addrSum (c.rdS w.sbN) (c.rdV w.aN l).toNat imm size) }
  else
    let n := (c.rdS w.sbN).toNat % 256
    let recs := ((c.s.wgOf c.t).map (·.brecs)).getD []
    if lanes.isEmpty then .ok { size := 4, pairs := [] }
    else match recFault recs n need, recs[n]? with
      | some e, _ => .error e
      | none, none => .error (cProt, [n])
      | none, some r =>
        if BRec.nf r ≤ w.size then .error (cProt, [n])
        else
          let idx := fun l => (((c.rdV w.aN l).toNat : Int) + imm).emod (2 ^ 32 : Nat) |>.toNat
          let va := fun l => (BRec.base r + idx l * BRec.stride r + w.size * BRec.elem r) % 2 ^ 64
          .ok { size := BRec.elem r, brec := some r,
                pairs := (lanes.filter fun l => idx l < BRec.extent r).map fun l => (l, va l),
                zero := lanes.filter fun l => BRec.extent r ≤ idx l }

/-- The trap of a plan that cannot be made, naming the accessing lanes. -/
def Ctx.planTrap (c : Ctx) (w : OpM) (e : Nat × List Nat) : Out :=
  c.trapLanes c.t e.1 e.2 (if e.1 == cProt then c.writingM w else c.sp.mask) 2

/-- The acquire of an instruction, at its scope (R184). -/
def Ctx.acqOf (c : Ctx) (w : OpM) : Option Nat := if w.ord % 2 == 1 then some (c.scopeOf w.scope) else none

/-- Is a load served at its site: .acq at pkg or sys (R186)? -/
def Ctx.atSite (c : Ctx) (w : OpM) : Bool := match c.acqOf w with | some sc => 4 ≤ sc | none => false

/-- A load of the planned lanes, or the wait for their translations. -/
def Ctx.load (c : Ctx) (w : OpM) (p : Plan) (kind : FKind) (reg : Nat) : Out :=
  match c.misses p.pairs with
  | v :: vs => c.park (.walk (v :: vs))
  | [] =>
    let m := c.mapLanes p.size 0 (fun _ => true) p.pairs
    let c := c.fly { id := 0, split := 0, path := 0, kind := kind, site := c.atSite w, stream := w.stream, scope := w.scope,
                     runs := mkRuns p.size m.ok fun l _ => { lane := l, reg := reg, data := 0 },
                     zero := p.zero.flatMap fun l => (List.range (valueRegs p.size)).map fun k => (l, reg + k) }
    c.endAccess m 0 2 (c.acqOf w) p.pairs.isEmpty

/-- The value in the registers of a lane, from register r. -/
def Ctx.regValue (c : Ctx) (r n lane : Nat) : Nat :=
  (List.range n).foldl (fun x k => x + (c.rdV (r + k) lane).toNat * 2 ^ (32 * k)) 0

/-- A store of planned data (lane to value). -/
def Ctx.store (c : Ctx) (w : OpM) (p : Plan) (data : Nat → Nat) : Out :=
  match c.misses p.pairs with
  | v :: vs => c.park (.walk (v :: vs))
  | [] =>
    let m := c.mapLanes p.size 1 (fun _ => true) p.pairs
    let c := c.fly { id := 0, split := 0, path := 1, kind := .store, stream := w.stream, scope := w.scope,
                     runs := mkRuns p.size m.ok fun l _ => { lane := l, reg := 0, data := data l } }
    c.endAccess m 1 2 none false

def execLd (w : OpM) (s : State) : Out :=
  issueM 16 0 (sigLd w) w s fun c =>
    match c.plan w 1 (OpM.imm10 w) with
    | .error e => c.planTrap w e
    | .ok p => c.load w p (match p.brec with | some r => .loadRec r | none => .load w.size) w.dN

/-- The single access of LDS and STS, if at least one active lane has a true guard (R373). -/
def Ctx.uniPlan (c : Ctx) (w : OpM) : Plan :=
  let size := sizeBytes w.size
  { size := size,
    pairs := match c.lanes (c.writingM w) with
      | l :: _ => [(l, addrSum (c.rdS w.sbN) 0 (OpM.imm10 w) size)]
      | [] => [] }

def execLds (w : OpM) (s : State) : Out :=
  issueM 16 1 (sigLds w) w s fun c => c.load w (c.uniPlan w) (.loadU w.size) w.dN

/-- The lanes of LDB and STB: s[SB] + (IMM10 + lane) × size (R374). -/
def Ctx.blockPlan (c : Ctx) (w : OpM) : Plan :=
  let size := sizeBytes w.size
  { size := size,
    pairs := (c.lanes (c.writingM w)).map fun l => (l, addrSum (c.rdS w.sbN) 0 (OpM.imm10 w + l) size) }

def execLdb (w : OpM) (s : State) : Out :=
  issueM 16 2 (sigLdb w) w s fun c => c.load w (c.blockPlan w) (.load w.size) w.dN

/-- Does a site hold reservations: scratchpad or the home of near memory (R200)? -/
def reservable (s : State) : Loc → Bool
  | .scr _ _ => true
  | .mem pa => isLocal s pa && (match spaceOf s (localOf pa) with | .near _ => true | _ => false)
  | .treg _ _ => false

/-- The row of the atomic-site table (R197, R145, R380), from 0. -/
def Ctx.rowOf (c : Ctx) (l : Loc) : Nat :=
  match l with
  | .scr w _ => if w == c.t.wg && !c.s.migrated c.t then 0 else 1
  | .treg _ _ => 0
  | .mem pa => siteRow c.s c.t.core pa

/-- The first lane whose site does not accept, as ATOMIC_UNSUPPORTED_TYPE's TINFO (R380). -/
def Ctx.siteFault (c : Ctx) (fn : Nat) (ok : Loc → Bool) (m : Mapped) : Option (List Nat) :=
  (m.ok.find? fun e => !ok e.2.2.loc).map fun e => [c.rowOf e.2.2.loc, fn]

/-- The reservation that an LDRES asks for: the granules of the lanes it accesses among the split's 32 lowest active lanes.
Each site takes its own as it performs the lane's load (R200). -/
def Ctx.reserve (c : Ctx) (m : Mapped) : Option Resv :=
  let low := (c.lanes c.sp.mask).take 32
  let gs := ((m.ok.filter fun e => low.contains e.1).map fun e => granuleOf e.2.2.loc).foldl
    (fun l g => if l.contains g then l else l ++ [g]) []
  if gs.isEmpty then none else some { flight := c.s.nextId, pending := gs, granules := [], clocks := [], count := 0 }

def execLdres (w : OpM) (s : State) : Out :=
  issueM 16 3 (sigLdres w) w s fun c =>
    match c.plan w 1 (OpM.imm10 w) with
    | .error e => c.planTrap w e
    | .ok p =>
      match c.misses p.pairs with
      | v :: vs => c.park (.walk (v :: vs))
      | [] =>
        let m := c.mapLanes p.size 0 (fun _ => true) p.pairs
        match c.siteFault 3 (reservable c.s) m with
        | some info => c.trap cAtomic info 2
        | none =>
          let r := c.reserve m
          let c := c.fly { id := 0, split := 0, path := 0, kind := .load w.size, site := true, stream := w.stream,
                           scope := w.scope, resvs := true,
                           runs := mkRuns p.size m.ok fun l _ => { lane := l, reg := w.dN, data := 0 } }
          let c := { c with t := c.t.modSplit c.sp.id fun x => { x with resv := r } }
          c.endAccess m 0 2 (c.acqOf w) p.pairs.isEmpty

/-- Bring a line homed on the core's die into L1 under a lease (R158, R377). -/
def prefetch (s : State) (t : Team) (loc : Loc) : State :=
  match loc with
  | .mem pa =>
    if l1Able s pa && homeDie s pa == some t.core.die then (readLoc s t.core (s.pidOf t) loc 1 false false).2 else s
  | _ => s

/-- PREF (R377): the lines are asked for; each may come into L1 at any later moment, or never. -/
def execPref (w : OpM) (s : State) : Out :=
  issueM 16 4 (sigPref w) w s fun c =>
    match c.plan w 1 (OpM.imm10 w) with
    | .error e => c.planTrap w e
    | .ok p =>
      let m := c.mapLanes p.size 0 (fun _ => true) p.pairs
      let asked := if w.stream then [] else (m.ok.filter fun e => !e.2.2.strm).map (·.2.2.loc)
      c.done { c.t with prefs := c.t.prefs ++ asked } 2

/-- PROBE (R378): the split waits until every lane's translation is complete; no data access, no alignment check. -/
def execProbe (w : OpM) (s : State) : Out :=
  issueM 16 5 (sigPref w) w s fun c =>
    match c.plan w 1 (OpM.imm10 w) with
    | .error e => c.planTrap w e
    | .ok p =>
      let l := p.pairs.filter fun e => !(vaOk e.2 && inWindow e.2)
      match c.misses l with
      | v :: vs => c.park (.walk (v :: vs))
      | [] => c.endAccess (c.mapLanes 1 0 (fun _ => true) l) 0 2 none false

/-! Stores. -/

def execSt (w : OpM) (s : State) : Out :=
  issueM 17 0 (sigSt w) w s fun c =>
    c.withRelease w.ord w.scope fun c =>
      match c.plan w 2 (OpM.imm10 w) with
      | .error e => c.planTrap w e
      | .ok p =>
        match p.brec with
        | none => c.store w p fun l => c.regValue w.dN (valueRegs p.size) l
        | some r =>
          let x := fun l => recStore r (c.regValue w.dN (valueRegs p.size) l)
          let fl := (p.pairs.map fun e => (x e.1).2).foldl (· ||| ·) 0
          { c with t := c.t.orFlags fl }.store w p fun l => (x l).1

def execSts (w : OpM) (s : State) : Out :=
  issueM 17 1 (sigSts w) w s fun c =>
    c.withRelease w.ord w.scope fun c => c.store w (c.uniPlan w) fun _ => (c.rdS w.dN).toNat

def execStb (w : OpM) (s : State) : Out :=
  issueM 17 2 (sigStb w) w s fun c =>
    c.withRelease w.ord w.scope fun c =>
      let p := c.blockPlan w
      c.store w p fun l => c.regValue w.dN (valueRegs p.size) l

/-- STCOND (R376): the reservation goes with the stores to their site; the predicate is written when they complete. -/
def execStcond (w : OpM) (s : State) : Out :=
  issueM 17 3 (sigStcond w) w s fun c =>
    c.withRelease w.ord w.scope fun c =>
      match c.plan w 2 (w.imm.extractLsb' 0 7).toInt with
      | .error e => c.planTrap w e
      | .ok p =>
        match c.misses p.pairs with
        | v :: vs => c.park (.walk (v :: vs))
        | [] =>
          let m := c.mapLanes p.size 1 (fun _ => true) p.pairs
          let c := c.fly { id := 0, split := 0, path := 1, kind := .stcond (bits w.imm 9 7), stream := w.stream,
                           scope := w.scope, resv := c.sp.resv,
                           runs := laneRuns p.size m.ok fun l =>
                             { lane := l, reg := 0, data := c.regValue w.dN (valueRegs p.size) l } }
          let c := { c with t := c.t.modSplit c.sp.id fun x => { x with resv := none },
                            sp := { c.sp with resv := none } }
          c.endAccess m 1 2 (c.acqOf w) p.pairs.isEmpty

/-! Atomics (R379 to R381). -/

/-- Does a site accept a function and SIZE (R197)? `near` tells the space of another package's location. -/
def atomAccepts (row : Nat) (near : Bool) (fn sz : Nat) : Bool :=
  let int := fn ≤ 7 && (sz == 4 || sz == 5)
  let nearRow := int || (fn == 7 && sz == 6) || (fn == 8 && (sz == 4 || sz == 0 || sz == 1))
  let farRow := (fn == 0 || fn == 6 || fn == 7) && (sz == 4 || sz == 5)
  match row with
  | 0 => int || (fn == 8 && (sz == 4 || sz == 0))
  | 1 => int || (fn == 8 && sz == 4)
  | 2 => nearRow
  | 3 => nearRow
  | 6 => if near then nearRow else farRow
  | _ => farRow

/-- Is a location of another package in its near memory (R151)? -/
def nearLoc : Loc → Bool
  | .mem pa => decide (localOf pa < 0x0080_0000_0000)
  | _ => false

/-- An atomic: CAS takes its compare value from D and its new value from the next registers (R379). -/
def atom (fn : Nat) (g : Sig) (w : OpM) (s : State) : Out :=
  issueM 18 fn g w s fun c =>
    let recs := ((c.s.wgOf c.t).map (·.brecs)).getD []
    let n := (c.rdS w.sbN).toNat % 256
    let lanes := c.lanes (c.writingM w)
    let rec? : Option BRec := if w.isRec && !lanes.isEmpty && (recFault recs n 5).isNone then recs[n]? else none
    if (rec?.map fun r => (recAtomSize r fn).isNone).getD false then c.trap cAtomic [0xFFFFFFFF, fn] 2
    else
      c.withRelease w.ord w.scope fun c =>
        match c.plan w 5 (OpM.imm10 w) with
        | .error e => c.planTrap w e
        | .ok p0 =>
          let sz := match p0.brec with | some r => (recAtomSize r fn).getD 4 | none => w.size
          let size := if fn == 8 then 4 else sizeBytes sz
          let p : Plan :=
            if fn == 8 && !w.isRec then
              { p0 with size := 4, pairs := lanes.map fun l =>
                  (l, addrSum (c.rdS w.sbN) (c.rdV w.aN l).toNat (OpM.imm10 w) 4) }
            else p0
          match c.misses p.pairs with
          | v :: vs => c.park (.walk (v :: vs))
          | [] =>
            let m := c.mapLanes size 2 (fun _ => true) p.pairs
            match c.siteFault fn (fun l => atomAccepts (c.rowOf l) (nearLoc l) fn sz) m with
            | some info => c.trap cAtomic info 2
            | none =>
              let k := valueRegs size
              let acc := fun l (_ : Nat) =>
                if fn == 7 then
                  ({ lane := l, reg := w.dN, data := c.regValue (w.dN + k) k l, cmp := c.regValue w.dN k l } : LaneAcc)
                else { lane := l, reg := w.dN, data := c.regValue w.dN k l }
              let c := c.fly { id := 0, split := 0, path := 3, kind := .atomic fn (sz + (if w.stream then 8 else 0)),
                               scope := w.scope, runs := mkRuns size m.ok acc }
              let lines := m.ok.filterMap fun e => match e.2.2.loc with | .mem pa => some (lineOf pa) | _ => none
              let c := { c with s := l1Drop c.s c.t.core fun l => lines.contains l.line }
              c.endAccess m 2 2 (c.acqOf w) p.pairs.isEmpty

def execAtomAdd (w : OpM) (s : State) : Out := atom 0 (sigAtom false w) w s
def execAtomMin (w : OpM) (s : State) : Out := atom 1 (sigAtom true w) w s
def execAtomMax (w : OpM) (s : State) : Out := atom 2 (sigAtom true w) w s
def execAtomAnd (w : OpM) (s : State) : Out := atom 3 (sigAtom false w) w s
def execAtomOr (w : OpM) (s : State) : Out := atom 4 (sigAtom false w) w s
def execAtomXor (w : OpM) (s : State) : Out := atom 5 (sigAtom false w) w s
def execAtomXchg (w : OpM) (s : State) : Out := atom 6 (sigAtom false w) w s
def execAtomCas (w : OpM) (s : State) : Out := atom 7 (sigCas w) w s
def execAtomFadd (w : OpM) (s : State) : Out := atom 8 (sigFadd w) w s

end Sys2Proof.Machine
end

