-- ==== Sys2Proof/Machine/Pool.lean ====
section
/-! DEFINITION. The register pool (R125, R129) and its deadlock (R130). -/

namespace Sys2Proof.Machine

/-- Slabs of a team (R125). -/
def slabsOf (regs moms width twlog : Nat) : Nat :=
  ceilDiv (regs + 2 * moms) 8 * (width / 2 ^ twlog) * ceilDiv (2 ^ twlog) 32
def Team.slabs (t : Team) : Nat := slabsOf t.regs t.moms t.width t.twlog
/-- Slabs of a core (R125). -/
def corePool (c : CoreId) : Nat := if isL c then 512 else 768
/-- Free slabs of a core: a team in migration holds slabs on both cores until it has moved (R144). -/
def freeSlabs (s : State) (c : CoreId) : Nat :=
  corePool c - (s.teams.vals.filter fun t => t.fused.isNone &&
      (t.core == c || (match t.xfer with | some x => x.dest == c | none => false))).foldl (fun n t => n + t.slabs) 0
/-- POOL (R129). -/
def poolReg (s : State) (t : Team) : Quad :=
  BitVec.ofNat 64 (t.regs + t.moms * 2 ^ 9 + freeSlabs s t.core * 2 ^ 16 + t.slabs * 2 ^ 32 +
    (s.coreOf t.core).claims.length * 2 ^ 48)

/-- Is a split parked in RCLAIM, in TRESHAPE.FUSE, or on a barrier word of the workgroup's own scratchpad (R130)? -/
def poolPark (w : Nat) (p : Split) : Bool :=
  match p.park with
  | some (.claim _ _) => true
  | some (.fuse _) => true
  | some (.barrier (.scr v _) _ _ _) => v == w
  | _ => false

/-- Is every split of a team parked? A barrier, an EXDONE and a fault-queue wait park every split (R385, R428, R275). -/
def allParked (t : Team) : Bool :=
  t.stop || t.splits.all Split.parked ||
  t.splits.any fun p => match p.park with | some (.barrier _ _ _ _) => true | some .exdone => true | _ => false

/-- Is a team parked as R130 asks? -/
def poolParked (w : Nat) (t : Team) : Bool := t.splits.any (poolPark w) && allParked t

/-- Does a workgroup wait for slabs that a team of another workgroup will release, which is live and not parked (R130, last
sentence)? Which running teams will release slabs, a choice of the environment tells (log entry 49). -/
def otherRuns (s : State) (core : CoreId) (w : Nat) : Bool :=
  s.teams.vals.any fun t => t.core == core && t.wg != w && t.willRelease && !t.ended && t.fused.isNone && !allParked t

/-- Is a workgroup in pool deadlock on a core (R130)? -/
def inDeadlock (s : State) (core : CoreId) (w : Nat) : Bool :=
  let ts := (s.teamsOf w).filter fun e => !e.2.ended && e.2.fused.isNone
  !ts.isEmpty && ts.all (fun e => poolParked w e.2) &&
  (match (s.coreOf core).claims with
   | (tid, _, n) :: _ => (match s.teams.at? tid with
     | some t => freeSlabs s core < slabsOf (t.regs + n) t.moms t.width t.twlog - t.slabs
     | none => false)
   | [] => false)

/-- The claims of a workgroup in deadlock are withdrawn, each from the queue of its team's own core, each team in turn receiving
POOL_DEADLOCK (R130). -/
def breakDeadlock (s : State) (w : Nat) : State :=
  (s.teamsOf w).foldl (fun s e =>
    match s.teams.at? e.1 with
    | none => s
    | some t =>
      match t.splits.find? (fun p => match p.park with | some (.claim _ _) => true | _ => false) with
      | some p =>
        let n := match p.park with | some (.claim n _) => n | _ => 0
        let c := s.coreOf t.core
        let s := s.setCore t.core { c with claims := c.claims.filter fun x => x.1 != e.1 }
        let p := { p with park := none }
        let t := t.modSplit p.id fun _ => p
        raise (s.setTeam e.1 t) e.1 t p cPool [n, freeSlabs s t.core] p.mask 1
      | none => s) s

/-- The workgroups with claims queued at a core. -/
def claimants (s : State) (core : CoreId) : List Nat :=
  distinct (((s.coreOf core).claims.filterMap fun x => s.teams.at? x.1).map (·.wg))

/-- The test of R130 on one core. -/
def poolTest (s : State) (core : CoreId) : State :=
  (claimants s core).foldl (fun s w => if inDeadlock s core w && !otherRuns s core w then breakDeadlock s w else s) s

/-- The test as a core's free count changes, and no other time (R95): `s0` is the state before. -/
def countTest (s0 s : State) (core : CoreId) : State :=
  if freeSlabs s core != freeSlabs s0 core then poolTest s core else s

/-- The test of R130 as a team parks in RCLAIM or on a scratchpad barrier (R95): on its core, and on every core where a team of its
workgroup now runs (R145). -/
def parkTest (s : State) (t : Team) : State :=
  (distinct (coreKey t.core :: (s.teamsOf t.wg).map fun e => coreKey e.2.core)).foldl
    (fun s k => poolTest s (keyCore k)) s

end Sys2Proof.Machine
end

