-- ==== Sys2Proof/Machine/Splits.lean ====
section
/-! DEFINITION. The split table: divergence, arrival and merging (R116 to R120), spills to the Grotto (R121), leaving a
trap (R270, R272), and the end of a team (R119, R338). -/

namespace Sys2Proof.Machine

/-! Entries of the split table (R121). -/

/-- A record whose arrivals are complete becomes one split at the back of the rotation (R118). It keeps the record's number, and
with it the record's age among the entries (log entry 66). -/
def Team.merge (t : Team) (r : Join) (cycle : Nat) (grotto : Bool) : Team :=
  let live := r.anc.filter fun i => t.flights.any fun f => f.split == i
  let p : Split := { id := r.id, parent := r.parent, pc := r.next, mask := r.arrived, lnk := r.lnk, fmt := r.fmt,
                     anc := live, cycle := cycle, lvl := r.lvl, grotto := grotto, pend := r.pend }
  { t with joins := t.joins.filter fun x => x.id != r.id, splits := t.splits ++ [p] }

/-- The spilled entry that is loaded back when one frees (R121). -/
def Team.reloadOne (t : Team) : Team :=
  if t.full then t
  else
    let ps := (t.splits.filter (·.spilled)).map (·.id)
    let js := (t.joins.filter fun r => r.spilled && r.pending == 0).map (·.id)
    match oldest (ps ++ js) with
    | none => t
    | some i =>
      match t.joins.find? (fun r => r.id == i && r.spilled) with
      | some r => t.merge r 0 true
      | none => t.modSplit i fun x => { x with spilled := false, grotto := true }

/-- Spilled entries are loaded back while entries are free. -/
def Team.reload (t : Team) : Team := (List.range 32).foldl (fun t _ => t.reloadOne) t

/-- An arrival at a join record with some lanes (R118, R119). -/
def Team.arriveAt : Nat → Team → Option Nat → Mask → List Nat → Option Nat → Nat → Team
  | 0, t, _, _, _, _, _ => t
  | n + 1, t, parent, lanes, anc, next, cycle =>
    match parent.bind fun j => t.joins.find? (·.id == j) with
    | none => t
    | some r0 =>
      let r := { r0 with arrived := r0.arrived ||| lanes, pending := r0.pending - 1, next := next.getD r0.next,
                         anc := distinct (r0.anc ++ anc) }
      if r.pending != 0 then t.modJoin r.id fun _ => r
      else if r.arrived == 0 then
        Team.arriveAt n { t with joins := t.joins.filter fun x => x.id != r.id } r.parent 0 [] none cycle
      else if r.spilled then t.modJoin r.id fun _ => r
      else t.merge r cycle false

/-- A split leaves the table and arrives at its parent record: with its lanes at a JOIN or a RET, with none at an EXIT.
The entry it frees takes a spilled one back. -/
def Team.arrive (t : Team) (p : Split) (lanes : Mask) (next : Option Nat) : Team :=
  ((t.dropSplit p.id).arriveAt (t.joins.length + 1) p.parent lanes (p.id :: p.anc) next p.cycle).reload

/-- The parts of a divergence: lanes and where each part stands (R116, R120, R335). -/
structure Part2 where
  lanes : Mask
  place : Split → Split

/-- New splits in the place of one, numbered from `id`, under a parent record; `ready` tells which of them are ready (R101). -/
def childSplits (ready : Split → Bool) (p : Split) (parent : Option Nat) (id : Nat) (parts : List Part2) : List Split :=
  (parts.zip (List.range parts.length)).map fun e =>
    let q := e.1.place { p with id := id + e.2, parent := parent, mask := e.1.lanes, resv := none, pipe := none, anc := p.id :: p.anc }
    { q with ready := ready q }

/-- Divergence under a join record (R116, R117, R120): the record takes the split's place, the parts go to the back of
the rotation. `id` numbers the record, then the parts. -/
def Team.diverge (t : Team) (ready : Split → Bool) (p : Split) (id addr : Nat) (call : Bool) (next : Nat) (parts : List Part2) :
    Team :=
  let r : Join := { id := id, parent := p.parent, addr := addr, call := call, mask := p.mask, arrived := 0, lnk := p.lnk,
                    fmt := p.fmt, pending := parts.length, next := next, lvl := p.lvl }
  (childSplits ready p (some id) (id + 1) parts).foldl Team.addSplit ((t.dropSplit p.id).addJoin r)

/-- Division without a record (R335): the parts stand under the split's own parent, which awaits each of them. The record below a
frame awaits the trapped split alone (R270). -/
def Team.divide (t : Team) (ready : Split → Bool) (p : Split) (id : Nat) (parts : List Part2) : Team :=
  let t := t.dropSplit p.id
  let t := match p.parent with
    | some j => t.modJoin j fun r => if r.lvl == p.lvl then { r with pending := r.pending + (parts.length - 1) } else r
    | none => t
  (childSplits ready p p.parent id parts).foldl Team.addSplit t

/-! Leaving a trap (R272). -/

/-- The lanes for which a return L executes an instruction again (R438): those of the record, or where a record loaded by SPLITLD
names them by its TMASK alone, the split's lanes in the mask words it names (log entry 72). -/
def TrapRec.redoLanes (r : TrapRec) (p : Split) : Mask :=
  match r.tmask with
  | some m => p.mask &&& laneMask ((List.range 1024).filter fun l => m.getLsbD (l / 32))
  | none => r.lanes

/-- The trapped split as it resumes (R272, R438): past the trapping instruction (N), or at it again (I), for the lanes of the record
alone (L); a repeated instruction executes again from its REPEAT. -/
def resumeSplit (r : TrapRec) (p : Split) : Split :=
  let p := { p with intl := p.clause.isSome }
  if r.resume == 1 || r.resume == 2 then
    { p.unprefix with stage := 0, image := none, bpSkip := r.cause == cBreak,
                      redo := if r.resume == 2 then some (r.redoLanes p) else p.redo }
  else if r.len == 0 then p
  else { nextSplit r.len p with intl := p.clause.isSome && (nextSplit r.len p).clause.isSome }

/-- Loads of the user handler into its Lodge registers are lost with the frame (R268). -/
def Team.loseLodge (t : Team) : Team :=
  let lodge := fun (e : Nat × Nat × Nat) => (e.1 == 0 && decide (240 ≤ e.2.1)) || (e.1 == 1 && decide (56 ≤ e.2.1))
  { t with flights := t.flights.map fun (f : Flight) => if f.lvl == 1 then f.overtakenBy lodge else f }

/-- Leave the user handler (R270, R272): the frame is freed and the trapped split stands in its handler's place; one
whose call's target was refused arrives at its record (R286). -/
def leaveUser (t : Team) (hid : Nat) (tgt : Option Nat) : Team :=
  let t := t.loseLodge
  match t.uframe with
  | none => t
  | some f =>
    match f.split with
    | none => { t with uframe := none }
    | some p =>
      let q := match tgt with
        | some pc => jumpSplit pc p
        | none => resumeSplit f.trap p
      let t := { (t.modSplit hid fun _ => q) with uframe := none }
      if f.trap.arrive && tgt.isNone then t.arrive q q.mask none else t.reload

/-- How a split waits for the entry of its pending trap, if it has one (R264, R269). -/
def Split.waitsTrap (p : Split) : Option Park :=
  match p.pend.head? with
  | some r => if userCause r.cause then some .lodge else some .trap
  | none => none

/-- The split with its pending trap as the correspondence table now gives it (R146). -/
def Split.freshen (p : Split) (s : State) (t : Team) : Split :=
  { p with pend := match p.pend with | r :: l => r.fresh s t :: l | [] => [] }

/-- The pending user-level trap of a split is entered (R269). -/
def deliverOf (s : State) (tid : Nat) (t : Team) (p : Split) : State :=
  let q := p.freshen s t
  match q.pend.head? with
  | some r => deliverUser s tid (t.modSplit p.id fun _ => q) q r
  | none => s

/-- The oldest pending user-level trap of a team is entered, if a frame and Lodge room are free (R269, R272). -/
def deliverPending (s : State) (tid : Nat) : State :=
  match s.teams.at? tid with
  | none => s
  | some t =>
    let waiting := (t.splits.filter atBoundary).filterMap fun p => (p.pend.head?).map fun r => (p, r)
    let first := waiting.foldl (fun m e => match m with
      | some x => if e.2.order < x.2.order then some e else some x
      | none => some e) (none : Option (Split × TrapRec))
    match first with
    | some (p, r) => if userCause r.cause && mayEnter s tid t r.order then deliverOf s tid t p else s
    | none => s

/-! The end of a team (R119, R338). -/

/-- Is nothing of the team's accesses and operations left (R338)? -/
def Team.quiet (t : Team) : Bool := t.flights.isEmpty && t.eng.all (·.isEmpty) && t.mat.isEmpty

/-- The workgroups of a grid (R69). -/
def lrGridN (l : List Quad) : Nat := lrF l 3 23 0 * lrF l 3 43 24 * lrF l 3 63 44

/-- Count a saved workgroup for the requests that target it (R99). -/
def countSaved (s : State) (w : Nat) : State :=
  { s with preqs := s.preqs.map fun e =>
      if e.2.targets.contains w then (e.1, { e.2 with saved := e.2.saved + 1 }) else e }

/-- A workgroup is saved (R92): its blocks return to CACHE and its contents wait. Saved by a host request without HOLD,
its grid becomes the youngest of its PRIO on the die (R93), in partition 0; in a reservation partition, where no age is reset (R107),
the workgroup ranks as any saved one (log entry 19). -/
def saveWg (s : State) (w : Nat) : State :=
  match s.wgs.at? w with
  | none => s
  | some x =>
    let host := x.pid == 0 && s.preqs.any fun e => e.2.targets.contains w && !pctlHoldBit (s.pctl.get e.1)
    let s := s.modWg w fun x => { x with st := .saved, saveSeq := s.nextId, hostSave := host }
    let s := { s with nextId := s.nextId + 1, prioPre := s.prioPre.filter fun e => e.2 != w }
    let s := if host then
        { s.modGrid x.grid fun g => { g with ages := g.ages.insert x.home.die s.ageNext } with ageNext := s.ageNext + 1 }
      else s
    endCreate (endRequests (countSaved s w))

/-- A workgroup that no team is left of (R92): one whose last team ended while others were saved is saved; else it ends, its
blocks go, its grid counts it. -/
def endWg (s : State) (w : Nat) : State :=
  if !(s.teamsOf w).isEmpty then s
  else match s.wgs.at? w with
    | none => s
    | some x =>
      if !x.live then s
      else if x.st == .saving && s.savedTeams.any (fun e => e.2.wg == w) then saveWg s w
      else (releaseWg s w .ended).modGrid x.grid fun g =>
        { g with endedN := g.endedN + 1,
                 st := if g.st == .dispatched && g.endedN + 1 == lrGridN g.lrec then .retiring else g.st }

/-- The teams fused into a team, directly or through another (R123). -/
def fusedInto (s : State) (tid : Nat) : List Nat :=
  (List.range 16).foldl (fun l _ => l ++ (s.teams.filter fun e =>
    !l.contains e.1 && (match e.2.fused with | some x => x == tid || l.contains x | none => false)).map (·.1)) []

/-- Free a team that has ended once it is quiet: its slot, slabs, tiles and frames, and those of teams fused into it. -/
def settleEnd (s : State) (tid : Nat) : State :=
  match s.teams.at? tid with
  | none => s
  | some t =>
    if !(t.ended && t.quiet) then s
    else
      let gone := tid :: fusedInto s tid
      let s' := gone.foldl (fun s i => match s.teams.at? i with
        | some x => removeTeam (noteWct s x) i
        | none => s) s
      countTest s (endWg s' t.wg) t.core

/-- The index of a team's buddy (R122). -/
def buddyIdx (t : Team) : Nat :=
  let k := t.width / 2 ^ t.twlog
  if t.idx % (2 * k) == 0 then t.idx + k else t.idx - k

/-- The members of a gang of G teams that a team belongs to (R425). -/
def gangOf (t : Team) (g : Nat) : List Nat := (List.range g).map fun i => t.idx - t.idx % g + i

/-- Release a parked split with NOT_QUIESCENT. -/
def releaseWith (s : State) (tid sid reason len : Nat) : State :=
  match (s.teams.at? tid).bind fun t => (t.split? sid).map fun p => (t, p) with
  | some (t, p) =>
    let p := { p with park := none }
    let t := { t with exp := { t.exp with arrived := none } }.modSplit sid fun _ => p
    raise (s.setTeam tid t) tid t p cQuiesce [reason] p.mask len
  | none => s

/-- Partners that are parked in TRESHAPE.FUSE for a team are released (R122). -/
def releaseFuse (s : State) (t : Team) : State :=
  (s.teamsOf t.wg).foldl (fun s e =>
    e.2.splits.foldl (fun s p => match p.park with
      | some (.fuse len) => if buddyIdx e.2 == t.idx then releaseWith s e.1 p.id 0x0C len else s
      | _ => s) s) s

/-- Partners parked for a team that executes EXIT are released at once (R122, R425). -/
def releasePartners (s : State) (t : Team) : State :=
  (s.teamsOf t.wg).foldl (fun s e =>
    e.2.splits.foldl (fun s p => match p.park with
      | some (.gang len) =>
        let g := match e.2.exp.arrived with | some l => nbits (atD l 1 0) 2 1 + 1 | none => 1
        if (gangOf e.2 g).contains t.idx then releaseWith s e.1 p.id 0x0B len else s
      | _ => s) s) (releaseFuse s t)

/-- Lanes leave the masks that join records hold (R111). -/
def Team.dropLanes (t : Team) (m : Mask) : Team :=
  { t with joins := t.joins.map fun r => { r with mask := r.mask &&& ~~~m } }

/-- The split's lanes leave the team (R119, R338). In trap context the trapping split's lanes go, the frame is freed, and the
handler ends with it, its own divergences among it; a privileged handler stands for every lane of the team. -/
def exitSplit (t : Team) (p : Split) : Team :=
  let t := match p.lvl, t.uframe with
    | 1, some f =>
      let t := { t.loseLodge with splits := t.splits.filter (·.lvl != 1), joins := t.joins.filter (·.lvl != 1), uframe := none }
      (match f.split with | some q => (t.dropLanes q.mask).arrive q 0 none | none => t.reload)
    | 2, _ => { t with splits := [], joins := [], kframe := none }
    | _, _ => (t.dropLanes p.mask).arrive p 0 none
  if t.splits.isEmpty && t.joins.isEmpty then { t with ended := true } else t

end Sys2Proof.Machine
end

