-- ==== Sys2Proof/Machine/Bodies.lean ====
section
/-! DEFINITION. Bodies: the choice of one (R137), the state-mapping table (R77), equivalence points and quiescence (R140,
R141), moving state between bodies (R144), and the resources of a core (R88, R96). -/

namespace Sys2Proof.Machine

/-! Resources of a core. -/

/-- Team slots of a core (R88). -/
def coreSlots (c : CoreId) : Nat := if isL c then 32 else 64
/-- Accumulator tiles of a core (R132). -/
def coreTiles (c : CoreId) : Nat := if isL c then 16 else 64
/-- TREG bytes of a core (R132). -/
def coreTreg (c : CoreId) : Nat := if isL c then 65536 else 262144
/-- Slots in use on a core: those of its teams, fused ones too, and of a team that is moving to it (R123, R144). -/
def slotsUsed (s : State) (c : CoreId) : List Nat :=
  s.teams.vals.flatMap fun t =>
    (if t.core == c then [t.slot] else []) ++
    (match t.xfer with | some x => if x.dest == c then [x.slot] else [] | none => [])
/-- The free slots of a core, ascending. -/
def slotsFree (s : State) (c : CoreId) : List Nat :=
  let used := slotsUsed s c
  (List.range (coreSlots c)).filter fun i => !used.contains i
/-- Free accumulator tiles. -/
def tilesFree (s : State) (c : CoreId) : Nat :=
  coreTiles c - (s.teams.vals.filter fun t => t.core == c ||
    (match t.xfer with | some x => x.dest == c | none => false)).foldl (fun n t => n + t.accs) 0

/-! The choice of a body (R137). -/

/-- A native body of an AKO. -/
def nativeBody (a : Ako) (lk : Bool) : Body :=
  if lk then { kind := .nativeL, base := a.base + a.lOff, len := a.lLen }
  else { kind := .nativeD, base := a.base + a.dOff, len := a.dLen }

/-- The installed body a grid may use (R138, R139). -/
def transBody (s : State) (g : Grid) (lk : Bool) : Option Body :=
  if g.pid != 0 then none
  else match (if lk then g.digestL else g.digestD) with
    | none => none
    | some n => (s.trans.at? n).map fun x => { kind := .trans n, base := 0, len := x.body.words.length }

/-- The body of a grid on a core kind, by the order of R137. -/
def pickBody (s : State) (g : Grid) (lk : Bool) : Option Body :=
  match g.ako with
  | none => none
  | some a =>
    let nat := nativeBody a lk
    if nat.len != 0 && a.stepping == s.dev.stepping.toNat then some nat
    else match transBody s g lk with
      | some b => some b
      | none =>
        if nat.len != 0 then some nat
        else if a.pLen != 0 then some { kind := .portable, base := a.base + a.pOff, len := a.pLen } else none

/-- Does R135 apply to a body of a grid: INTL, or a native body of the AKO built for another stepping? -/
def forcedIntl (s : State) (g : Grid) (b : Body) : Bool :=
  lrF g.lrec 4 29 29 == 1 ||
  ((b.kind == .nativeD || b.kind == .nativeL) &&
    (match g.ako with | some a => a.stepping != s.dev.stepping.toNat | none => false))

/-! The state-mapping table (R77). -/

/-- Bytes of an entry with n live values, padded. -/
def mapEntryBytes (n : Nat) : Nat := 8 * ceilDiv (16 + 4 * n) 8

/-- Read n words with a reader. -/
def rdWords (rd : Nat → Nat → Except α Nat) (va : Nat) : Nat → Except α (List Word)
  | 0 => .ok []
  | n + 1 =>
    match rd va 4 with
    | .error e => .error e
    | .ok w => (rdWords rd (va + 4) n).map fun l => BitVec.ofNat 32 w :: l

/-- The entry of an equivalence point among n entries from an address. -/
def mapFind (rd : Nat → Nat → Except α Nat) (e : Nat) : Nat → Nat → Except α (Option MapEntry)
  | 0, _ => .ok none
  | n + 1, va =>
    match rd va 4 with
    | .error x => .error x
    | .ok h =>
      let nl := nbits h 31 16
      if nbits h 15 0 != e then mapFind rd e n (va + mapEntryBytes nl)
      else match rd (va + 4) 4, rd (va + 8) 4, rd (va + 12) 4, rdWords rd (va + 16) nl with
        | .ok p, .ok d, .ok l, .ok ws => .ok (some { eq := e, pcp := p, pcd := d, pcl := l, live := ws })
        | .error x, _, _, _ => .error x
        | _, .error x, _, _ => .error x
        | _, _, .error x, _ => .error x
        | _, _, _, .error x => .error x

/-- The state-mapping entry of an equivalence point, read now (R140, R462); a fault names its address. -/
def smapEntry (s : State) (t : Team) (e : Nat) : Except (TFault × Nat) (Option MapEntry) :=
  match s.akoOf t with
  | none => .ok none
  | some a =>
    mapFind (fun va n => match rdVa s t va n 0 with | .ok x => .ok x | .error f => .error (f, va)) e a.neq (a.base + a.smap)

/-- The continuation point of an entry in a body (R140). -/
def contPoint (s : State) (m : MapEntry) (b : Body) : Option Nat :=
  let some? := fun i : Nat => if i == absent then none else some i
  match b.kind with
  | .portable => some? m.pcp
  | .nativeD => some? m.pcd
  | .nativeL => some? m.pcl
  | .trans n => ((s.trans.at? n).bind fun x => x.body.eq.find? (·.1 == m.eq)).map (·.2)

/-- The register of a live value in a body (R77, R139). -/
def liveReg (s : State) (m : MapEntry) (b : Body) (w : Word) : Option Nat :=
  match b.kind with
  | .portable => some (bits w 11 4)
  | .nativeD => some (bits w 19 12)
  | .nativeL => some (bits w 27 20)
  | .trans n =>
    ((s.trans.at? n).bind fun x => (x.body.live.find? (·.1 == m.eq)).bind fun l =>
      l.2.find? fun e => e.1 == bits w 3 0 && e.2.1 == bits w 11 4).map (·.2.2)

/-! Quiescence (R141). -/

/-- Is the TEQ-style active bit of the expansion set? -/
def Team.expanding (t : Team) : Bool := t.exp.stat.getLsbD 0

/-- Conditions 0x01 to 0x05 of R141: the lowest failing code. -/
def quietCode (s : State) (t : Team) : Option Nat :=
  if !t.converged then some 1
  else if t.pathsBusy then some 2
  else if t.tlc != t.tliss then some 3
  else if t.expanding then some 4
  else if t.splits.any (·.holds s) then some 5
  else none

/-- Is the team fused (R141, 0x09)? -/
def Team.isFused (t : Team) : Bool := t.width != 2 ^ t.twlog

/-- The EQPT number of an instruction. -/
def eqptOf : Instr → Option Nat
  | .eqpt w => if (form (.eqpt w)).stage5 then some (w.dN * 256 + w.aN) else none
  | _ => none

/-- Does an instruction word start a MIGRATE? -/
def migrateWord (w : Word) : Bool := opOf w == 4 && fnOf w == 8 && !isHeader w

/-- A fault of a read of the body: how it is treated, the address, the kind of access. -/
abbrev CodeFault := TFault × Nat × Nat

/-- Word i of the body, if it has one. -/
def wordAt (s : State) (t : Team) (i : Nat) : Except CodeFault (Option Word) :=
  if t.body.len ≤ i then .ok none
  else match codeWord s t i with
    | .ok w => .ok (some w)
    | .error e => .error (e, (t.addrOf i).toNat, 3)

/-- The word after k slots that begin at word j. -/
def slotWords (s : State) (t : Team) : Nat → Nat → Except CodeFault Nat
  | j, 0 => .ok j
  | j, k + 1 =>
    match wordAt s t j with
    | .error e => .error e
    | .ok w => slotWords s t (j + (if (w.map xOf).getD false then 2 else 1)) k

/-- The number of the EQPT of n words that starts at word k, if one does (R140). -/
def eqptAt (s : State) (t : Team) (k n : Nat) : Except CodeFault (Option Nat) :=
  match (if t.body.kind.native then .ok true else startBit s t k) with
  | .error e => .error (e, targetVa s t k)
  | .ok false => .ok none
  | .ok true =>
    match wordAt s t k with
    | .error e => .error e
    | .ok none => .ok none
    | .ok (some w0) =>
      if xOf w0 != (n == 2) then .ok none
      else match (if n == 2 then wordAt s t (k + 1) else .ok none) with
        | .error e => .error e
        | .ok next => .ok (match decodeWords w0 next with | .ok x => eqptOf x | .error _ => none)

/-- The EQPT whose last word is word j - 1. -/
def eqptEnding (s : State) (t : Team) (j : Nat) : Except CodeFault (Option Nat) :=
  match (if 1 ≤ j then eqptAt s t (j - 1) 1 else .ok none) with
  | .error e => .error e
  | .ok (some e) => .ok (some e)
  | .ok none => if 2 ≤ j then eqptAt s t (j - 2) 2 else .ok none

/-- The EQPT that stands directly before word i (R141, 0x06): in a native body before the clause header at i - 1, whose
only slot is the MIGRATE. -/
def eqptBefore (s : State) (t : Team) (i : Nat) : Except CodeFault (Option Nat) :=
  if !t.body.kind.native then eqptEnding s t i
  else if i == 0 then .ok none
  else match wordAt s t (i - 1) with
    | .error e => .error e
    | .ok none => .ok none
    | .ok (some h) => if isHeader h && bits h 27 24 == 1 then eqptEnding s t (i - 1) else .ok none

/-- Is the instruction after an EQPT of n words at word i a MIGRATE (R140, R142)? -/
def migrateNext (s : State) (t : Team) (i n : Nat) : Except CodeFault Bool :=
  match wordAt s t (i + n) with
  | .error e => .error e
  | .ok none => .ok false
  | .ok (some w) =>
    if !t.body.kind.native then .ok (migrateWord w)
    else if !(isHeader w && bits w 27 24 == 1) then .ok false
    else match wordAt s t (i + n + 1) with
      | .error e => .error e
      | .ok x => .ok ((x.map migrateWord).getD false)

/-! Moving state (R144). -/

/-- The registers of a body's listed values, copied into an empty register state. -/
def moveLive (s : State) (m : MapEntry) (src dst : Body) (old : Team) : Team :=
  let zero := { old with v := [], p := [], m := [], s := [], q := 0, ly := [], h := [], acc := [], hazards := [] }
  let lanes := List.range old.width
  m.live.foldl (fun t w =>
    match liveReg s m src w, liveReg s m dst w with
    | some a, some b =>
      (match bits w 3 0 with
       | 0 => if a < old.regs && b < old.regs then t.wrVs 0 b (lanes.map fun l => (l, old.rdV 0 a l)) else t
       | 1 => if b < 64 then t.wrS 0 b (old.rdS 0 a) else t
       | 2 => if 1 ≤ b && b ≤ 7 then t.wrP b old.all (old.rdP a) else t
       | 3 => if b < 4 then t.wrQ b (old.rdQ a) else t
       | 4 => if a < old.moms && b < old.moms then
                lanes.foldl (fun t l => t.wrM b l (old.rdM a l)) t else t
       | 5 => if b < 16 then { t with ly := t.ly.set b (old.ly.get a) } else t
       | 6 => if b < 16 then { t with h := t.h.set b (old.h.get a) } else t
       | 7 => if a < old.accs && b < old.accs then
                { t with acc := t.acc.setAll ((old.acc.filter fun e => e.1 / 4096 == a).map fun e =>
                    (b * 4096 + e.1 % 4096, e.2)) } else t
       | _ => t)
    | _, _ => t) zero

/-- The team in a new body at a continuation point, its one split there. -/
def enterBody (s : State) (t : Team) (m : MapEntry) (b : Body) (pc : Nat) : Team :=
  let t' := moveLive s m t.body b t
  let forced := match s.teamGrid t with | some g => forcedIntl s g b | none => false
  { t' with body := b, forced := forced, prefs := [], splits := t'.splits.map fun p => { jumpSplit pc p with park := none } }

/-! Migration (R96, R143). -/

/-- The last use of a translated body (R139). -/
def noteUse (s : State) (b : Body) : State :=
  match b.kind with
  | .trans n => { s with nextId := s.nextId + 1, trans := s.trans.modify n fun x => { x with used := s.nextId } }
  | _ => s


/-- The L-core that the translation service holds (R10). -/
def reservedCore (c : CoreId) : Bool := c.core == 6 && c.cluster == 15

/-- Cores of a kind in a team's cluster that its partition may use. -/
def kindCores (c : CoreId) (toL : Bool) : List CoreId :=
  (if toL then [{ c with core := 6 }] else (List.range 6).map fun i => { c with core := i }).filter
    fun x => !reservedCore x

/-- Can a core take a team now (R96): a slot, its slabs, its tiles, an empty claim queue? -/
def coreTakes (s : State) (t : Team) (c : CoreId) : Bool :=
  !(slotsFree s c).isEmpty && t.slabs ≤ freeSlabs s c && t.accs ≤ tilesFree s c && (s.coreOf c).claims.isEmpty

/-- The core that serves a request now: the most free slabs, then the lower index (R89, R96). -/
def migTarget (s : State) (t : Team) (toL : Bool) : Option CoreId :=
  ((kindCores t.core toL).filter (coreTakes s t)).foldl (fun m c => match m with
    | none => some c
    | some x => if freeSlabs s x < freeSlabs s c then some c else some x) none

/-- The body of the target kind, and its continuation point, for an entry (R137, R141 0x07). -/
def targetBody (s : State) (t : Team) (m : MapEntry) (toL : Bool) : Option (Body × Nat) :=
  (s.teamGrid t).bind fun g => (pickBody s g toL).bind fun b => (contPoint s m b).map fun pc => (b, pc)

/-- The migration queue of a team's cluster. -/
def migKey (c : CoreId) : Nat := clusterOf c
def migQueue (s : State) (c : CoreId) : List MigReq := (s.migs.at? (migKey c)).getD []

/-- Serve the head of a cluster's migration queue, if it can be served now: the state transfer starts (R96, R143). A head whose
target body or continuation point has gone while it waited leaves the queue, and its MIGRATE executes again (log entry 51). -/
def serveMig (s : State) (key : Nat) : Option State :=
  match s.migs.at? key with
  | some (r :: rest) =>
    (s.teams.at? r.team).bind fun t =>
      match targetBody s t r.entry r.toL with
      | none => some { s.setTeam r.team (t.modSplit r.split fun p => { p with park := none }) with
                       migs := s.migs.insert key rest }
      | some b => (migTarget s t r.toL).map fun c =>
        let x : Xfer := { dest := c, slot := (slotsFree s c).headD 0, body := b.1, entry := r.entry, pred := r.pred }
        { s.setTeam r.team { t with xfer := some x } with migs := s.migs.insert key rest }
  | _ => none

end Sys2Proof.Machine
end

