-- ==== Sys2Proof/Machine/Kernel.lean ====
section
/-! DEFINITION. Launch records and kernel objects: the fields of R69, the header of R75, the checks of R70 and R462, what a
workgroup needs of a core (R88). -/

namespace Sys2Proof.Machine

/-! Fields of a launch record (R69). -/

def lrAko (l : List Quad) : Nat := (atD l 0 0).toNat
def lrParam (l : List Quad) : Nat := (atD l 1 0).toNat
def lrThbase (l : List Quad) : Quad := atD l 2 0
def lrTeams (l : List Quad) : Nat := lrF l 4 4 0
def lrTwlog (l : List Quad) : Nat := lrF l 4 8 5
def lrRegs (l : List Quad) : Nat := 8 * (lrF l 4 13 9 + 1)
def lrMoms (l : List Quad) : Nat := lrF l 4 19 14
def lrAccs (l : List Quad) : Nat := lrF l 4 23 20
def lrFifo (l : List Quad) : Nat := lrF l 4 27 24
def lrScratch (l : List Quad) : Nat := lrF l 5 31 0
def lrTreg (l : List Quad) : Nat := lrF l 5 63 32
def lrComp (l : List Quad) : Nat := (atD l 6 0).toNat
def lrDepAddr (l : List Quad) (j : Nat) : Nat := (atD l (8 + 2 * j) 0).toNat
def lrDepThr (l : List Quad) (j : Nat) : Nat := (atD l (9 + 2 * j) 0).toNat

/-- Slabs of a workgroup (R125). -/
def lrSlabs (l : List Quad) : Nat := lrTeams l * slabsOf (lrRegs l) (lrMoms l) (2 ^ lrTwlog l) (lrTwlog l)
/-- Scratchpad blocks of a workgroup (R153). -/
def lrScrBlocks (l : List Quad) : Nat := ceilDiv (lrScratch l) 32768
def lrBlocks (l : List Quad) : Nat := lrScrBlocks l + lrFifo l

/-- The checks of R70 that read the record alone, details 0x01 to 0x09: the first that fails. -/
def recordDetail (l : List Quad) (pid : Nat) : Option Nat :=
  let used := (List.range 4).filter fun j => lrDepAddr l j != 0
  if lrF l 4 39 37 != 0 || lrF l 4 63 44 != 0 then some 0x01
  else if lrF l 4 43 40 != pid then some 0x02
  else if lrGridN l == 0 || 2 ^ 40 ≤ lrGridN l then some 0x03
  else if lrTeams l == 0 || 16 < lrTeams l || lrTwlog l < 3 || 10 < lrTwlog l then some 0x04
  else if 32 < lrMoms l || 256 < lrRegs l + 2 * lrMoms l then some 0x05
  else if 8 < lrAccs l || 8 < lrFifo l || lrScratch l % 128 != 0 || lrTreg l % 1024 != 0 then some 0x06
  else if lrAko l % 256 != 0 || lrParam l % 8 != 0 || (lrThbase l).toNat % 4 != 0 || lrComp l % 8 != 0 ||
      (used.any fun j => lrDepAddr l j % 8 != 0) then some 0x07
  else if bits (atD l 7 0) 63 63 == 1 || (used.any fun j => 2 ^ 63 ≤ lrDepThr l j) then some 0x08
  else if lrF l 4 30 30 == 1 && lrF l 4 36 31 == 0 then some 0x09
  else none

/-! The kernel object (R75). -/

/-- The cause at the first page of a range of the AKO that does not translate for reading (R462), 0 where its read is held
(R37). -/
def rangeFault (s : State) (pid ptbase va len : Nat) : Option Nat :=
  let first := va / 65536
  let last := (va + len - 1) / 65536
  (List.range (last + 1 - first)).findSome? fun i =>
    match devTranslate s pid ptbase (if i == 0 then va else (first + i) * 65536) 0 with | .ok _ => none | .error c => some c

/-- The detail code of a range that does not read: 0x0A, or 0 while its read is held (R37, R462). -/
def rangeDetail (cause : Nat) : Nat := if cause == 0 then 0 else 0x0A

/-- A number in the AKO, 0 where it does not read. -/
def akoRd (s : State) (pid ptbase va n : Nat) : Nat :=
  match devRead s pid ptbase va n with | .ok x => x | .error _ => 0

/-- The bytes of n state-mapping entries from `off`, if they satisfy R75: each within `len`, EQ strictly ascending, NLIVE
and LIVE words legal. -/
def smapOk (rd : Nat → Nat → Nat) (len : Nat) : Nat → Nat → Option Nat → Bool
  | 0, _, _ => true
  | n + 1, off, prev =>
    if len < off + 16 then false
    else
      let e := rd off 2
      let nl := rd (off + 2) 2
      let liveOk := (List.range nl).all fun i =>
        let w := rd (off + 16 + 4 * i) 4
        nbits w 3 0 ≤ 7 && nbits w 31 28 == 0
      nl ≤ 1024 && (match prev with | some p => p < e | none => true) && off + mapEntryBytes nl ≤ len && liveOk &&
        smapOk rd len n (off + mapEntryBytes nl) (some e)

/-- Are n correspondence entries from `off` in strictly ascending order of portable index (R75, R78)? -/
def corrOk (rd : Nat → Nat → Nat) : Nat → Nat → Option Nat → Bool
  | 0, _, _ => true
  | n + 1, off, prev =>
    let p := rd off 4
    (match prev with | some q => decide (q < p) | none => true) && corrOk rd n (off + 12) (some p)

/-- Has a partition a core of a kind that runs teams (R9, R10, R17)? -/
def hasKind (s : State) (pid : Nat) (lk : Bool) : Bool := (clustersOf s pid).any fun c => !lk || c % 16 != 15

/-- The AKO of a record, or the detail code 0x0A or 0x0B (R70, R75, R462); 0 while a read of it is held (R37). -/
def readAko (s : State) (pid ptbase base : Nat) : Except Nat Ako :=
  match rangeFault s pid ptbase base 128 with
  | some c => .error (rangeDetail c)
  | none =>
    let rd := fun off n => akoRd s pid ptbase (base + off) n
    let len := rd 8 4
    if len < 128 then .error 0x0B
    else match rangeFault s pid ptbase base len with
    | some c => .error (rangeDetail c)
    | none =>
      let a : Ako := { base := base, stepping := rd 6 2, len := len, neq := rd 12 4, pOff := rd 16 4, pLen := rd 20 4,
                       dOff := rd 24 4, dLen := rd 28 4, lOff := rd 32 4, lLen := rd 36 4, bitmap := rd 40 4, smap := rd 44 4,
                       corr := rd 48 4, ncorr := rd 52 4, brec := rd 56 4, nbrec := rd 60 2, nlconst := rd 62 2,
                       lconst := rd 64 4 }
      let fits := fun (off n : Nat) => n == 0 || (off % 64 == 0 && 128 ≤ off && off + n ≤ len)
      let runs := (hasKind s pid false && (a.dLen != 0 || a.pLen != 0)) || (hasKind s pid true && (a.lLen != 0 || a.pLen != 0))
      if rd 0 4 == 0x4F4B4131 && rd 4 2 == 1 && ((List.range 60).all fun i => rd (68 + i) 1 == 0) &&
         ((a.bitmap != 0) == (a.pLen != 0)) && fits a.pOff (4 * a.pLen) && fits a.dOff (4 * a.dLen) &&
         fits a.lOff (4 * a.lLen) && fits a.bitmap (ceilDiv a.pLen 8) && fits a.smap (16 * a.neq) &&
         fits a.corr (12 * a.ncorr) && fits a.brec (40 * a.nbrec) && fits a.lconst (64 * a.nlconst) &&
         a.neq ≤ 4096 && a.nbrec ≤ 256 && a.nlconst ≤ 64 && smapOk rd len a.neq a.smap none &&
         corrOk rd a.ncorr a.corr none && runs
      then .ok a else .error 0x0B

/-- Where the words of an object's bodies lie when it is checked, by address: those whose changes a fetch may not see (R80). -/
def codeOf (s : State) (pid ptbase : Nat) (a : Ako) : AMap CodeWord :=
  [(a.pOff, a.pLen), (a.dOff, a.dLen), (a.lOff, a.lLen)].foldl (fun m e =>
    (List.range e.2).foldl (fun (m : AMap CodeWord) i =>
      let va := a.base + e.1 + 4 * i
      match devTranslate s pid ptbase va 0 with
      | .ok pa => m.insert va { pa := pa }
      | .error _ => m) m) []

/-- Has a core kind a runnable body (R85)? -/
def runnable (a : Ako) (lk : Bool) : Bool := a.pLen != 0 || (if lk then a.lLen != 0 else a.dLen != 0)

/-- Can one workgroup be held within the limits of a core kind (R70)? -/
def kindHolds (l : List Quad) (lk : Bool) : Bool :=
  lrSlabs l ≤ (if lk then 512 else 768) && lrTeams l * lrAccs l ≤ (if lk then 16 else 64) &&
  lrTreg l ≤ (if lk then 65536 else 262144) && lrScratch l ≤ (if lk then 524288 else 1048576) &&
  lrBlocks l ≤ (if lk then 16 else 32)

/-- Detail 0x0C (R70): does some core of the partition with a runnable body hold one workgroup? -/
def someCoreHolds (s : State) (pid : Nat) (a : Ako) (l : List Quad) : Bool :=
  [false, true].any fun lk => hasKind s pid lk && runnable a lk && kindHolds l lk

/-- All checks of R70 but 0x0C; 0 while a read of the object is held (R37). -/
def checkRecord (s : State) (pid ptbase : Nat) (l : List Quad) : Except Nat Ako :=
  match recordDetail l pid with
  | some d => .error d
  | none => readAko s pid ptbase (lrAko l)

/-! What a placement reads (R79, R350). -/

/-- An address read by the distributor at placement: it has no window (R350, R462). -/
def placeTran (s : State) (pid ptbase va : Nat) : Except TFault Nat :=
  match devTranslate s pid ptbase va 0 with
  | .ok pa => .ok pa
  | .error c => .error ⟨c, vaOk va && !inWindow va⟩

/-- Quadwords read by the distributor; a fault names its address. -/
def placeQuads (s : State) (pid ptbase va : Nat) : Nat → Except (TFault × Nat) (List Nat)
  | 0 => .ok []
  | n + 1 =>
    match placeTran s pid ptbase va with
    | .error e => .error (e, va)
    | .ok pa => (placeQuads s pid ptbase (va + 8) n).map fun l => s.rdMemN pa 8 :: l

/-- The parameter block of R350: the first 2 KiB, or up to the end of its page. -/
def readParam (s : State) (pid ptbase va : Nat) : Except (TFault × Nat) (List Byte) :=
  if va == 0 then .ok []
  else match placeTran s pid ptbase va, walk s ptbase va with
    | .ok pa, .ok w => .ok (s.rdMem pa (Nat.min 2048 (2 ^ w.shift - va % 2 ^ w.shift)))
    | .error e, _ => .error (e, va)
    | _, .error c => .error (⟨c, true⟩, va)

/-- A number from consecutive quadwords. -/
def quadsNat (l : List Nat) : Nat := l.foldr (fun q n => q + 2 ^ 64 * n) 0

/-- The tables of the kernel object that a placement reads (R79). -/
def readTables (s : State) (pid ptbase : Nat) (a : Ako) : Except (TFault × Nat) (List (BitVec 320) × List (BitVec 512)) :=
  match placeQuads s pid ptbase (a.base + a.brec) (5 * a.nbrec) with
  | .error e => .error e
  | .ok b =>
    match placeQuads s pid ptbase (a.base + a.lconst) (8 * a.nlconst) with
    | .error e => .error e
    | .ok l => .ok ((List.range a.nbrec).map (fun i => BitVec.ofNat 320 (quadsNat ((b.drop (5 * i)).take 5))),
                    (List.range a.nlconst).map fun i => BitVec.ofNat 512 (quadsNat ((l.drop (8 * i)).take 8)))

/-- Is a placement of a grid's workgroup held, since a table that it reads is (R37)? -/
def placementHeld (s : State) (g : Grid) : Bool :=
  let held := fun {α : Type} (r : Except (TFault × Nat) α) => match r with | .error e => e.1.cause == 0 | .ok _ => false
  held (readParam s g.pid g.ptbase (lrParam g.lrec)) || g.ako.any fun a => held (readTables s g.pid g.ptbase a)

end Sys2Proof.Machine
end

