-- ==== Sys2Proof/Machine/Layout.lean ====
section
/-! DEFINITION. Layout registers and handles: images (R203 to R205, R210, R211), Evaluate and Locate (R206, R207),
offset bounds (R209), the layout algebra (R213 to R218), acceptance and classes (R220 to R224), LSTAT (R226), and the
instructions of opcode 0x14 (R388 to R393). -/

namespace Sys2Proof.Machine

/-! Images. -/

/-- A mode (R203): its extent, its signed step, its space (0 ELEM, 1 LANE, 2 REG, 3 DIE, 4 CORE), NEST. -/
structure Mode where
  ext   : Nat
  step  : Int
  space : Nat
  nest  : Bool
  deriving DecidableEq, Repr

/-- A swizzle term (R203): width, destination bit, source bit. -/
structure Swz where
  w : Nat
  d : Nat
  s : Nat
  deriving DecidableEq, Repr

/-- A layout (R203), read from its image. -/
structure Lay where
  fmt    : Nat
  col    : Bool
  scaled : Bool
  swz    : List Swz
  origin : Int
  modes  : List Mode
  deriving DecidableEq, Repr

/-- Mode k of an image. -/
def modeAt (x : BitVec 512) (k : Nat) : Mode :=
  let b := 128 + 48 * k
  { ext := bits x (b + 19) b + 1, step := signedN 24 (bits x (b + 43) (b + 20)), space := bits x (b + 46) (b + 44),
    nest := bits x (b + 47) (b + 47) == 1 }

/-- Swizzle term t of an image. -/
def swzAt (x : BitVec 512) (t : Nat) : Swz :=
  let b := 32 + 16 * t
  { w := bits x (b + 2) b, d := bits x (b + 7) (b + 3), s := bits x (b + 12) (b + 8) }

def Lay.read (x : BitVec 512) : Lay :=
  { fmt := bits x 5 0, col := bits x 16 16 == 1, scaled := bits x 17 17 == 1, swz := [swzAt x 0, swzAt x 1],
    origin := signedN 64 (bits x 127 64), modes := (List.range (Nat.min (bits x 9 6) 8)).map (modeAt x) }

/-- A mode as its 48 bits. -/
def Mode.raw (m : Mode) : Nat :=
  (m.ext - 1) + (ofInt 24 m.step).toNat * 2 ^ 20 + m.space * 2 ^ 44 + (if m.nest then 2 ^ 47 else 0)

/-- The modes as one number, mode 0 lowest. -/
def modesRaw : List Mode → Nat
  | [] => 0
  | m :: r => m.raw + 2 ^ 48 * modesRaw r

/-- A swizzle term as its 16 bits. -/
def Swz.raw (z : Swz) : Nat := z.w + z.d * 8 + z.s * 256

/-- The image of a layout. -/
def Lay.image (l : Lay) : BitVec 512 :=
  BitVec.ofNat 512 (l.fmt + l.modes.length * 64 + (if l.col then 2 ^ 16 else 0) + (if l.scaled then 2 ^ 17 else 0) +
    (atD l.swz 0 ⟨0, 0, 0⟩).raw * 2 ^ 32 + (atD l.swz 1 ⟨0, 0, 0⟩).raw * 2 ^ 48 + (ofInt 64 l.origin).toNat * 2 ^ 64 +
    modesRaw l.modes * 2 ^ 128)

/-- The number of elements (R204). -/
def sizeOf_ (l : List Mode) : Nat := (l.map (·.ext)).foldl (· * ·) 1
def Lay.size (l : Lay) : Nat := sizeOf_ l.modes

/-- A term of a well-formed image. -/
def Swz.ok (z : Swz) : Bool :=
  if z.w == 0 then z.d == 0 && z.s == 0 else z.d + z.w ≤ z.s && z.s + z.w ≤ 20

/-- A well-formed image (R204). -/
def imageOk (x : BitVec 512) : Bool :=
  let l := Lay.read x
  let rank := bits x 9 6
  (fmtOf l.fmt).isSome && bits x 15 10 == 0 && bits x 31 18 == 0 && bits x 47 45 == 0 && bits x 63 61 == 0 &&
  rank ≤ 8 && bits x 511 (128 + 48 * rank) == 0 &&
  !(match l.modes with | m :: _ => m.nest | [] => false) && l.modes.all (fun m => m.space ≤ 4) &&
  (!l.scaled || isQ8 l.fmt) && l.swz.all Swz.ok && l.size ≤ 2 ^ 40

/-- The layout in a register, and the handle. -/
def Team.lay (t : Team) (n : Nat) : Lay := Lay.read (t.ly.get n)

/-- A handle (R210). -/
structure Hdl where
  base    : Nat
  kind    : Nat
  dieset  : Nat
  dstride : Nat
  scale   : Int
  deriving DecidableEq, Repr

def Hdl.read (x : BitVec 128) : Hdl :=
  { base := bits x 63 0, kind := bits x 66 64, dieset := bits x 71 68, dstride := bits x 95 72,
    scale := signedN 32 (bits x 127 96) }
def Team.hdl (t : Team) (n : Nat) : Hdl := Hdl.read (t.h.get n)

/-- The element width in bytes (R207). -/
def Lay.width (l : Lay) : Nat := fmtBytes l.fmt

/-! Evaluate, Swizzle, Locate. -/

/-- The offsets of an index, one per space (R206). -/
structure Off where
  elem : Int := 0
  lane : Int := 0
  reg  : Int := 0
  die  : Int := 0
  core : Int := 0
  deriving DecidableEq, Repr

def Off.add (o : Off) (space : Nat) (x : Int) : Off :=
  match space with
  | 0 => { o with elem := o.elem + x }
  | 1 => { o with lane := o.lane + x }
  | 2 => { o with reg := o.reg + x }
  | 3 => { o with die := o.die + x }
  | _ => { o with core := o.core + x }

/-- The modes' part of Evaluate: colexicographic, mode 0 fastest. -/
def evalModes : List Mode → Nat → Off → Off
  | [], _, o => o
  | m :: r, i, o => evalModes r (i / m.ext) (o.add m.space ((i % m.ext : Nat) * m.step))

/-- Evaluate (R206); ELEM on 64-bit two's complement. -/
def Lay.eval (l : Lay) (i : Nat) : Off :=
  let o := evalModes l.modes i { elem := l.origin }
  { o with elem := (ofInt 64 o.elem).toInt }

/-- Swizzle (R207). -/
def swizzle (zs : List Swz) (x : Nat) : Nat :=
  zs.foldl (fun x z => if z.w == 0 then x else x ^^^ ((x >>> z.s % 2 ^ z.w) <<< z.d)) x

/-- A number reduced modulo 2^64. -/
def wrap64 (i : Int) : Nat := (ofInt 64 i).toNat

/-- Where an element lies (R207): a TREG byte, a virtual address, or a place outside the 2^20 offsets. -/
inductive Place where
  | treg (byte : Nat) | va (a : Nat) | out (a : Nat)
  deriving DecidableEq, Repr

/-- Locate (R207). The offset in TREG and in scratchpad is a whole number with its sign, BASE unsigned, before its range is tested
(log entry 70). -/
def locate (h : Hdl) (l : Lay) (i : Nat) : Place :=
  let o := l.eval i
  let b := o.elem * l.width
  match h.kind with
  | 0 =>
    let x := (h.base : Int) + b
    if 0 ≤ x && x < 2 ^ 20 then .treg (swizzle l.swz x.toNat) else .out (wrap64 x)
  | 3 => .va (wrap64 (h.base + b))
  | 5 => .va (wrap64 (h.base + b))
  | 6 => .va (wrap64 (h.base + b))
  | 4 => .va (wrap64 (h.base + o.die * (h.dstride * 65536 : Nat) + b))
  | k =>
    let x := (h.base % 2 ^ 20 : Nat) + b
    if 0 ≤ x && x < 2 ^ 20 then
      let va := BitVec.ofNat 64 (h.base / 2 ^ 20 * 2 ^ 20 + swizzle l.swz x.toNat)
      .va (if k == 2 then setBits va 34 32 ((bits va 34 32 : Nat) + o.core).toNat else va).toNat
    else .out (wrap64 (h.base + b))

/-- The address a place names. -/
def Place.addr : Place → Nat | .treg a => a | .va a => a | .out a => a

/-- The place of byte k of an element. -/
def Place.byte (p : Place) (k : Nat) : Place :=
  match p with
  | .treg a => .treg (a + k) | .va a => .va ((a + k) % 2 ^ 64) | .out a => .out ((a + k) % 2 ^ 64)

/-- The 128-byte lines an element of w bytes touches, numbered by address (R221). -/
def Place.lines (p : Place) (w : Nat) : List Nat :=
  let a := p.addr / 128
  let b := (p.byte (w - 1)).addr / 128
  if a == b then [a] else [a, b]

/-- The registers that a register layout reaches from vd, where its bounds are accepted (R209). -/
def regsFrom (d : Nat) (r : Lay) : List Nat :=
  (r.modes.filter (·.space == 2)).foldl (fun xs m =>
    let steps := if m.step == 0 then 1 else Nat.min m.ext 257
    distinct (xs.flatMap fun x => (List.range steps).filterMap fun i =>
      let y := (x : Int) + (i : Int) * m.step
      if 0 ≤ y && y ≤ 255 then some y.toNat else none)) [d]

/-- The writes of a register form (R413, R416, R208): (lane, register, slot, source element). -/
def drainItems (m : MatOp) : List (Nat × Nat × Nat × Nat) :=
  let l := Lay.read m.lB
  (List.range l.size).filterMap fun i =>
    let o := l.eval i
    if m.wmask.getLsbD o.lane.toNat then some (o.lane.toNat, ((m.d : Int) + o.reg).toNat, o.elem.toNat, i) else none

/-- The bounds of a space's offset (R209). -/
def Lay.bounds (l : Lay) (space : Nat) : Int × Int :=
  l.modes.foldl (fun b m =>
    if m.space == space then
      let x := ((m.ext - 1 : Nat) : Int) * m.step
      (b.1 + min 0 x, b.2 + max 0 x)
    else b) (if space == 0 then (l.origin, l.origin) else (0, 0))

/-! The layout algebra (R213 to R218). -/

/-- The groups of a mode list (R205). -/
def groupsOf : List Mode → List (List Mode)
  | [] => []
  | m :: r =>
    match r, groupsOf r with
    | n :: _, g :: gs => if n.nest then (m :: g) :: gs else [m] :: g :: gs
    | _, gs => [m] :: gs

/-- Is a step in the signed 24-bit range? -/
def stepOk (i : Int) : Bool := decide (-(2 ^ 23 : Int) ≤ i) && decide (i < 2 ^ 23)
/-- A result within the limits of R213. -/
def modesFit (l : List Mode) : Bool := l.length ≤ 8 && l.all fun m => m.ext ≤ 2 ^ 20 && stepOk m.step

/-- The skip of Chain (R214): d index values of the modes from j on. -/
def chainSkip : List Mode → Nat → Option (List Mode)
  | [], _ => none
  | [m], d => some [{ m with step := m.step * d }]
  | m :: r, d =>
    if d ≤ 1 then some (m :: r)
    else if d % m.ext == 0 then chainSkip r (d / m.ext)
    else if m.ext % d == 0 then some ({ m with ext := m.ext / d, step := m.step * d } :: r)
    else none

/-- The take of Chain (R214): n index values; the last mode is unbounded. -/
def chainTake : List Mode → Nat → Option (List Mode)
  | [], _ => none
  | [m], n => some [{ m with ext := n }]
  | m :: r, n =>
    if n ≤ m.ext then some [{ m with ext := n }]
    else if n % m.ext != 0 then none
    else (chainTake r (n / m.ext)).map fun o => m :: o

/-- NEST of the modes made from one mode of B. -/
def nestFirst (nest : Bool) : List Mode → List Mode
  | [] => []
  | m :: r => { m with nest := nest } :: r.map fun x => { x with nest := true }

/-- The modes that one mode of B becomes. -/
def chainMode (a : List Mode) (b : Mode) : Option (List Mode) :=
  let raw := if b.step == 0 then some [{ ext := b.ext, step := 0, space := 0, nest := false : Mode }]
    else (chainSkip a b.step.toNat).bind fun p => chainTake p b.ext
  raw.map fun o =>
    let o := o.filter fun m => m.ext != 1
    nestFirst b.nest (if o.isEmpty then [{ ext := 1, step := 0, space := 0, nest := false : Mode }] else o)

/-- Chain over the modes of B from number k: the modes, or the mode of B that faults. -/
def chainModes (a : List Mode) : List Mode → Nat → List Mode → Except Nat (List Mode)
  | [], _, out => .ok out
  | b :: r, k, out =>
    match chainMode a b with
    | none => .error k
    | some o => if modesFit (out ++ o) then chainModes a r (k + 1) (out ++ o) else .error k

/-- A trap of an instruction: cause and TINFO words. -/
abbrev TrapWhy := Nat × List Nat

/-- LCHAIN (R214). -/
def lchainOf (a b : Lay) : Except TrapWhy Lay :=
  if b.swz.any (fun z => z.w != 0) || b.origin != 0 || a.modes.isEmpty then .error (cChain, [0xFFFFFFFF])
  else match (List.range b.modes.length).find? fun k =>
      match b.modes[k]? with | some m => m.space != 0 || decide (m.step < 0) | none => false with
  | some k => .error (cChain, [k])
  | none =>
    match chainModes a.modes b.modes 0 [] with
    | .error k => .error (cChain, [k])
    | .ok m => .ok { a with modes := m }

/-- LPART (R215, R392). -/
def lpartOf (a : Lay) (k f space : Nat) : Except TrapWhy Lay :=
  let bad : Except TrapWhy Lay := .error (cPart, [k])
  match a.modes[k]? with
  | none => bad
  | some m =>
    let d : Int := if space == m.space then f * m.step else 1
    if f == 0 || 2 ^ 20 ≤ f || m.ext % f != 0 || !(space == m.space || space == 3 || space == 4) ||
        a.modes.length == 8 || !stepOk d then bad
    else .ok { a with modes := a.modes.take k ++ [{ m with ext := f }, { ext := m.ext / f, step := d, space := space, nest := true }] ++
                        a.modes.drop (k + 1) }

/-- LTRANS (R216): the layout, or none where the entries are no permutation. -/
def ltransOf (a : Lay) (x : Quad) : Option Lay :=
  let gs := groupsOf a.modes
  let es := (List.range gs.length).map fun j => bits x (4 * j + 3) (4 * j)
  if nodup es && es.all (· < gs.length) then some { a with modes := es.flatMap fun e => atD gs e [] } else none

/-- LFLAT (R217). -/
def lflatOf (a : Lay) (i : Nat) : Except TrapWhy Lay :=
  match a.modes[i]?, a.modes[i + 1]? with
  | some m, some n =>
    if m.space != n.space then .error (cFlatten, [i, 2])
    else if n.step != (m.ext : Int) * m.step then .error (cFlatten, [i, 3])
    else if 2 ^ 20 < m.ext * n.ext then .error (cFlatten, [i, 4])
    else .ok { a with modes := a.modes.take i ++ [{ m with ext := m.ext * n.ext }] ++ a.modes.drop (i + 2) }
  | _, _ => .error (cFlatten, [i, 1])

/-- The modes after a removed one: the next starts the group that the removed one started (R218). -/
def unnest (removed : Mode) : List Mode → List Mode
  | [] => []
  | m :: r => if !removed.nest then { m with nest := false } :: r else m :: r

/-- LSLICE (R218). -/
def lsliceOf (a : Lay) (k c : Nat) : Except TrapWhy Lay :=
  match a.modes[k]? with
  | none => .error (cFormat, [k])
  | some m =>
    if m.ext ≤ c || m.space != 0 then .error (cFormat, [k])
    else .ok { a with origin := (ofInt 64 (a.origin + c * m.step)).toInt,
                      modes := a.modes.take k ++ unnest m (a.modes.drop (k + 1)) }

/-! Acceptance and classes (R220 to R224). -/

def Lay.swizzled (l : Lay) : Bool := l.swz.any fun z => z.w != 0

/-- Reasons 0x01, 0x02 and 0x07 for a memory layout with its handle, by engine code. -/
def rejectKind (code : Nat) (h : Hdl) (l : Lay) : Option Nat :=
  let space := fun m : Mode =>
    m.space == 0 || (code == 0 && m.space == 3 && h.kind == 4) ||
    ((code == 0 || code == 4) && m.space == 4 && h.kind == 2)
  if !l.modes.all space then some 1
  else if code == 5 && h.kind < 3 then some 2
  else if 3 ≤ h.kind && l.swizzled then some 7
  else none

/-- Reason 0x05 for a memory layout: DIE and CORE bounds (R209). -/
def rejectBounds (h : Hdl) (l : Lay) : Option Nat :=
  let d := l.bounds 3
  let c := l.bounds 4
  let cb : Int := (nbits h.base 34 32 : Nat)
  if h.kind == 4 && (decide (d.1 < 0) || decide ((popcount h.dieset 4 : Int) ≤ d.2)) then some 5
  else if h.kind == 2 && (decide (c.1 + cb < 0) || decide (6 < c.2 + cb)) then some 5
  else none

/-- The reasons of a register layout (R208, R209, R220). -/
def rejectReg (t : Team) (l : Lay) : Option Nat :=
  let n := l.bounds 1
  let e := l.bounds 0
  if !l.modes.all (fun m => m.space ≤ 2) then some 1
  else if decide (n.1 < 0) || decide ((t.width : Int) ≤ n.2) || decide (e.1 < 0) ||
      decide ((4 / l.width : Nat) ≤ e.2) then some 5
  else none

/-- A line swizzle (R221). -/
def Lay.lineSwz (l : Lay) : Bool :=
  match l.swz.filter fun z => z.w != 0 with
  | [] => true
  | [z] => 2 ≤ z.d && z.d ≤ 4 && z.s == 7 && z.d + z.w ≤ 7
  | _ => false

/-- The run of a list of ELEM modes (R221): its length and the modes outside it. -/
def runOf : List Mode → Nat → Nat × List Mode
  | [], n => (n, [])
  | m :: r, n => if m.step == (n : Int) then runOf r (n * m.ext) else (n, m :: r)

/-- The run of a layout's ELEM modes, if the first has step 1. -/
def Lay.run (l : Lay) : Option (Nat × List Mode) :=
  match l.modes.filter fun m => m.space == 0 with
  | m :: r => if m.step == 1 then some (runOf r m.ext) else none
  | [] => none

/-- Is a layout conforming with its handle (R221)? -/
def conforming (h : Hdl) (l : Lay) : Bool :=
  let w := l.width
  match l.run with
  | none => false
  | some (n, rest) =>
    n * w % 128 == 0 && rest.all (fun m => m.step * w % 128 == 0) && l.origin * w % 128 == 0 && h.base % 128 == 0 &&
    l.lineSwz


/-- The distinct lines that a list of indices touches. -/
def linesOf (h : Hdl) (l : Lay) (is_ : List Nat) : List Nat :=
  distinct (is_.flatMap fun i => (locate h l i).lines l.width)

/-- WAYS of a layout: the most lines that a line group touches (R221). -/
def waysOf (h : Hdl) (l : Lay) : Nat :=
  let g := 128 / l.width
  (List.range (ceilDiv l.size g)).foldl (fun n k =>
    Nat.max n (linesOf h l ((List.range (Nat.min g (l.size - g * k))).map (g * k + ·))).length) 0

/-- What acceptance finds of an operand: class, Trellis ways, reason of a rejection. -/
structure Class where
  cls    : Nat
  ways   : Nat := 0
  reason : Nat := 0
  deriving DecidableEq, Repr

/-- The class of a memory layout with its handle (R221). -/
def classOf (h : Hdl) (l : Lay) : Class :=
  if conforming h l then { cls := 0 }
  else if l.width < 2 then { cls := 2, reason := 4 }
  else
    let n := waysOf h l
    if n ≤ 8 then { cls := 1, ways := n } else { cls := 2, reason := 3 }

/-- The operand as its engine takes it (R220, R224). -/
def accept (code : Nat) (h : Hdl) (l : Lay) : Class :=
  match (rejectKind code h l).or (rejectBounds h l) with
  | some r => { cls := 2, reason := r }
  | none =>
    if code == 4 then { cls := 0 }
    else if code == 5 && 16 < l.size then { cls := 2, reason := 6 }
    else if l.col && (code == 1 || code == 2) && !conforming h l then { cls := 2, reason := 3 }
    else classOf h l

/-- An index joins the chunk of a line. -/
def joinChunk (i : Nat) (cs : List (Nat × List Nat)) (n : Nat) : List (Nat × List Nat) :=
  if cs.any (·.1 == n) then cs.map fun c => if c.1 == n then (c.1, c.2 ++ [i]) else c
  else cs ++ [(n, [i])]

/-- The chunks of a destination (R276): its lines in the order of the lowest index that each receives, and the indices
with a byte in each. -/
def chunksOf (h : Hdl) (l : Lay) : List (Nat × List Nat) :=
  (List.range l.size).foldl (fun cs i => ((locate h l i).lines l.width).foldl (joinChunk i) cs) []

/-- A COPY pair (R222). -/
def acceptPair (hd : Hdl) (ld : Lay) (hs : Hdl) (ls : Lay) : Class :=
  let same := match ld.run, ls.run with | some a, some b => a.1 == b.1 | _, _ => false
  if conforming hd ld && conforming hs ls && same then { cls := 0 }
  else if 2 ≤ ld.width && 2 ≤ ls.width then
    let n := (chunksOf hd ld).foldl (fun m c => Nat.max m (linesOf hs ls c.2).length) 0
    if n ≤ 8 then { cls := 1, ways := n } else { cls := 2, reason := 3 }
  else { cls := 2, reason := 3 }

/-! Bank-conflict degree and LSTAT (R156, R226). -/

/-- k of R156 for accesses of n bytes at scratchpad offsets. -/
def degreeOf (l : List Nat) (n : Nat) : Nat :=
  let ws := distinct (l.flatMap fun o => (List.range ((o + n - 1) / 4 + 1 - o / 4)).map (o / 4 + ·))
  (List.range 32).foldl (fun m b => Nat.max m (ws.filter fun x => x % 32 == b).length) 1

/-- The degree of some indices of an operand: 1 unless it lies in scratchpad; each core of a peer operand has its own banks. -/
def degreeAt (h : Hdl) (l : Lay) (is_ : List Nat) : Nat :=
  if h.kind == 1 || h.kind == 2 then
    let vas := is_.filterMap fun i => match locate h l i with | .va a => some a | _ => none
    (distinct (vas.map (· / 2 ^ 20))).foldl (fun m w =>
      Nat.max m (degreeOf ((vas.filter fun a => a / 2 ^ 20 == w).map (· % 2 ^ 20)) l.width)) 1
  else 1

/-- The degree of the first pass for every engine but the lane load/store unit. -/
def firstDegree (h : Hdl) (l : Lay) : Nat := degreeAt h l (List.range (Nat.min l.size (128 / l.width)))

/-- LSTAT (R226): DEGREE, at most 32, with CLASS, WAYS and SPAN. -/
def lstatOf (deg cls ways : Nat) (span : Bool) : Quad :=
  BitVec.ofNat 64 (Nat.min 32 deg + cls * 64 + ways * 256 + (if span then 4096 else 0))

/-- LSTAT with DEGREE, WAYS and SPAN written and CLASS kept. -/
def Team.setLstat (t : Team) (deg ways : Nat) (span : Bool) : Team :=
  { t with lstat := lstatOf deg (bits t.lstat 7 6) ways span }

/-- The handle as an engine classifies it: the gather unit takes a row that starts on a line boundary (R225, R433). -/
def Hdl.for (h : Hdl) (code : Nat) : Hdl := if code == 5 then { h with base := 0 } else h

/-- LAYOUT_REJECTED's TINFO words (R220). -/
def rejected (code opn reason ly : Nat) (h : Option Nat) : TrapWhy :=
  (cLayout, [code + opn * 16 + reason * 256, ly, h.getD 0xFFFFFFFF])

/-- Is the handle's TREG out of the team's reach (R145, R211)? -/
def Ctx.unreach (c : Ctx) (n : Nat) : Bool := (c.t.hdl n).kind == 0 && c.s.migrated c.t

/-- The handle and the layouts that a lane or gather instruction uses: as they stood when it issued, also where it waits and
goes on (R219). -/
def Ctx.imaged (c : Ctx) (hn ln rn : Nat) : Ctx × Hdl × Lay × Lay :=
  let x := c.sp.image.getD (c.t.h.get hn, c.t.ly.get ln, c.t.ly.get rn)
  ({ c with t := c.t.modSplit c.sp.id fun p => { p with image := some x } }, Hdl.read x.1, Lay.read x.2.1, Lay.read x.2.2)

/-- The handle and the layout of a tile operand field. -/
def tileH (x : Nat) : Nat := x / 16
def tileL (x : Nat) : Nat := x % 16

/-! Opcode 0x14. -/

/-- Raise a trap with given TINFO words. -/
def Ctx.why (c : Ctx) (e : TrapWhy) (len : Nat) : Out := c.trap e.1 e.2 len

/-- Write a layout register, or OPERAND_FORMAT (R204, R390). -/
def Ctx.setLy (c : Ctx) (d : Nat) (x : BitVec 512) (n len : Nat) : Out :=
  if imageOk x then c.done { c.t with ly := c.t.ly.set d x } len else c.trap cFormat [d, n] len

/-- The result of a layout operation (R213, R392). -/
def Ctx.setLay (c : Ctx) (w : OpA) (r : Except TrapWhy Lay) : Out :=
  match r with
  | .error e => c.why e (lenA w)
  | .ok l => c.setLy w.dN l.image 0xFFFFFFFF (lenA w)

def execLset (w : OpA) (s : State) : Out :=
  issueU 20 0 (sigLset w) w s fun c =>
    if w.md 0 0 == 1 then
      match (((c.s.wgOf c.t).map (·.lconsts)).getD [])[w.aN]? with
      | some x => c.setLy w.dN x w.aN (lenA w)
      | none => c.trap cFormat [w.dN, w.aN] (lenA w)
    else
      let x := (List.range 8).foldl (fun n j => n + (c.rdS (w.aN + j)).toNat * 2 ^ (64 * j)) 0
      c.setLy w.dN (BitVec.ofNat 512 x) 0xFFFFFFFF (lenA w)

def execLget (w : OpA) (s : State) : Out :=
  issueU 20 1 (sigLget w) w s fun c =>
    let x := c.t.ly.get w.aN
    c.done ((List.range 8).foldl (fun t j => t.wrS c.sp.lvl (w.dN + j) (x.extractLsb' (64 * j) 64)) c.t) (lenA w)

def execLchain (w : OpA) (s : State) : Out :=
  issueU 20 2 (sigLchain w) w s fun c =>
    c.setLay w (lchainOf (c.t.lay w.aN) (c.t.lay ((sigLchain w).bOf w)))

def execLpart (w : OpA) (s : State) : Out :=
  issueU 20 3 (sigLpart w) w s fun c =>
    c.setLay w (lpartOf (c.t.lay w.aN) (w.md 2 0) (c.rdS ((sigLpart w).bOf w)).toNat (w.md 5 3))

/-- Word 0 of a format-A instruction (R388). -/
def word0 (op fn : Nat) (w : OpA) : Nat :=
  op * 2 ^ 26 + (if w.ext.isSome then 2 ^ 25 else 0) + w.stall.toNat * 2 ^ 23 + w.dN * 2 ^ 15 + w.aN * 2 ^ 7 + fn

def execLtrans (w : OpA) (s : State) : Out :=
  issueU 20 4 (sigLtrans w) w s fun c =>
    match ltransOf (c.t.lay w.aN) (c.rdS ((sigLtrans w).bOf w)) with
    | some l => c.setLay w (.ok l)
    | none => c.trap cIllegal [word0 20 4 w, 0xFFFFFFFF] (lenA w)

def execLflat (w : OpA) (s : State) : Out :=
  issueU 20 5 (sigLflat w) w s fun c => c.setLay w (lflatOf (c.t.lay w.aN) (w.md 2 0))

def execLslice (w : OpA) (s : State) : Out :=
  issueU 20 6 (sigLslice w) w s fun c =>
    c.setLay w (lsliceOf (c.t.lay w.aN) (w.md 2 0) (c.rdS ((sigLslice w).bOf w)).toNat)

/-- The degree that LCHECK reports: for the lane load/store unit, of the first pass of a memory side (R226, R393). -/
def execLcheck (w : OpA) (s : State) : Out :=
  issueU 20 7 (sigLcheck w) w s fun c =>
    let hn := tileH w.aN
    if c.unreach hn then c.trap cHandle [hn] (lenA w)
    else
      let h := (c.t.hdl hn).for (w.md 2 0)
      let l := c.t.lay (tileL w.aN)
      let k := accept (w.md 2 0) h l
      c.done { c.t with lstat := lstatOf (firstDegree h l) k.cls k.ways false } (lenA w)

/-- Does HSET accept a handle (R211)? -/
def handleOk (x : BitVec 128) : Bool :=
  let h := Hdl.read x
  let b := h.base
  h.kind != 7 && bits x 67 67 == 0 && (h.kind == 4 || (h.dieset == 0 && h.dstride == 0)) && bits x 97 96 == 0 &&
  (match h.kind with
   | 1 => vaOk b && inWindow b && nbits b 39 20 == 0
   | 2 => vaOk b && inWindow b && nbits b 39 36 == 1 && nbits b 35 35 == 0 && nbits b 34 32 ≤ 6 && nbits b 31 26 == 0
   | _ => true)

def execHset (w : OpA) (s : State) : Out :=
  issueU 20 8 (sigHset w) w s fun c =>
    let x : BitVec 128 := c.rdS (w.aN + 1) ++ c.rdS w.aN
    if handleOk x then c.done { c.t with h := c.t.h.set w.dN x } (lenA w) else c.trap cFormat [w.dN] (lenA w)

def execHget (w : OpA) (s : State) : Out :=
  issueU 20 9 (sigHget w) w s fun c =>
    let x := c.t.h.get w.aN
    c.done ((c.t.wrS c.sp.lvl w.dN (x.extractLsb' 0 64)).wrS c.sp.lvl (w.dN + 1) (x.extractLsb' 64 64)) (lenA w)

end Sys2Proof.Machine
end

