-- ==== Sys2Proof/Machine/Fetch.lean ====
section
/-! DEFINITION. Fetching a split's next instruction: the clause header (R289 to R291), stages 1 to 5 of R315, address
breakpoints (R288), and when a split is ready (R101). -/

namespace Sys2Proof.Machine

/-- What the fetch of a split's next instruction comes to. -/
inductive Fetched where
  | run (i : Instr) (s : State)   -- the instruction, its split standing at it
  | out (s : State)               -- a trap was taken or a fetch fault is served
  | wait                          -- the split is not ready
  deriving DecidableEq, Repr

/-- Is the split not parked: a read that held its instruction is held no more (R37, R61)? -/
def Split.unparked (p : Split) (s : State) (t : Team) : Bool :=
  match p.park with | none => true | some (.held va access) => !readHeld s t va access | some _ => false

/-- Is the split free to issue (R101)? -/
def splitFree (s : State) (t : Team) (p : Split) : Bool :=
  p.unparked s t && p.pend.isEmpty && !p.spilled && !t.stop && t.fused.isNone && t.xfer.isNone &&
  -- a barrier, an EXDONE, and a spill or a reload hold the whole team (R385, R428, R178)
  !(t.splits.any fun x => x.grotto ||
      (match x.park with | some (.barrier _ _ _ _) => true | some .exdone => true | _ => false)) &&
  !t.ended && !s.dev.tripped && !t.preempt && p.lvl != 2 &&
  (match s.wgs.at? t.wg with | some w => w.live && w.ready | none => false)

/-- The repetitions of a format-I instruction: D and A step (R306). -/
def stepI7 (r : OpP) (j : Nat) (useA : Bool) (w : OpI7) : Option OpI7 :=
  let d := w.d.toNat + j * r.dd.toNat
  let a := if useA then w.a.toNat + j * r.da.toNat else w.a.toNat
  if d ≤ 255 && a ≤ 255 then some { w with d := BitVec.ofNat 8 d, a := BitVec.ofNat 8 a } else none
def stepI30 (r : OpP) (j : Nat) (useA : Bool) (w : OpI30) : Option OpI30 :=
  let d := w.d.toNat + j * r.dd.toNat
  let a := if useA then w.a.toNat + j * r.da.toNat else w.a.toNat
  if d ≤ 255 && a ≤ 255 then some { w with d := BitVec.ofNat 8 d, a := BitVec.ofNat 8 a } else none

/-- The repetitions of a form, stepped by the prefix (R306). -/
def repeats (p : Split) (f : Form) : List Form :=
  match p.rep with
  | none => [f]
  | some r => (List.range (r.cntm1.toNat + 1)).filterMap fun j =>
      match f with
      | .a op fn w g => (g.stepped r j w).map fun x => .a op fn x g
      | .i7 op w l u => (stepI7 r j u w).map fun x => .i7 op x l u
      | .i30 op w l u => (stepI30 r j u w).map fun x => .i30 op x l u
      | f => some f

/-- The registers that an instruction reaches from a base, through a layout (R209, R413, R433) or as a pair of a record (R172). -/
def reachedRegs (s : State) (t : Team) (p : Split) (f : Form) : List (Nat × Nat) :=
  let lay := fun (n : Nat) => match p.image with | some x => Lay.read x.2.2 | none => t.lay n
  let v := fun (l : List Nat) => l.map fun r => (0, r)
  match f with
  | .m 16 6 w _ => v (regsFrom w.dN (lay w.sbN))
  | .m 17 4 w _ => v (regsFrom w.dN (lay w.sbN))
  | .m op fn w _ => v (recMore (((s.wgOf t).map (·.brecs)).getD []) ((t.rdS p.lvl w.sbN).toNat % 256) op fn w)
  | .a 22 4 w g => if g.d == .vb then v (regsFrom w.dN (t.lay (g.bOf w))) else []
  | .a 23 12 w g => if g.d == .mb then (regsFrom w.dN (t.lay (g.bOf w))).map fun r => (4, r) else []
  | .a 24 8 w g => v ((List.range (t.lay (tileL (g.cOf w))).size).map (w.dN + ·))
  | _ => []

/-- The registers an instruction reads, in all its repetitions: kind and number. -/
def readRegs (s : State) (t : Team) (p : Split) (f : Form) : List (Nat × Nat) :=
  (repeats p f).flatMap Form.sources ++ (if f.op == 17 || f.op == 18 then reachedRegs s t p f else [])

/-- The registers an instruction names, in all its repetitions: kind and number. -/
def namedRegs (s : State) (t : Team) (p : Split) (f : Form) : List (Nat × Nat) :=
  (repeats p f).flatMap (fun x => x.sources ++ x.writes ++ (match x with | .m _ _ w g => g.d.regList w.dN | _ => [])) ++
  reachedRegs s t p f

/-- The path an instruction counts on (R195, R370): 0 LD, 1 ST, 2 GA, 3 AT. -/
def pathOf (f : Form) : Option Nat :=
  match f.op, f.fn with
  | 16, 4 => none
  | 16, 5 => none
  | 16, _ => some 0
  | 17, _ => some 1
  | 18, _ => some 3
  | 19, 8 => some 0
  | 24, 6 => some 3
  | 24, 7 => some 3
  | 24, 8 => some 2
  | _, _ => none

/-- Is it an instruction of the matrix unit (R403)? -/
def matrixUnit (f : Form) : Bool :=
  (f.op == 22 && f.fn ≤ 4) || (f.op == 23 && (f.fn == 11 || f.fn == 12))

/-- The registers of a store's data, which a load in flight to it holds in every issue mode (R374). -/
def storeData (s : State) (t : Team) (p : Split) (f : Form) : List (Nat × Nat) :=
  match f with
  | .m 17 _ w g => g.d.regList w.dN ++ reachedRegs s t p f
  | _ => []

/-- The interrupted register that a MOVUSER names: kind and number (R439). -/
def movuserSource (f : Form) : Option (Nat × Nat) :=
  match f with | .a 25 3 w _ => some (w.md 0 0, w.aN) | _ => none

/-- Is a register a uniform one, which the team's splits share? -/
def uniformReg (r : Nat × Nat) : Bool := r.1 == 1 || r.1 == 3

/-- A write in flight of a uniform register that another split of the team has issued (R115)? A write of a split that this one was
made from is its own earlier one (log entry 67). -/
def otherWrite (p : Split) (g : Flight) (e : Nat × Nat × Nat) : Bool :=
  uniformReg (e.1, e.2.1) && g.split != p.id && !p.anc.contains g.split

/-- Is it a Lodge register, in a handler (R268)? -/
def lodgeReg (lvl kind reg : Nat) : Bool := lodgeApart kind reg lvl 0

/-- Does an instruction wait for an access in flight: for a register it names, when it is interlocked (R134); in a handler, for
one of the interrupted context, also by MOVUSER (R271); for a uniform register it reads that another split writes (R115); for
a store's data (R374)? -/
def waitsOn (s : State) (t : Team) (p : Split) (f : Form) (g : Flight) : Bool :=
  !g.dests.isEmpty &&
  let lock := interlocked t p
  let names := namedRegs s t p f
  let reads := readRegs s t p f
  let data := storeData s t p f
  g.dests.any fun e =>
    let r := (e.1, e.2.1)
    (uniformReg r || p.mask.getLsbD e.2.2) &&
    ((!lodgeApart e.1 e.2.1 g.lvl p.lvl &&
      ((lock && names.contains r) || (p.lvl != 0 && !lodgeReg p.lvl e.1 e.2.1 && reads.contains r) ||
       (otherWrite p g e && reads.contains r) || data.contains r)) ||
     (movuserSource f == some r && g.lvl < p.lvl))

/-- Does an instruction wait for a drain into registers that the matrix unit still holds: it reads or writes one of them, in a
lane that the drain writes (R403, R271)? -/
def waitsDrain (s : State) (t : Team) (p : Split) (f : Form) (m : MatOp) : Bool :=
  m.mod.testBit 3 && (m.fn == (22, 4) || m.fn == (23, 12)) &&
  let kind := if m.fn.1 == 22 then 0 else 4
  let names := namedRegs s t p f
  (drainItems m).any fun e => p.mask.getLsbD e.1 &&
    ((!lodgeApart kind e.2.1 m.lvl p.lvl && names.contains (kind, e.2.1)) ||
     (movuserSource f == some (kind, e.2.1) && m.lvl < p.lvl))

/-- Are the operands free: no access in flight writes a register that must be waited for, nor a drain (R403), no path counter
is full (R195), the matrix queue has room (R403)? -/
def operandsFree (s : State) (t : Team) (p : Split) (f : Form) : Bool :=
  -- EXIT waits for its split's matrix instructions, the last EXIT, MIGRATE and TRESHAPE for the whole queue (R405, R406)
  let whole := (f.op == 4 && f.fn == 8) || (f.op == 25 && f.fn == 10) || (f.op == 4 && f.fn == 5 && t.live &&& ~~~p.mask == 0)
  let held := (whole && !t.mat.isEmpty) || (f.op == 4 && f.fn == 5 && t.mat.any fun m => m.mask &&& p.mask != 0)
  !(t.flights.any (waitsOn s t p f)) && !(t.mat.any (waitsDrain s t p f)) && !held &&
  (match pathOf f with | some k => pathCount t k < 65535 | none => true) &&
  !(matrixUnit f && 4 ≤ t.mat.length)

/-- WAITPATH of a header (R291): every selected counter is zero. -/
def waitPathOk (t : Team) (h : Word) : Bool :=
  !((h.getLsbD 17 && pathCount t 0 != 0) || (h.getLsbD 18 && pathCount t 1 != 0) ||
    (h.getLsbD 19 && pathCount t 2 != 0) || (h.getLsbD 20 && pathCount t 3 != 0))

/-- May the opcode and function of a word follow a REPEAT (R306)? -/
def repeatableWord (w : Word) : Bool :=
  let op := opOf w
  !isHeader w && (op == 10 || op == 11 || op == 12 || op == 13 || op == 15 || (op == 23 && fnOf w ≤ 10))

/-- Does a clause class accept a word by its opcode and function (R292)? -/
def classOkWord (cls : Nat) (w : Word) : Bool :=
  let op := opOf w
  cls == 7 || (cls == 0 && 5 ≤ op && op ≤ 15) || (cls == 4 && op == 23)

/-- The signature of a form as it depends on the fields: the same function on stepped fields. -/
def reform (i : Instr) (w : OpA) : Form :=
  match form i with
  | .a op fn w0 _ =>
    match fnA op w fn with
    | some i' => form i'
    | none => .a op fn w0 { ok := false }
  | f => f

/-- Stage 5 and the bank rule for one repetition, or for the instruction alone (R307, R310). -/
def stage5At (bank : Bool) (i : Instr) (r : Option OpP) (j : Nat) : Bool :=
  match form i, r with
  | .a op fn w g, none => (Form.a op fn w g).stage5 && (!bank || g.bankOk w)
  | .a _ _ w g, some r =>
    match g.stepped r j w with
    | none => false
    | some w' =>
      match reform i w' with
      | .a op fn x h => (Form.a op fn x h).stage5 && (!bank || w.ext.isNone || h.bankOk x)
      | _ => false
  | .i7 op w l u, some r => (match stepI7 r j u w with | some x => (Form.i7 op x l u).stage5 | none => false)
  | .i30 op w l u, some r => (match stepI30 r j u w with | some x => (Form.i30 op x l u).stage5 | none => false)
  | f, _ => f.stage5

/-- The lowest repetition that fails stage 5. -/
def stage5Fail (bank : Bool) (i : Instr) (p : Split) : Option Nat :=
  (List.range (repsOf p)).find? fun j => !stage5At bank i p.rep j

/-- Stages 1 to 5 at a split that stands at an instruction: the instruction, or the ILLEGAL_ENCODING words. -/
def checkInstr (t : Team) (p : Split) (w0 : Word) (next : Option Word) (mark : Option Bool) :
    Except (List Nat) Instr :=
  let bad : List Nat := [w0.toNat, 0xFFFFFFFF]
  let native := t.body.kind.native
  match decodeWords w0 next with
  | .error .badMark => .error [(next.getD 0).toNat, 0xFFFFFFFF]
  | .error _ => .error bad
  | .ok i =>
    let f := form i
    -- stage 2, the bitmap: the next word is a start exactly when X = 0
    if !native && (match mark with | some m => m == xOf w0 | none => false) then .error bad
    else
      -- stage 4
      let last := match p.clause with | some c => c.count ≤ c.slot + 1 | none => false
      let cls := match p.clause with | some c => c.cls | none => 7
      let repOk := match next with
        | some n => repeatableWord n && !(native && (last || !classOkWord cls n))
        | none => false
      if native && ((f.control && !last) || (!f.control && !f.classOk cls)) then .error bad
      else if f.op == 5 && !repOk then .error bad
      -- stage 5
      else if !native && f.stall != 0 then .error bad
      else
        let bank := t.body.kind == .nativeD && !isL t.core
        match stage5Fail bank i p with
        | some j => .error [w0.toNat, if p.rep.isSome then j else 0xFFFFFFFF]
        | none => .ok i

/-- The address breakpoint that matches, if any (R288). -/
def breakAt (s : State) (t : Team) (p : Split) : Option Nat :=
  if p.lvl != 0 || p.bpSkip then none
  else
    let a := t.addrOf p.pc
    (List.range 4).find? fun n =>
      let b := atD (s.coreOf t.core).bps n 0
      b.getLsbD 0 && b.toNat / 4 == a.toNat / 4

/-- A word of the running body as it is fetched; where a change has left a choice, the next fetch chooses anew (R80, log entry 5).
A line of host memory that it reads is held (R44). -/
def fetchWord (s : State) (t : Team) (i : Nat) : Except TFault (Word × State) :=
  match codeWord s t i with
  | .error e => .error e
  | .ok w =>
    let va := t.body.base + 4 * i
    if (s.transOf t).isSome then .ok (w, s)
    else
      let s := match translate s t.core (s.pidOf t) t.wg (s.ptbaseOf t) va 3 with
        | .ok tr => s.holdLocs [(tr.loc, 4)]
        | .error _ => s
      .ok (w, if (codeChoices s t va w).length ≤ 1 then s else { s with fresh := s.fresh + 1 })

/-- A fetch that does not translate: served, failing the grid, or held until a port of its route is up again (R37, R275). -/
def fetchFault (s : State) (tid : Nat) (t : Team) (p : Split) (e : TFault) (at_ : Nat × Nat) (len : Nat) : Fetched :=
  if e.cause == 0 then .wait
  else if e.served then .out (serveFault s tid t p at_.1 at_.2 e.cause 0)
  else .out (raise s tid t p e.cause [at_.1] p.mask len)

/-- The words and the mark of the instruction at a split, or the fault of reading them: its first word, the word after it for
an extension and after a REPEAT, and in a portable body the bitmap's mark of that word (R133). -/
def readInstr (s : State) (t : Team) (pc : Nat) : Except (TFault × Nat × Nat) (Word × Option Word × Option Bool × State) :=
  match fetchWord s t pc with
  | .error e => .error (e, (t.addrOf pc).toNat, 3)
  | .ok (w0, s) =>
    let more := decide (pc + 1 < t.body.len) && !isHeader w0 && opAssigned (opOf w0)
    match (if more && (xOf w0 || opOf w0 == 5) then (fetchWord s t (pc + 1)).map fun x => (some x.1, x.2) else .ok (none, s)) with
    | .error e => .error (e, (t.addrOf (pc + 1)).toNat, 3)
    | .ok (next, s) =>
      match (if t.body.kind.native || !more then .ok none else (startBit s t (pc + 1)).map some) with
      | .error e => .error (e, targetVa s t (pc + 1))
      | .ok mark => .ok (w0, next, mark, s)

/-- Fetch the instruction at a split that stands in a slot, or anywhere in a portable body. -/
def fetchSlot (s : State) (tid : Nat) (t : Team) (p : Split) : Fetched :=
  if t.body.len ≤ p.pc then .out (raise s tid t p cIllegal [0, 0xFFFFFFFF] p.mask 0)
  else match breakAt s t p with
  | some n => .out (raise s tid t p cBreak [n + 1] p.mask 0)
  | none =>
    match readInstr s t p.pc with
    | .error (e, at_) => fetchFault s tid t p e at_ 0
    | .ok (w0, next, mark, s) =>
      let len := if xOf w0 then 2 else 1
      let bad : Except (List Nat) Instr := .error [w0.toNat, 0xFFFFFFFF]
      match (if isHeader w0 || !opAssigned (opOf w0) then bad else checkInstr t p w0 next mark) with
      | .error info => .out (raise s tid t p cIllegal info p.mask len)
      | .ok i => if operandsFree s t p (form i) then .run i s else .wait

/-- The target a split checks when it first issues (R286): the split there, or the state after its trap. -/
def checkGoal (s : State) (tid : Nat) (t : Team) (p : Split) : Except Fetched Split :=
  match p.goal with
  | none => .ok p
  | some g =>
    match g.idx with
    | none => .error (.out (raise s tid t p cBranch [g.addr.toNat] p.mask g.len))
    | some i =>
      match targetOk s t i with
      | .ok true => .ok (jumpSplit i p)
      | .ok false => .error (.out (raise s tid t p cBranch [g.addr.toNat] p.mask g.len))
      | .error e => .error (fetchFault s tid t p e (targetVa s t i) g.len)

/-- The read that holds the next fetch of a split (R37, R61): its target's check, its word, or the mark that follows. -/
def fetchHeld (s : State) (t : Team) (p : Split) : Option (Nat × Nat) :=
  let held := fun (e : TFault) (at_ : Nat × Nat) => if e.cause == 0 then some at_ else none
  match p.goal.bind (·.idx) with
  | some i => (match targetOk s t i with | .error e => held e (targetVa s t i) | .ok _ => none)
  | none => (match readInstr s t p.pc with | .error (e, at_) => held e at_ | .ok _ => none)

/-- The instructions of a clause of n slots as their words stand, in all the repetitions of a REPEAT before them (R306): up to the
first that cannot be read. -/
def clauseForms (s : State) (t : Team) (rep : Option OpP) : Nat → Nat → List Form
  | 0, _ => []
  | n + 1, pc =>
    match codeWord s t pc with
    | .error _ => []
    | .ok w0 =>
      let next := match codeWord s t (pc + 1) with | .ok x => some x | .error _ => none
      match (if isHeader w0 then none else (decodeWords w0 next).toOption) with
      | some (.repeatN w) => clauseForms s t (some w) n (pc + 1)
      | some i => repeats { id := 0, rep := rep } (form i) ++ clauseForms s t none n (pc + (form i).len)
      | none => []

/-- Is a clause held: one of its instructions reads a uniform register that another split of the team has a write in flight
to (R115)? -/
def clauseHeld (s : State) (t : Team) (p : Split) (n pc : Nat) : Bool :=
  let l := t.flights.flatMap fun g => g.dests.filter fun e => otherWrite p g e && !lodgeApart e.1 e.2.1 g.lvl p.lvl
  !l.isEmpty &&
  let reads := (clauseForms s t none n pc).flatMap Form.sources
  l.any fun e => reads.contains (e.1, e.2.1)

/-- Fetch a split's next instruction: first the clause header, in a native body (R290, R291). -/
def fetchInstr (s : State) (tid sid : Nat) : Fetched :=
  match s.teams.at? tid with
  | none => .wait
  | some t =>
    match t.split? sid with
    | none => .wait
    | some p =>
      if !splitFree s t p then .wait
      else
      let p := { p with park := none }
      let t := t.modSplit sid fun _ => p
      match checkGoal s tid t p with
      | .error x => x
      | .ok p =>
      let t := t.modSplit sid fun _ => p
      let s := s.setTeam tid t
      if !t.body.kind.native || p.clause.isSome then fetchSlot s tid t p
      else
        let ill := fun (w : Nat) => Fetched.out (raise s tid t p cIllegal [w, 0xFFFFFFFF] p.mask 0)
        if t.body.len ≤ p.pc then ill 0
        else match fetchWord s t p.pc with
        | .error e => fetchFault s tid t p e ((t.addrOf p.pc).toNat, 3) 0
        | .ok (h, s) =>
          if !isHeader h then ill h.toNat
          else if bits h 27 24 == 0 || bits h 11 0 != 0 then ill h.toNat
          else if !waitPathOk t h || clauseHeld s t p (bits h 27 24) (p.pc + 1) then .wait
          else
            let c : Clause := { slot := 0, count := bits h 27 24, cls := bits h 23 21, intl := h.getLsbD 12,
                                tail := bits h 16 13 }
            let p := { p with pc := p.pc + 1, clause := some c }
            let t := t.modSplit sid fun _ => p
            fetchSlot (s.setTeam tid t) tid t p

/-! When a split is ready (R101). -/

/-- Pipe cycles of an instruction (R112, R302): one for a uniform or control instruction, none for a prefix. -/
def cyclesOf (f : Form) (p : Split) : Nat :=
  if f.op == 5 then 0 else if f.op ≤ 9 then 1 else (passes p.mask).length * repsOf p

/-- Pipe cycles of an instruction that issues interlocked or not: two at least where it does (R134, R135). -/
def pipeCycles (t : Team) (p : Split) (f : Form) : Nat :=
  let k := cyclesOf f p
  if interlocked t p && k != 0 then Nat.max 2 k else k

/-- The cycle at which an instruction has its first pass: the split's next, and interlocked not before the registers it reads
are written (R134, R302). -/
def firstPass (s : State) (t : Team) (p : Split) (f : Form) : Nat :=
  if !interlocked t p then p.cycle
  else (t.hazards.filter fun h => h.split == p.id && (readRegs s t p f).contains (h.kind, h.reg)).foldl
    (fun m h => Nat.max m h.ready) p.cycle

/-- Does the team run in interlocked mode, in which STALL and TAIL are ignored (R135)? -/
def interlockedMode (t : Team) : Bool := t.forced || t.mode.getLsbD 0

/-- The cycles that pass after an instruction's last one before its split issues again: STALL, and after the last slot of a clause its
TAIL (R291, R302). -/
def gapOf (t : Team) (p : Split) (f : Form) : Nat :=
  let last : Bool := match p.clause with | some c => c.count ≤ c.slot + 1 | none => false
  let lock := interlocked t p
  if interlockedMode t then 0
  else (match p.clause with | some c => if last then c.tail + (if lock then f.stall else 0) else 0 | none => 0) +
    (if lock then 0 else f.stall)

/-- The core cycle from which a split can issue its next instruction (R101): once TAIL and STALL have elapsed, and interlocked its
operands are there; none while anything else holds it. -/
def readyAt (s : State) (tid sid : Nat) : Option Nat :=
  match fetchInstr s tid sid with
  | .wait => none
  | .out _ => ((s.teams.at? tid).bind fun t => t.split? sid).map (·.cycle)
  | .run i s' => ((s'.teams.at? tid).bind fun t => (t.split? sid).map fun p => firstPass s' t p (form i))

/-- Is a split ready at a cycle of its core (R101)? -/
def readyBy (s : State) (tid sid cycle : Nat) : Bool := (readyAt s tid sid).any (· ≤ cycle)

/-- Is a split ready now: at the cycle of its core's latest issue (R101)? -/
def splitReady (s : State) (tid sid : Nat) : Bool :=
  (s.teams.at? tid).any fun t => readyBy s tid sid (s.coreOf t.core).now

end Sys2Proof.Machine
end

