-- ==== Sys2Proof/Machine/MemEvents.lean ====
section
/-! DEFINITION. Steps of the memory system: SEGREDs that leave (R428), release fences (R185), walks (R176), reservations (R200), and of
the rotation (R104, R121). -/

namespace Sys2Proof.Machine

/-- A step the state does not allow now. -/
def notNow : Out := .fault .notEnabled

/-- The first flight of a path: completions fall in issue order (R195). -/
def firstOf (t : Team) (path : Nat) : Option Flight := t.flights.find? (·.path == path)

/-- Draw k of some places, as a number says. -/
def drawPlaces : Nat → List Nat → Nat → List Nat
  | 0, _, _ => []
  | k + 1, l, n => let i := n % Nat.max 1 l.length; atD l i 0 :: drawPlaces k (l.eraseIdx i) (n / Nat.max 1 l.length)

/-- The quadwords of the header of an expansion region that hold T, the arrival count, and the exhaustion and completion masks
(R424, log entry 13). -/
def headerSlots : List Nat := drawPlaces 4 (List.range 8) Config.exHeader

/-- The offset of a header field in a workgroup's scratchpad: 0 T, 1 arrivals, 2 exhaustion, 3 completion. -/
def headerAt (x : Expan) (field : Nat) : Nat := x.region.toNat % 2 ^ 20 + 8 * atD headerSlots field 0

/-- A header field of a team's expansion (R424). -/
def headerField (s : State) (t : Team) (field : Nat) : Nat :=
  leNat (((s.wgOf t).map fun w => w.scr.read (headerAt t.exp field) 8).getD [])

/-- A header field written. -/
def setHeader (s : State) (t : Team) (field v : Nat) : State :=
  writeLoc s none (.scr t.wg (headerAt t.exp field)) (leBytes 8 v)

/-- Are all bits of a completion mask set, and all SEGREDs of an expansion's members applied (R428)? -/
def expansionDone (s : State) (t : Team) (mask : Nat) : Bool :=
  let g := bits t.exp.stat 3 2 + 1
  mask % 2 ^ g == 2 ^ g - 1 &&
  (s.teamsOf t.wg).all fun e => e.2.idx / g != t.idx / g || e.2.flights.all fun f => f.path != 4

def Split.atExdone (p : Split) : Bool := match p.park with | some .exdone => true | _ => false

/-- EXDONEs parked in a workgroup whose expansion is complete go on. -/
def wakeExdone (s : State) (wg : Nat) : State :=
  (s.teamsOf wg).foldl (fun s e =>
    if e.2.splits.any Split.atExdone && expansionDone s e.2 (headerField s e.2 3) then
      s.setTeam e.1 { e.2 with splits := e.2.splits.map fun p => if p.atExdone then { p with park := none } else p }
    else s) s

/-- A SEGRED that is applied leaves the team. -/
def settleSeg (s : State) (tid flight : Nat) : State :=
  match s.teams.at? tid with
  | none => s
  | some t =>
    match t.flights.find? (·.id == flight) with
    | some f =>
      if f.path == 4 && f.runs.all (·.done) then
        settleEnd (wakeExdone (s.setTeam tid { t with flights := t.flights.filter fun g => g.id != flight }) t.wg) tid
      else s
    | none => s

/-- A release fence ends (R185): the split goes on with its instruction. -/
def execReleaseFenceComplete (team split : Nat) (s : State) : Out :=
  match (s.teams.at? team).bind fun t => (t.split? split).map fun p => (t, p) with
  | some (t, p) =>
    match p.park with
    | some (.release scope upTo) =>
      if fenceDone s t scope upTo then
        .next (s.setTeam team (t.modSplit split fun x => { x with park := none, stage := x.stage ||| 1 }))
      else notNow
    | _ => notNow
  | none => notNow

/-- Does a split wait for a walk of this region? -/
def waitsFor (p : Split) (va : Nat) : Bool :=
  match p.park with | some (.walk l) => l.any fun x => x / 65536 == va / 65536 | _ => false

/-- A walk completes (R176): the TLB is filled, or every lane that needs it faults when its instruction goes on. -/
def execWalkComplete (core : CoreId) (ptbase va : Nat) (s : State) : Out :=
  let mine := fun t : Team => t.core.die == core.die && t.core.cluster == core.cluster && s.ptbaseOf t == ptbase
  if !(s.teams.vals.any fun t => mine t && t.splits.any fun p => waitsFor p va) then notNow
  else
    let wake := fun p : Split => match p.park with
      | some (.walk l) =>
        let l' := l.filter fun x => x / 65536 != va / 65536
        if l'.isEmpty then { p with park := none, stage := p.stage ||| 4 } else { p with park := some (.walk l') }
      | _ => p
    let s' := match walk s ptbase va with | .ok w => tlbFill s core ptbase va w | .error _ => s
    .next { s' with teams := s'.teams.map fun e => if mine e.2 then (e.1, { e.2 with splits := e.2.splits.map wake }) else e }

/-- 2 µs on a site's clock since the LDRES: the reservation clears (R200). -/
def execReservationTimeout (team split : Nat) (s : State) : Out :=
  let old := fun r : Option Resv => match r with | some q => !resvLive s q | none => false
  match s.teams.at? team with
  | none => notNow
  | some t =>
    if !((t.splits.any fun p => p.id == split && old p.resv) || t.flights.any fun f => f.split == split && old f.resv) then
      notNow
    else
      let fs := t.flights.map fun f => if f.split == split && old f.resv then { f with resv := none } else f
      .next (s.setTeam team ({ t with flights := fs }.modSplit split fun p =>
        if old p.resv then { p with resv := none } else p))

/-- The rotation's front goes to the back, and the timer restarts (R104). -/
def Team.rotateFront (t : Team) : Team :=
  match t.splits with
  | p :: r => { t with splits := r ++ [p], rotate := false, timer := 0 }
  | [] => t

/-- Does a split stand within a clause that its pipe issues whole (R102)? -/
def holdsPipe (t : Team) (p : Split) : Bool := p.rep.isSome || (p.clause.isSome && p.park.isNone && !interlocked t p)

/-- Does a split stand where the pipe is released (R102), with no reservation that defers the rotation (R104)? -/
def atRelease (s : State) (t : Team) (p : Split) : Bool := !p.holds s && !holdsPipe t p

/-- The fairness timer has reached 2,048 (R104): the front split is to go to the back, which it does at its next pipe release, or later
when its reservation's window ends (rotateAfter). -/
def execFairnessRotate (team : Nat) (s : State) : Out :=
  match s.teams.at? team with
  | none => notNow
  | some t =>
    if t.timer < 2048 || t.rotate || t.splits.length < 2 then notNow else .next (s.setTeam team { t with rotate := true })

/-- A spill of a table entry completes: the split whose action caused it issues again (R121, R178). -/
def execGrottoSpillDone (team split : Nat) (s : State) : Out :=
  match (s.teams.at? team).bind fun t => (t.split? split).map fun p => (t, p) with
  | some (t, p) => if p.grotto then .next (s.setTeam team (t.modSplit split fun x => { x with grotto := false })) else notNow
  | none => notNow

/-- A reload of a spilled entry completes (R121). -/
def execGrottoReloadDone (team split : Nat) (s : State) : Out :=
  match (s.teams.at? team).bind fun t => (t.split? split).map fun p => (t, p) with
  | some (t, p) => if p.grotto then .next (s.setTeam team (t.modSplit split fun x => { x with grotto := false })) else notNow
  | none => notNow

end Sys2Proof.Machine
end

