-- ==== Sys2Proof/Machine/Sync.lean ====
section
/-! DEFINITION. Fences, path waits, barriers, word waits and FIFOs (R382 to R387, R157, R201, R202). -/

namespace Sys2Proof.Machine

/-- The fields of the memory MOD in a format-A word (R301). -/
def OpA.scopeA (w : OpA) : Nat := w.md 9 7
def OpA.ordA (w : OpA) : Nat := w.md 6 5

/-- Past an instruction that orders and accesses nothing: an acquire fence at a scope, for sc of every line (R186, R193,
R194). -/
def Ctx.acquireFence (c : Ctx) (scope len : Nat) (sc : Bool) : Out :=
  let t := (c.doneTeam c.t len).modSplit c.sp.id fun p => { p with park := some (.acquire scope c.s.nextId false sc) }
  .next (settleAcquire (c.put t) c.tid)

/-- FENCE (R193, R383): the release part first, then the acquire; ORD 0 is sc. -/
def execFence (w : OpA) (s : State) : Out :=
  issueA 19 0 (sigFence w) w s fun c =>
    let ord := OpA.ordA w
    let sc := c.scopeOf (OpA.scopeA w)
    c.withRelease (if ord == 0 || ord == 3 then 2 else ord) (OpA.scopeA w) fun c =>
      if ord == 2 then c.done c.t (lenA w) else c.acquireFence sc (lenA w) (ord == 0)

/-- WAITP (R384). -/
def execWaitp (w : OpA) (s : State) : Out :=
  issueA 19 1 (sigWaitp w) w s fun c =>
    let n := (c.rdS w.aN).toNat
    if !c.guarded w || pathCount c.t w.dN ≤ n then c.done c.t (lenA w) else c.park (.waitp w.dN n)

/-! Barriers. -/

/-- The scope of a barrier instruction: 0 is read as wg (R385). -/
def barScope (w : OpA) : Nat := if OpA.scopeA w == 0 then 1 else OpA.scopeA w

/-- Earlier accesses of the split to a location are performed before it is read or written directly (R183). -/
def performOwn (s : State) (tid : Nat) (p : Split) (loc : Loc) (bytes : Nat) : State :=
  match s.teams.at? tid with
  | none => s
  | some t => t.flights.foldl (fun s f =>
      if f.split == p.id || p.anc.contains f.split then
        settleSeg (performRuns s tid f.id ((List.range f.runs.length).filter fun i =>
          match f.runs[i]? with | some r => !r.done && overlaps r.loc r.bytes loc bytes | none => false)) tid f.id
      else s) s

/-- The barrier word at s[A]: a window address of a scratchpad, 8-byte aligned (R385). -/
def Ctx.barWord (c : Ctx) (va : Nat) : Except Nat Loc :=
  if !vaOk va || !inWindow va then .error cProt
  else match windowLoc c.s c.t.core c.t.wg va with
    | none => .error cProt
    | some l => if va % 8 != 0 then .error cMisal else .ok l

/-- The context after the split's own earlier accesses to a location. -/
def Ctx.settleAt (c : Ctx) (loc : Loc) (bytes : Nat) : Ctx :=
  let s := performOwn (c.put c.t) c.tid c.sp loc bytes
  { c with s := s, t := (s.teams.at? c.tid).getD c.t }

/-- A word at its site. -/
def Ctx.wordAt (c : Ctx) (loc : Loc) (bytes : Nat) : Nat :=
  leNat (readLoc c.s c.t.core (c.s.pidOf c.t) loc bytes true false).1

/-- The state after a read at a site: the core's copies of the line take what it returned (R183). -/
def siteSeen (s : State) (core : CoreId) (pid : Nat) (loc : Loc) (bytes : Nat) : State :=
  (readLoc s core pid loc bytes true false).2
def Ctx.seen (c : Ctx) (loc : Loc) (bytes : Nat) : Ctx :=
  { c with s := siteSeen c.s c.t.core (c.s.pidOf c.t) loc bytes }

/-- Write a word at its site. -/
def Ctx.setWord (c : Ctx) (loc : Loc) (bytes v : Nat) : Ctx :=
  let s := writeLoc (c.put c.t) (some c.t.core) loc (leBytes bytes v)
  { c with s := s, t := (s.teams.at? c.tid).getD c.t }

/-- Run a barrier instruction on its word, if the guard is true in a lane; its ordering is performed regardless. -/
def Ctx.atBarrier (c : Ctx) (w : OpA) (skip : Ctx → Out) (k : Ctx → Loc → Out) : Out :=
  if !c.guarded w then skip c
  else
    let va := (c.rdS w.aN).toNat
    match c.barWord va with
    | .error e => c.trapLanes c.t e [va] (c.writing w.gN w.gnB) (lenA w)
    | .ok loc => if rereadHeld c.s c.t.core [(loc, 8)] then c.hold va 0 else k (c.settleAt loc 8) loc

/-- BARINIT's word (R201, R385): EXPECT, ARRIVED 0, GEN kept, DROP 0. -/
def barInitWord (old expect : Nat) : Nat := expect % 65536 + nbits old 47 32 * 2 ^ 32

def execBarinit (w : OpA) (s : State) : Out :=
  issueA 19 2 (sigBarinit w) w s fun c =>
    c.withRelease (OpA.ordA w) (barScope w) fun c =>
      c.atBarrier w (fun c => c.done c.t (lenA w)) fun c loc =>
        let c := c.setWord loc 8 (barInitWord (c.wordAt loc 8) (c.rdS ((sigBarinit w).bOf w)).toNat)
        c.done c.t (lenA w)

/-- The update of an arrival (R201): reserved bits of the word stay as they are. -/
def barArrive (x : Nat) : Nat :=
  let expect := nbits x 15 0
  let arrived := (nbits x 31 16 + 1) % 65536
  let gen := nbits x 47 32
  if expect == 0 then x ||| 2 ^ 48
  else if arrived == expect then x - nbits x 47 16 * 2 ^ 16 + (gen + 1) % 65536 * 2 ^ 32
  else x - nbits x 31 16 * 2 ^ 16 + arrived * 2 ^ 16

def execBararr (w : OpA) (s : State) : Out :=
  issueA 19 3 (sigBararr w) w s fun c =>
    c.withRelease 2 (barScope w) fun c =>
      c.atBarrier w (fun c => c.done c.t (lenA w)) fun c loc =>
        let x := c.wordAt loc 8
        let c := c.setWord loc 8 (barArrive x)
        c.done (c.t.wrS c.sp.lvl w.dN (BitVec.ofNat 64 (nbits x 47 32))) (lenA w)

/-- Go on past a wait, with its acquire (R186). -/
def Ctx.passWait (c : Ctx) (len : Nat) (acq : Option Nat) : Out :=
  match acq with
  | none => c.done c.t len
  | some sc => .next (acquireInval (c.put (c.doneTeam c.t len)) c.t.core (c.scopeOf sc) false)

/-- Park every split of the team until GEN differs from `gen`, or go on with the acquire. -/
def Ctx.barWaitFor (c : Ctx) (w : OpA) (loc : Loc) (gen : Nat) : Out :=
  if nbits (c.wordAt loc 8) 47 32 != gen then c.passWait (lenA w) (some (barScope w))
  else
    let t := c.t.modSplit c.sp.id fun x => { x with park := some (.barrier loc gen (lenA w) (c.scopeOf (barScope w))) }
    .next (match loc with | .scr _ _ => parkTest (c.put t) c.t | _ => c.put t)

def execBarwait (w : OpA) (s : State) : Out :=
  issueA 19 4 (sigBarwait w) w s fun c =>
    c.atBarrier w (fun c => c.acquireFence (c.scopeOf (barScope w)) (lenA w) false) fun c loc =>
      c.barWaitFor w loc ((c.rdS ((sigBarwait w).bOf w)).toNat % 65536)

/-- BARSYNC (R385): an arrival, then the wait against the generation found. -/
def execBarsync (w : OpA) (s : State) : Out :=
  issueA 19 5 (sigBarsync w) w s fun c =>
    c.withRelease 2 (barScope w) fun c =>
      c.atBarrier w (fun c => c.acquireFence (c.scopeOf (barScope w)) (lenA w) false) fun c loc =>
        let x := c.wordAt loc 8
        let c := c.setWord loc 8 (barArrive x)
        c.barWaitFor w loc (nbits x 47 32)

/-! WAITW (R386). -/

/-- The condition on a word, as unsigned numbers, the word on the left. -/
def waitCond (cond x v : Nat) : Bool := condInt cond x v

def execWaitw (w : OpA) (s : State) : Out :=
  issueA 19 6 (sigWaitw w) w s fun c =>
    let acq := if OpA.ordA w == 1 then some (OpA.scopeA w) else none
    match c.lanes (c.writing w.gN w.gnB) with
    | [] => (match acq with
      | some sc => c.acquireFence (c.scopeOf sc) (lenA w) false
      | none => c.done c.t (lenA w))
    | l :: _ =>
      let size := if w.md 4 2 == 4 then 4 else 8
      let va := (c.rdS w.aN).toNat
      match c.misses [(l, va)] with
      | v :: vs => c.park (.walk (v :: vs))
      | [] =>
        let m := c.mapLanes size 0 (fun _ => true) [(l, va)]
        match m.ok with
        | [] => c.endAccess m 0 (lenA w) none false
        | (_, _, tr) :: _ =>
          if remoteLoc c.s tr.loc then c.trapLanes c.t cProt [va] (laneMask [l]) (lenA w)
          else if deadLoc c.s tr.loc then c.trap cData [4, va] (lenA w)
          else if rereadHeld c.s c.t.core [(tr.loc, size)] then c.hold va 0
          else
            let c := c.settleAt tr.loc size
            let v := (c.rdS ((sigWaitw w).bOf w)).toNat % 2 ^ (8 * size)
            let cond := (sigWaitw w).cOf w
            if waitCond cond (c.wordAt tr.loc size) v then (c.seen tr.loc size).passWait (lenA w) acq
            else c.park (.waitw tr.loc size cond v (lenA w) (acq.map c.scopeOf))

/-- A watched word's re-read makes the condition true (R202): the split, or the team, goes on with its acquire. Behind an expander
that does not respond it fails (R48), and it waits while its data are read again (R61). -/
def execMonitorWake (team split : Nat) (s : State) : Out :=
  match (s.teams.at? team).bind fun t => (t.split? split).map fun p => (t, p) with
  | none => notNow
  | some (t, p) =>
    let word := fun (loc : Loc) (n : Nat) => leNat (readLoc s t.core (s.pidOf t) loc n true false).1
    let goOn := fun (loc : Loc) (n len : Nat) =>
      (siteSeen s t.core (s.pidOf t) loc n).setTeam team (t.modSplit split fun x =>
        nextSplit len (countIssue 1 { x with park := none }))
    match p.park with
    | some (.waitw loc n cond val len acq) =>
      if deadLoc s loc then .next (dataError s team (fun _ => false) 4 0 (some p))
      else if rereadHeld s t.core [(loc, n)] then notNow
      else if waitCond cond (word loc n) val then
        .next (match acq with | some sc => acquireInval (goOn loc n len) t.core sc false | none => goOn loc n len)
      else notNow
    | some (.barrier loc gen len scope) =>
      if !rereadHeld s t.core [(loc, 8)] && nbits (word loc 8) 47 32 != gen then .next (acquireInval (goOn loc 8 len) t.core scope false) else notNow
    | _ => notNow

/-! FIFOs (R157, R387). -/

/-- A FIFO's entries, oldest first. -/
def fifoOf (s : State) (w block : Nat) : List Nat := (((s.wgs.at? w).bind fun x => x.fifos.at? block)).getD []
def setFifo (s : State) (w block : Nat) (l : List Nat) : State :=
  s.modWg w fun x => { x with fifos := x.fifos.insert block l }

/-- Is another split of the workgroup parked on the FIFO in the same direction before `order`? -/
def fifoAhead (s : State) (w block order : Nat) (push : Bool) : Bool :=
  (s.teamsOf w).any fun e => e.2.splits.any fun p => match p.park with
    | some (.fifo q b o _ _ _ _ _) => q == push && b == block && o < order
    | _ => false

/-- A FIFO block by its index (R387). -/
def Ctx.fifoBlock (c : Ctx) (x : Quad) : Option Nat :=
  let b := bits x 5 0
  if bits x 63 6 != 0 then none
  else match (c.s.wgOf c.t).bind fun w => w.blocks[b]? with
    | some .fifo => some b
    | _ => none

/-- Does a transfer of n entries go now: there is room, or are entries, and the block is not being read again (R61)? -/
def fifoRoom (s : State) (w block n : Nat) (push : Bool) : Bool :=
  let k := (fifoOf s w block).length
  (if push then decide (k + n ≤ 256) else decide (n ≤ k)) &&
  !s.dev.rereads.any fun p => placeHit p [(.scr w (block * 32768), 32768)]

/-- Move the entries of one QPUSH or QPOP, the split going on (R157, R387): with no writing lane its acquire is the fence of its scope
(R194). -/
def fifoMove (s : State) (tid : Nat) (t : Team) (p : Split) (push : Bool) (block : Nat) (entries : List Nat) (lanes : Mask)
    (reg len : Nat) (acq : Option Nat) : State :=
  let w := t.wg
  let q := fifoOf s w block
  let step := fun (t : Team) => t.modSplit p.id fun x => nextSplit len (countIssue 1 { x with park := none })
  if push then (setFifo s w block (q ++ entries)).setTeam tid (step t)
  else
    let ps := passes p.mask
    let got := q.take ps.length
    let accs := (ps.zip got).flatMap fun e => (List.range 32).filterMap fun b =>
      let l := 32 * e.1 + b
      if lanes.getLsbD l then some ({ lane := l, reg := reg, data := 0, old := e.2 / 2 ^ (32 * b) % 2 ^ 32 } : LaneAcc)
      else none
    let f : Flight := { id := s.nextId, split := p.id, path := 0, kind := .fifo, lvl := p.lvl, since := s.clocks, pc := p.pc,
                        slot := (p.clause.map (·.slot)).getD 0,
                        runs := [{ loc := .scr w 0, bytes := 0, accs := accs, done := true }] }
    let t := step { t with flights := t.flights ++ [f] }
    let t := match acq with
      | some sc => t.modSplit p.id fun x => { x with park := some (.acquire sc (s.nextId + 1) (lanes != 0) false) }
      | none => t
    { (setFifo s w block (q.drop ps.length)).setTeam tid t with nextId := s.nextId + 1 }

/-- QPUSH and QPOP at issue: move, or park behind those that wait. -/
def Ctx.fifo (c : Ctx) (w : OpA) (push : Bool) (entries : List Nat) (reg : Nat) (acq : Option Nat) : Out :=
  match c.fifoBlock (c.rdS w.aN) with
  | none => c.trap cProt [(c.rdS w.aN).toNat] (lenA w)
  | some b =>
    let n := (passes c.sp.mask).length
    let lanes := c.writing w.gN w.gnB
    if fifoRoom c.s c.t.wg b n push && !fifoAhead c.s c.t.wg b c.s.nextId push then
      .next (fifoMove (c.put c.t) c.tid c.t c.sp push b entries lanes reg (lenA w) acq)
    else
      { c with s := { c.s with nextId := c.s.nextId + 1 } }.park
        (.fifo push b c.s.nextId entries lanes reg (lenA w) acq)

def execQpush (w : OpA) (s : State) : Out :=
  issueA 19 7 (sigQpush w) w s fun c =>
    c.withRelease (OpA.ordA w) (OpA.scopeA w) fun c =>
      let lanes := c.writing w.gN w.gnB
      let entries := (passes c.sp.mask).map fun i => (List.range 32).foldl (fun x b =>
        let l := 32 * i + b
        if lanes.getLsbD l then x + (c.rdV ((sigQpush w).bOf w) l).toNat * 2 ^ (32 * b) else x) 0
      c.fifo w true entries 0 none

def execQpop (w : OpA) (s : State) : Out :=
  issueA 19 8 (sigQpop w) w s fun c =>
    c.fifo w false [] w.dN (if OpA.ordA w == 1 then some (c.scopeOf (OpA.scopeA w)) else none)

/-- Room or entries appear: the oldest parked QPUSH or QPOP of a direction moves all its entries (R157). -/
def execFifoServe (wg block : Nat) (s : State) : Out :=
  let parked := (s.teamsOf wg).flatMap fun e => e.2.splits.filterMap fun p => match p.park with
    | some (.fifo q b o en l r n a) => if b == block then some (e.1, e.2, p, q, o, (en, l, r, n, a)) else none
    | _ => none
  match parked.find? fun x =>
      fifoRoom s wg block (passes x.2.2.1.mask).length x.2.2.2.1 && !fifoAhead s wg block x.2.2.2.2.1 x.2.2.2.1 with
  | some (tid, t, p, q, _, (en, l, r, n, a)) => .next (fifoMove s tid t p q block en l r n a)
  | none => notNow

end Sys2Proof.Machine
end

