-- ==== Sys2Proof/Machine/Tile.lean ====
section
/-! DEFINITION. LDT and STT (R375): elements moved between a memory operand and the registers that a register layout
names (R207 to R209, R220, R226). -/

namespace Sys2Proof.Machine

/-- An element of an LDT or STT: its lane, register, slot, and place in storage. -/
structure TElem where
  idx   : Nat
  lane  : Nat
  reg   : Nat
  slot  : Nat
  place : Place
  deriving DecidableEq, Repr

/-- The space that a handle's kind reaches (R211). -/
def kindReaches (s : State) (kind : Nat) : Loc → Bool
  | .mem pa =>
    if isLocal s pa then
      (match spaceOf s (localOf pa) with
       | .near _ => kind == 3 || kind == 4
       | .far => kind == 5
       | .host => kind == 6
       | .unmapped => false)
    else if localOf pa < 0x0080_0000_0000 then kind == 3 || kind == 4 else kind == 5
  | .scr _ _ => kind == 1 || kind == 2
  | .treg _ _ => kind == 0

/-- Bytes of TREG that a workgroup holds (R69). -/
def tregBytes (s : State) (wg : Nat) : Nat :=
  (((s.wgs.at? wg).bind fun w => s.gridOf w.grid).map fun g => lrTreg g.lrec).getD 0

/-- One of the registers that a register layout reaches from vd, outside the allocation (R209, R126). -/
def Ctx.regOutside (c : Ctx) (d : Nat) (l : Lay) : Option Nat :=
  let b := l.bounds 2
  if (d : Int) + b.1 < 0 then some (ofInt 8 (d + b.1)).toNat
  else
    let lo := ((d : Int) + b.1).toNat
    ((List.range (Nat.min 257 (b.2 - b.1 + 1).toNat)).findSome? fun k =>
      Fld.outside .v c.t.regs 0 0 (c.sp.lvl != 0) (lo + k)).map (· % 256)

/-- The elements of the lanes that move. -/
def tileElems (m : Mask) (d : Nat) (h : Hdl) (l r : Lay) : List TElem :=
  (List.range r.size).filterMap fun i =>
    let o := r.eval i
    if m.getLsbD o.lane.toNat then
      some { idx := i, lane := o.lane.toNat, reg := ((d : Int) + o.reg).toNat, slot := o.elem.toNat, place := locate h l i }
    else none

/-- The degree of the first pass of LDT and STT (R226). -/
def Ctx.tileDegree (c : Ctx) (m : Mask) (h : Hdl) (l r : Lay) : Nat :=
  let k := ((passes c.sp.mask)[0]?).getD 0
  let lo := (r.bounds 2).1
  degreeAt h l ((List.range r.size).filter fun i =>
    let o := r.eval i
    decide (0 ≤ o.lane) && o.lane.toNat / 32 == k && m.getLsbD o.lane.toNat && o.reg == lo)

/-- The registers that the register layout of an LDT or STT reaches, at stage 7 (R209, R315). -/
def Ctx.tileRange (c : Ctx) (w : OpM) : Option Nat := c.regOutside w.dN (c.imaged 0 0 w.sbN).2.2.2

/-- The checks of LDT and STT at stage 9, after HANDLE_UNREACHABLE (R220, R209, R375). -/
def Ctx.tileCheck (c : Ctx) (w : OpM) (h : Hdl) (l r : Lay) : Option TrapWhy :=
  match (rejectKind 4 h l).or (rejectBounds h l) with
  | some x => some (rejected 4 0 x (tileL w.a.toNat) (some (tileH w.a.toNat)))
  | none =>
    match rejectReg c.t r with
    | some x => some (rejected 4 1 x w.sbN none)
    | none =>
      if l.size != r.size then some (rejected 4 1 6 w.sbN none)
      else if l.fmt != r.fmt then some (cFormat, [0x101, w.sbN, 0xFFFFFFFF])
      else if l.scaled then some (cFormat, [0x500, tileL w.a.toNat, tileH w.a.toNat])
      else none

/-- The check of one element in the order of R463. -/
def Ctx.checkElem (c : Ctx) (size access : Nat) (h : Hdl) (e : TElem) : Except (Bool × Nat) Tran :=
  match e.place with
  | .out _ => .error (false, cProt)
  | .treg b => if b + size ≤ tregBytes c.s c.t.wg then .ok ⟨.treg c.t.wg b, false⟩ else .error (false, cProt)
  | .va a => c.checkVa size access (kindReaches c.s h.kind) a

/-- Map the elements of the lanes that move; a lane with a fault moves none. -/
def Ctx.mapTile (c : Ctx) (size access : Nat) (h : Hdl) (l : List TElem) : List (TElem × Tran) × Mapped :=
  let r := l.map fun e => (e, c.checkElem size access h e)
  let pick := fun b : Bool => r.filterMap fun e =>
    match e.2 with | .error (x, k) => if x == b then some (e.1.lane, e.1.place.addr, k) else none | _ => none
  let bad := pick false
  let served := pick true
  let out := (bad ++ served).map (·.1)
  (r.filterMap fun e => match e.2 with
    | .ok t => if out.contains e.1.lane then none else some (e.1, t)
    | _ => none, { bad := bad, served := served })

/-- LDT and STT up to their accesses, of elements of a width; a rejected operand leaves LSTAT as LCHECK would (R226). Where the
register layout is rejected or the sizes differ, DEGREE is that of the first pass over the register layout's indices, past the memory
layout's size where that is smaller (log entry 71). -/
def Ctx.tile (c : Ctx) (w : OpM) (access : Nat) (k : Ctx → Nat → List (TElem × Tran) → Mapped → Out) : Out :=
  let hn := tileH w.a.toNat
  let (c, h, l, r) := c.imaged hn (tileL w.a.toNat) w.sbN
  if h.kind == 0 && c.s.migrated c.t then c.trap cHandle [hn] 2
  else
    let m := c.writingM w
    let deg := if ((rejectKind 4 h l).or (rejectBounds h l)).isSome then firstDegree h l else c.tileDegree m h l r
    let c := if c.sp.image.isSome then c else { c with t := c.t.setLstat deg 0 false }
    match c.tileCheck w h l r with
    | some e => c.why e 2
    | none =>
      c.withRelease w.ord w.scope fun c =>
        let es := tileElems m w.dN h l r
        match c.misses (es.filterMap fun e => match e.place with | .va a => some (e.lane, a) | _ => none) with
        | v :: vs => c.park (.walk (v :: vs))
        | [] =>
          let x := c.mapTile l.width access h es
          k c l.width x.1 x.2

def execLdt (w : OpM) (s : State) : Out :=
  issueMR (·.tileRange w) 16 6 (sigLdt w) w s fun c =>
    c.tile w 0 fun c n l m =>
      let c := c.fly { id := 0, split := 0, path := 0, kind := .loadTile n, site := c.atSite w, scope := w.scope,
                       -- lanes in ascending order (R373)
                       runs := (c.lanes c.sp.mask).flatMap fun n' => (l.filter fun e => e.1.lane == n').map fun e =>
                         { loc := e.2.loc, bytes := n, strm := e.2.strm, va := e.1.place.addr,
                           accs := [{ lane := e.1.lane, reg := e.1.reg, data := e.1.slot }] } }
      c.endAccess m 0 2 (c.acqOf w) l.isEmpty

def execStt (w : OpM) (s : State) : Out :=
  issueMR (·.tileRange w) 17 4 (sigStt w) w s fun c =>
    c.afterEarly (regsFrom w.dN (c.imaged 0 0 w.sbN).2.2.2) 2 fun c =>
    c.tile w 1 fun c n l m =>
      let val := fun e : TElem => (c.rdV e.reg e.lane).toNat / 2 ^ (8 * n * e.slot) % 2 ^ (8 * n)
      let c := c.fly { id := 0, split := 0, path := 1, kind := .store, scope := w.scope,
                       -- elements in ascending order: where two reach one byte the higher index remains (R208)
                       runs := l.map fun e => { loc := e.2.loc, bytes := n, strm := e.2.strm, va := e.1.place.addr,
                                                accs := [{ lane := e.1.lane, reg := 0, data := val e.1 }] } }
      c.endAccess m 1 2 none false

end Sys2Proof.Machine
end

