-- ==== Sys2Proof/Machine/Engine.lean ====
section
/-! DEFINITION. The copy engines and the drain path (R196, R219, R237 to R239, R276, R394 to R400, R414, R415): their
instructions COPY, TLWAIT and TLREAD, and the steps that start, advance and complete an operation; BANKCFG (R154, R155,
R401). -/

namespace Sys2Proof.Machine

/-! Contexts. -/

/-- The operations of a context, in number order. -/
def Team.ops (t : Team) (c : Nat) : List EngOp := atD t.eng c []
def Team.setOps (t : Team) (c : Nat) (l : List EngOp) : Team := { t with eng := setAt t.eng c l }
/-- Replace the operation in progress of a context. -/
def Team.setHead (t : Team) (c : Nat) (o : EngOp) : Team := t.setOps c (o :: (t.ops c).drop 1)
def State.setHead (s : State) (tid c : Nat) (o : EngOp) : State := s.modTeam tid fun t => t.setHead c o

/-- Does an operation belong to a copy engine, and not to the drain path? -/
def EngKind.copies : EngKind → Bool | .copy => true | .exsave _ _ _ => true | _ => false
def EngKind.adds : EngKind → Bool | .drain b => b | .mdrain b => b | _ => false

/-- May a context advance: PREEMPT stops the team's contexts at a chunk (R279), a fault its own (R276)? -/
def engineFree (t : Team) (c : Nat) (o : EngOp) : Bool :=
  o.snapped && !o.fault && !o.dead && (c == 4 || t.kframe.isNone)

/-! Accesses of an engine. -/

/-- A fault of an access: its cause, whether the fault queue serves it, the address. Cause 0 is an access held until a port
of its route is up again (R37): it faults nothing, and its step waits. -/
structure EFault where
  cause  : Nat
  served : Bool
  addr   : Nat
  deriving DecidableEq, Repr

/-- A location for an access of an engine at an address (R148, R174); one that the fabric, the host's copy of its line or a second
read of its data holds waits (R37, R61, R190). -/
def engineTran (s : State) (t : Team) (access va : Nat) : Except EFault Loc :=
  match translate s t.core (s.pidOf t) t.wg (s.ptbaseOf t) va access with
  | .error e => .error ⟨e.cause, e.served, va⟩
  | .ok ⟨.mem pa, _⟩ =>
      if (if isLocal s pa then access != 0 && hostMayHold s pa 1 else !routeCarries s (pkgOf pa)) then .error ⟨0, false, va⟩
      else if expanderDown s pa then .error ⟨cData, false, va⟩
      else if rereadHeld s t.core [(.mem pa, 1)] then .error ⟨0, false, va⟩ else .ok (.mem pa)
  | .ok tr => if rereadHeld s t.core [(tr.loc, 1)] then .error ⟨0, false, va⟩ else .ok tr.loc

/-- The same for a handle's kind, which must reach the space (R211): served where the space is found from a physical address
(R275), else the operation's inner cause (R397). -/
def engineVa (s : State) (t : Team) (kind access va : Nat) : Except EFault Loc :=
  match engineTran s t access va with
  | .error e => .error e
  | .ok l => if kindReaches s kind l then .ok l else .error ⟨cProt, l.isMem, va⟩

/-- The locations of `size` bytes from an address: one where it is aligned, else each byte its own. -/
def engineBytes (s : State) (t : Team) (kind access size va : Nat) : Except EFault (List (Loc × Nat)) :=
  if va % size == 0 then (engineVa s t kind access va).map fun l => [(l, size)]
  else (List.range size).foldl (fun r i =>
    match r, engineVa s t kind access ((va + i) % 2 ^ 64) with
    | .ok l, .ok x => .ok (l ++ [(x, 1)])
    | .error e, _ => .error e
    | _, .error e => .error e) (.ok [])

/-- The locations of an element of an operand (R207). -/
def enginePlace (s : State) (t : Team) (h : Hdl) (access size : Nat) (p : Place) : Except EFault (List (Loc × Nat)) :=
  match p with
  | .out a => .error ⟨cProt, false, a⟩
  | .treg b => if b + size ≤ tregBytes s t.wg then .ok [(.treg t.wg b, size)] else .error ⟨cProt, false, b⟩
  | .va a => engineBytes s t h.kind access size a

/-- Bytes at their site, without any L1 (R196, R404). -/
def siteRead (s : State) (l : List (Loc × Nat)) : Nat :=
  leNat (l.flatMap fun e => match e.1 with
    | .mem pa => s.rdMem pa e.2
    | .scr w o => ((s.wgs.at? w).map fun x => x.scr.read o e.2).getD []
    | .treg w o => ((s.wgs.at? w).map fun x => x.treg.read o e.2).getD [])

/-- What an operation's write leaves to wait for (R188, R35). -/
def engineAck (s : State) (tid : Nat) (o : EngOp) (loc : Loc) : State × EngOp :=
  match loc with
  | .mem pa =>
    let o := { o with lines := if o.lines.contains (lineOf pa) then o.lines else lineOf pa :: o.lines }
    if !isLocal s pa then
      let pid := ((s.teams.at? tid).map s.pidOf).getD 0
      let q : FabOut := { team := tid, flight := 0, run := 0, chan := chanOf s pid (pkgOf pa), pkg := pkgOf pa,
                          route := routeOf s (pkgOf pa) }
      ({ s with nextId := s.nextId + 1, fabReqs := s.fabReqs.insert s.nextId q }, { o with reqs := s.nextId :: o.reqs })
    else
      let s := if spaceOf s (localOf pa) == .host then s.holdHost pa 1 else s
      match homeDie s pa with
      | none => (s, o)
      | some d => (s, { o with acks := (d, wctOf s d (lineOf pa)) :: o.acks })
  | _ => (s, o)

/-- A write of an operation at its site. -/
def engineWrite (s : State) (tid : Nat) (o : EngOp) (l : List (Loc × Nat)) (v : Nat) : State × EngOp :=
  let r := l.foldl (fun (x : State × EngOp × Nat) e =>
    let s := writeLoc x.1 none e.1 (leBytes e.2 x.2.2)
    let a := engineAck s tid x.2.1 e.1
    (a.1, a.2, x.2.2 / 2 ^ (8 * e.2))) (s, o, v)
  (r.1, r.2.1)

/-! The elements of an operation. -/

def EngOp.src (o : EngOp) : Hdl × Lay := (Hdl.read o.srcH, Lay.read o.srcL)
def EngOp.dst (o : EngOp) : Hdl × Lay := (Hdl.read o.dstH, Lay.read o.dstL)
def EngOp.round (o : EngOp) : Nat := bits o.fmt 29 28
def EngOp.sat (o : EngOp) : Bool := bits o.fmt 30 30 == 1

/-- Does the destination carry a tile exponent that the operation finds (R239)? -/
def EngOp.quant (o : EngOp) : Bool := (match o.kind with | .exsave _ _ _ => false | _ => true) && o.dst.2.scaled
/-- Are bits moved unchanged (R207, R396)? -/
def EngOp.moves (o : EngOp) : Bool :=
  o.kind == .copy && o.src.2.fmt == o.dst.2.fmt && !o.src.2.scaled && !o.dst.2.scaled

/-- The handle of a plane of an operand: the variance plane lies SCALEOFF further (R413, R420). -/
def planeHdl (h : Hdl) (plane : Nat) : Hdl := if plane == 0 then h else { h with base := wrap64 (h.base + h.scale) }

/-- The order of the elements of a moment operand: by index, the mean before the variance. -/
def elemKey (e : Nat × Nat) : Nat := 2 * e.2 + e.1

/-- Insert by a key, behind what has the same. -/
def insertBy {α : Type} (key : α → Nat) (x : α) : List α → List α
  | [] => [x]
  | y :: r => if key x < key y then x :: y :: r else y :: insertBy key x r

/-- The chunks of two planes (R276): a line that both reach is one chunk, whose elements come in index order (R208). -/
def mergeChunks (a b : List (Nat × List (Nat × Nat))) : List (Nat × List (Nat × Nat)) :=
  let merged := b.foldl (fun l c => if l.any fun x => x.1 == c.1 then
      l.map fun x => if x.1 == c.1 then (x.1, c.2.foldl (fun r e => insertBy elemKey e r) x.2) else x
    else l ++ [c]) a
  merged.foldl (fun r c => insertBy (fun x => elemKey (atD x.2 0 (0, 0))) c r) []

/-- The chunks of an operation (R276): a destination line, and the elements that it receives, by plane and index. -/
def EngOp.chunks (o : EngOp) : List (Nat × List (Nat × Nat)) :=
  let (h, l) := o.dst
  let plane := fun (p : Nat) => (chunksOf (planeHdl h p) l).map fun c => (c.1, c.2.map fun i => (p, i))
  match o.kind with
  | .exsave a img reg =>
    let n := img.length + (match reg with | some r => r.2 | none => 0)
    (List.range (ceilDiv (a % 128 + n) 128)).map fun k =>
      (a / 128 + k, (((List.range 16).map fun i => k * 16 + i).filter fun i =>
        a % 128 ≤ 8 * i && 8 * i < a % 128 + n).map fun i => (0, i))
  | .mdrain _ => mergeChunks (plane 0) (plane 1)
  | _ => plane 0

/-- The code and the exact value of a source element (R234, R238). -/
def EngOp.elem (o : EngOp) (s : State) (t : Team) (plane i : Nat) : Except EFault (Nat × FV) :=
  match o.kind with
  | .copy =>
    let (h, l) := o.src
    (enginePlace s t h 0 l.width (locate h l i)).map fun ps =>
      let x := siteRead s ps
      (x, scaleF (match fmtOf l.fmt with | some f => decodeF f x | none => .nan false) (o.sexp.getD 0))
  | _ =>
    let x := (o.tile.get (4096 * plane + i)).toNat
    .ok (x, decodeF fmtF32 x)

/-- The code that a destination element receives, and the flags (R396, R414, R415); `old` is what it held. -/
def EngOp.conv (o : EngOp) (x : Nat × FV) (old : Nat) : Nat × Nat :=
  let f := (fmtOf o.dst.2.fmt).getD fmtF32
  if o.moves then (x.1, 0)
  else if o.kind.adds then
    let a := addF (decodeF f old) x.2 o.round
    let r := roundTo f (match a.1 with | .nan _ => .nan false | v => v) o.round o.sat
    (r.1, a.2 ||| r.2)
  else roundTo f (scaleF x.2 (-(o.expo.getD 0))) o.round o.sat

/-- s of R239 for a list of values. -/
def tileExp (f : Fmt) (l : List FV) : Int :=
  let amax := l.foldl (fun m v => match v with
    | .fin _ _ _ _ => if cmpF m v.abs < 0 then v.abs else m
    | _ => m) (.fin false 0 0 false)
  (((List.range 255).map fun k : Nat => (k : Int) - 127).find? fun k : Int => cmpF amax (scaleF (decodeF f f.maxc) k) ≤ 0).getD 127

/-- The place of an operand's scale word (R237). -/
def scalePlace (h : Hdl) : Except EFault Place :=
  let x := wrap64 (h.base + h.scale)
  if x % 4 != 0 then .error ⟨cMisal, false, x⟩ else .ok (if h.kind == 0 then .treg x else .va x)

/-- Read a scale word (R238): the exponent. -/
def readScale (s : State) (t : Team) (h : Hdl) (l : Lay) : Except EFault Int :=
  match scalePlace h with
  | .error e => .error e
  | .ok p =>
    match enginePlace s t h 0 4 p with
    | .error e => .error e
    | .ok ps =>
      let w := siteRead s ps
      let e := signedN 8 w
      if e == -128 || nbits w 13 8 != l.fmt || nbits w 31 14 != 0 then .error ⟨cFormat, false, p.addr⟩ else .ok e

/-- All results, or the first fault. -/
def allOk {α β : Type} (f : α → Except EFault β) : List α → Except EFault (List β)
  | [] => .ok []
  | a :: r =>
    match f a with
    | .error e => .error e
    | .ok b => (match allOk f r with | .ok l => .ok (b :: l) | .error e => .error e)

/-- A write of a chunk: where its bytes go, how many bytes of the element lie before the chunk's line, the element. -/
structure ChunkWrite where
  at_  : List (Loc × Nat)
  skip : Nat
  elem : Nat × FV
  deriving DecidableEq, Repr

/-- The bytes of an element that lie in a line, for a write: all of it where the line holds all of it, else each byte its
own (R208, R276). -/
def lineBytes (s : State) (t : Team) (h : Hdl) (access w line : Nat) (p : Place) : Except EFault (List (Loc × Nat) × Nat) :=
  if (p.lines w).length == 1 then (enginePlace s t h access w p).map fun l => (l, 0)
  else
    let ks := (List.range w).filter fun k => (p.byte k).addr / 128 == line
    (allOk (fun k => enginePlace s t h access 1 (p.byte k)) ks).map fun l => (l.flatten, atD ks 0 0)

/-- The elements that a chunk writes: an add applies one that reaches into the next line whole, with the line of its first byte. -/
def EngOp.ownElems (o : EngOp) (c : Nat × List (Nat × Nat)) : List (Nat × Nat) :=
  if o.kind.adds then c.2.filter fun e => (locate (planeHdl o.dst.1 e.1) o.dst.2 e.2).addr / 128 == c.1 else c.2

/-- The writes of a chunk, all read before any is written (R396). -/
def EngOp.chunkWrites (o : EngOp) (s : State) (t : Team) (c : Nat × List (Nat × Nat)) : Except EFault (List ChunkWrite) :=
  match o.kind with
  | .exsave a img reg =>
    allOk (fun e => (engineTran s t 1 ((a / 128 * 128 + 8 * e.2) % 2 ^ 64)).map fun loc =>
      { at_ := [(loc, 8)], skip := 0, elem := (exsaveWord s t a img reg e.2, FV.nan false) }) c.2
  | _ =>
    let l := o.dst.2
    let adds := o.kind.adds
    allOk (fun e =>
      let h := planeHdl o.dst.1 e.1
      let p := locate h l e.2
      match o.elem s t e.1 e.2 with
      | .error x => .error x
      | .ok x =>
        (match (if adds then (enginePlace s t h 2 l.width p).map fun ps => (ps, 0)
                else lineBytes s t h 1 l.width c.1 p) with
         | .error x => .error x
         | .ok (ps, k) =>
           if adds && ps.any (fun p => match p.1 with | .mem pa => !isLocal s pa | _ => false) then
             .error ⟨cAtomic, false, p.addr⟩
           else .ok { at_ := ps, skip := k, elem := x })) (o.ownElems c)
where
  /-- Quadword i of an EXSAVE's lines: the record captured at issue, then the region as it is now (R429). -/
  exsaveWord (s : State) (t : Team) (a : Nat) (img : List Byte) (reg : Option (Nat × Nat)) (i : Nat) : Nat :=
    let off := 8 * i - a % 128
    if off < img.length then leNat ((img.drop off).take 8)
    else match reg with
      | some r => leNat (((s.wgs.at? t.wg).map fun w => w.scr.read (r.1 + (off - img.length)) 8).getD [])
      | none => 0

/-- Write a chunk: each element converted against what its place holds, a higher index last (R208). -/
def EngOp.applyChunk (s : State) (tid : Nat) (o : EngOp) (l : List ChunkWrite) : State × EngOp :=
  let r := l.foldl (fun (x : State × EngOp × Nat) e =>
    let y := match o.kind with
      | .exsave _ _ _ => (e.elem.1, 0)
      | _ => o.conv e.elem (siteRead x.1 e.at_)
    let w := engineWrite x.1 tid x.2.1 e.at_ (y.1 / 2 ^ (8 * e.skip))
    (w.1, w.2, x.2.2 ||| y.2)) (s, o, 0)
  (r.1.modTeam tid fun t => t.orFlags r.2.2, r.2.1)

/-- The unit in which an add is one update (R199, R415), by where a chunk lies alone: the whole tile in scratchpad and TREG, a 16 KiB
block of near memory. None where the address does not translate. -/
def EngOp.addUnit (o : EngOp) (s : State) (t : Team) (c : Nat × List (Nat × Nat)) : Option (Option Nat) :=
  ((o.ownElems c).head?).bind fun e =>
    match locate (planeHdl o.dst.1 e.1) o.dst.2 e.2 with
    | .va a => (match translate s t.core (s.pidOf t) t.wg (s.ptbaseOf t) a 2 with
      | .ok ⟨.mem pa, _⟩ => some (some (pa / 16384))
      | .ok _ => some none
      | .error _ => none)
    | .treg _ => some none
    | .out _ => none

/-- The chunks that one step of an add applies: chunk n and those not yet applied in its unit. A chunk that receives only the end
of an element is applied with the chunk of the element's first byte. -/
def EngOp.unitOf (o : EngOp) (s : State) (t : Team) (n : Nat) : List Nat :=
  let cs := o.chunks
  let key := fun k : Nat => (cs[k]?).bind (o.addUnit s t)
  ((List.range cs.length).filter fun k => o.chunk ≤ k && !o.applied.contains k).filter fun k =>
    k == n || (key n).isSome && key k == key n

/-- The line of a location. -/
def Loc.line : Loc → Loc
  | .mem a => .mem (lineOf a)
  | .scr w a => .scr w (lineOf a)
  | .treg w a => .treg w (lineOf a)

/-- Does a line that the operation reads also receive elements, or is that not known (R396)? -/
def EngOp.overlapping (o : EngOp) (s : State) (t : Team) : Bool :=
  let lines := fun (x : Hdl × Lay) (access : Nat) =>
    allOk (fun i => enginePlace s t x.1 access x.2.width (locate x.1 x.2 i)) (List.range x.2.size)
  match o.kind with
  | .copy =>
    (match lines o.src 0, lines o.dst 1 with
      | .ok a, .ok b =>
        let ls := distinctLocs (b.flatten.map (·.1.line))
        a.flatten.any fun e => ls.contains e.1.line
      | _, _ => true)
  | .exsave a _ _ => inWindow (a % 2 ^ 64)
  | _ => false
where
  distinctLocs (l : List Loc) : List Loc := l.foldl (fun r x => if r.contains x then r else x :: r) []

/-- The chunk that an operation makes next: the copies of its lines are ordered by nothing where source and destination do not overlap
(R396, R448), so any that is left, a free choice (log entry 5); the first where they overlap, or where that one faults. -/
def EngOp.pick (o : EngOp) (s : State) (t : Team) : Nat :=
  let cs := o.chunks
  let left := (List.range cs.length).filter fun k => o.chunk ≤ k && !o.applied.contains k
  let k := match left with
    | [] | [_] => o.chunk
    | l => if o.overlapping s t then o.chunk else atD l (Config.freeNat s.fresh % l.length) o.chunk
  match o.chunkWrites s t (atD cs k (0, [])) with | .ok _ => k | .error _ => o.chunk

/-- What the next step of an operation reads and writes (R396, R414), in the order of `advance`: a scale word, the source whole in the
first pass, or a chunk: handle, kind of access, bytes and place of each. -/
def EngOp.nextPlaces (o : EngOp) (s : State) (t : Team) : List (Hdl × Nat × Nat × Place) :=
  let elems := fun (x : Hdl × Lay) (access : Nat) (l : List (Nat × Nat)) => l.map fun e =>
    (planeHdl x.1 e.1, access, x.2.width, locate (planeHdl x.1 e.1) x.2 e.2)
  let scale := fun (h : Hdl) (access : Nat) => match scalePlace h with | .ok p => [(h, access, 4, p)] | .error _ => []
  match o.kind with
  | .exsave _ _ _ => []
  | k =>
    if k == .copy && o.src.2.scaled && o.sexp.isNone then scale o.src.1 0
    else if o.quant && o.expo.isNone then (if k == .copy then elems o.src 0 ((List.range o.dst.2.size).map fun i => (0, i)) else [])
    else match o.chunks[o.pick s t]? with
      | some c => elems o.dst 1 c.2 ++ (if k == .copy then elems o.src 0 c.2 else [])
      | none => scale o.dst.1 1

/-- The addresses that the next chunk of an EXSAVE writes. -/
def EngOp.saveVas (o : EngOp) (s : State) (t : Team) : List Nat :=
  match o.kind, o.chunks[o.pick s t]? with
  | .exsave a _ _, some c => c.2.map fun e => (a / 128 * 128 + 8 * e.2) % 2 ^ 64
  | _, _ => []

/-- The addresses that an engine operation's next step names (R396, R414). -/
def EngOp.nextVas (o : EngOp) (s : State) (t : Team) : List Nat :=
  o.saveVas s t ++ (o.nextPlaces s t).filterMap fun x => match x.2.2.2 with | .va a => some a | _ => none

/-- What an engine operation reads and writes in its next step. -/
def EngOp.touches (o : EngOp) (s : State) (t : Team) : List (Loc × Nat) :=
  ((o.saveVas s t).filterMap fun va => match engineTran s t 1 va with | .ok x => some (x, 8) | .error _ => none) ++
  (o.nextPlaces s t).flatMap fun x => match enginePlace s t x.1 x.2.1 x.2.2.1 x.2.2.2 with | .ok l => l | .error _ => []

/-- The next chunk not applied. -/
def nextChunk (n : Nat) (applied : List Nat) : Nat → Nat
  | 0 => n
  | f + 1 => if applied.contains n then nextChunk (n + 1) applied f else n

/-- One step of an operation in progress (R396, R414): its source's scale word first, then the first pass, then a chunk,
then the destination's scale word. -/
def EngOp.advance (o : EngOp) (s : State) (tid : Nat) (t : Team) : Except EFault (State × EngOp) :=
  let l := o.dst.2
  let cs := o.chunks
  if o.kind == .copy && o.src.2.scaled && o.sexp.isNone then
    match readScale s t o.src.1 o.src.2 with
    | .error e => .error e
    | .ok x => .ok (s, { o with sexp := some x })
  else if o.quant && o.expo.isNone then
    match allOk (o.elem s t 0) (List.range l.size) with
    | .error e => .error e
    | .ok xs => .ok (s, { o with expo := some (tileExp ((fmtOf l.fmt).getD fmtF32) (xs.map (·.2))), pass1 := false })
  else if o.chunk < cs.length then
    let k := o.pick s t
    let ks := if o.kind.adds then o.unitOf s t k else [k]
    match allOk (fun k => o.chunkWrites s t (atD cs k (0, []))) ks with
    | .error e => .error e
    | .ok ws =>
      let r := ws.foldl (fun (x : State × EngOp) w => EngOp.applyChunk x.1 tid x.2 w) ({ s with fresh := s.fresh + 1 }, o)
      let applied := (o.applied ++ ks).filter (o.chunk < ·)
      let n := if ks.contains o.chunk then nextChunk (o.chunk + 1) applied cs.length else o.chunk
      .ok (r.1, { r.2 with chunk := n, applied := applied.filter (n < ·) })
  else
    match scalePlace o.dst.1 with
    | .error e => .error e
    | .ok p =>
      match enginePlace s t o.dst.1 1 4 p with
      | .error e => .error e
      | .ok ps =>
        let r := engineWrite s tid o ps ((ofInt 8 (o.expo.getD 0)).toNat + l.fmt * 256)
        .ok (r.1, { r.2 with scaled := true })

/-- Are all writes of an operation made? -/
def EngOp.written (o : EngOp) : Bool := o.chunks.length ≤ o.chunk && (!o.quant || o.scaled)

/-- The record of a fault of an operation: its instruction, the lanes of the split that issued it. -/
def engineRec (s : State) (t : Team) (o : EngOp) (cause resume : Nat) (info : List Nat) : TrapRec :=
  let i := (t.indexOf o.tpc).getD 0
  { cause := cause, resume := resume, team := true, slot := o.slot, tpc := o.tpc, tpc2 := tpc2Of s t i,
    info := (List.range 4).map fun k => BitVec.ofNat 64 (atD info k 0),
    lanes := if resume == 2 then o.mask else t.live, exb := exbOf t, teq := t.teq, order := s.nextId }

/-- A fault of an operation (R276, R397): a translation fault stops its context and is served, the team parking at its next
boundary, and its engine is free for another; any other ends it with COPY_CHUNK_FAULT. A fault of the table that the record needs is served first (R462). In a
privileged handler it is a DOUBLE_FAULT (R274). -/
def engineFault (s : State) (tid ctx : Nat) (t : Team) (o : EngOp) (e : EFault) : State :=
  let table := if ctx == 4 then none else corrFault s t
  let (e, access) := match table with | some (c, va) => ((⟨c, true, va⟩ : EFault), 0) | none => (e, 4)
  if e.served && ctx != 4 then
    let q := mkReq s tid t o.split e.addr o.tpc e.cause access o.mask
    fileFault s tid (t.setHead ctx { o with fault := true, started := false })
      { q with engine := some ctx, trap := engineRec s t o e.cause 2 [e.addr] }
  else
    let r := if ctx == 4 then engineRec s t o cDouble 3 [if e.served then e.cause else cChunk, e.addr]
      else engineRec s t o cChunk 3 [ctx + e.cause * 256, o.chunk, e.addr]
    let t := t.setHead ctx { o with dead := true }
    let p := (t.splits.head?).getD { id := 0 }
    deliverX { s with nextId := s.nextId + 1 } tid t p r

/-- Advance the operation in progress of a context; lines of host memory that it reads are held (R44). -/
def engineStep (s : State) (tid ctx : Nat) (t : Team) (o : EngOp) : Out :=
  match o.advance s tid t with
  | .error e => if e.cause == 0 || (ctx != 4 && corrHeld s t) then notNow else .next (engineFault s tid ctx t o e)
  | .ok (s', o') => .next ((s'.holdLocs (o.touches s t)).setHead tid ctx { o' with since := s.clocks })

/-- The operations at the head of their contexts on a core. -/
def coreHeads (s : State) (core : CoreId) : List (Nat × Nat × Team × EngOp) :=
  (s.teams.filter fun e => e.2.core == core && e.2.fused.isNone).flatMap fun e =>
    (List.range 5).filterMap fun c => ((e.2.ops c).head?).map fun o => (e.1, c, e.2, o)

/-- The oldest issued of some operations. -/
def oldestOp (l : List (Nat × Nat × Team × EngOp)) : Option (Nat × Nat × Team × EngOp) :=
  l.foldl (fun m e => match m with
    | some x => if e.2.2.2.seqNo < x.2.2.2.seqNo then some e else some x
    | none => some e) none

/-- A free copy engine of four takes the oldest operation whose context has nothing in progress (R395). A context that a fault or a
PREEMPT has stopped holds none. -/
def execCopyEngineStart (core : CoreId) (s : State) : Out :=
  let l := (coreHeads s core).filter fun e => e.2.2.2.kind.copies
  if s.dev.tripped || 4 ≤ (l.filter fun e => e.2.2.2.started && engineFree e.2.2.1 e.2.1 e.2.2.2).length then notNow
  else match oldestOp (l.filter fun e => !e.2.2.2.started && engineFree e.2.2.1 e.2.1 e.2.2.2) with
    | some (tid, c, _, o) => .next (s.setHead tid c { o with started := true, since := s.clocks, pass1 := o.quant && o.expo.isNone })
    | none => notNow

/-- Run a step for the operation in progress of a context; none after a thermal trip (R15). -/
def withHead (s : State) (team ctx : Nat) (k : Team → EngOp → Out) : Out :=
  match s.teams.at? team with
  | none => notNow
  | some t =>
    match (t.ops ctx).head? with
    | some o => if engineFree t ctx o && !s.dev.tripped then k t o else notNow
    | none => notNow

/-- A copy engine reads the sources of one destination line and writes it (R396). -/
def execCopyChunk (team ctx : Nat) (s : State) : Out :=
  withHead s team ctx fun t o =>
    if o.kind.copies && o.started && !o.written then engineStep s team ctx t o else notNow

/-- The drain path serves one operation at a time, the oldest first (R414). -/
def drainTurn (s : State) (core : CoreId) (team ctx : Nat) : Bool :=
  let l := (coreHeads s core).filter fun e => !e.2.2.2.kind.copies && engineFree e.2.2.1 e.2.1 e.2.2.2
  match l.find? (·.2.2.2.started) with
  | some e => e.1 == team && e.2.1 == ctx
  | none => (match oldestOp l with | some e => e.1 == team && e.2.1 == ctx | none => false)

/-- The drain path writes, or adds, one destination chunk (R414). -/
def execDrainChunk (team ctx : Nat) (s : State) : Out :=
  withHead s team ctx fun t o =>
    if !o.kind.copies && !o.written && drainTurn s t.core team ctx then
      engineStep s team ctx t { o with started := true }
    else notNow

/-- Are all writes acknowledged (R188, R35)? -/
def EngOp.acked (o : EngOp) (s : State) (core : CoreId) : Bool :=
  (o.acks.all fun a => a.1 == core.die || decide (a.2 < clockOf s a.1)) &&
  o.reqs.all fun i => (s.fabReqs.at? i).isNone

/-- Wake the splits that wait for a context: for its number, or for room in it (R394, R399). -/
def wakeContext (t : Team) (ctx done : Nat) : Team :=
  { t with splits := t.splits.map fun p => match p.park with
      | some (.tlwait c n) => if c == ctx && n ≤ done then { p with park := none } else p
      | some (.engine c) => if c == ctx then { p with park := none } else p
      | _ => p }

/-- DONE of a context: TLC, or the privileged context's own counter (R196, R429). -/
def Team.doneOf (t : Team) (ctx : Nat) : Nat :=
  if ctx == 4 then (match t.kframe with | some f => f.ctrDone | none => 0) else atD t.tlc ctx 0
def Team.issuedOf (t : Team) (ctx : Nat) : Nat :=
  if ctx == 4 then (match t.kframe with | some f => f.ctr | none => 0) else atD t.tliss ctx 0
def Team.setDone (t : Team) (ctx n : Nat) : Team :=
  if ctx == 4 then { t with kframe := t.kframe.map fun f => { f with ctrDone := n } } else { t with tlc := setAt t.tlc ctx n }
def Team.setIssued (t : Team) (ctx n : Nat) : Team :=
  if ctx == 4 then { t with kframe := t.kframe.map fun f => { f with ctr := n } } else { t with tliss := setAt t.tliss ctx n }

/-- An operation completes (R196): WCTs folded, L1 copies of its lines invalidated, the number passed on. -/
def completeOp (s : State) (tid ctx : Nat) (t : Team) (o : EngOp) : State :=
  let t := { t with wct := o.acks.foldl (fun (m : Nat) (a : Nat × Nat) => if a.1 == t.core.die then Nat.max m a.2 else m) t.wct }
  let t := (t.setOps ctx ((t.ops ctx).drop 1)).setDone ctx o.num
  let s := s.setTeam tid (wakeContext t ctx o.num)
  settleEnd (l1Drop s t.core fun l => o.lines.contains l.line) tid

def engineComplete (copies : Bool) (team ctx : Nat) (s : State) : Out :=
  withHead s team ctx fun t o =>
    if o.kind.copies == copies && o.written && o.acked s t.core then .next (completeOp s team ctx t o)
    else notNow

def execCopyComplete (team ctx : Nat) (s : State) : Out := engineComplete true team ctx s
def execDrainOperationComplete (team ctx : Nat) (s : State) : Out := engineComplete false team ctx s

/-! COPY, TLWAIT, TLREAD (R394, R399, R400). -/

/-- The ordering alone, and the next instruction (R194). -/
def Ctx.orderOnly (c : Ctx) (w : OpA) (k : Ctx → Out) : Out := c.withRelease (w.md 6 5) (w.md 9 7) k

/-- An operation joins its context (R196): the number TLISSc + 1. -/
def Ctx.submit (c : Ctx) (ctx : Nat) (o : EngOp) : Ctx :=
  let n := c.t.issuedOf ctx + 1
  let o := { o with num := n, split := c.sp.id, mask := c.sp.mask, fmt := c.sp.fmt, tpc := c.t.addrOf c.sp.pc,
                    slot := (c.sp.clause.map (·.slot)).getD 0, seqNo := c.s.nextId }
  { c with s := { c.s with nextId := c.s.nextId + 1 }, t := (c.t.setOps ctx (c.t.ops ctx ++ [o])).setIssued ctx n }

/-- The issue of an operation after its checks (R394): the guard, a full context, the release, the number. -/
def Ctx.issueOp (c : Ctx) (w : OpA) (ctx : Nat) (mk : Ctx → Ctx) : Out :=
  if !c.guarded w then c.orderOnly w fun c => c.done c.t (lenA w)
  else if 16 ≤ (c.t.ops ctx).length then c.park (.engine ctx)
  else c.orderOnly w fun c => let c := mk c; c.done c.t (lenA w)

/-- The first refusal of a COPY's operands, source before destination, then the pair (R220, R222). A refusal leaves the WAYS that
LCHECK finds of each (R226). -/
def copyReject (hs : Hdl) (ls : Lay) (hd : Hdl) (ld : Lay) : Class × Nat :=
  let refused := fun (r : Nat) => ({ cls := 2, reason := r, ways := Nat.max (accept 0 hs ls).ways (accept 0 hd ld).ways } : Class)
  match (rejectKind 0 hs ls).or (rejectBounds hs ls) with
  | some r => (refused r, 0)
  | none =>
    match (rejectKind 0 hd ld).or (rejectBounds hd ld) with
    | some r => (refused r, 1)
    | none =>
      let k := acceptPair hd ld hs ls
      (if ld.size != ls.size then refused 6 else if k.cls == 2 then refused k.reason else k, 1)

def execCopy (w : OpA) (s : State) : Out :=
  issueA 21 0 (sigCopy w) w s fun c =>
    let hd := tileH w.dN
    let hs := tileH w.aN
    if c.unreach hs then c.trap cHandle [hs] (lenA w)
    else if c.unreach hd then c.trap cHandle [hd] (lenA w)
    else
      let ld := c.t.lay (tileL w.dN)
      let ls := c.t.lay (tileL w.aN)
      let (k, opn) := copyReject (c.t.hdl hs) ls (c.t.hdl hd) ld
      let deg := Nat.max (firstDegree (c.t.hdl hs) ls) (firstDegree (c.t.hdl hd) ld)
      let c := { c with t := c.t.setLstat deg k.ways false }
      if k.cls == 2 then
        c.why (rejected 0 opn k.reason (tileL (if opn == 0 then w.aN else w.dN)) (some (if opn == 0 then hs else hd))) (lenA w)
      else c.issueOp w (w.md 1 0) fun c =>
        c.submit (w.md 1 0) { num := 0, kind := .copy, split := 0, mask := 0, fmt := 0,
                                dstH := c.t.h.get hd, dstL := c.t.ly.get (tileL w.dN),
                                srcH := c.t.h.get hs, srcL := c.t.ly.get (tileL w.aN) }

/-- The context that an instruction uses: the privileged one in the privileged handler (R429). -/
def Ctx.engineCtx (c : Ctx) (n : Nat) : Nat := if c.sp.lvl == 2 then 4 else n

def execTlwait (w : OpA) (s : State) : Out :=
  issueA 21 1 (sigTlwait w) w s fun c =>
    let n := (c.rdS w.aN).toNat
    let ctx := c.engineCtx w.dN
    if c.guarded w && c.t.doneOf ctx < n then c.park (.tlwait ctx n)
    else c.endAccess {} 0 (lenA w) (if w.md 6 5 == 1 then some (c.scopeOf (w.md 9 7)) else none) true

/-- The context status word (R400). -/
def contextStatus (l : List EngOp) : Nat :=
  l.length * 2 ^ 32 + (match l.head? with
    | some o => Nat.min o.chunk 0xFFFFFFFF + (if o.fault then 2 ^ 37 else 0) + (if o.pass1 then 2 ^ 38 else 0)
    | none => 0)

def execTlread (w : OpA) (s : State) : Out :=
  issueU 21 2 (sigTlread w) w s fun c =>
    let t := c.t.wrS c.sp.lvl w.dN (BitVec.ofNat 64 (atD c.t.tlc w.aN 0))
    c.done (t.wrS c.sp.lvl (w.dN + 1) (BitVec.ofNat 64 (contextStatus (c.t.ops w.aN)))) (lenA w)

/-! BANKCFG (R154, R155, R401). -/

/-- The states a BANKCFG names. -/
def bankState : Nat → BState | 0 => .scr | 1 => .fifo | _ => .lent

/-- The splits parked in a BANKCFG of a workgroup homed on a core, with their targets. -/
def pendingBanks (s : State) (core : CoreId) : List (Nat × Nat × Nat) :=
  s.teams.flatMap fun e =>
    if ((s.wgs.at? e.2.wg).map fun w => decide (w.home = core)).getD false then
      e.2.splits.filterMap fun p => match p.park with | some (.bankcfg b x _) => some (e.2.wg, b, x) | _ => none
    else []

/-- The blocks of a core that are, or that a change in progress will make, other than CACHE and LENT, and FIFO (R152). -/
def bankCounts (s : State) (core : CoreId) (also : List (Nat × Nat × Nat)) : Nat × Nat :=
  let pend := pendingBanks s core ++ also
  let ws := s.wgs.filter fun e => e.2.live && e.2.home == core
  let sts := ws.flatMap fun e => (List.range e.2.blocks.length).map fun b =>
    atD e.2.blocks b .lent :: (pend.filter fun x => x.1 == e.1 && x.2.1 == b).map fun x => bankState x.2.2
  ((sts.filter fun l => l.any (· != .lent)).length, (sts.filter fun l => l.any (· == .fifo)).length)

/-- Is a team parked on a FIFO (R154)? -/
def fifoParked (s : State) (wg b : Nat) : Bool :=
  s.teams.vals.any fun t => t.wg == wg && t.splits.any fun p => match p.park with
    | some (.fifo _ k _ _ _ _ _ _) => k == b | _ => false

/-- Is a change of a block refused, or would it break R152? -/
def bankRefused (s : State) (w : Wg) (wg b x : Nat) : Bool :=
  let n := bankCounts s w.home [(wg, b, x)]
  (w.blocks[b]? == some .fifo && fifoParked s wg b) ||
  (if isL w.home then 32 else 48) - 16 < n.1 || 8 < n.2

def execBankcfg (w : OpA) (s : State) : Out :=
  issueU 21 3 (sigBankcfg w) w s fun c =>
    let x := (c.rdS w.aN).toNat
    match (c.s.wgOf c.t).bind fun g => (g.blocks[x]?).map fun b => (g, b) with
      | none => c.trap cProt [x] (lenA w)
      | some (g, b) =>
        if b == bankState (w.md 1 0) then c.done c.t (lenA w)
        else if bankRefused c.s g c.t.wg x (w.md 1 0) then c.trap cProt [x] (lenA w)
        else c.park (.bankcfg x (w.md 1 0) (lenA w))

/-- Are the stores of a core's teams to memory all acknowledged (R154)? -/
def coreAcked (s : State) (core : CoreId) : Bool :=
  s.teams.vals.all fun t => t.core != core || t.flights.all fun f => !f.kind.writes ||
    f.runs.all fun r => (match r.loc with | .mem _ => false | _ => true) || runAcked s r

/-- May a block change now (R154): from SCR once the accesses in flight to it are performed, from LENT once the stores of
the core's teams are acknowledged? -/
def bankReady (s : State) (w : Wg) (wg b : Nat) : Bool :=
  match w.blocks[b]? with
  | some .scr => !(s.teams.vals.any fun t => t.flights.any fun f => f.runs.any fun r => !r.done &&
      overlaps r.loc r.bytes (.scr wg (b * 32768)) 32768)
  | some .lent => coreAcked s w.home
  | _ => true

/-- A core loses an L1 way: in each set the line that stood in it goes, a free choice among the ways (log entry 5). -/
def loseWay (s : State) (core : CoreId) : State :=
  let ways := Nat.max 1 (l1Ways s core)
  let drop := (List.range 256).filterMap fun i =>
    let l := s.l1.filter fun x => x.core == core && nbits x.line 14 7 == i
    (l[Config.freeNat (s.fresh + i) % ways]?).map (·.line)
  { l1Drop s core (fun l => drop.contains l.line) with fresh := s.fresh + 256 }

/-- Change a block's state and contents (R154). -/
def setBlock (s : State) (wg b : Nat) (x : BState) : State :=
  match s.wgs.at? wg with
  | none => s
  | some w =>
    let s := if w.blocks[b]? == some .lent && x != .lent then loseWay s w.home else s
    s.modWg wg fun w =>
      { w with blocks := setAt w.blocks b x, scr := w.scr.keep (fun o => o / 32768 != b), fifos := w.fifos.erase b }

/-- A cache block of a core goes out of service (R61); `wait` of its blocks still wait for theirs. -/
def retireBlock (s : State) (core : CoreId) (wait : Nat) : State :=
  let k := coreKey core
  let e := (s.dev.errs.at? core.die).getD {}
  { s with dev := { s.dev with
    retired := s.dev.retired.insert k ((s.dev.retired.at? k).getD 0 + 1), retireBlock := s.dev.retireBlock.insert k wait,
    errs := s.dev.errs.insert core.die { e with blockret := Nat.min 15 (e.blockret + 1) } } }

/-- A block's change finishes and the split goes on past its BANKCFG, which PREEMPT finds complete (R401). -/
def execBankcfgChangeComplete (team split : Nat) (s : State) : Out :=
  match (s.teams.at? team).bind fun t => (t.split? split).map fun p => (t, p) with
  | none => notNow
  | some (t, p) =>
    match p.park, s.wgOf t with
    | some (.bankcfg b x len), some w =>
      if bankReady s w t.wg b && !(w.blocks[b]? == some .fifo && fifoParked s t.wg b) then
        -- a block with a lasting error is retired and stays cache (R61); which of a core's caches is one, is a free choice
        -- (log entry 5)
        let wait := (s.dev.retireBlock.at? (coreKey w.home)).getD 0
        let own := w.worn.contains b
        let worn := x != 2 && (own || (wait != 0 && Config.freeBit s.fresh))
        let s := { s with fresh := s.fresh + 1 }
        let s := setBlock s t.wg b (if worn then .lent else bankState x)
        let s := if worn && w.blocks[b]? == some .lent then loseWay s w.home else s
        let s := if worn then retireBlock s w.home (if own then wait else wait - 1) else s
        let s := if worn then s.modWg t.wg fun w => { w with worn := w.worn.filter (· != b) } else s
        .next (s.modTeam team fun t => t.modSplit split fun p => nextSplit len { p with park := none })
      else notNow
    | _, _ => notNow

end Sys2Proof.Machine
end

