-- ==== Sys2Proof/Machine/Queue.lean ====
section
/-! DEFINITION. Launch queues and grids: the partition control block and descriptors (R63 to R68), taking records (R67,
R70), dependences (R71), child records (R74), the failure and the retirement of a grid (R72, R73, R84). -/

namespace Sys2Proof.Machine

/-! Host memory as the device reads and writes it. -/

/-- A number in host memory. -/
def hostNum (s : State) (a n : Nat) : Nat := s.rdMemN a n
/-- A store of the device to memory, which takes the host's lines of it (R44, R190). -/
def devStore (s : State) (pa : Nat) (bs : List Byte) : State :=
  let s := writeLoc s none (.mem pa) bs
  if isLocal s pa && spaceOf s (localOf pa) == .host then s.holdHost pa bs.length else s

/-- The partition control block, if the partition's queues are served (R63): a block at or above 2^47 is never read. -/
def ctlBlock (s : State) (pid : Nat) : Option Nat :=
  let q := s.qtbase.get pid
  let base := bits q 63 12 * 4096
  if q.getLsbD 0 && base < 2 ^ 47 then some (hostPa s base) else none

/-- The descriptor of a launch queue (R64). -/
def descOf (s : State) (pid q : Nat) : Option Nat :=
  if q < 256 then (ctlBlock s pid).map fun b => b + 256 + 256 * q else none

def queueKey (pid q : Nat) : Nat := pid * 256 + q
def State.queueOf (s : State) (pid q : Nat) : Option Queue := s.queues.at? (queueKey pid q)
def State.setQueue (s : State) (pid q : Nat) (x : Queue) : State := { s with queues := s.queues.insert (queueKey pid q) x }
/-- Is a queue served (R66, R68)? -/
def Queue.served (x : Queue) : Bool := x.en && !x.bad && !x.ovfl

/-- Are launch queues watched: bring-up is done and the device has not tripped (R49, R15)? -/
def watching (s : State) : Bool := s.dev.bringup == 9 && !s.dev.tripped

/-- Is a host line held under a distributor's monitor (R44, R66)? -/
def lineHeld (s : State) (a : Nat) : Bool := s.watched.contains (hostLine a)

/-- Does a descriptor line that is enabled satisfy R68, PTBASE, RING and the FQBASE of its block lying below 2^47, since host
memory ends there (R151)? -/
def descOk (s : State) (ctl d : Nat) : Bool :=
  let ring := hostNum s d 8
  let pt := hostNum s (d + 8) 8
  let logn := hostNum s (d + 16) 1
  hostNum s (d + 17) 1 ≤ 7 && 4 ≤ logn && logn ≤ 16 && hostNum s (d + 18) 1 ≤ 1 &&
  ((s.rdMem (d + 19) 45).all (· == 0)) && ring % 128 == 0 && pt % 4096 == 0 && ring < 2 ^ 47 && pt < 2 ^ 47 &&
  hostNum s ctl 8 < 2 ^ 47

/-- A host write of n bytes writes the first lines of these descriptors (R66). -/
def hostWrites (s : State) (pa n : Nat) : State :=
  { s with queues := s.queues.map fun e => match descOf s (e.1 / 256) (e.1 % 256) with
      | some d => if d < pa + n && pa < d + 64 then (e.1, { e.2 with written := true }) else e
      | none => e }

/-- The descriptor's first line is read, and checked if enabled (R68); where the host has written it, that ends an OVERFLOW (R66).
QSTAT is set back to 0 where a bad descriptor is found good (log entry 39). -/
def execDescriptorReread (pid q : Nat) (s : State) : Out :=
  match (if watching s then descOf s pid q else none) with
  | none => notNow
  | some d =>
    let old := s.queueOf pid q
    if old.isSome && lineHeld s d then notNow
    else
      let s := s.watchHost d 64
      let en := hostNum s (d + 18) 1 % 2 == 1
      let bad := en && !descOk s (d - (256 + 256 * q)) d
      let stays := old.any fun x => x.ovfl && !x.written
      let x : Queue := { ring := hostNum s d 8, ptbase := hostNum s (d + 8) 8, logn := hostNum s (d + 16) 1,
                         prio := hostNum s (d + 17) 1, en := en, bad := bad || (!en && (old.any (·.bad))), ovfl := stays }
      let s := s.setQueue pid q x
      if bad then .next (postEvent (devStore s (d + 136) (leBytes 4 2)) 5 pid q 0)
      else if (old.any (·.ovfl) && !stays) || (en && old.any (·.bad)) then .next (devStore s (d + 136) (leBytes 4 0))
      else .next s

/-- Records in a queue: TAIL − HEAD (R66). -/
def queueLen (s : State) (d : Nat) : Nat := (hostNum s (d + 64) 8 + 2 ^ 64 - hostNum s (d + 128) 8) % 2 ^ 64

/-- A queue that overflows stops (R66). -/
def stopQueue (s : State) (pid q d : Nat) (x : Queue) : State :=
  devStore (s.setQueue pid q { x with ovfl := true }) (d + 136) (leBytes 4 1)

/-- The monitor of a queue's tail line wakes: the tail is read again (R44, R66), once the descriptor has been (R68). -/
def execQueueMonitorWake (pid q : Nat) (s : State) : Out :=
  match (if watching s then descOf s pid q else none), s.queueOf pid q with
  | some d, some x =>
    if !x.served || !lineHeld s d || lineHeld s (d + 64) then notNow
    else
      let s := s.watchHost (d + 64) 64
      .next (if 2 ^ x.logn < queueLen s d then stopQueue s pid q d x else s)
  | _, _ => notNow

/-! Grids. -/

/-- The cores of a partition on a die that run teams (R9, R10, R17). -/
def coresOf (s : State) (pid die : Nat) : List CoreId :=
  ((List.range 16).filter fun c => partOf s (die * 16 + c) == pid).flatMap fun c =>
    ((List.range 7).map fun k => (⟨die, c, k⟩ : CoreId)).filter fun x => !reservedCore x

/-- A grid becomes ELIGIBLE: it is offered to the distributor of every die on which its partition holds a core of a kind
with a runnable body (R84, R85). -/
def offer (s : State) (g : Grid) : State :=
  let dies := (List.range 4).filter fun d => (coresOf s g.pid d).any fun c => g.ako.any fun a => runnable a (isL c)
  { s.modGrid g.gid fun x =>
      { x with st := .eligible, ages := dies.foldl (fun (m : AMap Nat) d => m.insert d s.ageNext) x.ages } with
    ageNext := s.ageNext + 1 }

/-- Grids of a partition that are offered already are offered to a die on which it has gained its first core with a runnable
body (R27, R85). -/
def reoffer (s : State) (pid : Nat) : State :=
  s.grids.foldl (fun s g =>
    if g.pid == pid && (g.st == .eligible || g.st == .dispatched) then
      let dies := (List.range 4).filter fun d => (g.ages.at? d).isNone &&
        (coresOf s pid d).any fun c => g.ako.any fun a => runnable a (isL c)
      let old := g.ages
      if dies.isEmpty then s
      else { s.modGrid g.gid (fun x => { x with ages := dies.foldl (fun (m : AMap Nat) d => m.insert d s.ageNext) old }) with
             ageNext := s.ageNext + 1 }
    else s) s

/-- What the dependence words of a grid come to (R71), in their order: a failure word, all at their thresholds, or not yet; one
whose read is held is not (R37). -/
def depState (s : State) (g : Grid) : Option Quad × Bool :=
  ((List.range 4).filter fun j => lrDepAddr g.lrec j != 0).foldl (fun (r : Option Quad × Bool) j =>
    if r.1.isSome then r
    else match devTranslate s g.pid g.ptbase (lrDepAddr g.lrec j) 0 with
      | .error 0 => (none, false)
      | .error c => (some (failWord c 0 0), false)
      | .ok pa =>
        let v := s.rdMemN pa 8
        if 2 ^ 63 ≤ v then (some (BitVec.ofNat 64 v), false)
        else (none, r.2 && decide (lrDepThr g.lrec j ≤ v))) (none, true)

/-- The device's reads of a virtual range take its lines of host memory (R44), page by page. -/
def holdRange (s : State) (pid ptbase va len : Nat) : State :=
  let first := va / 65536
  (List.range ((va + len - 1) / 65536 + 1 - first)).foldl (fun s i =>
    let a := if i == 0 then va else (first + i) * 65536
    match devTranslate s pid ptbase a 0 with
    | .ok pa => s.holdLocs [(.mem pa, Nat.min (va + len) ((a / 65536 + 1) * 65536) - a)]
    | .error _ => s) s

/-- The device takes the host lines of a grid's dependence words as it reads them (R44). -/
def holdDeps (s : State) (g : Grid) : State :=
  (List.range 4).foldl (fun s j =>
    if lrDepAddr g.lrec j == 0 then s else holdRange s g.pid g.ptbase (lrDepAddr g.lrec j) 8) s

/-- A WAITING grid whose dependences are settled goes on (R71, R84). -/
def settleDeps (s : State) (g : Grid) : State :=
  holdDeps (match depState s g with
    | (some w, _) => s.modGrid g.gid fun x => { x with st := .failed, fail := some (x.fail.getD w) }
    | (none, true) => offer s g
    | (none, false) => s) g

/-- Is a read of a TAKEN grid's checks held (R37)? -/
def checkHeld (s : State) (g : Grid) : Bool :=
  match checkRecord s g.pid g.ptbase g.lrec with | .error 0 => true | _ => false

/-- The checks of R70 in TAKEN (R84), in which the grid stays while a read of them is held (R37). -/
def checkTaken (s : State) (g : Grid) : State :=
  let bad := fun d => { g with st := .failed, fail := some (failWord cRecord d 0) }
  match checkRecord s g.pid g.ptbase g.lrec with
  | .error 0 => { s with grids := s.grids ++ [g] }
  | .error d => { s with grids := s.grids ++ [bad d] }
  | .ok a =>
    if !someCoreHolds s g.pid a g.lrec then { s with grids := s.grids ++ [bad 0x0C] }
    else
      let g := { g with st := .waiting, ako := some a, code := codeOf s g.pid g.ptbase a }
      settleDeps (holdRange { s with grids := s.grids ++ [g] } g.pid g.ptbase a.base a.len) g

/-- Sixteen quadwords of a launch record. -/
def recordAt (s : State) (pa : Nat) : List Quad := (List.range 16).map fun i => BitVec.ofNat 64 (s.rdMemN (pa + 8 * i) 8)

/-- The GRIDID of a grid taken from a host queue (R82). -/
def hostGid (pid q h : Nat) : Quad := BitVec.ofNat 64 (pid * 2 ^ 60 + q * 2 ^ 51 + h % 2 ^ 51)

/-- A distributor takes the record at HEAD (R67) and owns its grid: under the descriptor as it holds it, which a host write takes
away until it is read again (R68). -/
def execTakeRecord (die pid q : Nat) (s : State) : Out :=
  match (if watching s && !pctlHoldBit (s.pctl.get pid) && !(coresOf s pid die).isEmpty then descOf s pid q else none),
        s.queueOf pid q with
  | some d, some x =>
    let n := queueLen s d
    if !x.served || !lineHeld s d || !lineHeld s (d + 64) || n == 0 then notNow
    else if 2 ^ x.logn < n then .next (stopQueue s pid q d x)
    else
      let h := hostNum s (d + 128) 8
      let l := recordAt s (hostPa s (x.ring + 128 * (h % 2 ^ x.logn)))
      let s := devStore (s.holdHost (hostPa s (x.ring + 128 * (h % 2 ^ x.logn))) 128) (d + 128) (leBytes 8 (h + 1))
      let gid := hostGid pid q h
      .next (checkTaken s { gid := gid, owner := die, pid := pid, ptbase := x.ptbase, prio := x.prio, queue := q, depth := 0,
                            lrec := l, st := .taken, root := gid })
  | _, _ => notNow

/-- A distributor takes the oldest record of a device-side queue (R74), whatever QTBASE.VALID is (R63, log entry 57); a child of
a failing grid fails as it does (R73). -/
def execTakeChildRecord (die pid : Nat) (s : State) : Out :=
  let key := pid * 4 + die
  match (if watching s && !pctlHoldBit (s.pctl.get pid) then (s.dqueues.at? key).getD [] else []) with
  | [] => notNow
  | r :: rest =>
    let s := { s with dqueues := s.dqueues.insert key rest }
    match s.gridOf r.parent with
    | none => .next s
    | some p =>
      let g : Grid := { gid := r.gid, owner := die, pid := pid, ptbase := p.ptbase, prio := p.prio, queue := p.queue,
                        depth := p.depth + 1, lrec := r.lrec, st := .taken, parent := some (r.parent, r.team), root := p.root }
      if p.st == .failing then .next { s with grids := s.grids ++ [{ g with st := .failed, fail := p.fail }] }
      else .next (checkTaken s g)

/-- A watched dependence word has changed (R71), or the checks of a TAKEN grid are held no more (R37, R84). -/
def execDependenceWake (grid : Quad) (s : State) : Out :=
  match s.gridOf grid with
  | some g =>
    if g.st == .taken && !checkHeld s g then .next (checkTaken { s with grids := s.grids.filter fun x => x.gid != grid } g)
    else if g.st == .waiting && ((depState s g).1.isSome || (depState s g).2) then .next (settleDeps s g) else notNow
  | none => notNow

/-! Failure and retirement. -/

/-- The children of a grid that have not retired: taken ones, and records still queued. -/
def hasChildren (s : State) (g : Quad) : Bool :=
  (s.grids.any fun x => match x.parent with | some p => p.1 == g | none => false) ||
  s.dqueues.vals.any fun q => q.any fun r => r.parent == g

/-- A saved workgroup of a failing grid is discarded. -/
def dropSaved (s : State) (w : Nat) : State :=
  let ts := s.savedTeams.filter fun e => e.2.wg == w
  let s := ts.foldl (fun s e => noteWct s e.2) s
  { s.modWg w fun x => { x with st := .terminated, scr := [], fifos := [], treg := [], blocks := [] } with
    savedTeams := s.savedTeams.filter fun e => e.2.wg != w }

/-- Has a team a write that waits for the host to give up a line of device memory (R190)? -/
def Team.waitsHost (s : State) (t : Team) : Bool :=
  t.flights.any fun f => f.kind.writes && f.runs.any fun r => !r.done &&
    (match r.loc with | .mem pa => isLocal s pa && hostMayHold s pa r.bytes | _ => false)

/-- The first failure of a grid has reached its owner (R73): no workgroup is placed, resident ones are terminated, its
children fail with the same word. The host answers first for lines that their stores wait for (R190, log entry 26). -/
def execGridFailure (grid : Quad) (s : State) : Out :=
  match s.gridOf grid with
  | none => notNow
  | some g =>
    let mine := s.wgs.filter fun e => e.2.grid == grid
    if g.fail.isNone || !(g.st == .eligible || g.st == .dispatched || g.st == .retiring) ||
       (mine.any fun e => e.2.live && (s.teamsOf e.1).any fun t => t.2.waitsHost s) then notNow
    else
      let s := s.modGrid grid fun x => { x with st := .failing, again := [] }
      let s := mine.foldl (fun s e =>
        if e.2.live then
          let cores := (s.teamsOf e.1).map (·.2.core)
          cores.foldl (countTest s) (releaseWg s e.1 .terminated)
        else if e.2.st == .saved then dropSaved s e.1 else s) s
      let sub := fun (x : Grid) => match x.parent with | some p => p.1 == grid | none => false
      let kill := fun (x : Grid) =>
        { x with fail := some (x.fail.getD (g.fail.getD 0)), st := if x.st == .waiting || x.st == .taken then .failed else x.st }
      .next { s with grids := s.grids.map (fun x => if sub x && x.st != .failed then kill x else x),
                     blocking := s.blocking.filter fun b => b.2 != grid }

/-- The team that waits for a child: it has one child fewer, and one failed child more (R342). -/
def childGone (failed : Bool) (t : Team) : Team :=
  let t := { t with children := t.children - 1, failed := t.failed + (if failed then 1 else 0) }
  if t.children != 0 then t
  else { t with splits := t.splits.map fun p => match p.park with
      | some (.waitchild _) => { p with park := none }
      | _ => p }

/-- May the completion word of a grid be stored: no workgroup of it is left, every child has retired, and every store of
its teams is complete (R72, R84, R185)? -/
def mayRetire (s : State) (g : Grid) : Bool :=
  (g.st == .failed || (g.st == .failing && !(s.wgs.vals.any fun w => w.grid == g.gid && (w.live || w.st == .saved))) ||
    (g.st == .retiring && g.fail.isNone)) &&
  !hasChildren s g.gid && (g.wcts.all fun e => decide (e.2 < clockOf s e.1)) &&
  g.reqs.all fun i => (s.fabReqs.at? i).isNone

/-- A grid stores its word, signals its vector, and is counted to the team that launched it (R72, R342). The store waits for a port
of its route (R37) and for the host's copy of its line (R190); one that another package refuses is lost as one that does not
translate is. -/
def retireGrid (grid : Quad) (refused : Bool) (s : State) : Out :=
  match s.gridOf grid with
  | none => notNow
  | some g =>
    if !mayRetire s g then notNow
    else
      let word := match g.fail with | some w => w | none => atD g.lrec 7 0
      let va := lrComp g.lrec
      let dest : Except Nat Nat := if va % 8 != 0 then .error cMisal else devTranslate s g.pid g.ptbase va 1
      let away : Bool := match dest with | .ok pa => va != 0 && !isLocal s pa | .error _ => false
      let wait : Bool := match dest with
        | .ok pa => va != 0 && isLocal s pa && hostMayHold s pa 8
        | .error c => c == 0 && va != 0
      if wait || (refused && !away) then notNow
      else
        let dest := if refused then .error cProt else dest
        let s := if va == 0 then s else match dest with
          | .ok pa => devStore s pa (leBytes 8 word.toNat)
          | .error _ => postEvent s 9 g.pid (grid.toNat % 2 ^ 32) word.toNat
        let s := if lrF g.lrec 4 30 30 == 1 then
          { s with dev := { s.dev with vectors := s.dev.vectors ++ [lrF g.lrec 4 36 31] } } else s
        let s := { s with grids := s.grids.filter fun x => x.gid != grid,
                          wgs := s.wgs.filter fun e => e.2.grid != grid }
        .next (match g.parent with
          | some p => { s with teams := s.teams.modify p.2 (childGone g.fail.isSome),
                               savedTeams := s.savedTeams.modify p.2 (childGone g.fail.isSome) }
          | none => s)

def execGridRetire (grid : Quad) (s : State) : Out := retireGrid grid false s

end Sys2Proof.Machine
end

