-- ==== Sys2Proof/Machine/Sha.lean ====
section
/-! DEFINITION. SHA-384, the digest of the boot image and of portable bodies (R58, R139): the function that the spec names, as
its standard gives it (log entry 8). -/

namespace Sys2Proof.Machine

/-- The exclusive or of x turned right by each of some counts, in 64 bits, and of y. -/
def turned (y x : Nat) (counts : List Nat) : Nat :=
  counts.foldl (fun acc n => acc ^^^ (x / 2 ^ n + x % 2 ^ n * 2 ^ (64 - n))) y

/-- Whether no prime below 20 divides n but n itself: of the numbers from 2 to 440 those are the primes. -/
def isPrime (n : Nat) : Bool := 2 ≤ n && [2, 3, 5, 7, 11, 13, 17, 19].all fun d => n == d || n % d != 0

/-- The greatest y below start + 2^bits with y^k at most x, for a start that meets it. -/
def rootFrom (k x : Nat) : Nat → Nat → Nat
  | 0, start => start
  | bits + 1, start =>
    let y := start + 2 ^ bits
    rootFrom k x bits (if y ^ k ≤ x then y else start)

/-- The first 64 bits of the fraction of the k-th root of n: the standard takes its constants from primes so. -/
def rootFraction (k n : Nat) : Nat := rootFrom k (n * 2 ^ (64 * k)) 70 0 % 2 ^ 64

/-- The first 80 primes. -/
def shaPrimes : List Nat := (List.range 410).filter isPrime

/-- The next word of the schedule, from the words before it, newest first. -/
def shaNext (words : List Nat) : Nat :=
  let back := fun k => atD words (k - 1) 0
  let near := turned (back 2 / 2 ^ 6) (back 2) [19, 61]
  let far := turned (back 15 / 2 ^ 7) (back 15) [1, 8]
  (near + back 7 + far + back 16) % 2 ^ 64

/-- The schedule of a block, newest word first, grown by n words from its sixteen. -/
def shaGrow : Nat → List Nat → List Nat
  | 0, words => words
  | n + 1, words => shaGrow n (shaNext words :: words)

/-- One round on the working words a to h, with the sum of its constant and its schedule word. -/
def shaStep (ws : List Nat) (add : Nat) : List Nat :=
  let w := fun k => atD ws k 0
  let choice := w 6 ^^^ (w 4 &&& (w 5 ^^^ w 6))
  let majority := (w 0 &&& (w 1 ||| w 2)) ||| (w 1 &&& w 2)
  let inner := w 7 + turned 0 (w 4) [14, 18, 41] + choice + add
  let first := (inner + turned 0 (w 0) [28, 34, 39] + majority) % 2 ^ 64
  first :: ws.take 3 ++ (w 3 + inner) % 2 ^ 64 :: (ws.drop 4).take 3

/-- The hash value after one block of sixteen words. -/
def shaBlock (h : List Nat) (block : List Nat) : List Nat :=
  let adds := List.zipWith (fun p w => rootFraction 3 p + w) shaPrimes (shaGrow 64 block.reverse).reverse
  List.zipWith (fun x y => (x + y) % 2 ^ 64) h (adds.foldl shaStep h)

/-- A big-endian number from bytes. -/
def beNat (l : List Byte) : Nat := l.foldl (fun n b => n * 256 + b.toNat) 0

/-- The bytes of a number of n bytes, big-endian. -/
def beBytes (n x : Nat) : List Byte := (List.range n).map fun i => BitVec.ofNat 8 (x / 256 ^ (n - 1 - i))

/-- The hash value over n blocks of 128 bytes. -/
def shaBlocks : Nat → List Nat → List Byte → List Nat
  | 0, h, _ => h
  | n + 1, h, l =>
    shaBlocks n (shaBlock h ((List.range 16).map fun i => beNat ((l.drop (8 * i)).take 8))) (l.drop 128)

/-- The message with its padding: a one bit, zeros, its length in bits. -/
def shaPad (l : List Byte) : List Byte :=
  l ++ [0x80#8] ++ List.replicate ((239 - l.length % 128) % 128) 0#8 ++ beBytes 16 (8 * l.length)

/-- The SHA-384 digest: the first six words of the hash value, which begins at the ninth to the sixteenth prime. -/
def sha384 (l : List Byte) : List Byte :=
  let m := shaPad l
  let start := ((shaPrimes.drop 8).take 8).map (rootFraction 2)
  ((shaBlocks (m.length / 128) start m).take 6).flatMap (beBytes 8)

end Sys2Proof.Machine
end

