-- ==== Sys2Proof/Machine/Control.lean ====
section
/-! DEFINITION. Control instructions (R330 to R343): branches, calls, joins, ends, equivalence points and migration, child
launches, the repeat prefix. -/

namespace Sys2Proof.Machine

/-! Transfers of control. -/

/-- Stages 6 to 8 of a format-B instruction. -/
def issueB (f : Form) (s : State) (k : Ctx → Out) : Out :=
  withCtx s fun c0 =>
    let c := c0.window
    match c.tooEarly f with
    | some r => c.trap cStall [r] f.len
    | none => k (c.early f)

/-- The address of word i of the running body, for any integer i (R146, R331). -/
def Team.addrI (t : Team) (i : Int) : Quad :=
  match t.body.kind with
  | .trans _ => BitVec.ofNat 64 (2 ^ 63 + (i.emod (2 ^ 32)).toNat)
  | _ => ofInt 64 ((t.body.base : Int) + 4 * i)

/-- A relative target: word 0 + 4 × OFF18 (R331). -/
def Ctx.relTarget (c : Ctx) (off : BitVec 18) : Option Nat × Quad :=
  let i := (c.sp.pc : Int) + off.toInt
  (if 0 ≤ i then some i.toNat else none, c.t.addrI i)

/-- Check a target (R285), then go on with its word. -/
def Ctx.checked (c : Ctx) (target : Option Nat × Quad) (len : Nat) (k : Nat → Out) : Out :=
  match target.1 with
  | none => c.trap cBranch [target.2.toNat] len
  | some i =>
    match targetOk c.s c.t i with
    | .ok true => k i
    | .ok false => c.trap cBranch [target.2.toNat] len
    | .error e => c.tfault e (targetVa c.s c.t i).1 (targetVa c.s c.t i).2 0 len

/-- The split continues at word i. -/
def Ctx.goTo (c : Ctx) (t : Team) (i : Nat) : Out :=
  .next (c.put (t.modSplit c.sp.id fun p => jumpSplit i (countIssue 1 p)))

/-- The split's LNK takes the return address (R333). -/
def Ctx.link (c : Ctx) (len : Nat) : Team :=
  c.t.modSplit c.sp.id fun p => { p with lnk := c.t.addrOf (c.sp.pc + len) }

/-- Which splits made by a branch or a call are ready as it ends: the clause waits, and TAIL and STALL of its own clause must have
elapsed (R101, R121). -/
def Ctx.childReady (c : Ctx) (f : Form) (q : Split) : Bool :=
  let free := c.sp.cycle + pipeCycles c.t c.sp f
  readyBy (c.put (c.t.modSplit c.sp.id fun _ => { q with cycle := free + gapOf c.t c.sp f })) c.tid q.id free

def execBra (w : OpB) (s : State) : Out :=
  issueB (.b 0 w) s fun c => c.checked (c.relTarget w.off) 1 fun i => c.goTo c.t i

def execBru (w : OpB) (s : State) : Out :=
  issueB (.b 2 w) s fun c =>
    if c.rdQ w.psel.toNat != w.pn then c.checked (c.relTarget w.off) 1 fun i => c.goTo c.t i else c.done c.t 1

def execCall (w : OpB) (s : State) : Out :=
  issueB (.b 3 w) s fun c => c.checked (c.relTarget w.off) 1 fun i => c.goTo (c.link 1) i

/-- BRC (R116, R117, R332). -/
def execBrc (w : OpBRC) (s : State) : Out :=
  issueB (.brc w) s fun c =>
    let p := c.rdP w.psel.toNat
    let taken := c.sp.mask &&& (if w.pn then ~~~p else p)
    let rest := c.sp.mask &&& ~~~taken
    if taken == 0 then c.done c.t 2
    else c.checked (c.relTarget w.off) 2 fun i =>
      if rest == 0 then c.goTo c.t i
      else
        let sp := countIssue 1 c.sp
        let tk : Part2 := { lanes := taken, place := jumpSplit i }
        let nt : Part2 := { lanes := rest, place := nextSplit 2 }
        let join := ((c.sp.pc : Int) + w.join.toInt).toNat
        let neg := decide ((c.sp.pc : Int) + w.join.toInt < 0)
        let addr := if neg then absent else join
        let t := c.t.diverge (c.childReady (.brc w)) sp c.s.nextId addr false addr (if w.h then [tk, nt] else [nt, tk])
        .next { c.put t with nextId := c.s.nextId + 3 }

/-! CTLX (R334). -/

/-- The target that a word index names (R335): in a translated body through its correspondence entries. -/
def Ctx.indexTarget (c : Ctx) (x : Nat) : Option Nat × Quad :=
  match c.s.transOf c.t with
  | none => (some x, c.t.addrI x)
  | some b =>
    match b.corr.find? (·.1 == x) with
    | some e => (some e.2, c.t.addrI e.2)
    | none => (none, (match c.s.akoOf c.t with
        | some a => BitVec.ofNat 64 (a.base + a.pOff + 4 * x)
        | none => BitVec.ofNat 64 (4 * x)))

/-- The distinct targets of the active lanes with their lanes, in ascending order of the lowest lane (R120). -/
def groupTargets (l : List (Nat × (Option Nat × Quad))) : List ((Option Nat × Quad) × Mask) :=
  l.foldl (fun gs e =>
    if gs.any fun g => g.1 == e.2 then
      gs.map fun g => if g.1 == e.2 then (g.1, g.2 ||| laneMask [e.1]) else g
    else gs ++ [(e.2, laneMask [e.1])]) []

def Ctx.laneTargets (c : Ctx) (a : Nat) : List ((Option Nat × Quad) × Mask) :=
  groupTargets ((c.lanes c.sp.mask).map fun l => (l, c.indexTarget (c.rdV a l).toNat))

/-- The parts of a divided call or jump: each checks its target when it first issues (R286). -/
def goalParts (call : Bool) (len : Nat) (gs : List ((Option Nat × Quad) × Mask)) : List Part2 :=
  gs.map fun g => { lanes := g.2, place := fun p =>
    { p with goal := some { idx := g.1.1, addr := g.1.2, len := len, call := call } } }

def execJmpi (w : OpA) (s : State) : Out :=
  issueU 4 0 (sigJmpi w) w s fun c =>
    match c.laneTargets w.aN with
    | [] => c.done c.t (lenA w)
    | [g] => c.checked g.1 (lenA w) fun i => c.goTo c.t i
    | gs =>
      let t := c.t.divide (c.childReady (.a 4 0 w (sigJmpi w))) (countIssue 1 c.sp) c.s.nextId (goalParts false (lenA w) gs)
      .next { c.put t with nextId := c.s.nextId + gs.length }

def execCalli (w : OpA) (s : State) : Out :=
  issueU 4 1 (sigCalli w) w s fun c =>
    let back := c.sp.pc + lenA w
    match c.laneTargets w.aN with
    | [] => c.done c.t (lenA w)
    | [g] => c.checked g.1 (lenA w) fun i => c.goTo (c.link (lenA w)) i
    | gs =>
      let parts := (goalParts true (lenA w) gs).map fun q =>
        { q with place := fun p => { q.place p with lnk := c.t.addrOf back } }
      let t := c.t.diverge (c.childReady (.a 4 1 w (sigCalli w))) (countIssue 1 c.sp) c.s.nextId back true back parts
      .next { c.put t with nextId := c.s.nextId + gs.length + 1 }

/-- The split's parent record, if it was made at the split's own handler level (R270). -/
def Ctx.parentRec (c : Ctx) : Option Join :=
  (c.sp.parent.bind fun j => c.t.joins.find? (·.id == j)).filter fun r => r.lvl == c.sp.lvl

/-- RET (R336): an arrival when LNK is the join address of a record made by CALLI. -/
def execRet (w : OpA) (s : State) : Out :=
  issueU 4 2 (sigNone w) w s fun c =>
    if c.sp.lnk == 0 then c.trap cBranch [0] (lenA w)
    else c.checked (c.t.indexOf c.sp.lnk, c.sp.lnk) (lenA w) fun i =>
      match c.parentRec with
      | some r =>
        if r.call && r.addr == i then .next (c.put (c.t.arrive c.sp c.sp.mask none)) else c.goTo c.t i
      | none => c.goTo c.t i

/-- JOIN (R118, R337). -/
def execJoin (w : OpA) (s : State) : Out :=
  issueU 4 3 (sigNone w) w s fun c =>
    match c.parentRec with
    | some r =>
      if r.addr == c.sp.pc then
        .next (c.put (c.t.arrive c.sp c.sp.mask (if r.call then none else some (c.sp.pc + lenA w))))
      else c.done c.t (lenA w)
    | none => c.done c.t (lenA w)

/-- YIELD (R104, R337): the split goes to the back, unless it holds a reservation within its window. -/
def execYield (w : OpA) (s : State) : Out :=
  issueU 4 4 (sigNone w) w s fun c =>
    if c.sp.holds c.s then c.done c.t (lenA w)
    else
      let t := c.doneTeam c.t (lenA w)
      .next (c.put (match t.split? c.sp.id with
        | some p => { t with splits := (t.splits.filter fun x => x.id != p.id) ++ [p], rotate := false, timer := 0 }
        | none => t))

/-- EXIT (R119, R338). -/
def execExit (w : OpA) (s : State) : Out :=
  issueU 4 5 (sigNone w) w s fun c =>
    let s := releasePartners (c.put c.t) c.t
    match s.teams.at? c.tid with
    | none => .next s
    | some t => .next (settleEnd (deliverPending (s.setTeam c.tid (exitSplit t c.sp)) c.tid) c.tid)

def execNop (w : OpA) (s : State) : Out :=
  issueU 4 6 (sigNone w) w s fun c => c.done c.t (lenA w)

/-! Equivalence points and migration. -/

/-- The rank of a body in the order of R137. -/
def bodyRank (s : State) (g : Grid) (b : Body) : Nat :=
  match b.kind with
  | .portable => 4
  | .trans _ => 2
  | _ => (match g.ako with | some a => if a.stepping == s.dev.stepping.toNat then 1 else 3 | none => 3)

/-- The body a team changes to at an equivalence point, with its continuation point, but for the instruction that follows
(R142). -/
def Ctx.better (c : Ctx) (m : MapEntry) : Option (Body × Nat) :=
  if c.t.body.kind.native && !(c.t.mode.getLsbD 0 || c.t.forced) then none
  else if (quietCode c.s c.t).isSome || c.t.isFused then none
  else (c.s.teamGrid c.t).bind fun g =>
    (targetBody c.s c.t m (isL c.t.core)).filter fun b => bodyRank c.s g b.1 < bodyRank c.s g c.t.body

/-- TEQ (R140). -/
def teqOf (e : Nat) (mapped : Bool) : Quad := BitVec.ofNat 64 (e + 2 ^ 16 + (if mapped then 2 ^ 17 else 0))

/-- EQPT (R140, R142): a change of body waits until the matrix queue is empty, as a MIGRATE does (log entry 52). -/
def execEqpt (w : OpA) (s : State) : Out :=
  issueU 4 7 (sigEqpt w) w s fun c =>
    let e := w.dN * 256 + w.aN
    if c.sp.lvl != 0 then c.done c.t (lenA w)
    else match smapEntry c.s c.t e with
      | .error (f, va) => c.tfault f va 0 0 (lenA w)
      | .ok none => c.done { c.t with teq := teqOf e false } (lenA w)
      | .ok (some m) =>
        let t := { c.t with teq := teqOf e true }
        match c.better m with
        | none => c.done t (lenA w)
        | some (b, pc) =>
          match migrateNext c.s c.t c.sp.pc (lenA w) with
          | .error (f, va, access) => c.tfault f va access 0 (lenA w)
          | .ok true => c.done t (lenA w)
          | .ok false =>
            if !c.t.mat.isEmpty then c.park .matrixQueue
            else .next (noteUse (c.put (enterBody c.s t m b pc)) b)

/-- The lowest failing code of conditions 0x01 to 0x07 and 0x09 for a MIGRATE, or the entry it moves by (R141, R143). -/
def Ctx.quiesce (c : Ctx) (toL : Bool) : Except CodeFault (Except Nat MapEntry) :=
  match quietCode c.s c.t with
  | some x => .ok (.error x)
  | none =>
    match eqptBefore c.s c.t c.sp.pc with
    | .error f => .error f
    | .ok none => .ok (.error 6)
    | .ok (some e) =>
      match smapEntry c.s c.t e with
      | .error (f, va) => .error (f, va, 0)
      | .ok none => .ok (.error 7)
      | .ok (some m) =>
        if (targetBody c.s c.t m toL).isNone then .ok (.error 7)
        else if c.t.isFused then .ok (.error 9) else .ok (.ok m)

def execMigrate (w : OpA) (s : State) : Out :=
  issueU 4 8 (sigMigrate w) w s fun c =>
    let len := lenA w
    let toL := !bit w.a 0
    let tr := bit w.a 1
    let setQ := fun (b : Bool) => if tr then c.t.wrQ w.dN b else c.t
    if c.sp.lvl != 0 then c.trap cQuiesce [0x0A] len
    else match c.quiesce toL with
      | .error (f, va, access) => c.tfault f va access 0 len
      | .ok (.error x) => c.trap cQuiesce [x] len
      | .ok (.ok m) =>
        if (kindCores c.t.core toL).isEmpty then
          if tr then c.done (setQ false) len else c.trap cQuiesce [0x08] len
        else if toL == isL c.t.core then c.done (setQ true) len
        else
          let q := migQueue c.s c.t.core
          if tr && (!q.isEmpty || (migTarget c.s c.t toL).isNone) then c.done (setQ false) len
          else
            let r : MigReq := { team := c.tid, split := c.sp.id, toL := toL, pred := if tr then some w.dN else none, entry := m }
            let key := migKey c.t.core
            let s := c.put (c.t.modSplit c.sp.id fun p => { countIssue 1 p with park := some .migrate })
            let s := { s with migs := s.migs.insert key (q ++ [r]) }
            .next ((serveMig s key).getD s)

/-! Child grids (R341, R342). -/

/-- The GRIDID of a child (R82): SEQ counts the records queued there before it (log entry 22). -/
def childGid (pid die count : Nat) : Quad :=
  BitVec.ofNat 64 (pid * 2 ^ 60 + 2 ^ 59 + die * 2 ^ 57 + count % 2 ^ 57)

/-- Sixteen quadwords at a virtual address, as the team translates it; a fault names its address. -/
def rdRecord (s : State) (t : Team) (va : Nat) : Nat → Except (TFault × Nat) (List Quad)
  | 0 => .ok []
  | n + 1 =>
    match rdVa s t va 8 0 with
    | .error e => .error (e, va)
    | .ok x => (rdRecord s t ((va + 8) % 2 ^ 64) n).map fun l => BitVec.ofNat 64 x :: l

def execLaunch (w : OpA) (s : State) : Out :=
  issueU 4 9 (sigLaunch w) w s fun c =>
    let len := lenA w
    match c.s.teamGrid c.t with
    | none => c.done c.t len
    | some g =>
      if g.depth == 10 then c.trap cDepth [10] len
      else c.withRelease 2 4 fun c =>
        let va := (c.rdS w.aN).toNat
        let low := laneMask ((c.lanes c.sp.mask).take 1)
        if !vaOk va then c.trapLanes c.t cProt [va] low len
        else if va % 8 != 0 then c.trapLanes c.t cMisal [va] low len
        else match rdRecord c.s c.t va 16 with
          | .error (e, x) => c.tfault e x 0 low len
          | .ok l =>
            match checkRecord c.s g.pid g.ptbase l with
            | .error 0 => c.hold (lrAko l) 0     -- a read of the child's kernel object is held (R37)
            | .error d => c.trap cRecord [d] len
            | .ok _ =>
              let key := g.pid * 4 + c.t.core.die
              let q := (c.s.dqueues.at? key).getD []
              if 4096 ≤ q.length then c.park .launch
              else
                let n := c.s.dcount.get key
                let gid := childGid g.pid c.t.core.die n.toNat
                let r : ChildRec := { lrec := l, gid := gid, parent := g.gid, team := c.tid }
                let t := { (c.t.wrS c.sp.lvl w.dN gid) with children := c.t.children + 1 }
                { c with s := { c.s with dqueues := c.s.dqueues.insert key (q ++ [r]), dcount := c.s.dcount.set key (n + 1) } }.done
                  t len

def execWaitchild (w : OpA) (s : State) : Out :=
  issueU 4 10 (sigWaitchild w) w s fun c =>
    if c.t.children == 0 then
      c.done { (c.t.wrS c.sp.lvl w.dN (BitVec.ofNat 64 c.t.failed)) with failed := 0 } (lenA w)
    else c.park (.waitchild (lenA w))

/-! REPEAT (R306, R343). -/

def execRepeatN (w : OpP) (s : State) : Out :=
  withCtx s fun c =>
    .next (c.put (c.t.modSplit c.sp.id fun p => { nextSplit 1 p with rep := some w, bpSkip := p.bpSkip }))

/-! The device's part. -/

/-- A slot of the device-side queue has freed: the parked LAUNCH goes on (R74). -/
def execLaunchRetry (team split : Nat) (s : State) : Out :=
  match (s.teams.at? team).bind fun t => (t.split? split).map fun p => (t, p) with
  | some (t, p) =>
    let q := (s.dqueues.at? (s.pidOf t * 4 + t.core.die)).getD []
    if p.park == some .launch && q.length < 4096 then
      .next (s.setTeam team (t.modSplit split fun x => { x with park := none }))
    else notNow
  | none => notNow

/-- The head of a core's claim queue is granted (R95, R128): the new registers are zero. -/
def execClaimGrant (core : CoreId) (s : State) : Out :=
  let k := s.coreOf core
  match k.claims with
  | [] => notNow
  | (tid, sid, n) :: rest =>
    match (s.teams.at? tid).bind fun t => (t.split? sid).map fun p => (t, p) with
    | none => .next (s.setCore core { k with claims := rest })
    | some (t, p) =>
      let need := slabsOf (t.regs + n) t.moms t.width t.twlog - t.slabs
      if freeSlabs s core < need then notNow
      else
        let len := match p.park with | some (.claim _ l) => l | _ => 1
        let v := t.v.keep fun x => x < t.regs * 1024 || (t.regs + n) * 1024 ≤ x
        let t := { t with regs := t.regs + n, v := v }.modSplit sid fun x =>
          nextSplit len (countIssue 1 { x with park := none })
        .next (countTest s ((s.setCore core { k with claims := rest }).setTeam tid t) core)

/-- The head of a cluster's migration queue is served (R96). -/
def execMigrationServe (die cluster : Nat) (s : State) : Out :=
  match serveMig s (die * 16 + cluster) with | some s' => .next s' | none => notNow

/-- A state transfer completes (R144): the team runs its new body on the target; the origin's resources are free. The target's
cached lines may be older than what the team has read, and go (R183). -/
def execMigrationComplete (team : Nat) (s : State) : Out :=
  match s.teams.at? team with
  | none => notNow
  | some t =>
    match t.xfer with
    | none => notNow
    | some x =>
      let pc := (contPoint s x.entry x.body).getD 0
      let t' := enterBody s { t with core := x.dest, slot := x.slot, xfer := none } x.entry x.body pc
      let t' := { t' with counted := 0, hazards := [], splits := t'.splits.map fun p => { p with cycle := 0, pipe := none, waited := 0 } }
      let t' := match x.pred with | some q => t'.wrQ q true | none => t'
      .next (countTest s (l1Drop (noteUse (s.setTeam team t') x.body) x.dest fun _ => true) t.core)

end Sys2Proof.Machine
end

