-- ==== Sys2Proof/Machine/Uniform.lean ====
section
/-! DEFINITION. Uniform instructions: UALU (R344), SMOVI and SADDI (R345), UMISC (R347 to R351). -/

namespace Sys2Proof.Machine

/-! UALU (R344). -/

/-- The width of a TYPE code. -/
def ualuWidth (ty : Nat) : Nat := if ty ≤ 1 then 64 else 32
/-- Is a TYPE signed? -/
def ualuSigned (ty : Nat) : Bool := ty == 0 || ty == 2

/-- A source: its low bits, negated modulo 2^width where asked. -/
def ualuBits (ty : Nat) (x : Quad) (neg : Bool) : Nat :=
  let m := 2 ^ ualuWidth ty
  if neg then (m - x.toNat % m) % m else x.toNat % m

/-- The value of a source under TYPE. -/
def ualuVal (ty n : Nat) : Int := if ualuSigned ty then signedN (ualuWidth ty) n else n

/-- A result: clamped to the range of TYPE with SAT, else wrapped; then extended into the register. -/
def ualuRes (ty : Nat) (sat : Bool) (r : Int) : Quad :=
  let w := ualuWidth ty
  let r := if !sat then r
    else if ualuSigned ty then clampInt (-(2 ^ (w - 1) : Nat)) ((2 ^ (w - 1) : Nat) - 1) r
    else clampInt 0 ((2 ^ w : Nat) - 1) r
  match ty with
  | 2 => (ofInt 32 r).signExtend 64
  | 3 => (ofInt 32 r).zeroExtend 64
  | _ => ofInt 64 r

/-- The operands of a UALU instruction as bits under its TYPE. -/
structure UOps where
  ty : Nat
  sat : Bool
  a : Nat
  b : Nat
  c : Nat
  deriving DecidableEq, Repr

def Ctx.uops (c : Ctx) (g : Sig) (w : OpA) : UOps :=
  let m := mod300 w
  { ty := m.type, sat := m.sat, a := ualuBits m.type (c.rdS w.aN) m.nega, b := ualuBits m.type (c.rdS (g.bOf w)) m.negb,
    c := ualuBits m.type (c.rdS (g.cOf w)) false }

def UOps.va (o : UOps) : Int := ualuVal o.ty o.a
def UOps.vb (o : UOps) : Int := ualuVal o.ty o.b
def UOps.vc (o : UOps) : Int := ualuVal o.ty o.c

/-- Write the result of a UALU function and go on. -/
def ualu (fn : Nat) (g : Sig) (w : OpA) (s : State) (f : UOps → Int) : Out :=
  issueU 6 fn g w s fun c =>
    let o := c.uops g w
    c.done (c.t.wrS c.sp.lvl w.dN (ualuRes o.ty o.sat (f o))) (lenA w)

def execSmov (w : OpA) (s : State) : Out := ualu 0 (sigS2 w) w s fun o => o.va
def execSadd (w : OpA) (s : State) : Out := ualu 1 (sigS3Sat w) w s fun o => o.va + o.vb
def execSsub (w : OpA) (s : State) : Out := ualu 2 (sigS3Sat w) w s fun o => o.va - o.vb
def execSmul (w : OpA) (s : State) : Out := ualu 3 (sigS3Sat w) w s fun o => o.va * o.vb
def execSmad (w : OpA) (s : State) : Out := ualu 4 (sigS4Sat w) w s fun o => o.va * o.vb + o.vc
def execSand (w : OpA) (s : State) : Out := ualu 5 (sigS3 w) w s fun o => (o.a &&& o.b : Nat)
def execSor (w : OpA) (s : State) : Out := ualu 6 (sigS3 w) w s fun o => (o.a ||| o.b : Nat)
def execSxor (w : OpA) (s : State) : Out := ualu 7 (sigS3 w) w s fun o => (o.a ^^^ o.b : Nat)
def execSshl (w : OpA) (s : State) : Out := ualu 8 (sigS3 w) w s fun o => (o.a * 2 ^ (o.b % ualuWidth o.ty) : Nat)
def execSshr (w : OpA) (s : State) : Out := ualu 9 (sigS3 w) w s fun o => (o.a / 2 ^ (o.b % ualuWidth o.ty) : Nat)
def execSsar (w : OpA) (s : State) : Out :=
  ualu 10 (sigS3 w) w s fun o => signedN (ualuWidth o.ty) o.a / (2 ^ (o.b % ualuWidth o.ty) : Nat)
def execSmin (w : OpA) (s : State) : Out := ualu 11 (sigS3 w) w s fun o => min o.va o.vb
def execSmax (w : OpA) (s : State) : Out := ualu 12 (sigS3 w) w s fun o => max o.va o.vb

def execScmp (w : OpA) (s : State) : Out :=
  issueU 6 13 (sigScmp w) w s fun c =>
    let m := mod300 w
    let o := c.uops (sigScmp w) w
    let a := ualuVal m.type (ualuBits m.type (c.rdS w.aN) false)
    c.done (c.t.wrQ w.dN (condInt m.cond a o.vb)) (lenA w)

def execSsel (w : OpA) (s : State) : Out :=
  issueU 6 14 (sigSsel w) w s fun c =>
    let o := c.uops (sigSsel w) w
    let x := if c.rdQ ((sigSsel w).cOf w) then o.va else o.vb
    c.done (c.t.wrS c.sp.lvl w.dN (ualuRes o.ty false x)) (lenA w)

/-! SMOVI, SADDI (R345). -/

/-- The immediate of format I, sign-extended to 64 bits (R297). -/
def imm7 (w : OpI7) : Quad := w.imm.signExtend 64
def imm30 (w : OpI30) : Quad := w.imm.signExtend 64

def execSmovi (w : OpI7) (s : State) : Out :=
  issueIS (.i7 7 w false false) w.d.toNat w.a.toNat 1 s fun _ => imm7 w
def execSmoviImm30 (w : OpI30) (s : State) : Out :=
  issueIS (.i30 7 w false false) w.d.toNat w.a.toNat 2 s fun _ => imm30 w
def execSaddi (w : OpI7) (s : State) : Out :=
  issueIS (.i7 8 w false true) w.d.toNat w.a.toNat 1 s fun x => x + imm7 w
def execSaddiImm30 (w : OpI30) (s : State) : Out :=
  issueIS (.i30 8 w false true) w.d.toNat w.a.toNat 2 s fun x => x + imm30 w

/-! State registers (R347). -/

/-- CORE (R163's table). -/
def coreReg (s : State) (t : Team) : Quad :=
  BitVec.ofNat 64 (t.core.die + t.core.cluster * 4 + t.core.core * 64 + (if isL t.core then 512 else 0) +
    (if s.dev.replica then 1024 else 0))

/-- HOME (R149). -/
def homeReg (s : State) (t : Team) : Quad :=
  match s.wgOf t with
  | some w => BitVec.ofNat 64 (w.home.core + w.slot * 8 + w.blocks.length * 2 ^ 16)
  | none => 0

/-- TCAUSE (R266). -/
def tcauseReg (r : TrapRec) : Quad :=
  BitVec.ofNat 64 (r.cause + r.resume * 256 + (if r.team then 1024 else 0) + r.slot * 2048)

/-- TMASK (R266). -/
def tmaskReg (r : TrapRec) : Quad :=
  r.tmask.getD (BitVec.ofNat 64 ((summary r.lanes).toNat + maskCount r.lanes * 2 ^ 32))

/-- A fault-record register by its index above 0x040 or 0x140 (R266, R267): the record holds TEQ as it stood. -/
def recReg (r : TrapRec) (i : Nat) : Quad :=
  match i with
  | 0 => r.tpc
  | 1 => r.tpc2
  | 2 => tcauseReg r
  | 3 => atD r.info 0 0
  | 4 => atD r.info 1 0
  | 5 => atD r.info 2 0
  | 6 => atD r.info 3 0
  | 7 => r.teq
  | 8 => tmaskReg r
  | _ => r.exb

/-- The order of KPC, KPC2, KCAUSE, KINFO0 to KINFO3, KMASK, KEQ, KEXB (R267). -/
def kReg (r : TrapRec) (i : Nat) : Quad := if i == 7 then tmaskReg r else if i == 8 then r.teq else recReg r i

/-- The Orangery of a partition on a die. -/
def State.orangeryOf (s : State) (die pid : Nat) : Orangery := (s.orangery.at? (die * 16 + pid)).getD {}

/-- ORANGERY (R164). -/
def orangeryReg (o : Orangery) : Quad :=
  BitVec.ofNat 64 (o.ways + o.thresh * 256 + o.decay * 2 ^ 16 + o.pinned.length * 2 ^ 32)

/-- A state register (R347): TEQ outside the privileged handler is the team's own (R140). -/
def stateReg (c : Ctx) (i : Nat) : Quad :=
  let t := c.t
  let rec_ := if c.sp.lvl == 2 then t.krec else t.urec
  if i == 0x000 then BitVec.ofNat 64 (t.idx + t.twlog * 16)
  else if i == 0x001 then BitVec.ofNat 64 (((c.s.wgOf t).map (·.lin)).getD 0)
  else if i == 0x002 then ((c.s.wgOf t).map (·.grid)).getD 0
  else if i == 0x003 then BitVec.ofNat 64 (t.width + t.words * 2 ^ 16)
  else if i == 0x004 then coreReg c.s t
  else if i == 0x005 then BitVec.ofNat 64 (((c.s.teamGrid t).map (·.depth)).getD 0)
  else if i == 0x006 then homeReg c.s t
  else if i == 0x010 then c.sp.fmt
  else if i == 0x011 then t.flags
  else if i == 0x012 then t.lstat
  else if i == 0x013 then poolReg c.s t
  else if i == 0x014 then BitVec.ofNat 64 t.wct
  else if i == 0x015 then BitVec.ofNat 64 (clockOf c.s t.core.die)
  else if i == 0x016 then c.sp.lnk
  else if 0x018 ≤ i && i ≤ 0x01B then BitVec.ofNat 64 (atD t.tlc (i - 0x018) 0)
  else if 0x01C ≤ i && i ≤ 0x01F then BitVec.ofNat 64 (atD t.tliss (i - 0x01C) 0)
  else if 0x020 ≤ i && i ≤ 0x023 then BitVec.ofNat 64 (pathCount t (i - 0x020))
  else if i == 0x030 then t.exp.stat
  else if i == 0x031 then t.exp.region
  else if i == 0x032 then t.exp.total
  else if i == 0x033 then t.exp.batch
  else if i == 0x047 && c.sp.lvl == 0 then t.teq
  else if 0x040 ≤ i && i ≤ 0x049 then recReg rec_ (i - 0x040)
  else if i == 0x050 then t.thbase
  else if i == 0x108 then t.mode ||| (if t.forced then 1#64 else 0#64)
  else if i == 0x110 then orangeryReg (c.s.orangeryOf t.core.die (c.s.pidOf t))
  else if 0x120 ≤ i && i ≤ 0x123 then atD (c.s.coreOf t.core).bps (i - 0x120) 0
  else if 0x140 ≤ i && i ≤ 0x149 then kReg t.krec (i - 0x140)
  else 0

/-- The OPERAND_FORMAT word of a value written to FMT, if it is refused (R236). -/
def fmtBad (x : Quad) : Option Nat :=
  if (fmtOf (bits x 5 0)).isNone then some (bits x 5 0)
  else if (fmtOf (bits x 11 6)).isNone then some (bits x 11 6)
  else if bits x 63 33 != 0 then some 0xFFFFFFFF
  else none

/-- FLAGS without its reserved bits (R4, R242). -/
def flagsOf (x : Quad) : Quad := x &&& 0x11F3F#64

/-- Lines of the Orangery per slice and way; the largest WAYS whose size does not exceed 32 MiB (R164). -/
def waysFit (slices ways : Nat) : Nat :=
  ((List.range (ways + 1)).reverse.find? fun w => w * slices * 262144 ≤ 33554432).getD 0

/-- A write of ORANGERY (R164): WAYS 5 to 7 as 4 and within 32 MiB, THRESH 0 as 1; lines of removed ways become
ordinary ones. -/
def writeOrangery (s : State) (die pid : Nat) (x : Quad) : State :=
  let o := s.orangeryOf die pid
  let n := (slicesOf s pid die).length
  let ways := waysFit n (Nat.min 4 (bits x 2 0))
  let o := { o with ways := ways, thresh := if bits x 15 8 == 0 then 1 else bits x 15 8, decay := bits x 19 16,
                    pinned := keepPinned s ways o.pinned }
  { s with orangery := s.orangery.insert (die * 16 + pid) o }

/-- The state after a SETS that takes effect (R347); reserved bits read as zero (R4). -/
def setState (c : Ctx) (i : Nat) (x : Quad) : Ctx :=
  let t := c.t
  if i == 0x010 then { c with t := t.modSplit c.sp.id fun p => { p with fmt := x } }
  else if i == 0x011 then { c with t := { t with flags := flagsOf x } }
  else if i == 0x016 then { c with t := t.modSplit c.sp.id fun p => { p with lnk := x } }
  else if i == 0x050 then { c with t := { t with thbase := x } }
  else if i == 0x108 then
    { c with t := { t with mode := x &&& 3#64 } }
  else if i == 0x110 then { c with s := writeOrangery c.s t.core.die (c.s.pidOf t) x }
  else if 0x120 ≤ i && i ≤ 0x123 then
    let k := c.s.coreOf t.core
    { c with s := c.s.setCore t.core { k with bps := setAt k.bps (i - 0x120) (x &&& 0xFFFFFFFFFFFFFFFD#64) } }
  else c

/-- Stage 6 for a state register: 0x100 and above outside the privileged handler (R314). -/
def privIndex (i : Nat) (c : Ctx) : Option Nat := if 0x100 ≤ i && c.sp.lvl != 2 then some i else none

def execGets (w : OpA) (s : State) : Out :=
  issueK (privIndex w.modN) 9 0 (sigGets w) w s fun c =>
    if c.guarded w then c.done (c.t.wrS c.sp.lvl w.dN (stateReg c w.modN)) (lenA w) else c.done c.t (lenA w)

def execSets (w : OpA) (s : State) : Out :=
  issueK (privIndex w.modN) 9 1 (sigSets w) w s fun c =>
    if c.guarded w then
      let x := c.rdS w.aN
      match (if w.modN == 0x010 then fmtBad x else none) with
      | some e => c.trap cFormat [e] (lenA w)
      | none => let c' := setState c w.modN x; c'.done c'.t (lenA w)
    else c.done c.t (lenA w)

/-! VOTE, RED, SLDP, QOP. -/

def execVote (w : OpA) (s : State) : Out :=
  issueA 9 2 (sigVote w) w s fun c =>
    let guarded := c.writing w.gN w.gnB
    let voting := guarded &&& c.rdP w.aN
    let n := (sigVote w).bOf w
    let t := match w.md 1 0 with
      | 0 => c.t.wrQ w.dN (voting != 0)
      | 1 => c.t.wrQ w.dN (voting == guarded)
      | 2 => c.t.wrS c.sp.lvl w.dN (if c.t.width ≤ 64 * n then 0 else voting.extractLsb' (64 * n) 64)
      | _ => c.t.wrS c.sp.lvl w.dN (BitVec.ofNat 64 (maskCount voting))
    c.done t (lenA w)

/-- The exact sum of a list of f32 codes, rounded once (R349). -/
def sumF32 (l : List Nat) : Nat :=
  match l with
  | [] => 0
  | _ =>
    let vs := l.map (decodeF fmtF32)
    let negz := vs.all fun v => v.isZero && v.neg?
    let tot := vs.foldl (fun acc v => (addF acc v 0).1) (.fin negz 0 0 false)
    (roundF32 (match tot with | .nan _ => .nan false | x => x)).1

/-- A reduction of RED and SCAN (R349): operation, type, the 32-bit values. -/
def reduce (op ty : Nat) (l : List Nat) : Word :=
  let sv := fun x : Nat => if ty == 0 then signedN 32 x else (x : Int)
  let ext := fun (sgn : Int) (e : Int) => l.foldl (fun m x => if sgn * m < sgn * sv x then sv x else m) e
  match op with
  | 0 => if ty == 2 then BitVec.ofNat 32 (sumF32 l) else BitVec.ofNat 32 (l.foldl (· + ·) 0)
  | 1 => if ty == 2 then BitVec.ofNat 32 (extF32 (-1) l)
    else ofInt 32 (ext (-1) (if ty == 0 then 2147483647 else 4294967295))
  | 2 => if ty == 2 then BitVec.ofNat 32 (extF32 1 l) else ofInt 32 (ext 1 (if ty == 0 then -2147483648 else 0))
  | 3 => BitVec.ofNat 32 (l.foldl (· &&& ·) 0xFFFFFFFF)
  | 4 => BitVec.ofNat 32 (l.foldl (· ||| ·) 0)
  | _ => BitVec.ofNat 32 (l.foldl (· ^^^ ·) 0)

def execRed (w : OpA) (s : State) : Out :=
  issueA 9 3 (sigRed w) w s fun c =>
    let l := (c.lanes (c.writing w.gN w.gnB)).map fun l => (c.rdV w.aN l).toNat
    let r := reduce (w.md 2 0) (w.md 4 3) l
    c.done (c.t.wrS c.sp.lvl w.dN (if w.md 4 3 == 0 then r.signExtend 64 else r.zeroExtend 64)) (lenA w)

def execSldp (w : OpA) (s : State) : Out :=
  issueU 9 4 (sigSldp w) w s fun c =>
    let x := match c.s.wgOf c.t with
      | some g => leNat (g.param.read (8 * w.aN) 8)
      | none => 0
    c.done (c.t.wrS c.sp.lvl w.dN (BitVec.ofNat 64 x)) (lenA w)

def execQop (w : OpA) (s : State) : Out :=
  issueU 9 5 (sigQop w) w s fun c =>
    let a := c.rdQ w.aN
    let b := c.rdQ ((sigQop w).bOf w)
    let r := match w.md 2 0 with
      | 0 => a && b
      | 1 => a || b
      | 2 => a != b
      | 3 => !a
      | 4 => a
      | _ => w.md 3 3 == 1
    c.done (c.t.wrQ w.dN r) (lenA w)

end Sys2Proof.Machine
end

