-- ==== Sys2Proof/Machine/Sys.lean ====
section
/-! DEFINITION. System instructions (R435 to R445): raising and leaving traps, MOVUSER, the split record, TSAVED, the
register pool, TRESHAPE, LEASECLK; and the events that enter traps and pre-emption (R264, R279). -/

namespace Sys2Proof.Machine

/-! TRAP, BKPT, TRET. -/

def execTrap (w : OpA) (s : State) : Out :=
  issueU 25 0 (sigTrap w) w s fun c => c.trap cTrap [w.dN * 256 + w.aN] (lenA w)

def execBkpt (w : OpA) (s : State) : Out :=
  issueU 25 2 (sigNone w) w s fun c => c.trap cBreak [0] (lenA w)

/-- Stage 6 (R314): trap context, or the privileged handler. -/
def inTrap (c : Ctx) : Option Nat := if c.sp.lvl == 0 then some 0xFFFFFFFF else none
def inPriv (c : Ctx) : Option Nat := if c.sp.lvl != 2 then some 0xFFFFFFFF else none

/-- May the handler leave: its mask is the trapped split's and no entry lies above the frame (R438)? -/
def Ctx.mayLeave (c : Ctx) : Bool :=
  let lvl := c.sp.lvl
  let alone := !(c.t.splits.any fun p => p.id != c.sp.id && p.lvl == lvl) && !(c.t.joins.any fun r => r.lvl == lvl)
  let mask := match (c.t.frame lvl).bind (·.split) with
    | some p => p.mask
    | none => c.sp.mask
  alone && c.sp.mask == mask

/-- Leave the privileged handler (R438): the frame is freed and the team's splits stand where they stopped. -/
def leavePriv (t : Team) (hid : Nat) (redo : Option Mask) (tgt : Option Nat) : Team :=
  -- an operation that a translation fault had stopped meets it again (R81, R279)
  let eng := t.eng.map fun l => l.map fun o => { o with fault := false, entry := none }
  let t := { t.dropSplit hid with kframe := none, stop := false, eng := eng }
  let first := (t.splits.head?).map (·.id)
  -- a split inside a clause finishes it interlocked (R305)
  let on := fun (x : Split) =>
    let p := { x with intl := x.clause.isSome }
    if some p.id == first then
      (match tgt with | some i => jumpSplit i p | none => { p with redo := redo.or p.redo })
    else p
  ({ t with splits := t.splits.map on } : Team).reload

/-- A team that is being restored gets back what its routine has not loaded itself: its split table if SPLITLD has not filled
it, its expansion context if EXRSTR has not (R284, log entry 54). -/
def Team.reclaim (t image : Team) : Team :=
  let empty := t.splits.all (·.lvl == 2) && t.joins.isEmpty && t.uframe.isNone
  let t := if empty then { t with splits := t.splits ++ image.splits, joins := image.joins, uframe := image.uframe } else t
  if t.exp == {} then { t with exp := image.exp } else t

/-- Is a workgroup still being saved: another team of it is in the handler of a PREEMPT, or saved already (R92)? -/
def stillSaving (s : State) (w : Nat) : Bool :=
  (s.teams.any fun e => e.2.wg == w && e.2.kframe.isSome && e.2.krec.cause == cPreempt && (s.savedTeams.at? e.1).isNone) ||
  s.savedTeams.any fun e => e.2.wg == w && (s.teams.at? e.1).isNone

/-- TRET's resumption in the privileged handler, by RESUME of the record (R438). -/
def Ctx.tretPriv (c : Ctx) (tgt : Option Nat) : Out :=
  let r := c.t.krec
  if r.cause != cPreempt && r.resume == 3 && tgt.isNone then .next (failWg c.s c.t.wg r.cause)
  else
    let redo := if r.cause != cPreempt && r.resume == 2 then some r.lanes else none
    let t := match c.s.savedTeams.at? c.tid with | some x => c.t.reclaim x | none => c.t
    let s := { c.put (leavePriv t c.sp.id redo tgt) with savedTeams := c.s.savedTeams.erase c.tid }
    let s := if stillSaving s c.t.wg then s
      else s.modWg c.t.wg fun w => if w.st == .saving then { w with st := .resident } else w
    .next (deliverPending s c.tid)

/-- TRET with its resumption, or its target. A user record that SPLITLD loaded may say L or X as well (R438). -/
def Ctx.tret (c : Ctx) (tgt : Option Nat) : Out :=
  if c.sp.lvl == 2 then c.tretPriv tgt
  else if tgt.isNone && (c.t.uframe.map fun f => f.trap.resume == 3).getD false then .next (failWg c.s c.t.wg c.t.urec.cause)
  else .next (settleEnd (deliverPending (c.put (leaveUser c.t c.sp.id tgt)) c.tid) c.tid)

def execTret (w : OpA) (s : State) : Out :=
  issueK inTrap 25 1 (sigNone w) w s fun c =>
    if !c.guarded w then c.done c.t (lenA w)
    else if !c.mayLeave then c.trap cQuiesce [1] (lenA w) else c.tret none

/-- TRET.to (R438): the target is checked before the frame is freed. -/
def execTretTo (w : OpA) (s : State) : Out :=
  issueK inTrap 25 1 (sigTretTo w) w s fun c =>
    if !c.guarded w then c.done c.t (lenA w)
    else if !c.mayLeave then c.trap cQuiesce [1] (lenA w)
    else
      let x := c.rdS w.aN
      c.checked (c.t.indexOf x, x) (lenA w) fun i => c.tret (some i)

/-! MOVUSER (R439). -/

/-- The level whose registers MOVUSER names: the context the handler interrupted, or the team's own. -/
def Ctx.userLevel (c : Ctx) (team : Bool) : Nat := if c.sp.lvl == 2 && !team && c.t.uframe.isSome then 1 else 0

def execMovuser (w : OpA) (s : State) : Out :=
  let team := w.md 2 2 == 1
  let dir := w.md 1 0
  let priv := fun (c : Ctx) => (inTrap c).or (if team && c.sp.lvl == 1 then some 0xFFFFFFFF else none)
  let above := fun (c : Ctx) => if dir % 2 == 0 && c.userLevel team == 0 && c.t.regs ≤ w.aN then some w.aN else none
  issueKR priv above 25 3 (sigMovuser w) w s fun c =>
    let u := c.userLevel team
    let lanes := c.lanes (c.writing w.gN w.gnB)
    match dir with
      | 0 => c.done (c.t.wrVs c.sp.lvl w.dN (lanes.map fun l => (l, c.t.rdV u w.aN l))) (lenA w)
      | 2 => c.done (c.t.wrVs u w.aN (lanes.map fun l => (l, c.rdV w.dN l))) (lenA w)
      | 1 => c.done (if c.guarded w then c.t.wrS c.sp.lvl w.dN (c.t.rdS u w.aN) else c.t) (lenA w)
      | _ => c.done (if c.guarded w then c.t.wrS u w.aN (c.rdS w.dN) else c.t) (lenA w)

/-! The split record (R440, R441). -/

/-- An entry of the split record. -/
structure SplitEnt where
  kind    : Nat
  slot    : Nat := 0
  parent  : Nat := 0xFFFF
  pending : Nat := 0
  rot     : Nat := 0xFFFF
  pcause  : Nat := 0
  pc      : Quad
  lnk     : Quad
  fmt     : Quad
  mask    : Mask
  ptpc    : Quad := 0
  pinfo   : List Quad := []
  pmask   : Mask := 0
  deriving DecidableEq, Repr

/-- The 44 quadwords of an entry. -/
def SplitEnt.quads (e : SplitEnt) : List Nat :=
  [e.kind + e.slot * 2 ^ 8 + e.parent * 2 ^ 16 + e.pending * 2 ^ 32 + e.rot * 2 ^ 48, e.pcause, e.pc.toNat, e.lnk.toNat,
   e.fmt.toNat, (summary e.mask).toNat + (summary e.pmask).toNat * 2 ^ 32, e.ptpc.toNat] ++
  ((List.range 4).map fun i => (atD e.pinfo i 0).toNat) ++ [0] ++
  ((List.range 16).map fun i => nbits e.mask.toNat (64 * i + 63) (64 * i)) ++
  ((List.range 16).map fun i => nbits e.pmask.toNat (64 * i + 63) (64 * i))

/-- The slot of a split's PC within its clause, 0xFF at a clause header (R305, R440). -/
def slotByte (p : Split) : Nat := match p.clause with | some c => c.slot | none => 0xFF

/-- The entry of a split. Its PC is the target that it has still to check, at a header (R305); with its own BRANCH_TARGET or a trap of a
repeated instruction pending, the JMPI, CALLI or REPEAT which that trap names. -/
def splitEnt (t : Team) (p : Split) (parent rot : Nat) : SplitEnt :=
  let r : TrapRec := (p.pend.head?).getD { info := [] }
  let back := if p.rep.isSome then 1 else 0
  let goal := p.goal.filter fun _ => !p.pend.any fun q => q.cause == cBranch
  { kind := 0, slot := if goal.isSome then 0xFF else slotByte p - back, parent := parent, rot := rot,
    pc := (match goal with | some g => g.addr | none => t.addrOf (p.pc - back)),
    lnk := p.lnk, fmt := p.fmt, mask := p.mask,
    pcause := r.cause, ptpc := r.tpc, pinfo := r.info, pmask := r.lanes }
/-- The entry of a join record, with a deferred trap of the lanes that wait there (R405). -/
def joinEnt (t : Team) (r : Join) (parent : Nat) : SplitEnt :=
  let q : TrapRec := (r.pend.head?).getD { info := [] }
  { kind := 1, parent := parent, pending := r.pending, pc := t.addrOf r.addr, lnk := r.lnk, fmt := r.fmt, mask := r.mask,
    pcause := q.cause, ptpc := q.tpc, pinfo := q.info, pmask := q.lanes }

/-- The entries of a team's table below the privileged frame, parents first: by number, each made after its parent; the
frame holds the trapped split's mask, LNK and FMT and the handler's address. -/
def splitEntries (s : State) (t : Team) : List (Nat × SplitEnt) × Option Nat :=
  let rotOf := fun sid : Nat => (t.splits.filter (·.lvl != 2)).findIdx fun p => p.id == sid
  let frame : Option (Nat × Split) := match t.uframe.bind (·.split) with
    | some p => some (p.id, p)
    | none => none
  let entry : Quad := match handlerIndex s t with | some h => t.addrOf h | none => 0
  let keys := sortAsc ((t.splits.filter (·.lvl != 2)).map (fun p => 2 * p.id + 1) ++
    (t.joins.filter (·.lvl != 2)).map (fun r => 2 * r.id + 1) ++
    (match frame with | some f => [2 * f.1] | none => []))
  let idx := fun k : Nat => (keys.findIdx fun x => x == k)
  -- above the frame, entries without a record of the handler's own stand under the frame
  let par := fun (lvl : Nat) (q : Option Nat) => match q with
    | some j => if lvl == 1 && !(t.joins.any fun r => r.id == j && r.lvl == 1) then
        (match frame with | some f => idx (2 * f.1) | none => 0xFFFF) else idx (2 * j + 1)
    | none => if lvl == 1 then (match frame with | some f => idx (2 * f.1) | none => 0xFFFF) else 0xFFFF
  let ents := keys.filterMap fun k =>
    if k % 2 == 0 then
      frame.map fun f => (k, { splitEnt t f.2 (par 0 f.2.parent) 0xFFFF with kind := 2, slot := 0, pc := entry })
    else match t.splits.find? (fun p => p.id == k / 2) with
      | some p =>
        some (k, splitEnt t p (par p.lvl p.parent) (rotOf p.id))
      | none => (t.joins.find? (fun r => r.id == k / 2)).map fun r => (k, joinEnt t r (par r.lvl r.parent))
  (ents, frame.map fun f => idx (2 * f.1))

/-- The split record as quadwords: TIMER is the fairness timer's count (R104, log entry 4), TEQ the team's (R140). -/
def splitRecord (s : State) (t : Team) : List Nat :=
  let (ents, frame) := splitEntries s t
  let u := t.urec
  [ents.length + t.timer % 2 ^ 32 * 2 ^ 32, t.width + frame.getD 0xFFFF * 2 ^ 16] ++
  ([u.tpc, u.tpc2, tcauseReg u, atD u.info 0 0, atD u.info 1 0, atD u.info 2 0, atD u.info 3 0, tmaskReg u, t.teq,
    u.exb].map (·.toNat)) ++ [0, 0, 0, 0] ++ ents.flatMap fun e => e.2.quads

/-- SPLITSV (R440): its stores go to their sites, and it is parked until all are acknowledged. -/
def execSplitsv (w : OpA) (s : State) : Out :=
  issueK inPriv 25 4 (sigSaddr w) w s fun c =>
    let len := lenA w
    if !c.guarded w then c.done c.t len
    else
      let va := (c.rdS w.aN).toNat
      if va % 128 != 0 then c.trap cMisal [va] len
      else
        let qs := splitRecord c.s c.t
        let m := c.mapLanes 8 1 (fun _ => true) ((List.range qs.length).map fun i => (i, (va + 8 * i) % 2 ^ 64))
        match m.bad ++ m.served with
        | e :: _ => c.trap e.2.2 [e.2.1] len
        | [] =>
          let c := c.fly { id := 0, split := 0, path := 1, kind := .store,
                           runs := mkRuns 8 m.ok fun i _ => { lane := 0, reg := 0, data := atD qs i 0 } }
          .next (c.put ((c.doneTeam c.t len).modSplit c.sp.id fun p => { p with park := some (.waitp 1 0) }))

/-- An entry from its 44 quadwords. -/
def SplitEnt.ofQuads (l : List Nat) : SplitEnt :=
  let q := fun i => atD l i 0
  let mask := fun i => BitVec.ofNat 1024 ((List.range 16).foldl (fun x k => x + q (i + k) * 2 ^ (64 * k)) 0)
  { kind := nbits (q 0) 7 0, slot := nbits (q 0) 15 8, parent := nbits (q 0) 31 16, pending := nbits (q 0) 47 32,
    rot := nbits (q 0) 63 48, pcause := nbits (q 1) 7 0, pc := BitVec.ofNat 64 (q 2), lnk := BitVec.ofNat 64 (q 3),
    fmt := BitVec.ofNat 64 (q 4), mask := mask 12, ptpc := BitVec.ofNat 64 (q 6),
    pinfo := (List.range 4).map fun i => BitVec.ofNat 64 (q (7 + i)), pmask := mask 28 }

/-- The fields that must be zero of an entry. -/
def entZero (l : List Nat) : Bool := nbits (atD l 1 0) 63 8 == 0 && atD l 11 0 == 0

/-- May the record fill the table (R441)? -/
def entsOk (es : List SplitEnt) (width : Nat) : Bool :=
  let splits := es.filter (·.kind == 0)
  let masks := splits.map (·.mask.toNat)
  let disjoint := (List.range masks.length).all fun i => (List.range i).all fun j => atD masks i 0 &&& atD masks j 0 == 0
  (es.all fun e => e.kind ≤ 2) && (es.filter (·.kind == 2)).length ≤ 1 &&
  ((List.range es.length).all fun i => match es[i]? with
    | some e => e.parent == 0xFFFF || e.parent < i
    | none => true) &&
  disjoint && (es.all fun e => e.mask.toNat < 2 ^ width) &&
  sortAsc (splits.map (·.rot)) == List.range splits.length

/-- The clause of which word i is slot k: its header is the nearest before it whose slots lead to i. -/
def clauseFrom (s : State) (t : Team) (i k : Nat) : List Nat → Except CodeFault (Option Clause)
  | [] => .ok none
  | d :: r =>
    if i < d + 1 then .ok none
    else match wordAt s t (i - (d + 1)) with
      | .error e => .error e
      | .ok none => clauseFrom s t i k r
      | .ok (some h) =>
        if !isHeader h then clauseFrom s t i k r
        else match slotWords s t (i - d) k with
          | .error e => .error e
          | .ok j =>
            if j == i then .ok (some { slot := k, count := bits h 27 24, cls := bits h 23 21, intl := h.getLsbD 12,
                                       tail := bits h 16 13 })
            else clauseFrom s t i k r

/-- A place in the running body from an address and a slot byte. -/
def placeAt (s : State) (t : Team) (a : Quad) (slot : Nat) : Except CodeFault (Nat × Option Clause) :=
  let i := (t.indexOf a).getD t.body.len
  if !t.body.kind.native || slot == 0xFF then .ok (i, none)
  else (clauseFrom s t i slot (List.range 31)).map fun c => (i, c)

/-- How far a return N passes at word i. -/
def lenAt (s : State) (t : Team) (i : Nat) : Except CodeFault Nat :=
  (wordAt s t i).map fun x => match x with
    | some w => if isHeader w then 0 else if xOf w then 2 else 1
    | none => 0

/-- Where something stands in the body: the word, the clause, the length of the instruction there, the REPEAT that it follows, and
whether it is a CALLI, or a JOIN. -/
structure Stand where
  at_    : Nat
  clause : Option Clause
  len    : Nat
  rep    : Option OpP := none
  call   : Bool := false
  join   : Bool := false
  deriving DecidableEq, Repr

/-- Does the matrix unit defer a cause of the instruction at a word (R405, R238)? -/
def deferred (cause : Nat) (info : Quad) (w : Word) : Bool :=
  ((opOf w == 22 && [0, 1, 3].contains (fnOf w)) || (opOf w == 23 && (fnOf w == 11 || fnOf w == 12))) &&
  (cause == cFp || cause == cNegVar || (cause == cFormat && bits info 15 8 == 6))

/-- Where the split of a trap that names word i stands (R284): at the word; behind a REPEAT that the trap names for the instruction it
repeats (R308); a deferred trap of a split at the word is returned from to the word itself. -/
def standOf (s : State) (t : Team) (i : Nat) (clause : Option Clause) (cause : Nat) (info : Quad) (defer : Bool) :
    Except CodeFault Stand :=
  match wordAt s t i with
  | .error e => .error e
  | .ok none => .ok { at_ := i, clause := clause, len := 0 }
  | .ok (some w) =>
    let ctl := fun (fn : Nat) => !isHeader w && opOf w == 4 && fnOf w == fn
    if !isHeader w && opOf w == 5 && cause != 0 && !(cause == cIllegal && info.toNat == w.toNat) then
      (lenAt s t (i + 1)).map fun k =>
        { at_ := i + 1, clause := clause.map fun c => { c with slot := c.slot + 1 }, len := k, rep := some (readP w) }
    else
      (lenAt s t i).map fun k =>
        { at_ := i, clause := clause, len := if defer && !isHeader w && deferred cause info w then 0 else k,
          call := ctl 1, join := ctl 3 }

/-- Where an entry of the record stands in the table, as SPLITLD reads it from the body. -/
structure EntPlace where
  ent   : SplitEnt
  num   : Nat                -- its index
  place : Stand
  deriving DecidableEq, Repr

/-- The places of the entries of a record; a word that does not translate ends them. -/
def entPlaces (s : State) (t : Team) : Nat → List SplitEnt → Except CodeFault (List EntPlace)
  | _, [] => .ok []
  | n, e :: r =>
    let own := e.kind == 0 && e.pcause != 0 && e.ptpc == e.pc
    match placeAt s t e.pc (if e.kind == 0 then e.slot else 0xFF) with
    | .error x => .error x
    | .ok pl =>
      match standOf s t pl.1 pl.2 (if own then e.pcause else 0) (atD e.pinfo 0 0) true with
      | .error x => .error x
      | .ok st => (entPlaces s t (n + 1) r).map fun l => { ent := e, num := n, place := st } :: l

/-- The entries that stand above the user frame. -/
def aboveFrame (es : List SplitEnt) : List Nat :=
  let frame := es.findIdx? (·.kind == 2)
  (List.range es.length).foldl (fun (l : List Nat) i =>
    match es[i]? with
    | some e => if some e.parent == frame || l.contains e.parent then l ++ [i] else l
    | none => l) []

/-- Does a BRANCH_TARGET at a CALLI count as an arrival on its return (R286): the parent record awaits the call's parts after it? -/
def arrives (joins : List Join) (parent : Option Nat) (cause : Nat) (st : Stand) : Bool :=
  cause == cBranch && st.call && (parent.bind fun j => joins.find? (·.id == j)).any fun r => r.addr == st.at_ + st.len

/-- The pending trap of an entry (R284, R440). -/
def EntPlace.pend (x : EntPlace) (base : Nat) : List TrapRec :=
  let e := x.ent
  if e.pcause == 0 then []
  else [{ cause := e.pcause, resume := resumeOf e.pcause (atD e.pinfo 0 0).toNat, team := teamCause e.pcause, tpc := e.ptpc,
          info := e.pinfo, lanes := e.pmask, slot := e.slot, len := if e.ptpc == e.pc then x.place.len else 0,
          order := base + x.num }]

/-- Entries are spilled until the table holds 32 with the privileged frame (R121, R441). -/
def Team.spillTo32 (t : Team) : Nat → Team
  | 0 => t
  | n + 1 => if 32 < t.entries then t.spillOne.spillTo32 n else t

/-- The table an accepted record gives (R441): entry i becomes number base + i; the handler waits for the spills it causes. The target
of a divided JMPI or CALLI that a split had still to check is checked no more (log entry 72). -/
def loadSplits (t : Team) (l : List EntPlace) (user : Stand) (u : TrapRec) (base hid : Nat) : Team :=
  let es := l.map (·.ent)
  let frameAt := es.findIdx? (·.kind == 2)
  let above := aboveFrame es
  let lvlOf := fun i => if above.contains i then 1 else 0
  let up := fun (e : SplitEnt) => if e.parent == 0xFFFF || some e.parent == frameAt then none else some (base + e.parent)
  let ofKind := fun k => l.filter fun x => x.ent.kind == k
  let joins := (ofKind 1).map fun x =>
    let st := x.place
    ({ id := base + x.num, parent := up x.ent, addr := st.at_, call := !st.join, mask := x.ent.mask, arrived := 0, lnk := x.ent.lnk,
       fmt := x.ent.fmt, pending := x.ent.pending, next := if st.join then st.at_ + st.len else st.at_, pend := x.pend base,
       lvl := lvlOf x.num } : Join)
  let mk := fun (x : EntPlace) =>
    let st := x.place
    let p : Split := { id := base + x.num, parent := up x.ent, pc := st.at_, clause := st.clause, mask := x.ent.mask, lnk := x.ent.lnk,
                       fmt := x.ent.fmt, intl := st.clause.isSome, lvl := lvlOf x.num, rep := st.rep,
                       pend := (x.pend base).map fun r => { r with arrive := arrives joins (up x.ent) r.cause st } }
    { p with park := p.waitsTrap }
  let splits := (List.range (ofKind 0).length).filterMap fun r => ((ofKind 0).find? fun x => x.ent.rot == r).map mk
  let uframe : Option Frame := (ofKind 2).head?.map fun x =>
    { trap := { u with len := user.len, arrive := arrives joins (up x.ent) u.cause user }, v := [], s := [],
      split := some { id := base + x.num, parent := up x.ent, pc := user.at_, clause := user.clause, mask := x.ent.mask,
                      lnk := x.ent.lnk, fmt := x.ent.fmt, rep := user.rep, pend := x.pend base } }
  -- lanes of a record that no entry under it holds have arrived
  let under := fun (j : Join) => ((splits ++ (uframe.bind (·.split)).toList).filter fun p => p.parent == some j.id).foldl
    (fun m p => m ||| p.mask)
    ((joins.filter fun r => r.parent == some j.id).foldl (fun m r => m ||| r.mask) 0)
  let held := joins.map fun j => { j with arrived := j.mask &&& ~~~(under j) }
  let t : Team := { t with splits := t.splits ++ splits, joins := held, uframe := uframe, urec := u, teq := u.teq }
  let spills := decide (32 < t.entries)
  (t.spillTo32 l.length).modSplit hid fun p => { p with grotto := p.grotto || spills }

/-- UREC's fields (R266, R440). -/
def urecOf (l : List Nat) : TrapRec :=
  let q := fun i => BitVec.ofNat 64 (atD l i 0)
  let c := atD l 2 0
  { cause := nbits c 7 0, resume := nbits c 9 8, team := c.testBit 10, slot := nbits c 14 11, tpc := q 0, tpc2 := q 1,
    -- TEQ and EXB keep the bits that R266 defines (R5)
    info := [q 3, q 4, q 5, q 6], teq := BitVec.ofNat 64 (nbits (atD l 8 0) 17 0), exb := BitVec.ofNat 64 (nbits (atD l 9 0) 32 0),
    tmask := some (BitVec.ofNat 64 (nbits (atD l 7 0) 42 0)) }

/-- Where the trapped split of the user frame stands: at its trap's instruction, and a return N passes that, after a deferred trap as
well, whose place the record does not hold (log entry 72). -/
def trapPlace (s : State) (t : Team) (u : TrapRec) (noFrame : Bool) : Except CodeFault Stand :=
  if noFrame then .ok { at_ := 0, clause := none, len := 0 }
  else match placeAt s t u.tpc (if t.body.kind.native then u.slot else 0xFF) with
    | .error e => .error e
    | .ok pl => standOf s t pl.1 pl.2 u.cause (atD u.info 0 0) false

/-- A split record as SPLITLD reads it: the places of its entries and of the trapped split, the user record, the timer. -/
structure SplitImage where
  ents  : List EntPlace
  user  : Stand
  urec  : TrapRec
  timer : Nat
  deriving DecidableEq, Repr

/-- Read the split record at an address (R441): a fault with its address, none for a record that is refused. An FMT with a reserved bit
refuses the record as it refuses an FMTSET (R5, R236). The words of the body that tell where an entry stands are read with the record
(log entry 53). -/
def readSplits (s : State) (t : Team) (va : Nat) : Except (TFault × Nat) (Option SplitImage) :=
  match rdQuads s t va 16 with
  | .error e => .error e
  | .ok hd =>
    let n := nbits (atD hd 0 0) 31 0
    if n == 0 || 2050 < n || nbits (atD hd 1 0) 15 0 != t.width || nbits (atD hd 1 0) 63 32 != 0 ||
       (hd.drop 12).any (· != 0) then .ok none
    else match rdQuads s t (va + 128) (44 * n) with
      | .error e => .error e
      | .ok body =>
        let raw := (List.range n).map fun i => (body.drop (44 * i)).take 44
        let es := raw.map SplitEnt.ofQuads
        let u := urecOf (hd.drop 2)
        if !raw.all entZero || !entsOk es t.width || es.any (fun e => (fmtBad e.fmt).isSome) then .ok none
        else match entPlaces s t 0 es, trapPlace s t u (!es.any (·.kind == 2)) with
          | .ok l, .ok x => .ok (some { ents := l, user := x, urec := u, timer := nbits (atD hd 0 0) 63 32 })
          | .error e, _ => .error (e.1, e.2.1)
          | _, .error e => .error (e.1, e.2.1)

/-- SPLITLD (R441): it waits while a read of the record is held (R37). -/
def execSplitld (w : OpA) (s : State) : Out :=
  issueK inPriv 25 5 (sigSaddr w) w s fun c =>
    let len := lenA w
    if !c.guarded w then c.done c.t len
    else if (c.t.splits.any fun p => p.lvl != 2) || !c.t.joins.isEmpty || c.t.uframe.isSome then c.trap cQuiesce [1] len
    else match readSplits c.s c.t (c.rdS w.aN).toNat with
      | .error (e, va) => if e.cause == 0 then c.hold va 0 else c.trap e.cause [va] len
      | .ok none => c.trap cFormat [] len
      | .ok (some x) =>
        let t := { loadSplits c.t x.ents x.user x.urec c.s.nextId c.sp.id with timer := x.timer }
        { c with s := { c.s with nextId := c.s.nextId + x.ents.length } }.done t len

/-! TSAVED and pre-emption (R279, R442). -/

/-- A split without the timing that its core gave it. -/
def Split.offCore (p : Split) : Split := { p with cycle := 0, pipe := none, waited := 0 }

/-- A team and those fused into it leave their core and wait saved. -/
def saveTeam (s : State) (tid : Nat) : State :=
  (tid :: fusedInto s tid).foldl (fun s i =>
    match s.teams.at? i with
    | none => s
    | some t =>
      let t := match s.savedTeams.at? i with | some x => t.reclaim x | none => t
      let t := { t with kframe := none, stop := false, preempt := false, prefs := [], counted := 0,
                        -- the cycles of this core say nothing on the next one
                        splits := (t.splits.filter (·.lvl != 2)).map Split.offCore,
                        uframe := t.uframe.map fun f => { f with split := f.split.map Split.offCore },
                        eng := setAt (t.eng.map fun l => l.map fun o => { o with started := false, fault := false, entry := none }) 4 [] }
      { removeTeam s i with savedTeams := s.savedTeams.insert i t }) s

/-- TSAVED (R442): it waits until the path counters are zero. Its split stands at it until then: firmware's handler executes nothing
else (Park.again). -/
def execTsaved (w : OpA) (s : State) : Out :=
  issueK inPriv 25 6 (sigNone w) w s fun c =>
    if !c.guarded w then c.done c.t (lenA w)
    else if c.t.krec.cause != cPreempt then c.trap cQuiesce [1] (lenA w)
    else if !c.t.flights.isEmpty then c.park (.again (.tsaved w) none)
    else
      let s := saveTeam (c.put c.t) c.tid
      let s := if (s.teamsOf c.t.wg).isEmpty then saveWg s c.t.wg else s
      .next (countTest c.s s c.t.core)

/-- A split as PREEMPT finds it (R97, R279): parked instructions are withdrawn and execute again; one that waits for a
serviced fault executes again for the lanes that faulted; a trap that waits stays pending. -/
def wakeForPreempt (s : State) (tid : Nat) (p : Split) : Split :=
  let lanes := match s.faultReq.find? (fun f => f.team == tid && f.split == p.id && f.engine.isNone) with
    | some f => some f.lanes
    | none => (s.faultQ.find? fun f => f.team == tid && f.split == p.id && f.engine.isNone).map (·.lanes)
  let redo := match lanes with | some m => if m == 0 then p.redo else some m | none => p.redo
  let served := match p.park with | some (.fault _) => true | some .faultPending => true | _ => false
  Split.unprefix { p with resv := none, stage := 0, park := p.waitsTrap, redo := if served then redo else p.redo }

/-- Is there Lodge room for a privileged frame (R269)? -/
def privRoom (s : State) (t : Team) : Bool :=
  userLodge s t.core + privLodge s t.core + frameKiB t.width ≤ lodgeKiB t.core

/-- A fault of the table that the record of a PREEMPT needs is served before its entry (R462). -/
def preemptFault (s : State) (tid : Nat) (t : Team) (cause va : Nat) : State :=
  let front := (t.splits.head?).getD { id := 0 }
  let r := { mkRec s t front cause [va] t.live 0 with resume := 2 }
  fileFault s tid t { mkReq s tid t front.id va r.tpc cause 0 t.live with engine := some 6, trap := r }

/-- PREEMPT is taken (R279): once every split stands at an instruction boundary, a REPEAT's instruction not yet issued among them (R308), release fences, the matrix queue and the
accesses in flight are complete and no transfer is under way. Queues are left, reservations cleared, engine contexts
stand at their chunks; the privileged handler's split stops every other. A fault of the table that its record needs is served
first (R462). -/
def execPreemptDelivery (team : Nat) (s : State) : Out :=
  match s.teams.at? team with
  | none => notNow
  | some t =>
    let fencing := t.splits.any fun p => match p.park with
      | some (.release _ _) => true | some (.acquire _ _ _ _) => true | some (.bankcfg _ _ _) => true | _ => false
    if !t.preempt || t.kframe.isSome || t.ended || t.dead || t.fused.isSome || t.xfer.isSome || fencing || !t.flights.isEmpty ||
       !t.mat.isEmpty || !privRoom s t || t.preEntry.isSome || corrHeld s t ||
       (s.faultReq.any fun f => f.team == team && f.engine == some 6) || s.dev.tripped then notNow
    else match corrFault s t with
    | some (c, va) => .next (preemptFault s team t c va)
    | none =>
      let front := (t.splits.head?).getD { id := 0 }
      let r := { mkRec s t front cPreempt [] t.live 0 with resume := 0 }
      let hs : Split := { id := s.nextId, pc := front.pc, mask := t.live, lnk := front.lnk, fmt := front.fmt, lvl := 2 }
      let hs := { hs with grotto := t.full }
      -- the frame takes an entry of the table (R121), which spills before the parked splits are woken
      let t := { t.makeRoom with splits := t.makeRoom.splits.map (wakeForPreempt s team) }
      -- the contexts stand at their chunks and hold no engine (R279, R395)
      let t := { t with eng := (t.eng.take 4).map (fun (l : List EngOp) => l.map fun (o : EngOp) => { o with started := false }) ++ t.eng.drop 4 }
      let t := { t with krec := r, kframe := some (newFrame r none t.width), stop := true, preempt := false,
                        exp := { t.exp with arrived := none }, hazards := [], splits := hs :: t.splits }
      let k := s.coreOf t.core
      let s := s.setCore t.core { k with claims := k.claims.filter fun x => x.1 != team }
      let s := { s with migs := s.migs.mapVals (fun l => l.filter fun m => m.team != team),
                        faultReq := s.faultReq.filter (fun f => f.team != team || f.wg.isSome), nextId := s.nextId + 1 }
      .next ((s.setTeam team t).modWg t.wg fun w => { w with st := .saving })

/-- A trap whose entry waited is entered (R264, R269): a team-wide one once the path counters are zero, a user-level one
once a frame and Lodge room are free and it is the oldest. A fault of the correspondence table is served first (R462). -/
def execTrapEntry (team split : Nat) (s : State) : Out :=
  match (s.teams.at? team).bind fun t => (t.split? split).map fun p => (t, p) with
  | none => notNow
  | some (t, p) =>
    match (if s.dev.tripped then none else p.pend.head?) with
    | none => notNow
    | some r =>
      if !userCause r.cause then
        if p.park != some .trap || (r.team && t.pathsBusy) || (p.lvl != 2 && corrHeld s t) then notNow
        else match (if p.lvl == 2 then none else corrFault s t) with
          | some (c, va) => .next (serveEntry s team t p r c va 0)
          | none => .next (deliverX s team t p (r.fresh s t))
      else if t.kframe.isSome || t.preempt || t.stop || !atBoundary p || !mayEnter s team t r.order ||
         (t.thbase != 0 && entryHeld s t) then notNow
      else .next (deliverOf s team t p)

/-! RCLAIM, RREL, RQUERY (R127 to R129, R443). -/

/-- n of RCLAIM and RREL. -/
def Ctx.claimN (c : Ctx) (w : OpA) : Nat := if w.md 0 0 == 1 then (c.rdS w.aN).toNat else w.aN

/-- The checks of R443 in order; `ok` is the range condition. -/
def Ctx.claimChecks (c : Ctx) (w : OpA) (ok : Nat → Bool) (k : Nat → Out) : Out :=
  let n := c.claimN w
  if c.sp.lvl != 0 then c.trap cQuiesce [0x0A] (lenA w)
  else if !c.t.converged then c.trap cQuiesce [1] (lenA w)
  else if 256 < n || n % 8 != 0 || !ok n then c.trap cClaim [n] (lenA w)
  else k n

def execRclaim (w : OpA) (s : State) : Out :=
  issueU 25 7 (sigClaim w) w s fun c =>
    c.claimChecks w (fun n => c.t.regs + n + 2 * c.t.moms ≤ 256) fun n =>
      let k := c.s.coreOf c.t.core
      let s := c.put (c.t.modSplit c.sp.id fun p => { p with park := some (.claim n (lenA w)) })
      .next (parkTest (s.setCore c.t.core { k with claims := k.claims ++ [(c.tid, c.sp.id, n)] }) c.t)

def execRrel (w : OpA) (s : State) : Out :=
  issueU 25 8 (sigClaim w) w s fun c =>
    c.claimChecks w (fun n => n + 8 ≤ c.t.regs) fun n =>
      let regs := c.t.regs - n
      let t := { c.t with regs := regs, v := c.t.v.keep (fun x => x < regs * 1024), willRelease := false }
      .next (countTest c.s (c.put (c.doneTeam t (lenA w))) c.t.core)

def execRquery (w : OpA) (s : State) : Out :=
  issueU 25 9 (sigSdst w) w s fun c => c.done (c.t.wrS c.sp.lvl w.dN (poolReg c.s c.t)) (lenA w)

def execLeaseclk (w : OpA) (s : State) : Out :=
  issueU 25 11 (sigSdst w) w s fun c =>
    c.done (c.t.wrS c.sp.lvl w.dN (BitVec.ofNat 64 (clockOf c.s c.t.core.die))) (lenA w)

/-! TRESHAPE (R122 to R124, R444). -/

/-- Per-lane state of one half with the other's n lanes above its own n. -/
def storeUp {b : Nat} (base up : Store b) (n : Nat) : Store b :=
  let own := fun e : Nat × BitVec b => decide (e.1 % 1024 < n)
  Store.setAll (base.filter own) ((up.filter own).reverse.map fun e => (e.1 + n, e.2))
/-- Predicates of two halves. -/
def predsUp (base up : Store 1024) (n : Nat) : Store 1024 :=
  base.setAll ((List.range 8).map fun i => (i, base.get i ||| (up.get i <<< n)))

/-- The fused team (R123): the lower team with the upper's lanes. It awaits what either awaits at a release (R185). -/
def fuseTeams (lo up : Team) : Team :=
  let n := lo.width
  { lo with width := 2 * n, v := storeUp lo.v up.v n, m := storeUp lo.m up.m n, p := predsUp lo.p up.p n,
            acks := lo.acks ++ up.acks, prefs := lo.prefs ++ up.prefs,
            splits := lo.splits.map fun p =>
              { p with mask := p.mask ||| (((up.splits.head?).map (·.mask)).getD 0 <<< n) } }

/-- Per-lane state of the lanes from lo to lo + n - 1, numbered from 0. -/
def storeHalf {b : Nat} (st : Store b) (lo n : Nat) : Store b :=
  (st.filter fun e => lo ≤ e.1 % 1024 && e.1 % 1024 < lo + n).map fun e => (e.1 - lo, e.2)
def predsHalf (st : Store 1024) (lo n : Nat) : Store 1024 :=
  Store.setAll [] (st.map fun e : Nat × BitVec 1024 => (e.1, (e.2 >>> lo) &&& fullMask n))

/-- The halves of a fused team (R124): the lower keeps the fused team's team-wide state, the upper gets copies and its own
kept accumulators and timeline counters. -/
def splitLower (f : Team) : Team :=
  let n := f.width / 2
  { f with width := n, v := storeHalf f.v 0 n, m := storeHalf f.m 0 n, p := predsHalf f.p 0 n,
           splits := f.splits.map fun p => { p with mask := p.mask &&& fullMask n } }
def splitUpper (f kept : Team) (id : Nat) : Team :=
  let n := f.width / 2
  { kept with fused := none, width := n, regs := f.regs, v := storeHalf f.v n n, m := storeHalf f.m n n,
              p := predsHalf f.p n n, s := f.s, q := f.q, ly := f.ly, h := f.h, flags := f.flags, wct := f.wct,
              hazards := [], joins := [],
              splits := f.splits.map fun p => { p with id := id, mask := p.mask >>> n } }

/-- A team whose split holds no lane has ended. -/
def endIfEmpty (t : Team) : Team :=
  if (t.splits.all fun p => p.mask == 0) && t.joins.isEmpty then { t with splits := [], ended := true } else t

/-- The buddy of a team, if it lives and is not fused away. -/
def buddy (s : State) (t : Team) : Option (Nat × Team) :=
  (s.teamsOf t.wg).find? fun e => e.2.idx == buddyIdx t && !e.2.ended && e.2.fused.isNone

/-- The split of a buddy that is parked in TRESHAPE.FUSE. -/
def fuseParked (t : Team) : Option Split :=
  t.splits.find? fun p => match p.park with | some (.fuse _) => true | _ => false

/-- A FUSE arrival that fails: the partners parked for it are released as well (R122). -/
def Ctx.fuseFail (c : Ctx) (reason len : Nat) : Out :=
  .next (releaseFuse (raise c.s c.tid c.t c.sp cQuiesce [reason] c.sp.mask len) c.t)

/-- How the split goes on after a TRESHAPE: at the clause header after it, past the slots left of its clause (R123, R124). -/
def Ctx.pastClause (c : Ctx) (len : Nat) : Except CodeFault (Split → Split) :=
  match c.sp.clause with
  | none => .ok (nextSplit len)
  | some k => (slotWords c.s c.t c.sp.pc (k.count - k.slot)).map fun j => jumpSplit j

/-- TRESHAPE.FUSE (R122, R123). Buddies on different cores fuse on the lower team's; teams in different bodies do not fuse (log entry
68). -/
def Ctx.fuse (c : Ctx) (len : Nat) : Out :=
  match quietCode c.s c.t with
  | some x => c.fuseFail x len
  | none =>
    if 1024 < 2 * c.t.width then c.fuseFail 0x0C len
    else match buddy c.s c.t with
      | none => c.fuseFail 0x0C len
      | some (bt, b) =>
        match fuseParked b with
        | none =>
          .next (c.put (c.t.modSplit c.sp.id fun x => { x with park := some (.fuse len) }))
        | some bp =>
          if b.width != c.t.width || b.regs != c.t.regs || bp.pc != c.sp.pc || b.body != c.t.body then c.fuseFail 0x0C len
          else match c.pastClause len with
            | .error (f, va, access) => c.tfault f va access 0 len
            | .ok on =>
              let mine := c.t.modSplit c.sp.id fun p => on (countIssue 1 p)
              let theirs := b.modSplit bp.id fun p => on { p with park := none }
              let (lt, lo, ut, up) := if c.t.idx < b.idx then (c.tid, mine, bt, theirs) else (bt, theirs, c.tid, mine)
              let s := c.s.setTeam lt (fuseTeams lo up)
              .next (s.setTeam ut { up with fused := some lt, splits := [], v := [], m := [], p := [], acks := [], prefs := [] })

def Ctx.unfuse (c : Ctx) (len : Nat) : Out :=
  match quietCode c.s c.t with
  | some x => c.trap cQuiesce [x] len
  | none =>
    if !c.t.isFused then c.trap cQuiesce [0x09] len
    else
      let up := (c.s.teamsOf c.t.wg).find? fun e =>
        e.2.fused == some c.tid && e.2.idx == c.t.idx + c.t.width / (2 * 2 ^ c.t.twlog)
      match up, c.pastClause len with
      | none, _ => c.done c.t len
      | _, .error (f, va, access) => c.tfault f va access 0 len
      | some (ut, kept), .ok on =>
        let f := c.t.modSplit c.sp.id fun p => on (countIssue 1 p)
        let s := c.put (endIfEmpty (splitLower f))
        let s := { s.setTeam ut (endIfEmpty (splitUpper f kept c.s.nextId)) with nextId := c.s.nextId + 1 }
        .next (settleEnd (settleEnd s c.tid) ut)

def execTreshape (w : OpA) (s : State) : Out :=
  issueU 25 10 (sigTreshape w) w s fun c =>
    if c.sp.lvl != 0 then c.trap cQuiesce [0x0A] (lenA w)
    else if !c.t.mat.isEmpty then c.park .matrixQueue
    else if w.md 0 0 == 0 then c.fuse (lenA w) else c.unfuse (lenA w)

end Sys2Proof.Machine
end

