-- ==== Sys2Proof/Machine/Sched.lean ====
section
/-! DEFINITION. The scheduler: what fits where (R86 to R89, R93, R94), placing and restoring a workgroup (R79, R88, R93,
R110, R350, R462), blocking grids and the scheduler's own pre-emptions (R87, R91, R100), turns (R106), the translation
service (R138, R139), pre-emption requests (R98). -/

namespace Sys2Proof.Machine

/-! What a core has free (R88). -/

/-- What a workgroup needs of its home core. -/
structure Need where
  slabs  : Nat
  tiles  : Nat
  treg   : Nat
  blocks : Nat
  slots  : Nat
  deriving DecidableEq, Repr

/-- What a workgroup of a launch record needs. -/
def needOf (l : List Quad) : Need :=
  { slabs := lrSlabs l, tiles := lrTeams l * lrAccs l, treg := lrTreg l, blocks := lrBlocks l, slots := lrTeams l }

/-- SRAM blocks a core may still give to workgroups: 16 stay caches, LENT ones are held (R152, R88, R61). -/
def blocksFree (s : State) (c : CoreId) : Nat :=
  (if isL c then 16 else 32) - (s.dev.retired.at? (coreKey c)).getD 0 -
    (s.wgs.vals.filter fun w => w.live && w.home == c).foldl (fun n w => n + w.blocks.length) 0
/-- FIFO blocks of a core in use or being changed: at most 8 (R152). -/
def fifosUsed (s : State) (c : CoreId) : Nat := (bankCounts s c []).2
/-- Free TREG bytes. -/
def tregFree (s : State) (c : CoreId) : Nat :=
  coreTreg c - (s.wgs.filter fun e => e.2.live && e.2.home == c).foldl (fun n e => n + tregBytes s e.1) 0

/-- Do the needs fit on a core now (R88)? -/
def coreFits (s : State) (c : CoreId) (n : Need) : Bool :=
  n.slabs ≤ freeSlabs s c && n.tiles ≤ tilesFree s c && n.treg ≤ tregFree s c && n.blocks ≤ blocksFree s c &&
  n.slots ≤ (slotsFree s c).length && (s.coreOf c).claims.isEmpty

/-- Must the core's resources first serve the head of its cluster's migration queue (R94)? -/
def migFirst (s : State) (c : CoreId) : Bool :=
  (serveMig s (clusterOf c)).isSome && (match s.migs.at? (clusterOf c) with
    | some (r :: _) => r.toL == isL c
    | _ => false)

/-- The first of some cores by a key. -/
def minCore (key : CoreId → List Nat) (l : List CoreId) : Option CoreId :=
  let lt := fun (a b : List Nat) => decide (a < b)
  l.foldl (fun m c => match m with
    | some x => if lt (key c) (key x) then some c else some x
    | none => some c) none

/-- The core of a partition on a die with the most free slabs, held for a blocking grid (R87). -/
def heldCore (s : State) (pid die : Nat) : Option CoreId :=
  minCore (fun c => [1000 - freeSlabs s c, c.cluster, c.core]) (coresOf s pid die)

/-- The blocking grids of a partition on a die (R87). -/
def blockers (s : State) (pid die : Nat) : List Grid :=
  (s.blocking.filter fun b => b.1 == die).filterMap fun b => (s.gridOf b.2).filter fun g => g.pid == pid

/-- May a grid take a core: not while another grid of the partition is blocking and the core is held for it (R87)?
Of two that are blocking the one of higher PRIO has it. -/
def notHeld (s : State) (g : Grid) (c : CoreId) : Bool :=
  let bars := fun (b : Grid) => b.gid != g.gid && !((blockers s g.pid c.die).contains g && b.prio < g.prio)
  !((blockers s g.pid c.die).any bars) || heldCore s g.pid c.die != some c

/-- The core on which the next workgroup of a grid is placed on a die, if it fits on one (R88, R89). -/
def pickCore (s : State) (g : Grid) (die : Nat) : Option CoreId :=
  let n := needOf g.lrec
  let fifo := lrFifo g.lrec
  let fits := fun c => (g.ako.any fun a => runnable a (isL c)) && coreFits s c n && fifosUsed s c + fifo ≤ 8 &&
    !migFirst s c && (n.blocks == 0 || coreAcked s c) && notHeld s g c
  let native := fun c => g.ako.any fun a => (nativeBody a (isL c)).len != 0
  minCore (fun c => [if native c then 0 else 1, if isL c then 1 else 0, 1000 - freeSlabs s c, c.cluster, c.core])
    ((coresOf s g.pid die).filter fits)

/-! Restoring (R93, R284). -/

/-- Put a saved team back on a core. -/
def seat (s : State) (tid : Nat) (t : Team) (c : CoreId) : State :=
  { s.setTeam tid { t with core := c, slot := (slotsFree s c).headD 0 } with savedTeams := s.savedTeams.erase tid }

/-- Seat teams that had migrated, each on a core of the other kind in the home's cluster (R93), which no other blocking grid
and no migration claims first (R87, R94). -/
def seatMigrated (s : State) (g : Grid) (home : CoreId) : List (Nat × Team) → Option State
  | [] => some s
  | (tid, t) :: r =>
    let ok := fun c => partOf s (clusterOf c) == s.pidOf t && coreTakes s { t with core := c } c && !migFirst s c && notHeld s g c
    match minCore (fun c => [1000 - freeSlabs s c, c.core]) ((kindCores home (!isL home)).filter ok) with
    | some c => seatMigrated (seat s tid t c) g home r
    | none => none

/-- A restored team stands in its privileged handler, whose routine loads what was saved (R284): its table holds the frame
alone (R441), and its image waits for the routine's TRET. -/
def enterRestore (s : State) (tid : Nat) (t : Team) : State :=
  let front := (t.splits.head?).getD { id := 0 }
  let hs : Split := { id := s.nextId, pc := front.pc, mask := t.live, lnk := front.lnk, fmt := front.fmt, lvl := 2 }
  let t' := { t with splits := [hs], joins := [], uframe := none, exp := {}, kframe := some (newFrame t.krec none t.width),
                     stop := true }
  { s.setTeam tid t' with savedTeams := s.savedTeams.insert tid t, nextId := s.nextId + 1 }

/-- Is there Lodge room on a core, also for the user frames of teams that are being restored there (R269)? -/
def lodgeHolds (s : State) (c : CoreId) : Bool :=
  let later := s.savedTeams.filter fun e => e.2.uframe.isSome && ((s.teams.at? e.1).map (·.core)) == some c
  userLodge s c + privLodge s c + later.foldl (fun n e => n + frameKiB e.2.width) 0 ≤ lodgeKiB c

/-- The teams of a workgroup that has been seated enter their restore routines, if the Lodge has room. -/
def enterRestores (s : State) (w : Nat) : Option State :=
  let s' := (s.teamsOf w).foldl (fun s e => if e.2.fused.isSome then s else enterRestore s e.1 e.2) s
  if (s'.teamsOf w).all fun e => lodgeHolds s' e.2.core then some s' else none

/-- What the home core of a saved workgroup must have. -/
def savedNeed (s : State) (w : Nat) (x : Wg) (ts : List (Nat × Team)) : Need :=
  { slabs := (ts.filter fun e => e.2.fused.isNone).foldl (fun n e => n + e.2.slabs) 0,
    tiles := ts.foldl (fun n e => n + e.2.accs) 0, treg := tregBytes s w, blocks := x.blocks.length, slots := ts.length }

/-- The state with a saved workgroup restored, if it fits on a core of its die now (R93). -/
def restored (s : State) (w : Nat) : Option State :=
  (s.wgs.at? w).bind fun x => (s.gridOf x.grid).bind fun g =>
    let all := s.savedTeams.filter fun e => e.2.wg == w
    let own := all.filter fun e => e.2.core == x.home
    let away := all.filter fun e => e.2.core != x.home
    let n := savedNeed s w x own
    let fifo := (x.blocks.filter (· == .fifo)).length
    let tries := (coresOf s x.pid x.home.die).filterMap fun h =>
      if isL h != isL x.home || !coreFits s h n || 8 < fifosUsed s h + fifo || migFirst s h || !notHeld s g h ||
         !(n.blocks == 0 || coreAcked s h) then none
      else
        let slot := (slotsFree s h).headD 0
        let s1 := (List.range (x.blocks.filter (· != .lent)).length).foldl (fun s _ => loseWay s h) s
        let s1 := s1.modWg w fun y => { y with st := .resident, home := h, slot := if own.isEmpty then 0 else slot,
                                               seq := s.nextId, since := clockOf s h.die, hostSave := false }
        let s1 := { own.foldl (fun s e => seat s e.1 e.2 h) s1 with nextId := s.nextId + 1 }
        -- a workgroup whose tables are not yet read has run nothing: it is put back whole
        ((seatMigrated s1 g h away).bind fun s2 => if x.ready then enterRestores s2 w else some s2).map fun s2 => (h, s2)
    (minCore (fun c => [1000 - freeSlabs s c, c.cluster, c.core]) (tries.map (·.1))).bind fun h =>
      (tries.find? fun e => e.1 == h).map fun e => e.2

/-! The order of R86. -/

/-- What waits for placement on a die: a saved workgroup, or a grid with workgroups unplaced. -/
inductive Cand where
  | wg (w : Nat) | grid (g : Quad)
  deriving DecidableEq, Repr

/-- The ancestors of a grid, itself among them (R90: at most 10 above it). -/
def lineage (s : State) (g : Quad) : Nat → List Quad
  | 0 => [g]
  | n + 1 => g :: (match (s.gridOf g).bind (·.parent) with | some p => lineage s p.1 n | none => [])

/-- Is a grid selected by its partition's request (R99)? -/
def selectedBy (s : State) (pid : Nat) (grids : List Quad) (g : Grid) : Bool :=
  let x := s.pctl.get pid
  g.pid == pid && (match bits x 2 1 with
    | 0 => true
    | 1 => (lineage s g.gid 10).any fun a => grids.contains a
    | 2 => bits g.root 58 51 == bits x 15 8
    | _ => false)
def selected (s : State) (g : Grid) : Bool :=
  match s.preqs.at? g.pid with | some r => selectedBy s g.pid r.grids g | none => false

/-- Does a grid have a workgroup to place? -/
def Grid.pendingWg (g : Grid) : Bool :=
  (g.st == .eligible || g.st == .dispatched) && g.fail.isNone && (!g.again.isEmpty || g.next < lrGridN g.lrec)

/-- The candidates of a partition on a die with their places in R86's order (R86, R93, R107). -/
def candidates (s : State) (pid die : Nat) : List (List Nat × Cand) :=
  (s.wgs.filterMap fun e =>
    if e.2.st == .saved && e.2.pid == pid && e.2.home.die == die then
      (s.gridOf e.2.grid).bind fun g =>
        if selected s g || g.fail.isSome then none
        else some (if e.2.hostSave then [7 - g.prio, 1, (g.ages.at? die).getD 0] else [7 - g.prio, 0, e.2.saveSeq],
                   Cand.wg e.1)
    else none) ++
  (s.grids.filterMap fun g =>
    if g.pid == pid && g.pendingWg && !selected s g then
      (g.ages.at? die).map fun a => ([7 - g.prio, 1, a], Cand.grid g.gid)
    else none)

/-- The grid of a candidate. -/
def candGrid (s : State) (c : Cand) : Option Grid :=
  match c with | .wg w => (s.wgs.at? w).bind fun x => s.gridOf x.grid | .grid g => s.gridOf g

/-- Could a candidate be placed now: it fits, and no other blocking grid of the same or a higher PRIO forbids it (R87)? -/
def candFits (s : State) (die : Nat) (c : Cand) : Bool :=
  match candGrid s c with
  | none => false
  | some g =>
    !((blockers s g.pid die).any fun b => b.gid != g.gid && g.prio ≤ b.prio) &&
    (match c with | .wg w => (restored s w).isSome | .grid _ => (pickCore s g die).isSome)

/-- Is it a partition's turn on a die, with placement allowed (R99, R106, R26)? -/
def turnOf (s : State) (pid die : Nat) : Bool :=
  watching s && atD s.turns die 0 == pid && !pctlHoldBit (s.pctl.get pid) &&
  (match s.dev.creating with | some (p, _) => p != pid | none => true)

/-- May a candidate be placed: it is the first in the order of R86 that fits? -/
def mayPlace (s : State) (pid die : Nat) (c : Cand) : Bool :=
  let l := candidates s pid die
  turnOf s pid die && candFits s die c &&
  l.any fun e => e.2 == c && !(l.any fun x => x.1 < e.1 && candFits s die x.2)

/-! Placing. -/

/-- A placement reads the parameter block and the tables; a fault that the host serves parks the workgroup's teams before
their first instruction, any other fails the grid (R350, R462). -/
def placementReads (s : State) (w : Nat) : State :=
  match (s.wgs.at? w).bind fun x => (s.gridOf x.grid).bind fun g => g.ako.map fun a => (x, g, a) with
  | none => s
  | some (x, g, a) =>
    let fault := fun (e : TFault × Nat) =>
      if !e.1.served then failWg s w e.1.cause
      else match (s.teamsOf w).head? with
        | some (tid, t) => (match t.splits.head? with
            | some p => serveFault s tid t p e.2 0 e.1.cause 0
            | none => s)
        | none => s
    match readParam s x.pid g.ptbase (lrParam g.lrec), readTables s x.pid g.ptbase a with
    | .error e, _ => fault e
    | _, .error e => fault e
    | .ok ps, .ok t =>
      s.modWg w fun y => { y with ready := true, param := Store.write [] 0 ps, brecs := t.1, lconsts := t.2 }

/-- A workgroup's team at its body's first word (R89, R110, R111, R137, R304). -/
def newTeam (s : State) (g : Grid) (w i : Nat) (c : CoreId) (b : Body) : Team :=
  let l := g.lrec
  { wg := w, idx := i, core := c, slot := (slotsFree s c).getD i 0, twlog := lrTwlog l, width := 2 ^ lrTwlog l,
    regs := lrRegs l, moms := lrMoms l, accs := lrAccs l, mode := if (s.dbgctl.get g.pid).getLsbD 0 then 2 else 0,
    thbase := lrThbase l, body := b, forced := forcedIntl s g b,
    splits := [{ id := w + 32 + i, mask := fullMask (2 ^ lrTwlog l), fmt := 0x82 }] }

/-- The words of a portable body, as a page table now gives them. -/
def portableBytes (s : State) (pid ptbase : Nat) (a : Ako) : Option (List Byte) :=
  (List.range a.pLen).foldr (fun i r => r.bind fun l =>
    match placeTran s pid ptbase (a.base + a.pOff + 4 * i) with
    | .ok pa => some (s.rdMem pa 4 ++ l)
    | .error _ => none) (some [])

/-- The service of a die begins to build for its oldest request (R138, R139); one whose portable body does not read is dropped
(log entry 55). -/
def beginBuild (s : State) (die : Nat) : State :=
  match s.transReq.find? (·.die == die) with
  | none => s
  | some r =>
    let before := s.transReq.takeWhile (· != r)
    let after := (s.transReq.dropWhile (· != r)).drop 1
    if r.begun then s
    else match portableBytes s 0 r.ptbase r.ako with
      | some bs => { s with transReq := before ++ { r with begun := true, digest := sha384 bs } :: after }
      | none => { s with transReq := before ++ after }

/-- The same until a build is under way or no request is left. -/
def beginBuilds (s : State) (die : Nat) : State := s.transReq.foldl (fun s _ => beginBuild s die) s

/-- The first placement of a grid on a core kind of a die asks for a translated body (R138). -/
def askBody (s : State) (g : Grid) (c : CoreId) : State :=
  let lk := isL c
  if g.asked.contains (c.die, lk) then s
  else
    let s := s.modGrid g.gid fun x => { x with asked := x.asked ++ [(c.die, lk)] }
    match g.ako with
    | some a =>
      if g.pid == 0 && a.pLen != 0 && a.neq != 0 && !((nativeBody a lk).len != 0 && a.stepping == s.dev.stepping.toNat) then
        beginBuilds { s with transReq := s.transReq ++ [{ die := c.die, ptbase := g.ptbase, ako := a, kindL := lk, gid := g.gid,
                                                          regs := lrRegs g.lrec, moms := lrMoms g.lrec }] } c.die
      else s
    | none => s

/-- Place workgroup `lin` of a grid on a core (R84, R88, R89, R152, R153). -/
def startWg (s : State) (g : Grid) (lin : Nat) (c : CoreId) (b : Body) : State :=
  let w := s.nextId
  let n := lrTeams g.lrec
  let x : Wg := { grid := g.gid, lin := lin, pid := g.pid, home := c, slot := (slotsFree s c).headD 0, seq := w,
                   since := clockOf s c.die, ready := false }
  let ts := (List.range n).map fun i => (w + 1 + i, newTeam s g w i c b)
  let s := acquireInval { s with nextId := w + 64, wgs := s.wgs.insert w x } c 5 false
  let blocks := List.replicate (lrScrBlocks g.lrec) BState.scr ++ List.replicate (lrFifo g.lrec) BState.fifo
  let s := blocks.foldl (fun s y => (loseWay s c).modWg w fun z => { z with blocks := z.blocks ++ [y] }) s
  let s := ts.foldl (fun s e => s.setTeam e.1 e.2) s
  let s := s.modGrid g.gid fun y =>
    if g.again.isEmpty then { y with next := lin + 1, st := if lin + 1 == lrGridN g.lrec then .dispatched else y.st }
    else { y with again := y.again.drop 1 }
  let s := { s with blocking := s.blocking.filter fun e => !(e.1 == c.die && e.2 == g.gid) }
  poolTest (placementReads (noteUse (askBody s g c) b) w) c

/-- The distributor of a die claims the next index of a grid and places the workgroup (R85, R86, R88, R89, R106). -/
def execPlaceWorkgroup (die : Nat) (grid : Quad) (s : State) : Out :=
  match s.gridOf grid with
  | none => notNow
  | some g =>
    if !mayPlace s g.pid die (.grid grid) || placementHeld s g then notNow
    else match pickCore s g die with
      | none => notNow
      | some c =>
        match pickBody s g (isL c) with
        | some b => .next (startWg s g (g.again.headD g.next) c b)
        | none => notNow

/-- A saved workgroup is placed again on its die (R93); its teams enter their restore routines, at whose TRET their pending traps
are delivered (R284). -/
def execRestoreWorkgroup (wg : Nat) (s : State) : Out :=
  match s.wgs.at? wg with
  | none => notNow
  | some x =>
    if x.st != .saved || !mayPlace s x.pid x.home.die (.wg wg) || (!x.ready && (s.gridOf x.grid).any (placementHeld s)) then notNow
    else match restored s wg with
      | none => notNow
      | some s1 =>
        let ts := s1.teamsOf wg
        -- the cores hold no copy older than what the teams have read (R183)
        let s1 := ts.foldl (fun s e => acquireInval s e.2.core 5 true) s1
        let s1 := { s1 with blocking := s1.blocking.filter fun e => !(e.1 == x.home.die && e.2 == x.grid) }
        .next (if x.ready then s1 else placementReads (ts.foldl (fun s e => deliverPending s e.1) s1) wg)

/-! Blocking grids and the scheduler's pre-emptions. -/

/-- Is a grid first in its PRIO level on a die, with a workgroup to place (R87, R91)? -/
def firstInLevel (s : State) (die : Nat) (g : Grid) : Bool :=
  let l := (candidates s g.pid die).filter fun e => (candGrid s e.2).any fun x => x.prio == g.prio
  l.any fun e => e.2 == .grid g.gid && !(l.any fun x => x.1 < e.1)

/-- A grid that has been first in its PRIO level for 1 ms becomes blocking: one per level and die (R87). -/
def execGridBlocking (die : Nat) (grid : Quad) (s : State) : Out :=
  match s.gridOf grid with
  | some g =>
    if watching s && firstInLevel s die g && !((blockers s g.pid die).any fun b => b.prio == g.prio) then
      .next { s.modGrid grid (fun x => { x with blocked := x.blocked.insert die (clockOf s die) }) with
                blocking := s.blocking ++ [(die, grid)] }
    else notNow
  | none => notNow

/-- PREEMPT is requested of every team of a workgroup (R98). -/
def preemptWg (s : State) (w : Nat) : State :=
  (s.teamsOf w).foldl (fun s e =>
    if e.2.ended || e.2.fused.isSome then s else s.setTeam e.1 { e.2 with preempt := true }) s

/-- The resident workgroups of partition 0 on a die whose PREEMPT is not requested. -/
def residents0 (s : State) (die : Nat) : List (Nat × Wg) :=
  s.wgs.filter fun e => e.2.st == .resident && e.2.pid == 0 && e.2.home.die == die &&
    !((s.teamsOf e.1).any fun t => t.2.preempt)

/-- Is every live team of a workgroup parked in WAITCHILD (R91)? -/
def waitsChildren (s : State) (w : Nat) : Bool :=
  (s.teamsOf w).all fun e => e.2.ended || e.2.fused.isSome || (!e.2.splits.isEmpty &&
    e.2.splits.all fun p => match p.park with | some (.waitchild _) => true | _ => false)

/-- The youngest of some workgroups: the last placed. -/
def youngest (l : List (Nat × Wg)) : Option (Nat × Wg) :=
  l.foldl (fun m e => match m with
    | some x => if x.2.seq < e.2.seq then some e else some x
    | none => some e) none

/-- A child grid of partition 0 that waits for a core makes the youngest workgroup that waits for children yield (R91). -/
def execChildRescuePreempt (die : Nat) (grid : Quad) (s : State) : Out :=
  match s.gridOf grid with
  | some g =>
    let l := (residents0 s die).filter fun e => waitsChildren s e.1
    if watching s && g.pid == 0 && g.parent.isSome && firstInLevel s die g then
      (match youngest l with | some e => .next (preemptWg s e.1) | none => notNow)
    else notNow
  | none => notNow

/-- The state without a workgroup, for the question whether another would fit in its place. -/
def without (s : State) (w : Nat) : State :=
  ((s.teamsOf w).foldl (fun s e => removeTeam s e.1) s).modWg w fun x => { x with st := .terminated, blocks := [] }

/-- A blocking grid of PRIO 7 in partition 0 pre-empts one workgroup of lower PRIO: the lowest, then the youngest, whose
removal lets its workgroup fit there, once it has waited 50 µs since it became blocking; one at a time per die (R100). -/
def execPriorityPreempt (die : Nat) (grid : Quad) (s : State) : Out :=
  match s.gridOf grid with
  | some g =>
    let busy := match s.prioPre.at? die with | some w => ((s.wgs.at? w).map (·.live)).getD false | none => false
    let fits := fun (e : Nat × Wg) =>
      let s' := without s e.1
      (g.ako.any fun a => runnable a (isL e.2.home)) && coreFits s' e.2.home (needOf g.lrec) &&
        fifosUsed s' e.2.home + lrFifo g.lrec ≤ 8
    -- resident for 200 µs since its last placement, by its die's clock
    let rested := fun (e : Nat × Wg) => e.2.since + 200000 ≤ clockOf s die
    let prio := fun (e : Nat × Wg) => ((s.gridOf e.2.grid).map (·.prio)).getD 7
    let l := (residents0 s die).filter fun e => prio e < g.prio && rested e && fits e
    let low := l.foldl (fun m e => Nat.min m (prio e)) 7
    let waited := ((g.blocked.at? die).getD 0) + 50000 ≤ clockOf s die
    if watching s && g.pid == 0 && g.prio == 7 && s.blocking.contains (die, grid) && waited && !busy then
      (match youngest (l.filter fun e => prio e == low) with
       | some e => .next { preemptWg s e.1 with prioPre := s.prioPre.insert die e.1 }
       | none => notNow)
    else notNow
  | none => notNow

/-- A distributor's turn passes to the next partition (R106). -/
def execPartitionTurn (die : Nat) (s : State) : Out :=
  if die < 4 && watching s then .next { s with turns := setAt s.turns die ((atD s.turns die 0 + 1) % 16) } else notNow

/-! The translation service (R138, R139). -/

/-- The die's translation cache in bytes. -/
def transCap : Nat := 268435456

/-- Bytes of the bodies installed on a die. -/
def transUsed (s : State) (die : Nat) : Nat :=
  (s.trans.vals.filter fun x => x.die == die).foldl (fun n x => n + 4 * x.body.words.length) 0

/-- Is a resident team running an installed body, or moving to it, or a saved one to go on in it (R139, log entry 56)? -/
def transRuns (s : State) (n : Nat) : Bool :=
  (s.teams.vals ++ s.savedTeams.vals).any fun t => t.body.kind == .trans n ||
    (match t.xfer with | some x => x.body.kind == .trans n | none => false)

/-- Discard the body of a die whose last use is oldest and that no resident team runs, until `need` bytes fit. -/
def transRoom (s : State) (die need : Nat) : Nat → Option State
  | 0 => if transUsed s die + need ≤ transCap then some s else none
  | f + 1 =>
    if transUsed s die + need ≤ transCap then some s
    else
      let l := s.trans.filter fun e => e.2.die == die && !transRuns s e.1
      match l.foldl (fun (m : Option (Nat × Installed)) e => match m with
          | some x => if e.2.used < x.2.used then some e else some x
          | none => some e) none with
      | some e => transRoom { s with trans := s.trans.erase e.1 } die need f
      | none => none

/-- The entries of a state-mapping table (R77). -/
def mapEntries (rd : Nat → Nat → Except α Nat) : Nat → Nat → Except α (List MapEntry)
  | 0, _ => .ok []
  | n + 1, va =>
    match rd va 4 with
    | .error x => .error x
    | .ok h =>
      let nl := nbits h 31 16
      match rdWords rd (va + 16) nl, mapEntries rd n (va + mapEntryBytes nl) with
      | .ok ws, .ok l => .ok ({ eq := nbits h 15 0, pcp := absent, pcd := absent, pcl := absent, live := ws } :: l)
      | .error x, _ => .error x
      | _, .error x => .error x

/-- Do a body's entries cover exactly the equivalence points, with their live values, and the portable instructions of the
kernel object as it reads now (R139)? -/
def bodyCovers (s : State) (r : TransReq) (b : TransBody) : Bool :=
  let rd := fun va n => devRead s 0 r.ptbase va n
  let starts := (List.range r.ako.pLen).filter fun i =>
    match rd (r.ako.base + r.ako.bitmap + i / 8) 1 with | .ok x => x.testBit (i % 8) | .error _ => false
  match mapEntries rd r.ako.neq (r.ako.base + r.ako.smap) with
  | .error _ => false
  | .ok l =>
    sortAsc (b.eq.map (·.1)) == l.map (·.eq) && sortAsc (b.corr.map (·.1)) == starts &&
    l.all fun m => m.live.all fun w => (b.live.find? (·.1 == m.eq)).any fun x =>
      x.2.any fun y => y.1 == bits w 3 0 && y.2.1 == bits w 11 4

/-- Do the instructions of a body, each in every repetition, satisfy a condition, from word i? A REPEAT governs the instruction
after it (R306). -/
def eachWord (ok : Instr → Option OpP → Nat → Bool) (words : List Word) : Nat → Nat → Option OpP → Bool
  | 0, _, _ => true
  | f + 1, i, rep =>
    match words[i]? with
    | none => true
    | some w =>
      if isHeader w then eachWord ok words f (i + 1) none
      else match decodeWords w words[i + 1]? with
        | .error _ => false
        | .ok x =>
          let reps := match rep with | some r => r.cntm1.toNat + 1 | none => 1
          (List.range reps).all (ok x rep) &&
            eachWord ok words f (i + (if xOf w then 2 else 1)) (match x with | .repeatN p => some p | _ => none)

/-- Do the registers of a form lie within A vector and M moment registers (R126)? -/
def Form.fits (A M : Nat) : Form → Bool
  | .a _ _ w g => (g.range A M 256 false w).isNone
  | .m _ _ w g => (g.d.outside A M 256 false w.dN).isNone && (g.a.outside A M 256 false w.aN).isNone
  | .i7 _ w lane useA => !lane || (w.d.toNat < A && (!useA || w.a.toNat < A))
  | .i30 _ w lane useA => !lane || (w.d.toNat < A && (!useA || w.a.toNat < A))
  | _ => true

/-- The registers of one repetition lie within A and M (R126, R306). -/
def fitsAt (A M : Nat) (i : Instr) (r : Option OpP) (j : Nat) : Bool :=
  match form i, r with
  | .a _ _ w g, some r => (match g.stepped r j w with | some w' => (reform i w').fits A M | none => false)
  | .i7 op w l u, some r => (match stepI7 r j u w with | some x => (Form.i7 op x l u).fits A M | none => false)
  | .i30 op w l u, some r => (match stepI30 r j u w with | some x => (Form.i30 op x l u).fits A M | none => false)
  | f, _ => f.fits A M

/-- Does a body keep to the register assignment of a team with A and M (R139)? -/
def bodyFits (A M : Nat) (words : List Word) : Bool := eachWord (fitsAt A M) words words.length 0 none

/-- A request's body, as the service has built it (R139). -/
def TransReq.builds (r : TransReq) (s : State) (b : TransBody) : Bool :=
  r.begun && r.ptbase == b.ptbase && r.ako.base == b.ako && r.kindL == b.kindL && r.digest == b.digest && bodyCovers s r b &&
  (r.kindL || eachWord (stage5At true) b.words b.words.length 0 none) && bodyFits r.regs r.moms b.words

/-- A grid uses an installed body (R139). -/
def Grid.uses (g : Grid) (kindL : Bool) (n : Nat) : Grid :=
  if kindL then { g with digestL := some n } else { g with digestD := some n }

/-- A body is installed, and used by the grid that asked for it (R139). -/
def install (s : State) (r : TransReq) (b : TransBody) : State :=
  { s.modGrid r.gid (fun g => g.uses b.kindL s.nextId) with
    trans := s.trans.insert s.nextId { body := b, die := r.die, used := s.nextId }, nextId := s.nextId + 1 }

/-- The service of a die has built the body of its oldest request, and installs it (R139); one for which no room can be made is
dropped (log entry 55). -/
def execTranslatedBodyInstall (s : State) : Out :=
  match s.reqTrans with
  | [] => notNow
  | b :: rest =>
    let s := { s with reqTrans := rest }
    match s.transReq.find? fun r => r.builds s b && !((s.transReq.takeWhile (· != r)).any fun q => q.die == r.die) with
    | none => notNow
    | some r =>
      let s := { s with transReq := s.transReq.erase r }
      .next (beginBuilds (match transRoom s r.die (4 * b.words.length) s.trans.length with
        | some s => install s r b
        | none => s) r.die)

/-- The service computes the digest of a later grid's portable body again, and finds an installed body with it that the grid does not
use yet (R139), on whatever die it is installed (log entry 55). -/
def execDigestCheck (grid : Quad) (kindL : Bool) (s : State) : Out :=
  match (s.gridOf grid).bind fun g => g.ako.map fun a => (g, a) with
  | some (g, a) =>
    let l := s.trans.filter fun e => e.2.body.ptbase == g.ptbase && e.2.body.ako == a.base && e.2.body.kindL == kindL &&
      bodyFits (lrRegs g.lrec) (lrMoms g.lrec) e.2.body.words
    if g.pid != 0 || l.isEmpty || (transBody s g kindL).isSome then notNow
    else match portableBytes s g.pid g.ptbase a with
      | none => notNow
      | some bs =>
        match l.find? fun e => e.2.body.digest == sha384 bs with
        | some e => .next (s.modGrid grid fun x => x.uses kindL e.1)
        | none => notNow
  | none => notNow

/-- The decay period of an Orangery ends: its counters halve (R164). -/
def execOrangeryDecay (die pid : Nat) (s : State) : Out :=
  match s.orangery.at? (die * 16 + pid) with
  | some o =>
    let c := Store.setAll [] (o.counters.reverse.map fun e : Nat × BitVec 8 => (e.1, e.2 >>> 1))
    .next { s with orangery := s.orangery.insert (die * 16 + pid) { o with counters := c } }
  | none => notNow

end Sys2Proof.Machine
end

