-- ==== Sys2Proof/Machine/HostIf.lean ====
section
/-! DEFINITION. The host and the fabric at the package's border: component registers (R63, R99, R304), CXL.mem accesses
(R46, R48), snoops (R190), requests of other packages (R33, R35). -/

namespace Sys2Proof.Machine

/-! Component registers: a write of a partition that does not exist is ignored (R63, R99). -/

/-- Does a partition exist (R17)? -/
def partExists (s : State) (pid : Nat) : Bool := (s.parts.at? pid).isSome

/-- The partition whose register of a bank an offset names. -/
def bankPid (base stride off : Nat) : Option Nat :=
  if base ≤ off && off < base + 16 * stride && (off - base) % stride == 0 then some ((off - base) / stride) else none

/-- The oldest register write that waits. -/
def withReg (s : State) (k : Nat → Quad → State → Out) : Out :=
  match s.reqRegs with
  | (off, v) :: rest => k off v { s with reqRegs := rest }
  | [] => notNow

/-- Is a control block beyond host memory, so that it is never read (R151)? -/
def blockBeyond (x : Quad) : Bool := x.getLsbD 0 && decide (2 ^ 47 ≤ bits x 63 12 * 4096)

/-- QTBASE (R63): a new base has its descriptors read anew. A block beyond host memory is treated as BADDESC: its event names
queue 0 (R151, log entry 39). -/
def execQtbaseWrite (s : State) : Out :=
  withReg s fun off v s' =>
    match bankPid 0x1000 8 off with
    | none => notNow
    | some p =>
      if !partExists s p then .next s'
      else
        let x := v &&& 0xFFFFFFFFFFFFF001#64
        let moved := bits x 63 12 != bits (s.qtbase.get p) 63 12
        let s1 := { s' with qtbase := s'.qtbase.set p x }
        let s1 := if moved then { s1 with queues := s1.queues.filter fun e => e.1 / 256 != p } else s1
        .next (if blockBeyond x && (moved || !blockBeyond (s.qtbase.get p)) then postEvent s1 5 p 0 0 else s1)

/-- The fields of PCTL that a write sets: SCOPE, HOLD, QUEUE (R99). -/
def pctlWritten (old v : Quad) : Quad := (old &&& ~~~(0xFF0E#64)) ||| (v &&& 0xFF0E#64)

/-- Does a grid of the partition that has not retired have this GRIDID? -/
def gridUnretired (s : State) (pid : Nat) (g : Quad) : Bool :=
  (s.grids.any fun x => x.gid == g && x.pid == pid) ||
  (s.dqueues.any fun e => e.1 / 4 == pid && e.2.any fun r => r.gid == g)

/-- A write of PCTL with GO = 1 requests pre-emption (R98, R99). -/
def execPctlGo (s : State) : Out :=
  withReg s fun off v s' =>
    match (if v.getLsbD 0 then bankPid 0x1100 16 off else none) with
    | none => notNow
    | some p =>
      if !partExists s p || (s.pctl.get p).getLsbD 0 then .next s'
      else
        let x := pctlWritten (s.pctl.get p) v
        let target := s.ptarget.get p
        let refused := bits x 2 1 == 3 || (bits x 2 1 == 1 && !gridUnretired s p target)
        if refused then
          .next (postEvent { s' with pctl := s'.pctl.set p (setBits (setBits x 4 4 1) 47 16 0) } 6 p 0 0)
        else
          let x := setBits (setBits x 0 0 1) 4 4 0
          let s1 := { s' with pctl := s'.pctl.set p x }
          let targets := (s1.wgs.filter fun e => e.2.st == .resident &&
            (match s1.gridOf e.2.grid with | some g => selectedBy s1 p [target] g | none => false)).map (·.1)
          let s1 := { s1 with preqs := s1.preqs.insert p { targets := targets, saved := 0, grids := [target] } }
          .next (endRequests (targets.foldl preemptWg s1))

/-- A write of PCTL with GO = 0 sets or clears HOLD, and SCOPE and QUEUE for a later request (R99). -/
def execPctlHold (s : State) : Out :=
  withReg s fun off v s' =>
    match (if v.getLsbD 0 then none else bankPid 0x1100 16 off) with
    | none => notNow
    | some p =>
      if !partExists s p || (s.pctl.get p).getLsbD 0 then .next s'
      else .next { s' with pctl := s'.pctl.set p (pctlWritten (s.pctl.get p) v) }

/-- A write of another component register: PTARGET (R99), DBGCTL (R304); one at no register's offset is ignored. -/
def execRegisterWrite (s : State) : Out :=
  withReg s fun off v s' =>
    if (bankPid 0x1000 8 off).isSome || (bankPid 0x1100 16 off).isSome then notNow
    else match (if 0x1108 ≤ off then bankPid 0x1108 16 off else none), bankPid 0x1200 8 off with
      | some p, _ => .next (if partExists s p then { s' with ptarget := s'.ptarget.set p v } else s')
      | _, some p => .next (if partExists s p then { s' with dbgctl := s'.dbgctl.set p (v &&& 1) } else s')
      | _, _ => .next s'

/-! CXL.mem (R46). -/

/-- Is the package's memory open to the host and to other packages: trained, not in recovery (R49, R60)? -/
def memoryOpen (s : State) : Bool := 7 ≤ s.dev.bringup && s.dev.bringup ≤ 9 && !s.dev.recovery

/-- Does a package physical address name mapped near or far memory? -/
def ownMemory (s : State) (pa n : Nat) : Bool :=
  n != 0 && pa % 64 + n ≤ 64 && (match spaceOf s pa with | .near _ => true | .far => true | _ => false)

/-- This package's address as a 57-bit physical address (R151). -/
def ownPa (s : State) (pa : Nat) : Nat := s.dev.pkgnum * 2 ^ 48 + pa

/-- Take the host access that waits, if it is the oldest. -/
def withHost (s : State) (k : HostReq → State → Out) : Out :=
  match s.reqHost with
  | r :: rest => k r { s with reqHost := rest, hostArr := s.hostArr.drop 1 }
  | [] => notNow

/-- A host write is performed at its home slice; its completion waits until the clock of that die has passed its WCT (R46,
R190), and is poison behind an expander that does not respond (R48). -/
def execHostMemWrite (s : State) : Out :=
  withHost s fun r s' =>
    match r with
    | .write pa bs =>
      if !memoryOpen s || !ownMemory s pa bs.length then notNow
      else if expanderDown s (ownPa s pa) then .next { s' with hostReads := s'.hostReads ++ [([], true)] }
      else
        let a := ownPa s pa
        let s1 := writeLoc s' none (.mem a) bs
        let id := s1.nextId
        let s1 := { s1 with nextId := id + 1 }
        .next (match homeDie s1 a with
          | some d => { s1 with hostAcks := s1.hostAcks ++ [(id, d, wctOf s1 d (lineOf a))] }
          | none => { s1 with hostDone := s1.hostDone ++ [id] })
    | _ => notNow

/-- A host read returns what the home slice holds (R46), or poison (R48); the host may hold the line from then on under
HDM-DB (R190). -/
def execHostMemRead (s : State) : Out :=
  withHost s fun r s' =>
    match r with
    | .read pa n =>
      let a := ownPa s pa
      if !memoryOpen s || !ownMemory s pa n then notNow
      else if expanderDown s a then .next { s' with hostReads := s'.hostReads ++ [([], true)] }
      else .next { s' with hostReads := s'.hostReads ++ [(s.rdMem a n, false)],
                           hostHeld := s'.hostHeld ++ (hostLinesOf a n).filter (fun l => !s'.hostHeld.contains l) }
    | _ => notNow

/-- The completions of host writes whose WCT the clock of their die has passed are returned (R46). -/
def hostCompletions (s : State) : State :=
  let passed := fun (e : Nat × Nat × Nat) => decide (e.2.2 < clockOf s e.2.1)
  { s with hostAcks := s.hostAcks.filter (fun e => !passed e), hostDone := s.hostDone ++ (s.hostAcks.filter passed).map (·.1) }

/-- A host snoop reaches the device (R190): one that invalidates takes away a line that the device holds, and every translation
built from it (R177); of any other it finds nothing. -/
def execHostSnoop (s : State) : Out :=
  withHost s fun r s' =>
    match r with
    | .snoop line inv =>
      let a := hostLine (hostPa s line)
      .next (if inv then dropTlb (s'.loseHost [a]) a 64 else s')
    | _ => notNow

/-! The fabric (R33, R35). -/

/-- The bytes of an atomic by its type (R379). -/
def atomBytes (ty : Nat) : Nat := match ty % 8 with | 5 => 8 | 6 => 16 | _ => 4

/-- The bytes that a request names. -/
def accessBytes : Access → Nat
  | .read n => n
  | .write bs => bs.length
  | .atomic _ ty _ _ => atomBytes ty

/-- Does a request lie in one mapped range of near or far memory here (R33)? -/
def servable (s : State) (pa n : Nat) : Bool :=
  n != 0 && (match spaceOf s pa, spaceOf s (pa + n - 1) with
    | .near d, .near e => d == e
    | .far, .far => true
    | _, _ => false)

/-- Does the site of an address of this package perform an atomic of another package (R197)? -/
def siteTakes (s : State) (pa fn ty : Nat) : Bool :=
  match spaceOf s pa with
  | .near _ => atomAccepts 2 true fn (ty % 8)
  | _ => atomAccepts 4 false fn (ty % 8)

/-- A write of another package has been performed: its completion waits for the WCT of its home (R35). -/
def oweFabric (s : State) (a chan : Nat) : State :=
  let id := s.nextId
  let s := { s with nextId := id + 1 }
  match homeDie s a with
  | some d => { s with remote := s.remote.insert id (d, wctOf s d (lineOf a), chan) }
  | none => { s with fabDone := s.fabDone ++ [(id, chan)] }

/-- A request of another package arrives: near and far memory are served, whatever partition holds its channel, every other
space is refused (R32, R33); behind an expander that does not respond it fails (R48). A store's or an atomic's completion waits
until it is performed and its WCT has passed on this die's clock (R35, R197); one that meets a data error waits until the data are read
again (R61). Its answer returns on its channel. -/
def execFabricRequest (s : State) : Out :=
  match s.reqFab with
  | [] => notNow
  | r :: rest =>
    let s' := { s with reqFab := rest, fabArr := s.fabArr.drop 1 }
    let n := accessBytes r.acc
    let a := ownPa s r.pa
    let answer := fun (s : State) (x : FabAns) => { s with fabReads := s.fabReads ++ [(r.src, r.chan, x)] }
    let reads := match r.acc with | .read _ => true | _ => false
    if !memoryOpen s || 512 ≤ r.src || r.src == s.dev.pkgnum || 15 ≤ r.chan then notNow
    else if !servable s r.pa n then .next (answer s' .refused)
    else if expanderDown s a then .next (answer s' .failed)
    else if (!reads && hostMayHold s a n) || (s.dev.rereads.any fun p => placeHit p [(.mem a, n)]) then notNow
    else match r.acc with
      | .read n => .next (answer s' (.data (s.rdMem a n)))
      | .write bs => .next (oweFabric (writeLoc s' none (.mem a) bs) a r.chan)
      | .atomic fn ty x cmp =>
        if r.pa % n != 0 || !siteTakes s r.pa fn ty then notNow
        else
          let old := s.rdMemN a n
          let s1 := writeLoc s' none (.mem a) (leBytes n (atomNew fn ty old x cmp))
          .next (oweFabric (answer s1 (.data (leBytes n old))) a r.chan)

/-- A store's completion: from another package for a store of this one, or returned by this one once the WCT has passed
(R35). -/
def execFabricCompletion (id : Nat) (s : State) : Out :=
  match s.fabReqs.at? id, s.remote.at? id with
  | some _, _ => .next { s with fabReqs := s.fabReqs.erase id }
  | none, some (d, w, chan) =>
    if clockOf s d ≤ w then notNow
    else .next { s with remote := s.remote.erase id, fabDone := s.fabDone ++ [(id, chan)] }
  | none, none => notNow

end Sys2Proof.Machine
end

