-- ==== Sys2Proof/Machine/Matrix.lean ====
section
/-! DEFINITION. The matrix unit: operand shapes and checks (R407, R408), block sums (R240, R256), MMA, MMA2, ACCZ, ACCLD,
MMMA, DRAIN, MDRAIN, FMTSET and FMTGET (R402 to R420), and the steps that start and complete a queued instruction (R403
to R406). -/

namespace Sys2Proof.Machine

/-! Checks at issue (R408). -/

/-- The shape an operand must have (R407, R413). -/
inductive Shape where
  | tile (rows cols : Nat)
  | size (n : Nat)
  | regs (row0 : Nat)
  deriving DecidableEq, Repr

/-- An operand to check: number, engine code, layout register, handle register (none for a register layout), plane,
the format it must have, the formats accepted, its shape, whether it may carry a scale word. -/
structure TileOp where
  opn    : Nat
  code   : Nat
  ly     : Nat
  hdl    : Option Nat
  plane  : Nat := 0
  want   : Option Nat := none
  fmts   : Option (List Nat) := none
  shape  : Shape
  scaled : Bool
  deriving DecidableEq, Repr

/-- The products of the extents of the groups. -/
def groupSizes (l : Lay) : List Nat := (groupsOf l.modes).map sizeOf_

/-- Does a layout fit a shape? -/
def Shape.fits (sh : Shape) (col : Bool) (l : Lay) : Bool :=
  match sh with
  | .tile r c => groupSizes l == (if col then [r, c] else [c, r])
  | .size n => l.size == n
  | .regs row0 => l.size % 64 == 0 && row0 + l.size / 64 ≤ 64

/-- The reason of OPERAND_FORMAT of an operand, if any (R408). -/
def TileOp.formatReason (o : TileOp) (l : Lay) : Option Nat :=
  let col := l.col && (o.code == 1 || o.code == 2)
  if (match o.want with | some f => l.fmt != f | none => false) then some 1
  else if (match o.fmts with | some fs => !fs.contains l.fmt | none => false) then some 2
  else if !o.shape.fits col l then some 3
  else if col && (match o.shape with | .tile r _ => r * l.width != 128 | _ => false) then some 4
  else if l.scaled && !o.scaled then some 5
  else none

/-- The class and the degree of an operand (R220, R226). -/
def TileOp.classify (o : TileOp) (t : Team) : Class × Nat :=
  let l := t.lay o.ly
  match o.hdl with
  | none => (match rejectReg t l with
    | some r => { cls := 2, reason := r }
    | none => { cls := 0 }, 1)
  | some h =>
    let h := planeHdl (t.hdl h) o.plane
    (accept o.code h l, firstDegree h l)

/-- The checks of R408: LSTAT is written, the first failure is the trap. `span` is SPAN (R199). -/
def Ctx.tileOps (c : Ctx) (ops : List TileOp) (span : Bool) : Ctx × Option TrapWhy :=
  match ops.findSome? fun o => match o.hdl with | some h => if c.unreach h then some h else none | none => none with
  | some h => (c, some (cHandle, [h]))
  | none =>
    let ks := ops.map fun o => (o, o.classify c.t)
    let t := c.t.setLstat (ks.foldl (fun m k => Nat.max m k.2.2) 1) (ks.foldl (fun m k => Nat.max m k.2.1.ways) 0) span
    let c := { c with t := t }
    match ks.find? fun k => k.2.1.cls == 2 with
    | some k => (c, some (rejected k.1.code k.1.opn k.2.1.reason k.1.ly k.1.hdl))
    | none =>
      (c, ops.findSome? fun o => (o.formatReason (c.t.lay o.ly)).map fun r => (cFormat, [o.opn + r * 256]))

/-- A queued instruction as it stands at issue. -/
def Ctx.matOp (c : Ctx) (op fn : Nat) (w : OpA) (hA lA hB lB : Nat) : MatOp :=
  { fn := (op, fn), split := c.sp.id, mask := c.sp.mask, wmask := c.writing w.gN w.gnB, fmt := c.sp.fmt, d := w.dN, a := w.aN,
    b := (w.bRaw.getD w.dN), mod := w.modN, hA := c.t.h.get hA, lA := c.t.ly.get lA, hB := c.t.h.get hB,
    lB := c.t.ly.get lB, lvl := c.sp.lvl, anc := c.sp.anc, seqNo := c.s.nextId, tpc := c.t.addrOf c.sp.pc, slot := (match c.sp.clause with | some k => k.slot | none => 0) }

/-- Enter the team's matrix queue (R403), with a number of its own in the order of the team's accesses (R404). -/
def Ctx.enqueue (c : Ctx) (m : MatOp) : Ctx :=
  { c with s := { c.s with nextId := c.s.nextId + 1 }, t := { c.t with mat := c.t.mat ++ [m] } }

/-- The checks of an instruction, then its place in the queue. -/
def Ctx.matIssue (c : Ctx) (w : OpA) (ops : List TileOp) (m : Ctx → MatOp) : Out :=
  match c.tileOps ops false with
  | (c, some e) => c.why e (lenA w)
  | (c, none) => let c := c.enqueue (m c); c.done c.t (lenA w)

/-- AFMT and BFMT (R236). -/
def afmt (f : Quad) : Nat := bits f 5 0
def bfmt (f : Quad) : Nat := bits f 11 6

/-- K of MMA and MMA2 (R407). -/
def mmaK (f : Quad) : Nat := if isQ8 (afmt f) && isQ8 (bfmt f) then 128 else if afmt f == 0 || bfmt f == 0 then 32 else 64

/-- The operands of MMA and MMA2. -/
def mmaOps (f : Quad) (w : OpA) (b rows : Nat) : List TileOp :=
  [{ opn := 0, code := 1, ly := tileL w.aN, hdl := some (tileH w.aN), want := some (afmt f), shape := .tile rows (mmaK f), scaled := true },
   { opn := 1, code := 2, ly := tileL b, hdl := some (tileH b), want := some (bfmt f), shape := .tile (mmaK f) 64, scaled := true }]

def execMma (w : OpA) (s : State) : Out :=
  issueU 22 0 (sigMma w) w s fun c =>
    let b := (sigMma w).bOf w
    c.matIssue w (mmaOps c.sp.fmt w b 64) fun c => c.matOp 22 0 w (tileH w.aN) (tileL w.aN) (tileH b) (tileL b)

def execMma2 (w : OpA) (s : State) : Out :=
  issueU 22 1 (sigMma2 w) w s fun c =>
    let b := (sigMma2 w).bOf w
    c.matIssue w (mmaOps c.sp.fmt w b 128) fun c => c.matOp 22 1 w (tileH w.aN) (tileL w.aN) (tileH b) (tileL b)

def execAccz (w : OpA) (s : State) : Out :=
  issueU 22 2 (sigAccz w) w s fun c =>
    let c := c.enqueue (c.matOp 22 2 w 0 0 0 0)
    c.done c.t (lenA w)

def execAccld (w : OpA) (s : State) : Out :=
  issueU 22 3 (sigAccld w) w s fun c =>
    c.matIssue w [{ opn := 0, code := 1, ly := tileL w.aN, hdl := some (tileH w.aN), shape := .tile 64 64, scaled := true }]
      fun c => c.matOp 22 3 w (tileH w.aN) (tileL w.aN) 0 0

/-- The four planes of MMMA: both of A, then both of B (R420). -/
def mmmaOps (f : Quad) (w : OpA) (b : Nat) : List TileOp :=
  [0, 1].map (fun p => { opn := 0, code := 1, ly := tileL w.aN, hdl := some (tileH w.aN), plane := p, want := some (afmt f),
                         fmts := some [1, 2], shape := .tile 64 16, scaled := false }) ++
  [0, 1].map (fun p => { opn := 1, code := 2, ly := tileL b, hdl := some (tileH b), plane := p, want := some (bfmt f),
                         fmts := some [1, 2], shape := .tile 16 64, scaled := false })

def execMmma (w : OpA) (s : State) : Out :=
  issueU 23 11 (sigMma2 w) w s fun c =>
    let b := (sigMma2 w).bOf w
    c.matIssue w (mmmaOps c.sp.fmt w b) fun c => c.matOp 23 11 w (tileH w.aN) (tileL w.aN) (tileH b) (tileL b)

/-! DRAIN and MDRAIN (R413 to R416). -/

/-- Does a memory destination span more than one 16 KiB block, with the last byte of each element as with its first (R199)? -/
def spans (h : Hdl) (l : Lay) (moment : Bool) : Bool :=
  h.kind ≥ 3 &&
  (distinct ((List.range l.size).flatMap fun i =>
    let one := fun p => match locate (planeHdl h p) l i with | .va a => [a / 16384, (a + l.width - 1) % 2 ^ 64 / 16384] | _ => []
    one 0 ++ (if moment then one 1 else []))).length > 1

/-- The destination of a memory form. -/
def drainOps (w : OpA) (moment : Bool) : List TileOp :=
  let add := w.md 4 4 == 1
  (if moment then [0, 1] else [0]).map fun p =>
    { opn := 2, code := 3, ly := tileL w.dN, hdl := some (tileH w.dN), plane := p,
      fmts := if moment || add then some [0, 1, 2] else none, shape := .size 4096, scaled := !(moment || add) }

/-- A memory form (R414): the checks, then as COPY; the accumulator read waits in the matrix queue. -/
def Ctx.drainMem (c : Ctx) (op fn : Nat) (w : OpA) (moment : Bool) : Out :=
  let hn := tileH w.dN
  let add := w.md 4 4 == 1
  match c.tileOps (drainOps w moment) (spans (c.t.hdl hn) (c.t.lay (tileL w.dN)) moment) with
  | (c, some e) => c.why e (lenA w)
  | (c, none) =>
    let kind := (c.t.hdl hn).kind
    if add && 5 ≤ kind then c.trap cAtomic [kind - 1, fn] (lenA w)
    else c.issueOp w (w.md 1 0) fun c =>
      let c := c.submit (w.md 1 0) { num := 0, kind := if moment then .mdrain add else .drain add, split := 0, mask := 0, fmt := 0,
                                     dstH := c.t.h.get hn, dstL := c.t.ly.get (tileL w.dN), snapped := false }
      c.enqueue { c.matOp op fn w hn (tileL w.dN) 0 0 with ctx := some (w.md 1 0, c.t.issuedOf (w.md 1 0)) }

/-- A register form (R413, R416). -/
def Ctx.drainReg (c : Ctx) (op fn : Nat) (w : OpA) (ly : Nat) (moment : Bool) : Out :=
  if !c.guarded w then c.done c.t (lenA w)
  else
    let o : TileOp := { opn := 3, code := 4, ly := ly, hdl := none, fmts := some (if moment then [0] else [0, 1, 2]),
                        shape := .regs (w.md 9 4), scaled := false }
    match c.tileOps [o] false with
    | (c, some e) => c.why e (lenA w)
    | (c, none) => let c := c.enqueue (c.matOp op fn w 0 0 0 ly); c.done c.t (lenA w)

/-- The registers that the register layout of a register form reaches, at stage 7 (R126, R209, R315). -/
def Ctx.drainRange (c : Ctx) (w : OpA) (ly : Nat) (moment : Bool) : Option Nat :=
  let l := c.t.lay ly
  let b := l.bounds 2
  if w.md 3 3 == 0 then none
  else if !moment then c.regOutside w.dN l
  else if (w.dN : Int) + b.1 < 0 then some (0x400 + (ofInt 8 (w.dN + b.1)).toNat)
  else if decide ((c.t.moms : Int) ≤ w.dN + b.2) then some (0x400 + (w.dN + b.2).toNat % 256)
  else none

def execDrain (w : OpA) (s : State) : Out :=
  issueKR (fun _ => none) (·.drainRange w ((sigDrain w).bOf w) false) 22 4 (sigDrain w) w s fun c =>
    if w.md 3 3 == 1 then c.drainReg 22 4 w ((sigDrain w).bOf w) false else c.drainMem 22 4 w false

def execMdrain (w : OpA) (s : State) : Out :=
  issueKR (fun _ => none) (·.drainRange w ((sigMdrain w).bOf w) true) 23 12 (sigMdrain w) w s fun c =>
    if w.md 3 3 == 1 then c.drainReg 23 12 w ((sigMdrain w).bOf w) true else c.drainMem 23 12 w true

/-! FMTSET, FMTGET (R417, R418). -/

/-- FMT under a form of FMTSET, or the code refused (R418, R236). -/
def fmtsetOf (w : OpA) (f a : Quad) : Except Nat Quad :=
  match w.md 9 8 with
  | 0 => (match fmtBad a with | some e => .error e | none => .ok a)
  | 3 => .ok (setBits (setBits (setBits f 29 28 (w.md 1 0)) 30 30 (w.md 2 2)) 32 31 (w.md 4 3))
  | k =>
    let code := w.md 5 0
    if (fmtOf code).isNone then .error code
    else if k == 1 then .ok (setBits (setBits f 5 0 code) 19 12 (bits a 7 0))
    else .ok (setBits (setBits f 11 6 code) 27 20 (bits a 7 0))

def execFmtset (w : OpA) (s : State) : Out :=
  issueU 22 5 (sigFmtset w) w s fun c =>
    match fmtsetOf w c.sp.fmt (c.rdS w.aN) with
    | .error e => c.trap cFormat [e] (lenA w)
    | .ok f => c.done (c.t.modSplit c.sp.id fun p => { p with fmt := f }) (lenA w)

def execFmtget (w : OpA) (s : State) : Out :=
  issueU 22 6 (sigFmtget w) w s fun c => c.done (c.t.wrS c.sp.lvl w.dN c.sp.fmt) (lenA w)

/-! Block sums (R240). -/

/-- One accumulator element after a block: the inputs of its terms, and each term exactly with its invalid mark. -/
def blockSum (acc : Nat) (ins : List FV) (terms : List (FV × Nat)) : Nat × Nat :=
  let a := decodeF fmtF32 acc
  let vs := a :: terms.map (·.1)
  let infs := vs.filter FV.isInf
  -- a signalling NaN among the inputs sets invalid (R228)
  if a.isNan || ins.any FV.isNan then (canonNan, if (a :: ins).any FV.isSig then flIV else 0)
  else if (terms.any fun x => x.2 != 0) || (infs.any FV.neg? && infs.any fun v => !v.neg?) then (canonNan, flIV)
  else match infs with
    | v :: _ => (if v.neg? then negInf else posInf, 0)
    | [] =>
      let r := roundF32 ((terms.map (·.1)).foldl (fun x y => (addF x y 0).1) a)
      -- a zero result is −0 only when acc and every product are −0
      let z := if r.1 == 0x80000000 && !(vs.all fun v => v.isZero && v.neg?) then 0 else r.1
      (z, r.2 &&& flOF)

/-- The K-blocks of a dot product in ascending order. -/
def dotBlocks (blk : Nat) (xs : List (FV × FV)) : Nat → Nat × Nat → Nat × Nat
  | 0, r => r
  | n + 1, r =>
    let now := xs.take blk
    let x := blockSum r.1 (now.flatMap fun p => [p.1, p.2]) (now.map fun p => mulF p.1 p.2)
    dotBlocks blk (xs.drop blk) n (x.1, r.2 ||| x.2)

/-- The K-block size (R240). -/
def blockSize (f : Quad) : Nat := if afmt f == 0 || bfmt f == 0 then 8 else if isQ8 (afmt f) && isQ8 (bfmt f) then 32 else 16

/-! Operand reads (R404, R207, R238). -/

/-- A fault of an operand fetch, or a refused scale word, with its operand. -/
inductive FetchFault where
  | access (e : EFault) (opn : Nat)
  | scale (opn : Nat)
  deriving DecidableEq, Repr

/-- Does the fetch wait for a fabric port (R37)? -/
def FetchFault.held : FetchFault → Bool | .access e _ => e.cause == 0 | .scale _ => false

/-- The memory operands of a queued instruction, each plane a handle and a layout (R408, R412, R420). -/
def MatOp.operands (m : MatOp) : List (Hdl × Lay) :=
  let a := (Hdl.read m.hA, Lay.read m.lA)
  let b := (Hdl.read m.hB, Lay.read m.lB)
  match m.fn with
  | (22, 0) | (22, 1) => [a, b]
  | (22, 3) => [a]
  | (23, 11) => [0, 1].flatMap fun p => [(planeHdl a.1 p, a.2), (planeHdl b.1 p, b.2)]
  | _ => []

/-- The places of an operand's elements, and of its scale word (R237), with their sizes. -/
def operandPlaces (x : Hdl × Lay) : List (Place × Nat) :=
  ((List.range x.2.size).map fun i => (locate x.1 x.2 i, x.2.width)) ++
  (if x.2.scaled then (match scalePlace x.1 with | .ok p => [(p, 4)] | .error _ => []) else [])

/-- What a matrix instruction reads of its operands. -/
def MatOp.touches (m : MatOp) (s : State) (t : Team) : List (Loc × Nat) :=
  m.operands.flatMap fun x => (operandPlaces x).flatMap fun p =>
    match enginePlace s t x.1 0 p.2 p.1 with | .ok y => y | .error _ => []

/-- The issuing split's earlier accesses to what the instruction reads, still to be performed: flight and run (R404). -/
def MatOp.earlier (m : MatOp) (s : State) (t : Team) : List (Nat × Nat) :=
  let fs := t.flights.filter fun f => f.id < m.seqNo && (f.split == m.split || m.anc.contains f.split)
  if fs.isEmpty then []
  else
    let l := m.touches s t
    fs.flatMap fun f => ((f.runs.zip (List.range f.runs.length)).filter fun r =>
      !r.1.done && l.any fun e => overlaps r.1.loc r.1.bytes e.1 e.2).map fun r => (f.id, r.2)

/-- They are performed before the operands are read (R404). -/
def settleOwn (s : State) (tid : Nat) (m : MatOp) : State :=
  match s.teams.at? tid with
  | none => s
  | some t => (m.earlier s t).foldl (fun s e => settleSeg ((performRun s tid e.1 e.2).getD s) tid e.1) s

/-- All elements of a plane, times 2^sc, in index order. -/
def readPlane (s : State) (t : Team) (h : Hdl) (l : Lay) (n opn : Nat) (sc : Int) :
    Except FetchFault (List FV) :=
  let f := (fmtOf l.fmt).getD fmtF32
  let word : Except FetchFault Int :=
    if !l.scaled then .ok 0
    else match readScale s t h l with
      | .ok x => .ok x
      | .error e => if e.cause == cFormat then .error (.scale opn) else .error (.access e opn)
  match word with
  | .error e => .error e
  | .ok e =>
    match allOk (fun i => enginePlace s t h 0 l.width (locate h l i)) (List.range n) with
    | .error x => .error (.access x opn)
    | .ok ps => .ok (ps.map fun p => scaleF (decodeF f (siteRead s p)) (sc + e))

/-- Element (row, column) of a plane of rows × cols (R407). -/
def planeAt (l : Lay) (rows cols : Nat) (xs : List FV) (r c : Nat) : FV :=
  atD xs (if l.col then r + rows * c else c + cols * r) (.nan false)

/-! What the unit computes. -/

/-- The elements of a tile as a store: zero elements are not listed. -/
def tileStore (base n : Nat) (f : Nat → Nat) : Store 32 :=
  (List.range n).filterMap fun k => let x := BitVec.ofNat 32 (f k); if x = 0 then none else some (base + k, x)

/-- A store with the keys of a range replaced. -/
def Store.replace {w : Nat} (m : Store w) (lo n : Nat) (new : Store w) : Store w :=
  m.filter (fun e => e.1 < lo) ++ new ++ m.filter (fun e => lo + n ≤ e.1)

/-- What an instruction leaves: accumulator elements from `lo`, how many, moment results, register results, flags,
a deferred trap (cause, TINFO). -/
structure Done where
  lo    : Nat := 0
  n     : Nat := 0
  acc   : Store 32 := []
  flags : Nat := 0
  trap  : Option (Nat × List Nat) := none

def sexpA (f : Quad) : Int := signedN 8 (bits f 19 12)
def sexpB (f : Quad) : Int := signedN 8 (bits f 27 20)

/-- MMA and MMA2 (R409). -/
def runMma (s : State) (t : Team) (m : MatOp) (rows : Nat) : Except FetchFault Done :=
  let k := mmaK m.fmt
  let la := Lay.read m.lA
  let lb := Lay.read m.lB
  match readPlane s t (Hdl.read m.hA) la (rows * k) 0 (sexpA m.fmt) with
  | .error e => .error e
  | .ok a =>
    match readPlane s t (Hdl.read m.hB) lb (k * 64) 1 (sexpB m.fmt) with
    | .error e => .error e
    | .ok b =>
      let el := fun i => dotBlocks (blockSize m.fmt)
        ((List.range k).map fun q => (planeAt la rows k a (i / 64) q, planeAt lb k 64 b q (i % 64))) 4
        ((t.acc.get (m.d * 4096 + i)).toNat, 0)
      let rs := (List.range (rows * 64)).map el
      .ok { lo := m.d * 4096, n := rows * 64, acc := tileStore (m.d * 4096) (rows * 64) fun i => (atD rs i (0, 0)).1,
            flags := rs.foldl (fun x r => x ||| r.2) 0 }

/-- ACCLD (R412). -/
def runAccld (s : State) (t : Team) (m : MatOp) : Except FetchFault Done :=
  let l := Lay.read m.lA
  match readPlane s t (Hdl.read m.hA) l 4096 0 0 with
  | .error e => .error e
  | .ok a =>
    .ok { lo := m.d * 4096, n := 4096,
          acc := tileStore (m.d * 4096) 4096 fun i => (roundF32 (planeAt l 64 64 a (i / 64) (i % 64))).1 }

/-- Is a variance negative: below zero, −Inf included, neither −0 nor a NaN (R259)? -/
def negVar (v : FV) : Bool := match v with | .nan _ => false | .inf n => n | .fin n m _ st => n && (m != 0 || st)
/-- The same of f32 bits. -/
def negVarBits (x : Nat) : Bool := negVar (decodeF fmtF32 x)
/-- NVCLAMP (R242). -/
def nvClamp (t : Team) : Bool := t.flags.getLsbD 16

/-- MMMA (R256, R261). -/
def runMmma (s : State) (t : Team) (m : MatOp) : Except FetchFault Done :=
  let la := Lay.read m.lA
  let lb := Lay.read m.lB
  let sa := sexpA m.fmt
  let sb := sexpB m.fmt
  let ha := Hdl.read m.hA
  let hb := Hdl.read m.hB
  match readPlane s t ha la 1024 0 sa, readPlane s t (planeHdl ha 1) la 1024 0 (2 * sa),
        readPlane s t hb lb 1024 1 sb, readPlane s t (planeHdl hb 1) lb 1024 1 (2 * sb) with
  | .ok ma, .ok va, .ok mb, .ok vb =>
    let μa := fun r k => planeAt la 64 16 ma r k
    let μb := fun k c => planeAt lb 16 64 mb k c
    let clamp := nvClamp t
    let fix := fun v => if negVar v && clamp then FV.fin false 0 0 false else v
    let badA := fun r k => negVar (planeAt la 64 16 va r k)
    let badB := fun k c => negVar (planeAt lb 16 64 vb k c)
    let νa := fun r k => fix (planeAt la 64 16 va r k)
    let νb := fun k c => fix (planeAt lb 16 64 vb k c)
    let ks := List.range 16
    let all := (List.range 64).flatMap fun x => ks.map fun k => (x, k)
    let anyBad := all.any fun e => badA e.1 e.2 || badB e.2 e.1
    let row := fun r => !clamp && ks.any fun k => badA r k
    let col := fun c => !clamp && ks.any fun k => badB k c
    let first := (ks.findSome? fun k => ((List.range 64).find? fun r => badA r k).map fun r => r + k * 256).or
      (ks.findSome? fun k => ((List.range 64).find? fun c => badB k c).map fun c => c + k * 256 + 4096)
    let mean := (List.range 4096).map fun i =>
      dotBlocks 16 (ks.map fun k => (μa (i / 64) k, μb k (i % 64))) 1 ((t.acc.get (m.d * 4096 + i)).toNat, 0)
    let mul3 := fun x y z : FV => let p := mulF x y; let q := mulF p.1 z; (q.1, p.2 ||| q.2)
    let var := (List.range 4096).map fun i =>
      let r := i / 64
      let c := i % 64
      -- an offending term counts as a NaN of the block (R261)
      blockSum (t.acc.get ((m.d + 1) * 4096 + i)).toNat
        ((if row r || col c then [FV.nan false] else []) ++ ks.flatMap fun k => [νa r k, νb k c, μa r k, μb k c])
        (ks.flatMap fun k => [mulF (νa r k) (νb k c), mul3 (νa r k) (μb k c) (μb k c), mul3 (νb k c) (μa r k) (μa r k)])
    let rs := mean ++ var
    .ok { lo := m.d * 4096, n := 8192, acc := tileStore (m.d * 4096) 8192 fun i => (atD rs i (0, 0)).1,
          flags := rs.foldl (fun x r => x ||| r.2) (if anyBad && clamp then flNVC else 0),
          trap := if clamp then none else first.map fun x => (cNegVar, [x]) }
  | .error e, _, _, _ => .error e
  | _, .error e, _, _ => .error e
  | _, _, .error e, _ => .error e
  | _, _, _, .error e => .error e

/-- The variances that MDRAIN reads, n elements from `from_` (R257, R259, R260): clamped or NaN, whether one was clamped,
and the first offending element with its bits; elements that are skipped report nothing (R416). -/
def drainVars (t : Team) (acc from_ n : Nat) (hit : Nat → Bool) : List Nat × Bool × Option (Nat × Nat) :=
  let xs := (List.range n).map fun i => (t.acc.get (acc * 4096 + from_ + i)).toNat
  let bad := (List.range n).filter fun i => hit i && negVarBits (atD xs i 0)
  let clamp := nvClamp t
  (xs.map fun x => if negVarBits x then (if clamp then 0 else canonNan) else x,
   clamp && !bad.isEmpty,
   if clamp then none else (bad.head?).map fun i => (from_ + i, atD xs i 0))

/-- NEGATIVE_VARIANCE of MDRAIN (R260). -/
def drainTrap (x : Option (Nat × Nat)) : Option (Nat × List Nat) :=
  x.map fun e => (cNegVar, [e.1 % 64 + e.1 / 64 * 256, e.2])

/-- A vector register with a slot of n bytes replaced (R208). -/
def putSlot (old n slot v : Nat) : Nat :=
  let lo := 2 ^ (8 * n * slot)
  let w := 2 ^ (8 * n)
  old % lo + v % w * lo + old / (lo * w) * (lo * w)

/-- Registers that a drain writes show nothing older than it (R303): their kind (R77), the register and the lane. -/
def Team.drained (t : Team) (kind : Nat) (l : List (Nat × Nat)) : Team :=
  { t with hazards := t.hazards.flatMap fun h => h.until (fun n => h.kind == kind && l.contains (h.reg, n)) 0 }

/-- DRAIN.v writes its registers (R416) and sets flags. -/
def drainV (t : Team) (m : MatOp) : Team :=
  let t := t.drained 0 ((drainItems m).map fun e => (e.2.1, e.1))
  let l := Lay.read m.lB
  let row0 := nbits m.mod 9 4
  let f := (fmtOf l.fmt).getD fmtF32
  (drainItems m).foldl (fun t e =>
    let x := (t.acc.get (m.a * 4096 + row0 * 64 + e.2.2.2)).toNat
    let r := if l.fmt == 0 then (x, 0) else roundTo f (decodeF fmtF32 x) (bits m.fmt 29 28) (bits m.fmt 30 30 == 1)
    (t.land m.lvl e.2.1 e.1 (BitVec.ofNat 32 (putSlot (t.rdV m.lvl e.2.1 e.1).toNat l.width e.2.2.1 r.1))).orFlags r.2) t

/-- MDRAIN.m writes its moment registers (R413, R416). -/
def drainM (t : Team) (m : MatOp) : Team × Option (Nat × List Nat) :=
  let row0 := nbits m.mod 9 4
  let l := Lay.read m.lB
  let items := drainItems m
  let (vs, nvc, bad) := drainVars t (m.a + 1) (row0 * 64) l.size fun i => items.any fun e => e.2.2.2 == i
  let t' := items.foldl (fun u e =>
    let v := atD vs e.2.2.2 0
    u.wrM e.2.1 e.1 (BitVec.ofNat 32 (if v == 0x80000000 then 0 else v) ++ t.acc.get (m.a * 4096 + row0 * 64 + e.2.2.2)))
    (t.drained 4 (items.map fun e => (e.2.1, e.1)))
  (if nvc then t'.orFlags flNVC else t', drainTrap bad)

/-! The unit (R403 to R406). -/

/-- The partner of a D-core (R9). -/
def partnerOf (c : CoreId) : Option CoreId :=
  if isL c then none else some { c with core := if c.core % 2 == 0 then c.core + 1 else c.core - 1 }

/-- Is the matrix array of a core at work: an instruction of a team there runs, or an MMA2 of the partner, but one of a team that
has migrated (R410)? -/
def arrayBusy (s : State) (core : CoreId) : Bool :=
  s.teams.vals.any fun t => (match t.mat.head? with
    | some m => m.started && (t.core == core || (m.fn == (22, 1) && !s.migrated t && partnerOf t.core == some core))
    | none => false)

/-- TREG bytes of an operand, its scale word among them, as line numbers of the tile register file. -/
def tregLines (x : Hdl × Lay) : List Nat :=
  if x.1.kind == 0 then distinct ((operandPlaces x).flatMap fun p => p.1.lines p.2) else []

/-- Must an operand read wait for a drain into TREG (R403)? -/
def tregWait (t : Team) (m : MatOp) : Bool :=
  let reads := m.operands.flatMap tregLines
  !reads.isEmpty && t.eng.any fun l => l.any fun o => !o.kind.copies && o.snapped && !o.written &&
    ((match o.kind with | .mdrain _ => [0, 1] | _ => [0]).any fun p => (tregLines (planeHdl o.dst.1 p, o.dst.2)).any reads.contains)

/-- The record at which the lanes of a mask wait keeps a deferred trap of theirs (R405). -/
def Team.holdAtJoin (t : Team) (mask : Mask) (r : TrapRec) : Team :=
  match t.joins.find? fun j => j.lvl == 0 && j.arrived &&& mask != 0 with
  | some j => t.modJoin j.id fun x => { x with pend := x.pend ++ [r] }
  | none => t

/-- A deferred trap waits with the lanes of a split of interrupted code (R269, R405): in the entry that a frame keeps, or in the
join record at which they have arrived. -/
def Team.holdTrap (t : Team) (mask : Mask) (r : TrapRec) : Team :=
  match t.uframe.bind (·.split) with
  | some p =>
    if p.mask &&& mask != 0 then
      { t with uframe := t.uframe.map fun f => { f with split := some { p with pend := p.pend ++ [r] } } }
    else t.holdAtJoin mask r
  | none => t.holdAtJoin mask r

/-- The split that issued a queued instruction, as it stood then: what the instruction raises is recorded there (R146, R278). -/
def MatOp.actor (m : MatOp) (t : Team) : Split :=
  (t.actor m.split m.lvl ((t.indexOf m.tpc).getD 0) m.slot).getD { id := 0, lvl := m.lvl }

/-- A trap of the matrix queue (R405): pending in the split that holds the issuing split's lanes, at the REPEAT where it stands behind
one (R308), in the trapped one where a handler stands in its place (R269), or in the record at which they wait; of an instruction of a
handler a DOUBLE_FAULT (R274). -/
def deferTrap (s : State) (tid : Nat) (t : Team) (m : MatOp) (cause : Nat) (info : List Nat) : State :=
  if m.lvl == 0 then
    let r : TrapRec := { mkRec s t (m.actor t) cause info m.mask 0 with resume := 0, team := false, lanes := m.mask }
    let s := { s with nextId := s.nextId + 1 }
    match t.splits.find? fun p => p.lvl == 0 && p.mask &&& m.mask != 0 with
    | some p => deliverPending (s.setTeam tid (t.modSplit p.id fun x => { x.unprefix with pend := x.pend ++ [r] })) tid
    | none => s.setTeam tid (t.holdTrap m.mask r)
  else raise s tid t (m.actor t) cause info m.mask 0

/-- Is the workgroup of a team placed again after an operand's translation fault (R278)? -/
def State.relaunches (s : State) (t : Team) : Bool :=
  match (s.wgOf t).bind fun w => s.gridOf w.grid with
  | some g => lrF g.lrec 4 28 28 == 1
  | none => false

/-- A workgroup is killed by an operand fault (R278): a translation fault of a relaunchable grid waits for the host,
any other fails the grid. -/
def killWg (s : State) (tid : Nat) (t : Team) (m : MatOp) (e : EFault) : State :=
  match s.wgOf t with
  | none => s
  | some w =>
    if e.served && s.relaunches t then
      let q := mkReq s tid t m.split e.addr m.tpc e.cause 0 m.mask
      let s := releaseWg s t.wg .terminated
      { s with wgs := s.wgs.erase t.wg, faultReq := s.faultReq ++ [{ q with wg := some (w.grid, w.lin) }] }
    else failWg s t.wg cMatrix

/-- A fault that the queue serves for the instruction at the head of the matrix queue (R412, R462): the team stops, the instruction
stays there and starts again. -/
def matFault (s : State) (tid : Nat) (t : Team) (m : MatOp) (e : EFault) : State :=
  let r : TrapRec := { mkRec s t (m.actor t) e.cause [e.addr] m.mask 0 with resume := 2, team := true, lanes := m.mask }
  let q := mkReq s tid t m.split e.addr m.tpc e.cause 0 m.mask
  fileFault s tid { t with mat := { m with held := true } :: t.mat.drop 1 } { q with engine := some 5, trap := r }

/-- An operand fault by instruction (R278, R412, R408): MMA, MMA2 and MMMA kill the workgroup; ACCLD is served or fails
the grid; a refused scale word is a deferred trap and the instruction changes nothing. A fault of the table that the record needs is
served first (R462). Of a user handler's instruction what the host does not serve is a DOUBLE_FAULT, of a privileged handler's every
fault ends the workgroup (R274, R275). -/
def operandFault (s : State) (tid : Nat) (t : Team) (m : MatOp) (f : FetchFault) : State :=
  match f with
  | .scale opn => deferTrap s tid { t with mat := t.mat.drop 1 } m cFormat [opn + 0x600]
  | .access e opn =>
    match (if m.lvl == 2 then none else corrFault s t) with
    | some (c, va) => matFault s tid t m ⟨c, true, va⟩
    | none =>
      let ld := m.fn == (22, 3)
      let cause := if ld then e.cause else cMatrix
      let info := if ld then [e.addr] else [e.addr, opn]
      let served := e.served && m.lvl != 2 && (ld || s.relaunches t)
      if m.lvl != 0 && !served then raise s tid t (m.actor t) cause info m.mask 0
      else if ld && served then matFault s tid t m e
      else
        let p := m.actor t
        let r : TrapRec := { mkRec s t p cause info m.mask 0 with resume := 3, lanes := m.mask }
        if ld then deliverX s tid t p r else killWg (s.setTeam tid (t.setK r)) tid (t.setK r) m e

/-- The unit starts the next queued instruction of a team: its operands are read (R403, R404), lines of host memory held
(R44), the core's copies of what was read no older than it (R183), and acquires that waited for the reads complete (R193). -/
def execMatrixStart (team : Nat) (s : State) : Out :=
  match s.teams.at? team with
  | none => notNow
  | some t =>
    match t.mat.head? with
    | none => notNow
    | some m =>
      let pair : Bool := match partnerOf t.core with
        | some p => m.fn == (22, 1) && !s.migrated t && arrayBusy s p
        | none => false
      if m.started || m.held || arrayBusy s t.core || pair || tregWait t m || s.dev.tripped then notNow
      else
        let s := settleOwn s team m
        let t := (s.teams.at? team).getD t
        if !(m.earlier s t).isEmpty then notNow else
        let run : Except FetchFault Done := match m.fn with
          | (22, 0) => runMma s t m 64
          | (22, 1) => runMma s t m 128
          | (22, 2) => .ok { lo := m.d * 4096, n := 4096 }
          | (22, 3) => runAccld s t m
          | (23, 11) => runMmma s t m
          | _ => .ok {}
        match run with
        | .error f =>
          if f.held || (m.lvl != 2 && corrHeld s t) then notNow else .next (settleAcquire (operandFault s team t m f) team)
        | .ok d =>
          let m := { m with started := true, result := d.acc, range := (d.lo, d.n), flags := d.flags, trap := d.trap }
          let l := m.touches s t
          .next (settleAcquire (((s.seeLocs t.core l).holdLocs l).setTeam team { t with mat := m :: t.mat.drop 1 }) team)

/-- The accumulator read of a memory form ends (R414): the snapshot goes to its operation. -/
def snapshot (t : Team) (m : MatOp) : Team × Option (Nat × List Nat) :=
  let moment := m.fn.1 == 23
  let (vs, nvc, bad) := if moment then drainVars t (m.a + 1) 0 4096 (fun _ => true) else ([], false, none)
  let tile : Store 32 := (tileStore 0 4096 fun i => (t.acc.get (m.a * 4096 + i)).toNat) ++
    (if moment then tileStore 4096 4096 fun i => atD vs i 0 else [])
  let (c, num) := m.ctx.getD (0, 0)
  let t := t.setOps c ((t.ops c).map fun o => if o.num == num then { o with snapped := true, tile := tile } else o)
  (if nvc then t.orFlags flNVC else t, drainTrap bad)

/-- The unit completes an instruction and frees its queue slot (R403): its results and flags are written, a deferred trap
becomes pending (R405). -/
def execMatrixComplete (team : Nat) (s : State) : Out :=
  match s.teams.at? team with
  | none => notNow
  | some t =>
    match t.mat.head? with
    | none => notNow
    | some m =>
      if !m.started || s.dev.tripped then notNow
      else
        let t := { t with mat := t.mat.drop 1 }
        let reg := m.mod.testBit 3
        let (t, trap) := match m.fn with
          | (22, 4) => if reg then (drainV t m, none) else snapshot t m
          | (23, 12) => if reg then drainM t m else snapshot t m
          | _ => ({ t with acc := Store.replace t.acc m.range.1 m.range.2 m.result }.orFlags m.flags, m.trap)
        let en := enabledFlags t m.flags
        let trap := match trap with
          | some x => some x
          | none => if en != 0 then some (cFp, [en]) else none
        let s := s.setTeam team t
        let s := match trap with
          | some x => deferTrap s team t m x.1 x.2
          | none => s
        .next (settleEnd s team)

end Sys2Proof.Machine
end

