-- ==== Sys2Proof/Machine/Links.lean ====
section
/-! DEFINITION. Links (R28, R36 to R41, R48, R54): status words, flit errors and lane retirement, fabric ports that train,
expanders that fail. -/

namespace Sys2Proof.Machine

/-- Modules in service and spare modules of a boundary (R28). -/
def boundaryFull (sel : Nat) : Nat × Nat := if sel < 4 then (56, 2) else (8, 1)
/-- Is it a die boundary, a fabric port, a CXL Type 3 port (R54)? -/
def isBoundary (sel : Nat) : Bool := sel ≤ 5
def isPort (sel : Nat) : Bool := 16 ≤ sel && sel ≤ 51
def isExpander (sel : Nat) : Bool := 64 ≤ sel && sel ≤ 71
def isLink (sel : Nat) : Bool := isBoundary sel || isPort sel || isExpander sel

/-- The link status word (R41). -/
def linkWord (l : Link) : Nat :=
  l.state + l.active * 2 ^ 8 + l.sparemod * 2 ^ 16 + l.sparelane * 2 ^ 24 + l.transient * 2 ^ 32 + l.lasting * 2 ^ 56

/-- A link as it now stands; a change of its STATE is posted (R41, R57). -/
def setLink (s : State) (sel : Nat) (l : Link) : State :=
  let old := linkOf s sel
  let s := { s with dev := { s.dev with links := s.dev.links.insert sel l } }
  if old.state == l.state then s else postEvent s 1 sel l.state (linkWord l)

/-- Is a boundary degraded: fewer modules in service than R28 lists (R39)? -/
def degraded (s : State) : Bool := (List.range 6).any fun b => (linkOf s b).active < (boundaryFull b).1

/-- A retry event that delays an access of a partition (R21): none of partition 0 counts. -/
def retryEvent (s : State) (pid : Nat) : State :=
  if pid == 0 then s else { s with parts := s.parts.modify pid fun p => { p with retry := p.retry + 1 } }

/-! Accesses lost with a port (R37, R40). -/

/-- The package that an address of a team translates to. -/
def packageAt (s : State) (t : Team) (va : Nat) : Option Nat :=
  match leafOf s t.core (s.ptbaseOf t) va with
  | .ok (leaf, sh) => some (pkgOf (bits leaf 56 8 * 256 + va % 2 ^ sh))
  | .error _ => none

/-- The package of an access that is held (cause 0). -/
def heldPackage {α : Type} (s : State) (t : Team) (r : Except EFault α) : Option Nat :=
  match r with
  | .error e => if e.cause == 0 then packageAt s t e.addr else none
  | .ok _ => none

/-- A read on which a split waits (R37): of its instruction, of its fetch, of the table and the handler's word that its trap's entry
reads (R462), each with its kind of access. -/
def Split.heldReads (p : Split) (s : State) (t : Team) : List (Nat × Nat) :=
  match p.park with
  | some (.held va access) => [(va, access)]
  | some (.again _ read) => read.toList
  | park =>
    (if park.isNone then (fetchHeld s t p).toList else []) ++
    (if p.pend.isEmpty then []
     else ((corrHeldAt s t).map fun va => (va, 0)).toList ++
       (if t.thbase != 0 && handlerHeld s t then ((handlerIndex s t).map (targetVa s t)).toList else []))

/-- The places of those reads, with their splits. -/
def Team.fetches (t : Team) (s : State) : List (Loc × Split) :=
  t.splits.flatMap fun p => (p.heldReads s t).filterMap fun e =>
    match translate s t.core (s.pidOf t) t.wg (s.ptbaseOf t) e.1 e.2 with
    | .ok tr => some (tr.loc, p)
    | .error _ => none

/-- Is a run an access in flight to a package under a route entry of a kind, or with `heldOnly` one that is not on its way yet? -/
def runLost (s : State) (pkg : Nat) (lost : Word → Bool) (heldOnly : Bool) (r : Run) : Bool :=
  (if heldOnly then !r.done else runOpen s r) &&
  (match r.loc with | .mem pa => !isLocal s pa && pkgOf pa == pkg && lost r.route | _ => false)

/-- The same for an engine operation: the access for which it waits, or a write of it that awaits its completion. -/
def opLost (s : State) (pkg : Nat) (lost : Word → Bool) (heldOnly : Bool) (tid : Nat) (t : Team) (o : EngOp) : Bool :=
  (lost (routeOf s pkg) && heldPackage s t (o.advance s tid t) == some pkg) ||
  (!heldOnly && o.reqs.any fun id => match s.fabReqs.at? id with | some q => q.pkg == pkg && lost q.route | none => false)

/-- The same for the operands of the matrix instruction at the head of the queue. -/
def matLost (s : State) (pkg : Nat) (lost : Word → Bool) (t : Team) (m : MatOp) : Bool :=
  lost (routeOf s pkg) && [(m.hA, m.lA), (m.hB, m.lB)].any fun (x : BitVec 128 × BitVec 512) =>
    let h := Hdl.read x.1
    let l := Lay.read x.2
    x.2 != 0 && heldPackage s t (allOk (fun i => enginePlace s t h 0 l.width (locate h l i)) (List.range l.size)) == some pkg

/-- Has a team an access that is lost to a package: of its flights, the matrix unit or a read that a split waits for? The split that
its DATA_ERROR names, where no flight tells it. -/
def lostAt (s : State) (pkg : Nat) (lost : Word → Bool) (heldOnly : Bool) (t : Team) : Option Split :=
  if t.flights.any fun f => f.runs.any (runLost s pkg lost heldOnly) then some ((t.splits.head?).getD { id := 0 })
  else match (t.mat.head?).filter fun m => !m.started && matLost s pkg lost t m with
  | some m => some (m.actor t)
  | none =>
    let held := fun (x : Loc × Split) => match x.1 with
      | .mem pa => !isLocal s pa && pkgOf pa == pkg && lost (routeOf s pkg) && !routeCarries s pkg
      | _ => false
    ((t.fetches s).find? held).map (·.2)

/-- Has it one, or one of its engine contexts? -/
def teamLost (s : State) (pkg : Nat) (lost : Word → Bool) (heldOnly : Bool) (e : Nat × Team) : Bool :=
  ((List.range 5).any fun c => ((e.2.ops c).head?).any (opLost s pkg lost heldOnly e.1 e.2)) ||
  (lostAt s pkg lost heldOnly e.2).isSome

/-- A lost access ends the operation of an engine context with its DATA_ERROR (R40, R397): its writes await no completion. -/
def loseOp (s : State) (pkg : Nat) (lost : Word → Bool) (heldOnly : Bool) (tid ctx : Nat) : State :=
  match (s.teams.at? tid).bind fun t => ((t.ops ctx).head?).map fun o => (t, o) with
  | none => s
  | some (t, o) =>
    if !opLost s pkg lost heldOnly tid t o then s
    else
      let va := match o.advance s tid t with | .error e => e.addr | .ok _ => o.dst.1.base
      engineFault { s with fabReqs := s.fabReqs.filter fun e => !o.reqs.contains e.1 } tid ctx t { o with reqs := [] }
        ⟨cData, false, va⟩

/-- The operations of a saved team whose writes are lost (R40, R397): they end, their record is the team's and its grid fails. -/
def loseSaved (s : State) (lost : FabOut → Bool) (e : Nat × Team) : State :=
  (List.range 4).foldl (fun s c => match (e.2.ops c).head? with
    | none => s
    | some o =>
      if !(o.reqs.any fun id => (s.fabReqs.at? id).any lost) then s
      else
        let info := [c + cData * 256, o.chunk, o.dst.1.base]
        let t := ((s.savedTeams.at? e.1).getD e.2).setHead c { o with dead := true, reqs := [] }
        let t := t.setK (engineRec s t o cChunk 3 info)
        let s := { s with savedTeams := s.savedTeams.insert e.1 t, fabReqs := s.fabReqs.filter fun x => !o.reqs.contains x.1 }
        match s.wgOf t with
        | some w => reportFail s w.grid cChunk 0 w.lin
        | none => s) s

/-- A package's route entry becomes unreachable (R40). -/
def cutRoute (s : State) (pkg : Nat) : State :=
  { s with dev := { s.dev with routes := s.dev.routes.set pkg ((routeOf s pkg ||| 0x80000000#32) ^^^ 0x80000000#32) } }

/-- The accesses to a package that are lost: their teams receive DATA_ERROR, and the package's route entry becomes unreachable
(R40). A store of a team that has ended has no team left to trap. -/
def losePackage (s : State) (lost : Word → Bool) (heldOnly : Bool) (pkg : Nat) : State :=
  let hits := (s.teams.filter (teamLost s pkg lost heldOnly)).map (·.1)
  let gone := fun (q : FabOut) => !heldOnly && q.pkg == pkg && lost q.route
  let left := fun (e : Nat × FabOut) => gone e.2 && (s.teams.at? e.2.team).isNone
  if hits.isEmpty && !s.fabReqs.any left then s
  else
    let s := s.savedTeams.foldl (fun s e => if (s.teams.at? e.1).isSome then s else loseSaved s gone e) s
    let s := { s with fabReqs := s.fabReqs.filter fun e => !left e }
    let s := hits.foldl (fun s x =>
      let who := (s.teams.at? x).bind (lostAt s pkg lost heldOnly)
      let s := (List.range 5).foldl (fun s c => loseOp s pkg lost heldOnly x c) s
      match who with
      | some p => dataError s x (runLost s pkg lost heldOnly) 4 0 (some p)
      | none => s) s
    cutRoute s pkg

/-- The packages to which some access is under way, or waits to go. -/
def packagesUsed (s : State) : List Nat :=
  distinct (s.teams.vals.flatMap fun t =>
    let place := fun l : Loc => match l with | .mem pa => if isLocal s pa then [] else [pkgOf pa] | _ => []
    (t.flights.flatMap fun f => f.runs.flatMap fun r => place r.loc) ++ ((t.fetches s).flatMap fun x => place x.1)) ++
  s.fabReqs.vals.map (·.pkg) ++ (List.range 512).filter fun p => !(routeOf s p).getLsbD 31

/-- Does a route entry name a port? -/
def namesPort (port : Nat) (e : Word) : Bool := !e.getLsbD 31 && (bits e 21 16 == port || bits e 29 24 == port)

/-- A port has gone DOWN: accesses issued under an entry that names it and has no port left are lost (R40). -/
def losePort (s : State) (port : Nat) : State :=
  (distinct (packagesUsed s)).foldl (fun s p => losePackage s (fun e => namesPort port e && !entryOk s e) false p) s

/-! The steps. -/

/-- A received flit fails its CRC and is replayed once, a retry event of the partition whose access it delays, which is a
free choice (R38, R21, log entry 5). -/
def execFlitCrcFail (link : Nat) (s : State) : Out :=
  let l := linkOf s link
  if !isLink link || l.replay || !(l.state == 2 || l.state == 3) then notNow
  else
    let p := Config.freeNat s.fresh % 16
    .next (retryEvent { setLink s link { l with replay := true } with fresh := s.fresh + 1 } p)

/-- The link after a lasting error: what the event names, and its new status (R38, R39). -/
def retire (sel : Nat) (l : Link) (fix : Repair) : Nat × Link :=
  if isBoundary sel then
    let k := (l.used.at? fix.module).getD 0
    if k < 4 then (fix.lane, { l with used := l.used.insert fix.module (k + 1), sparelane := l.sparelane - 1, paused := true })
    else if l.sparemod != 0 then
      (fix.module + 256, { l with used := l.used.insert fix.module 0, sparemod := l.sparemod - 1, sparelane := l.sparelane + 4 })
    else
      (fix.module + 256, { l with out := l.out ++ [fix.module], active := l.active - 1,
                                  state := if l.active ≤ 1 then 0 else 3 })
  else if isPort sel then
    let n := l.active / 2
    (fix.lane, { l with out := l.out ++ [fix.lane], active := n, state := if n == 0 then 0 else l.state })
  else (fix.lane, l)

/-- May the error lie where the finding says? -/
def repairOk (sel : Nat) (l : Link) (fix : Repair) : Bool :=
  if isBoundary sel then fix.module < (boundaryFull sel).1 && !l.out.contains fix.module && fix.lane < 68
  else if isPort sel then fix.lane < 4 && !l.out.contains fix.lane
  else fix.lane < 16

/-- The replay arrives (R38): intact, the error is transient; else it is lasting and a lane or a module is retired. A boundary
that becomes degraded puts the package in replica mode (R39). -/
def execFlitReplayResult (link : Nat) (intact : Bool) (fix : Repair) (s : State) : Out :=
  let l := linkOf s link
  if !l.replay then notNow
  else
    let l := { l with replay := false }
    if intact then .next (setLink s link { l with transient := Nat.min 0xFFFFFF (l.transient + 1) })
    else if !repairOk link l fix then notNow
    else
      let (d, l) := retire link { l with lasting := Nat.min 0xFF (l.lasting + 1) } fix
      let s := postEvent (setLink s link l) 2 link d (linkWord l)
      let s := if degraded s then { s with dev := { s.dev with replica := true } } else s
      .next (if isPort link && l.state == 0 then losePort s (link - 16) else s)

/-- The pause of a module's traffic ends (R38). -/
def execModulePauseEnd (link : Nat) (s : State) : Out :=
  let l := linkOf s link
  if l.paused then .next (setLink s link { l with paused := false }) else notNow

/-- The widest width of a port with some lanes retired (R36, R38). -/
def portWidth (l : Link) : Nat :=
  match l.out.length with | 0 => 4 | 1 => 2 | 2 => 2 | 3 => 1 | _ => 0

/-- The retraining of a port ends with a width (R37): UP, or DOWN with no lane. -/
def execRetrainComplete (port lanes : Nat) (s : State) : Out :=
  let l := linkOf s (16 + port)
  if 36 ≤ port || s.dev.bringup != 9 || l.state != 1 || portWidth l < lanes || !([0, 1, 2, 4].contains lanes) then notNow
  else
    let s := setLink s (16 + port) { l with active := lanes, state := if lanes == 0 then 0 else 2 }
    .next (if lanes == 0 then losePort s port else s)

/-- A port that trains sees no partner within 100 ms: it is DOWN (R36). -/
def execPortNoPartner (port : Nat) (s : State) : Out :=
  let l := linkOf s (16 + port)
  if 36 ≤ port || l.state != 1 then notNow
  else .next (losePort (setLink s (16 + port) { l with active := 0, state := 0 }) port)

/-- Does the completion word of a grid wait for a port of a package's route (R37, R72)? -/
def wordHeld (s : State) (pkg : Nat) (g : Grid) : Bool :=
  let held := fun (s : State) => match devTranslate s g.pid g.ptbase (lrComp g.lrec) 1 with | .error c => c == 0 | .ok _ => false
  mayRetire s g && lrComp g.lrec != 0 && held s && !held (cutRoute s pkg)

/-- Does a grid wait for a read of the distributor that is held: of its checks, its dependences, a placement (R37)? -/
def readsHeld (s : State) (g : Grid) : Bool :=
  match g.st with
  | .taken => checkHeld s g
  | .waiting => (List.range 4).any fun j => lrDepAddr g.lrec j != 0 &&
      (match devTranslate s g.pid g.ptbase (lrDepAddr g.lrec j) 0 with | .error 0 => true | _ => false)
  | .eligible | .dispatched => placementHeld s g
  | _ => false

/-- Does the distributor wait for a port of a package's route, with a grid's completion word or a read for it (R37)? -/
def gridHeld (s : State) (pkg : Nat) (g : Grid) : Bool :=
  wordHeld s pkg g || (readsHeld s g && !readsHeld (cutRoute s pkg) g)

/-- Accesses held 10 ms for a port that trains, with no alternate, are lost (R37, R40): those not yet on their way. What
the distributor waits with finds its route unreachable from then on. -/
def execPortHoldTimeout (port : Nat) (s : State) : Out :=
  let l := linkOf s (16 + port)
  let held := fun (e : Word) => namesPort port e && !entryCarries s e
  let lose := fun (s : State) (p : Nat) =>
    if held (routeOf s p) && s.grids.any (gridHeld s p) then cutRoute (losePackage s held true p) p else losePackage s held true p
  let s' := (distinct (packagesUsed s)).foldl lose s
  if 36 ≤ port || l.state != 1 || s' == s then notNow else .next s'

/-- An expander stops responding: its port is DOWN (R48), and every access in flight to its range raises DATA_ERROR, a
WAITW that watches a word of it too. -/
def execExpanderFail (port : Nat) (s : State) : Out :=
  let l := linkOf s (64 + port)
  if 8 ≤ port || l.state == 0 then notNow
  else
    let s := setLink s (64 + port) { l with active := 0, state := 0 }
    let watches := fun (p : Split) => match p.park with | some (.waitw loc _ _ _ _ _) => deadLoc s loc | _ => false
    .next (s.teams.foldl (fun s e =>
      let who := e.2.splits.find? watches
      if who.isSome || e.2.flights.any fun f => f.runs.any fun r => !r.done && deadRun s r
      then dataError s e.1 (deadRun s) 4 0 who else s) s)

end Sys2Proof.Machine
end

