-- ==== Sys2Proof/Machine/Sign.lean ====
section
/-! DEFINITION. The signature of the measurement report (R59): ECDSA over the 384-bit random-parameter curve of RFC 5639, as
its public standards give it (log entry 8). The key and the nonces alone are free. -/

namespace Sys2Proof.Machine

/-- The prime of the curve's field. -/
def ecField : Nat :=
  0x8cb91e82a3386d280f5d6f7e50e641df152f7109ed5456b412b1da197fb71123acd3a729901d1a71874700133107ec53

/-- The coefficient of x in the curve's equation. -/
def ecCoefA : Nat :=
  0x7bc382c63d8c150c3c72080ace05afa0c2bea28e4fb22787139165efba91f90f8aa5814a503ad4eb04a8c7dd22ce2826

/-- The constant of the curve's equation. -/
def ecCoefB : Nat :=
  0x4a8c7dd22ce28268b39b55416f0447c2fb77de107dcd2a62e880ea53eeb62d57cb4390295dbc9943ab78696fa504c11

/-- The base point. -/
def ecBase : Nat × Nat :=
  (0x1d1c64f068cf45ffa2a63a81b7c13f6b8847a3e77ef14fe3db7fcafe0cbd10e8e826e03436d646aaef87b2e247d4af1e,
   0x8abe1d7520f9c2a45cb1eb8e95cfd55262b70b29feec5864e19c054ff99129280e4646217791811142820341263c5315)

/-- The order of the base point, a prime. -/
def ecOrder : Nat :=
  0x8cb91e82a3386d280f5d6f7e50e641df152f7109ed5456b31f166e6cac0425a7cf3ab6af6b7fc3103b883202e9046565

/-- b^e modulo m for an exponent of n bits. -/
def powMod (m b e : Nat) : Nat → Nat
  | 0 => 1 % m
  | n + 1 => powMod m (b * b % m) (e / 2) n * (if e % 2 == 1 then b else 1) % m

/-- The inverse of x modulo a prime of at most 384 bits. -/
def invMod (m x : Nat) : Nat := powMod m (x % m) (m - 2) 384

/-- The sum of two points of the curve; none is the point at infinity. -/
def ecAdd (a b : Option (Nat × Nat)) : Option (Nat × Nat) :=
  match a, b with
  | none, c => c
  | c, none => c
  | some (x1, y1), some (x2, y2) =>
    if x1 == x2 && (y1 + y2) % ecField == 0 then none
    else
      let slope :=
        if x1 == x2 then (3 * x1 * x1 + ecCoefA) * invMod ecField (2 * y1)
        else (y2 + ecField - y1) * invMod ecField (x2 + ecField - x1)
      let x := (slope * slope + 2 * ecField - x1 - x2) % ecField
      some (x, (slope * (x1 + ecField - x) + ecField - y1) % ecField)

/-- k times a point, for a k of n bits. -/
def ecMul (k : Nat) (a : Option (Nat × Nat)) : Nat → Option (Nat × Nat)
  | 0 => none
  | n + 1 => ecAdd (if k % 2 == 1 then a else none) (ecMul (k / 2) (ecAdd a a) n)

/-- A free number as a number from 1 to the order less 1. -/
def ecScalar (n : Nat) : Nat := 1 + n % (ecOrder - 1)

/-- The signing key (R59). -/
def signKey : Nat := ecScalar Config.identityKey

/-- The identity public key as bytes: its two coordinates of 48 bytes, little-endian as R59 writes a signature (log entry 8). -/
def publicKey : List Byte :=
  let p := (ecMul signKey (some ecBase) 384).getD (0, 0)
  leBytes 48 p.1 ++ leBytes 48 p.2

/-- The two integers that sign a message with a key and a nonce; with one that makes either of them 0, none. -/
def ecdsa (key nonce : Nat) (message : List Byte) : Option (Nat × Nat) :=
  let r := ((ecMul nonce (some ecBase) 384).getD (0, 0)).1 % ecOrder
  let s := invMod ecOrder nonce * (beNat (sha384 message) + r * key) % ecOrder
  if r == 0 || s == 0 then none else some (r, s)

/-- The signature of a message under the n-th nonce, or under the next that signs of a number of them. -/
def signWith (message : List Byte) : Nat → Nat → List Byte
  | 0, _ => []
  | tries + 1, n =>
    match ecdsa signKey (ecScalar (Config.nonce n)) message with
    | some (r, s) => leBytes 48 r ++ leBytes 48 s
    | none => signWith message tries (n + 1)

/-- Whether two integers are a signature of a message under a public key. -/
def ecdsaOk (key : Option (Nat × Nat)) (message : List Byte) (r s : Nat) : Bool :=
  let w := invMod ecOrder s
  let a := ecAdd (ecMul (beNat (sha384 message) * w % ecOrder) (some ecBase) 384) (ecMul (r * w % ecOrder) key 384)
  0 < r && r < ecOrder && 0 < s && s < ecOrder && a.any fun p => p.1 % ecOrder == r

end Sys2Proof.Machine
end

