-- ==== Sys2Proof/Machine/Mailbox.lean ====
section
/-! DEFINITION. The management mailbox (R50 to R57): its commands, partitions and their admission (R13, R16, R24 to R27,
R461), the measurement report (R58, R59), the firmware flash (R60), error counters (R62). -/

namespace Sys2Proof.Machine

/-! Statuses (R52). -/

def stOk : Nat := 0
def stField : Nat := 1
def stDegraded : Nat := 2
def stCluster : Nat := 3
def stVc : Nat := 4
def stNear : Nat := 5
def stPower : Nat := 6
def stBusy : Nat := 7
def stDenied : Nat := 8

/-- Answer a command. -/
def respond (s : State) (status : Nat) (payload : List Byte) : State :=
  { s with dev := { s.dev with responses := s.dev.responses ++ [{ supported := true, status := status, payload := payload }] } }

/-- Can the requester reach the mailbox: the host from step 4 and in recovery, the board controller always (R50, R51)? -/
def reaches (s : State) (r : MboxReq) : Bool := r.bmc || 4 ≤ s.dev.bringup || s.dev.recovery

/-- Does the mailbox accept a command in this state of bring-up (R50, R60)? -/
def accepts (s : State) (op : Nat) : Bool :=
  if op == 0xC000 || op == 0xC009 || op == 0xC00A then true
  else if s.dev.recovery then false
  else if op == 0xC008 || op == 0xC007 || op == 0xC005 || op == 0xC00B then 7 ≤ s.dev.bringup && s.dev.bringup ≤ 9
  else s.dev.bringup == 9

/-- Serve the oldest command, if it is the one given: while a partition is being created it waits (R24, R51). An input of the
wrong length is refused (R52). -/
def withMbox (s : State) (op len : Nat) (k : MboxReq → Nat → State → State) : Out :=
  match s.reqMbox with
  | [] => notNow
  | r :: rest =>
    if r.opcode.toNat != op || s.dev.creating.isSome || !reaches s r then notNow
    else
      let s' := { s with reqMbox := rest }
      if r.bmc && !(op == 0xC000 || op == 0xC009 || op == 0xC00B) then .next (respond s' stDenied [])
      else if !accepts s op then .next (respond s' stBusy [])
      else if r.payload.length != len then .next (respond s' stField [])
      else .next (k r (leNat r.payload) s')

/-! STATE (R53), the power cap (R13, R16, R25). -/

/-- The device state word. -/
def stateWord (s : State) : Nat :=
  s.dev.bringup + (if s.dev.recovery then 16 else 0) + (if s.dev.replica then 32 else 0) + (if s.dev.tripped then 64 else 0) +
  s.dev.pkgnum * 2 ^ 16 + s.dev.stepping.toNat * 2 ^ 32 + s.dev.cap * 2 ^ 48

def execState (s : State) : Out := withMbox s 0xC000 0 fun _ _ s => respond s stOk (leBytes 8 (stateWord s))

def execCapset (s : State) : Out :=
  withMbox s 0xC001 4 fun _ n s =>
    if n < 1600 || 2800 < n || n % 10 != 0 then respond s stField []
    else if budget (n / 10) < powerSum s 3 then respond s stPower []
    else respond (repoint { s with dev := { s.dev with cap := n / 10 } }) stOk []

/-! Partitions (R24 to R27, R461). -/

/-- GiB of the grantable region of a die (R461): below the translation cache of 256 MiB (R138), partition 0's Grotto share of 64 MiB
(R178) and what else firmware keeps. -/
def grantable (s : State) (die : Nat) : Nat :=
  Nat.min 88 ((nearSize s die - (256 + 64) * 1048576 - Config.firmwareNear die) / GiB)

/-- Is a run of whole GiB of a die held by no reservation partition? -/
def runIsFree (s : State) (die base n : Nat) : Bool :=
  base + n ≤ grantable s die && s.parts.all fun e =>
    let b := atD e.2.nearBase die 0
    let k := atD e.2.near die 0
    e.1 == 0 || k == 0 || base + n ≤ b || b + k ≤ base

/-- The lowest free run of n GiB (R461). -/
def lowestRun (s : State) (die n : Nat) : Option Nat := (List.range 89).find? fun b => runIsFree s die b n
/-- The largest free run of a die. -/
def largestRun (s : State) (die : Nat) : Nat :=
  (List.range 89).foldl (fun m n => if n != 0 && (lowestRun s die n).isSome then n else m) 0

/-- A partition descriptor (R24). -/
structure PDesc where
  clusters : Nat
  pid      : Nat
  opp      : Nat
  nvc      : Nat
  lease    : Nat
  near     : List Nat
  zero     : Bool      -- the reserved bits are zero
  deriving DecidableEq, Repr

def PDesc.read (d : Nat) : PDesc :=
  { clusters := d % 2 ^ 64, pid := nbits d 67 64, opp := nbits d 69 68, nvc := nbits d 75 72, lease := nbits d 79 76,
    near := [nbits d 86 80, nbits d 93 87, nbits d 100 94, nbits d 107 101],
    zero := nbits d 71 70 == 0 && nbits d 127 108 == 0 }

/-- Does the descriptor name a cluster of a die? -/
def PDesc.holds (d : PDesc) (die : Nat) : Bool := nbits d.clusters (16 * die + 15) (16 * die) != 0

/-- Virtual channels that no reservation partition holds (R23). -/
def freeVcs (s : State) : List Nat := vcsOf s 0

/-- The partition a descriptor asks for: it is granted the lowest free virtual channels, and the lowest free runs (R461, log
entry 59). -/
def newPart (s : State) (d : PDesc) : Part :=
  { clusters := BitVec.ofNat 64 d.clusters, opp := d.opp, vcs := (freeVcs s).take d.nvc, lease := d.lease, near := d.near,
    nearBase := (List.range 4).map fun i => if atD d.near i 0 == 0 then 0 else (lowestRun s i (atD d.near i 0)).getD 0 }

/-- The first failing check of R25. -/
def createStatus (s : State) (d : PDesc) : Nat :=
  let badNear := (List.range 4).any fun i => 88 < atD d.near i 0 || (atD d.near i 0 != 0 && !d.holds i)
  if d.pid == 0 || partExists s d.pid || d.lease < 6 || 14 < d.lease || d.clusters == 0 || badNear || !d.zero then stField
  else if s.dev.replica then stDegraded
  else if (List.range 64).any fun c => d.clusters.testBit c && partOf s c != 0 then stCluster
  else if (freeVcs s).length < d.nvc then stVc
  else if (List.range 4).any fun i => atD d.near i 0 != 0 && (lowestRun s i (atD d.near i 0)).isNone then stNear
  else if budget s.dev.cap < powerSum { s with parts := s.parts.insert d.pid (newPart s d) } 3 then stPower
  else stOk

/-- Create a partition (R26): the workgroups of partition 0 on its clusters are pre-empted; once they are gone its islands take
its point and OK is returned (`endCreate`). The HomeSets of its clusters and ranges change (R162). -/
def createPart (s : State) (d : PDesc) : State :=
  let there := (s.wgs.filter fun e => e.2.live && d.clusters.testBit (clusterOf e.2.home)).map (·.1)
  let s1 := { s with parts := s.parts.insert d.pid (newPart s d), dev := { s.dev with creating := some (d.pid, there) } }
  endCreate (there.foldl preemptWg (rehome s s1))

def execPcreate (s : State) : Out :=
  withMbox s 0xC002 16 fun _ n s =>
    let d := PDesc.read n
    let st := createStatus s d
    if st != stOk then respond s st [] else createPart s d

/-- A byte range of near memory reads as zero, in every cache as well, and no translation is built from it (R27); the host has given
up its copies of it (R190). -/
def zeroNear (s : State) (die base n : Nat) : State :=
  let lo := die * 0x0020_0000_0000 + base * GiB
  let hi := lo + n * GiB
  let inside := fun a => lo ≤ a && a < hi
  { s with mem := s.mem.filter (fun c => !inside c.1), tlb := s.tlb.filter (fun e => !e.lines.any fun a => inside (localOf a)),
           l1 := s.l1.filter (fun l => !(isLocal s l.line && inside (localOf l.line))),
           hostHeld := s.hostHeld.filter fun l => !(isLocal s l && inside (localOf l)) }

/-- Remove a partition (R27, R63): its registers read as reset, the HomeSets change (R162), and partition 0's grids are offered to
a die on which it regains a core (R85). -/
def removePart (s : State) (pid : Nat) (p : Part) : State :=
  let s1 := (List.range 4).foldl (fun s i => zeroNear s i (atD p.nearBase i 0) (atD p.near i 0)) s
  let s1 := { s1 with parts := s1.parts.erase pid, qtbase := s1.qtbase.set pid 0, pctl := s1.pctl.set pid 0,
                      ptarget := s1.ptarget.set pid 0, dbgctl := s1.dbgctl.set pid 0,
                      queues := s1.queues.filter (fun e => e.1 / 256 != pid),
                      orangery := s1.orangery.filter fun e => e.1 % 16 != pid }
  reoffer (repoint (rehome s s1)) 0

def execPremove (s : State) : Out :=
  withMbox s 0xC003 4 fun _ n s =>
    match (if n == 0 || 15 < n then none else s.parts.at? n) with
    | none => respond s stField []
    | some p =>
      if s.grids.any (·.pid == n) || s.dqueues.any (fun e => e.1 / 4 == n && !e.2.isEmpty) then respond s stBusy []
      else respond (removePart s n p) stOk []

/-- The partition report (R56). -/
def report (s : State) (pid : Nat) : List Byte :=
  match s.parts.at? pid with
  | none => List.replicate 32 0
  | some p =>
    let held := (List.range 64).foldl (fun n c => if partOf s c == pid then n + 2 ^ c else n) 0
    let flags := 1 + (if s.dev.replica && degraded s then 2 else 0) + (if pctlHoldBit (s.pctl.get pid) then 4 else 0)
    let four := fun (f : Nat → Nat) => (List.range 4).flatMap fun i => leBytes 1 (f i)
    leBytes 8 held ++ leBytes 1 flags ++ leBytes 1 (if pid == 0 then s.dev.opp else p.opp) ++
    leBytes 1 (if pid == 0 then 9 else p.lease) ++ leBytes 1 (vcsOf s pid).length ++
    four (fun i => if pid == 0 then largestRun s i else atD p.near i 0) ++ leBytes 8 (if pid == 0 then 0 else p.retry.toNat) ++
    four (fun i => if pid == 0 || atD p.near i 0 == 0 then 0 else atD p.nearBase i 0) ++ leBytes 4 0

def execPreport (s : State) : Out :=
  withMbox s 0xC004 4 fun _ n s => if 15 < n then respond s stField [] else respond s stOk (report s n)

/-! Links and routes (R34, R37, R41, R54, R55). -/

def execLinkst (s : State) : Out :=
  withMbox s 0xC005 4 fun _ n s =>
    let sel := n % 256
    if 2 ^ 9 ≤ n || !isLink sel then respond s stField []
    else
      let l := linkOf s sel
      let s' := if n.testBit 8 then setLink s sel { l with transient := 0 } else s
      respond s' stOk (leBytes 8 (linkWord l))

/-- Does an access of a route entry travel by a port: its primary one, or the alternate while that is not up (R37)? -/
def viaPort (s : State) (port : Nat) (e : Word) : Bool :=
  bits e 21 16 == port || (bits e 29 24 == port && !portUp s (bits e 21 16))

/-- The accesses on a port arrive and their completions return before it is retrained (R37). -/
def drainPort (s : State) (port : Nat) : State :=
  let here := fun (r : Run) => !r.done && (match r.loc with | .mem pa => !isLocal s pa && viaPort s port r.route | _ => false)
  let s1 := s.teams.foldl (fun s e => e.2.flights.foldl (fun s f =>
    performRuns s e.1 f.id ((List.range f.runs.length).filter fun i => (f.runs[i]?).any here)) s) s
  { s1 with fabReqs := s1.fabReqs.filter fun e => !viaPort s port e.2.route }

/-- RETRAIN (R37): a port that is UP is drained, and the port trains; accesses routed to it use the alternate or are held. -/
def execRetrain (s : State) : Out :=
  withMbox s 0xC006 4 fun _ n s =>
    if 35 < n then respond s stField []
    else
      let s := if portUp s n then drainPort s n else s
      respond (setLink s (16 + n) { linkOf s (16 + n) with state := 1 }) stOk []

/-- ROUTEWR (R55). An entry for the package's own number is kept, and counts once the package has another number (log entry 65). -/
def execRoutewr (s : State) : Out :=
  withMbox s 0xC007 4 fun _ n s =>
    let alt := nbits n 29 24
    if nbits n 15 9 != 0 || nbits n 23 22 != 0 || nbits n 30 30 != 0 ||
       (nbits n 31 31 == 0 && (35 < nbits n 21 16 || (35 < alt && alt != 63))) then respond s stField []
    else respond { s with dev := { s.dev with
      routes := s.dev.routes.set (n % 512) (BitVec.ofNat 32 n ^^^ 0x80000000#32) } } stOk []

/-- An address of this package under its new number. -/
def renumber (old new a : Nat) : Nat := if pkgOf a == old then new * 2 ^ 48 + localOf a else a

def Loc.renum (f : Nat → Nat) : Loc → Loc
  | .mem a => .mem (f a)
  | l => l

def Resv.renum (f : Nat → Nat) (r : Resv) : Resv :=
  { r with pending := r.pending.map (Loc.renum f), granules := r.granules.map (Loc.renum f) }

def Park.renum (f : Nat → Nat) : Park → Park
  | .waitw loc bytes cond val len acq => .waitw (loc.renum f) bytes cond val len acq
  | .barrier loc gen len scope => .barrier (loc.renum f) gen len scope
  | p => p

/-- What a team has under way in this package's memory, under the new number: accesses already issued stay where they are. -/
def Team.renum (f : Nat → Nat) (t : Team) : Team :=
  let split := fun (p : Split) => { p with resv := p.resv.map (Resv.renum f), park := p.park.map (Park.renum f) }
  let flight := fun (x : Flight) =>
    { x with resv := x.resv.map (Resv.renum f), runs := x.runs.map fun r => { r with loc := r.loc.renum f } }
  { t with splits := t.splits.map split, flights := t.flights.map flight, prefs := t.prefs.map (Loc.renum f),
           eng := t.eng.map fun l => l.map fun o => { o with lines := o.lines.map f } }

def execPkgnum (s : State) : Out :=
  withMbox s 0xC008 4 fun _ n s =>
    if 2 ^ 9 ≤ n then respond s stField []
    else
      let f := renumber s.dev.pkgnum n
      let leases := s.leases.foldl (fun (m : AMap Nat) (e : Nat × Nat) => m.insert (f e.1) e.2) []
      respond { s with dev := { s.dev with pkgnum := n }, hostLines := s.hostLines.map f, watched := s.watched.map f,
                       hostHeld := s.hostHeld.map f, leases := leases, teams := s.teams.mapVals (Team.renum f),
                       orangery := s.orangery.mapVals (fun o => { o with pinned := o.pinned.map f }),
                       l1 := s.l1.map (fun l => { l with line := f l.line }),
                       tlb := s.tlb.map fun e => { e with lines := e.lines.map f } } stOk []

/-! Measurement and flash (R58 to R60). -/

/-- Exactly n bytes. -/
def fitBytes (n : Nat) (l : List Byte) : List Byte := (l ++ List.replicate n 0).take n

/-- The image in flash: LENGTH bytes from offset 0; no byte unless the directory marks one complete. -/
def imageOf (s : State) : List Byte := (s.dev.flash.read 0 (s.dev.imageLen.getD 0)).map (· ^^^ 0xFF#8)

/-- Bytes 0 to 191 of the measurement report (R59). -/
def reportBody (s : State) (nonce : List Byte) : List Byte :=
  leBytes 4 0x4D454153 ++ leBytes 2 1 ++ leBytes 2 s.dev.stepping.toNat ++ nonce ++ fitBytes 48 s.dev.measurement ++
  leBytes 4 s.dev.bootCount ++ leBytes 4 s.dev.bringup ++ sha384 publicKey ++
  fitBytes 48 (sha384 (imageOf s))

def execMeasure (s : State) : Out :=
  withMbox s 0xC009 32 fun r _ s =>
    let body := reportBody s r.payload
    respond { s with dev := { s.dev with signatures := s.dev.signatures + 1 } } stOk
      (body ++ fitBytes 96 (signWith body 4 (4 * s.dev.signatures)))

/-- A firmware piece (R60). -/
structure Piece where
  off   : Nat
  len   : Nat
  final : Bool
  ok    : Bool
  deriving DecidableEq, Repr

def Piece.read (p : List Byte) : Piece :=
  let w := fun i => leNat ((p.drop i).take 4)
  let off := w 0
  let len := w 4
  let final := w 8 == 1
  { off := off, len := len, final := final,
    ok := off % 4096 == 0 && off < 33554432 && w 8 ≤ 1 && w 12 == 0 &&
      (if final then 4 ≤ len && len ≤ 33554432 && len % 4 == 0 && off < len else len == 0) }

/-- Start of bring-up step 2 (R49, R60): with no complete image the boot ROM enters recovery. -/
def startStep2 (s : State) : State :=
  { s with dev := { s.dev with bringup := 2, recovery := s.dev.imageLen.isNone } }

/-- Write a piece (R60): the first one after a completed image clears the directory and the image; a FINAL piece marks the new
image complete, and ends recovery at step 2. -/
def writePiece (s : State) (p : Piece) (data : List Byte) : State :=
  let old := if s.dev.imageLen.isSome then [] else s.dev.flash
  let s := { s with dev := { s.dev with flash := Store.write (w := 8) old p.off (data.map (· ^^^ 0xFF#8)),
                                        imageLen := if p.final then some p.len else none } }
  if p.final && s.dev.recovery then startStep2 s else s

def execFwload (s : State) : Out :=
  withMbox s 0xC00A 4112 fun r _ s =>
    let p := Piece.read r.payload
    if !p.ok then respond s stField [] else respond (writePiece s p (r.payload.drop 16)) stOk []

/-! Error counters and events (R57, R62). -/

def errsOf (s : State) (unit : Nat) : ErrWord := (s.dev.errs.at? unit).getD {}

/-- The error-counter word (R62): ROWSPARE from the rows used. -/
def errWord (s : State) (unit : Nat) : Nat :=
  let e := errsOf s unit
  e.corrected + e.transient * 2 ^ 24 + e.lasting * 2 ^ 44 + (Config.spareRows unit - e.rowspare) / 64 % 256 * 2 ^ 52 +
  e.blockret * 2 ^ 60

/-- ERRCNT: a BUSY controller and a BAD_FIELD are answered before DENIED (R52, R62, log entry 41). -/
def execErrcnt (s : State) : Out :=
  withMbox s 0xC00B 16 fun r n s =>
    let unit := n % 2 ^ 32
    let mask := n / 2 ^ 64
    if 4 < unit || nbits n 63 32 != 0 then respond s stField []
    else if r.bmc && mask != 0 then respond s stDenied []
    else
      let e := errsOf s unit
      let e' := { e with corrected := if mask.testBit 0 then 0 else e.corrected,
                         transient := if mask.testBit 24 then 0 else e.transient }
      respond { s with dev := { s.dev with errs := s.dev.errs.insert unit e' } } stOk (leBytes 8 (errWord s unit))

/-- An event record (R57). -/
def eventBytes (e : EventRec) (overrun : Bool) : List Byte :=
  leBytes 2 e.type ++ leBytes 1 (if overrun then 1 else 0) ++ leBytes 1 e.unit ++ leBytes 4 e.d1 ++ leBytes 8 e.d2

def execEvent (s : State) : Out :=
  withMbox s 0xC00C 0 fun _ _ s =>
    match s.dev.events with
    | [] => respond s stOk (List.replicate 16 0)
    | e :: rest => respond { s with dev := { s.dev with events := rest, overrun := false } } stOk (eventBytes e s.dev.overrun)

/-- A command outside 0xC000 to 0xC00C (R51, R52). -/
def execMailboxUnsupported (s : State) : Out :=
  match s.reqMbox with
  | [] => notNow
  | r :: rest =>
    let op := r.opcode.toNat
    if (0xC000 ≤ op && op ≤ 0xC00C) || s.dev.creating.isSome || !reaches s r then notNow
    else .next { s with reqMbox := rest,
                        dev := { s.dev with responses := s.dev.responses ++ [{ supported := false, status := 0, payload := [] }] } }

end Sys2Proof.Machine
end

