-- ==== Sys2Proof/Machine/Bringup.lean ====
section
/-! DEFINITION. Power-on and bring-up (R36, R48, R49, R60): each step's success, its time limit, what its training found. -/

namespace Sys2Proof.Machine

/-- Power-on: every register and memory of the package is as at reset; flash, what the boot ROM keeps in it, host memory, other
packages and the requests of the outside world stand (R49, R58, R60, log entry 2). -/
def execPowerOn (s : State) : Out :=
  .next { dev := { flash := s.dev.flash, imageLen := s.dev.imageLen, bootCount := s.dev.bootCount,
                   measurement := s.dev.measurement, signatures := s.dev.signatures, responses := s.dev.responses,
                   vectors := s.dev.vectors },
          mem := s.mem.filter (fun c => 0x8000_0000_0000 ≤ c.1), fabReads := s.fabReads, fabDone := s.fabDone,
          hostReads := s.hostReads, hostDone := s.hostDone,
          reqMbox := s.reqMbox, reqRegs := s.reqRegs, reqHost := s.reqHost, reqFab := s.reqFab, reqTrans := s.reqTrans,
          hostArr := s.reqHost.map fun _ => [], fabArr := s.reqFab.map fun _ => [],
          findings := s.findings, agenda := s.agenda, fresh := s.fresh, nextId := s.nextId }

/-- The step in progress. -/
def atStep (s : State) (n : Nat) : State := { s with dev := { s.dev with bringup := n } }

/-- The boot ROM enters recovery (R60). -/
def recover (s : State) : State := { s with dev := { s.dev with recovery := true } }

/-- Step 3 starts: the boot ROM measures the image, then starts it (R49, R58). -/
def startStep3 (s : State) : State :=
  { s with dev := { s.dev with bringup := 3, measurement := fitBytes 48 (sha384 (imageOf s)),
                               bootCount := s.dev.bootCount + 1 } }

/-- Links that start training. -/
def train (s : State) (sels : List Nat) : State :=
  sels.foldl (fun s sel => setLink s sel { linkOf s sel with state := 1 }) s

/-- A boundary after training (R28, R36): failed modules are replaced by spares, failed lanes by redundant lanes. -/
def trainedBoundary (f : StepFinding) (b : Nat) : Link :=
  let (full, spare) := boundaryFull b
  let n := Nat.min (atD f.boundaries b 0) (full + spare)
  let up := Nat.min n full
  let used := (f.lanesUsed.filter fun e => e.1 == b && e.2.1 < up).foldl
    (fun (m : AMap Nat) (e : Nat × Nat × Nat) => m.insert e.2.1 (Nat.min e.2.2 4)) []
  { state := if up == full then 2 else if up == 0 then 0 else 3, active := up, sparemod := n - up,
    sparelane := 4 * up - (used.map (·.2)).foldl (· + ·) 0, used := used,
    out := (List.range full).filter (up ≤ ·) }

/-- The two ends of a boundary: dies 0 to 3, and 4 for the IOD (R54). -/
def boundaryEnds (b : Nat) : Nat × Nat := atD [(0, 1), (2, 3), (0, 2), (1, 3), (4, 0), (4, 2)] b (0, 0)

/-- What a set of ends reaches over the boundaries that are left. -/
def joinedTo (s : State) : Nat → List Nat → List Nat
  | 0, l => l
  | n + 1, l => joinedTo s n ((List.range 5).filter fun x => l.contains x ||
      (List.range 6).any fun b => (linkOf s b).active != 0 &&
        (((boundaryEnds b).1 == x && l.contains (boundaryEnds b).2) || ((boundaryEnds b).2 == x && l.contains (boundaryEnds b).1)))

/-- Do the boundaries left join all four dies and the IOD (R36)? -/
def joined (s : State) : Bool := (joinedTo s 4 [0]).length == 5

/-- Step 5 fails: reported (R36, R49, R57). -/
def failStep5 (s : State) (sel : Nat) : State := postEvent (atStep s 15) 8 5 sel 0

/-- Step 5 ends with its findings (R36): expander ports then train. -/
def endStep5 (s : State) (f : StepFinding) : State :=
  let s := (List.range 6).foldl (fun s b => setLink s b (trainedBoundary f b)) s
  match (List.range 6).find? fun b => (linkOf s b).active == 0 with
  | some b => if joined s then train (atStep s 6) ((List.range 8).map (64 + ·)) else failStep5 s b
  | none => train (atStep s 6) ((List.range 8).map (64 + ·))

/-- Is what step 6 found within the capacities of R10, R47 and R48, and the lanes within the width of a CXL port (R54)? -/
def finding6Ok (f : StepFinding) : Bool :=
  let exp := f.expanderGB.foldl (· + ·) 0
  f.lpddrGB ≤ 3072 && f.expanderGB.length ≤ 8 && exp ≤ 13312 && f.lpddrGB + exp ≤ 16384 &&
  (List.range 8).all fun p => atD f.expanderGB p 0 == 0 || (1 ≤ atD f.lanes p 0 && atD f.lanes p 0 ≤ 16)

/-- Step 6 ends with its findings (R48, R49, R168): channels that fail are retired, expander ports with no partner are DOWN;
fabric ports then train. -/
def endStep6 (s : State) (f : StepFinding) : State :=
  let gb := fun p => atD f.expanderGB p 0
  let chans := (List.range 4).foldl (fun (m : AMap (List Nat)) d =>
    match (List.range 64).filter (atD f.retired d []).contains with
    | [] => m
    | l => m.insert d l) []
  let s := { s with dev := { s.dev with channels := chans, lpddrGB := f.lpddrGB,
                                        expanders := ((List.range 8).filter (gb · != 0)).map fun p => (p, gb p) } }
  let s := (List.range 8).foldl (fun s p =>
    setLink s (64 + p) { linkOf s (64 + p) with state := if gb p == 0 then 0 else 2, active := if gb p == 0 then 0 else atD f.lanes p 0 }) s
  train (atStep s 7) ((List.range 36).map (16 + ·))

/-- Step 7 ends: a port that trains has the width found, or is DOWN (R36). -/
def endStep7 (s : State) (widths : List Nat) : State :=
  atStep ((List.range 36).foldl (fun s p =>
    let l := linkOf s (16 + p)
    let w := atD widths p 0
    if l.state != 1 then s
    else setLink s (16 + p) { l with state := if w == 0 then 0 else 2, active := w }) s) 8

/-- Step 8 (R49, R16): partition 0 is created, its point is chosen, and home mode is entered if every boundary is healthy. -/
def endStep8 (s : State) : State :=
  repoint { s with parts := s.parts.insert 0 {}, dev := { s.dev with bringup := 9, replica := degraded s } }

/-- Carry a step's findings, if they are there. -/
def withFinding (s : State) (k : StepFinding → State → Out) : Out :=
  match s.findings with
  | [] => notNow
  | f :: rest => k f { s with findings := rest }

/-- A bring-up step succeeds and the next one starts (R49). -/
def execBringupStepDone (s : State) : Out :=
  if s.dev.recovery then notNow
  else
    match s.dev.bringup with
    | 1 => if s.dev.powerFault then notNow else .next (startStep2 s)
    | 2 => .next (startStep3 s)
    | 3 => .next (atStep s 4)
    | 4 => .next (train (atStep s 5) (List.range 6))
    | 5 => withFinding s fun f s => .next (endStep5 s f)
    | 6 => withFinding s fun f s => if finding6Ok f then .next (endStep6 s f) else notNow
    | 7 => withFinding s fun f s => if f.ports.all [0, 1, 2, 4].contains then .next (endStep7 s f.ports) else notNow
    | 8 => .next (endStep8 s)
    | _ => notNow

/-- A bring-up step reaches its limit (R49): step 4 stays, steps 6 and 7 go on without what has not trained. -/
def execBringupStepTimeout (s : State) : Out :=
  if s.dev.recovery then notNow
  else
    match s.dev.bringup with
    | 1 => .next { s with dev := { s.dev with powerFault := true } }
    | 2 => .next (recover s)
    | 3 => .next (recover s)
    | 4 => .next s
    | 5 => .next (failStep5 s 0)
    | 6 => withFinding s fun f s => if finding6Ok f then .next (endStep6 s f) else notNow
    | 7 => .next (endStep7 s [])
    | _ => notNow

/-- The host link is tried again after 1 s, in step 4 or in recovery (R49, R60): nothing else changes. -/
def execHostLinkRetry (s : State) : Out :=
  if s.dev.bringup == 4 || s.dev.recovery then .next s else notNow

end Sys2Proof.Machine
end

