-- ==== Sys2Proof/Machine/Complete.lean ====
section
/-! DEFINITION. The steps of the memory system that complete accesses: performed at the site (R187), after the operand reads of earlier
matrix instructions (R404), and counted down (R195). -/

namespace Sys2Proof.Machine

/-- Have the operand reads of the split's earlier queued instructions been made, where they touch the bytes of run `ri` of an access
(R183, R404)? While a fault of the instruction at the head is served no access waits for them: the entry of that fault waits for the
accesses (R264, log entry 26). -/
def Flight.matFree (s : State) (t : Team) (f : Flight) (ri : Nat) : Bool :=
  (t.mat.head?).any (·.held) ||
  match f.runs[ri]? with
  | some r => t.mat.all fun m => decide (f.id ≤ m.seqNo) || !m.unread || !(m.split == f.split || f.anc.contains m.split) ||
      !((m.touches s t).any fun e => overlaps r.loc r.bytes e.1 e.2)
  | none => true

/-- A store, an atomic, an insertion or a SEGRED is performed at its site (R187, R427, R432); an atomic's words of one host
line together (R45). One that its site does not serve any more is lost (R48, R148). It waits for operand reads that come before it (R404). -/
def execHomeWrite (team flight run : Nat) (s : State) : Out :=
  match (s.teams.at? team).bind fun t => (t.flights.find? (·.id == flight)).map fun f => (t, f) with
  | some (t, f) =>
    let hit := fun lost : Run → Bool => (f.runs[run]?).any fun r => !r.done && lost r
    if !f.kind.writes then notNow
    else if hit (deadRun s) then .next (dataError s team (deadRun s) 4 0)
    else if hit (goneRun s t.wg) then .next (refuseAccess s team (goneRun s t.wg))
    else if hit (hashOut s f) then .next (refuseAccess s team (hashOut s f))
    else if !(runsAt s f run).all (f.matFree s t) then notNow
    else match performAll s team flight (runsAt s f run) with
      | some s' => .next (settleSeg s' team flight)
      | none => notNow
  | none => notNow

/-- Splits whose WAITP is satisfied go on (R384). -/
def wakePaths (t : Team) : Team :=
  { t with splits := t.splits.map fun p => match p.park with
      | some (.waitp k n) => if pathCount t k ≤ n then { p with park := none } else p
      | _ => p }

/-- Has the first flight of a path an access, not yet performed, of a kind? -/
def lostFlight (s : State) (tid path : Nat) (lost : Run → Bool) : Bool :=
  ((s.teams.at? tid).bind fun t => firstOf t path).any fun f => f.runs.any fun r => !r.done && lost r

/-- What an atomic that has returned leaves for later releases: acknowledgments its homes still withhold (R188, R198). -/
def Team.owes (t : Team) (s : State) (f : Flight) : Team :=
  let new := f.runs.filterMap fun r => r.wait.map fun w => (f.id, w)
  { t with acks := (t.acks ++ new).filter (fun a => !decide (a.2.2 < clockOf s a.2.1)) }

/-- Has a flight whose runs are performed returned (R195, R35)? -/
def flightBack (s : State) (path : Nat) (f : Flight) : Bool :=
  if path == 1 then f.runs.all (runAcked s) else f.runs.all fun r => !runOpen s r

/-- A flight that has returned completes: a load's remaining locations are read now. -/
def completeFlight (s : State) (tid path : Nat) : Option State :=
  match (s.teams.at? tid).bind fun t => firstOf t path with
  | none => none
  | some f =>
    let s := if f.kind.writes then s
      else performRuns s tid f.id ((List.range f.runs.length).filter (match s.teams.at? tid with | some t => f.matFree s t | none => fun _ => true))
    match s.teams.at? tid with
    | none => none
    | some t =>
      match t.flights.find? (·.id == f.id) with
      | none => none
      | some f =>
        if flightBack s path f then
          let t := if path == 3 then t.owes s f else t
          some (settleAcquire (s.setTeam tid (wakePaths (landFlight t f))) tid)
        else none

/-- The first flight of a path completes; where an access of it is lost, the team is told so (R48, R148). -/
def complete (s : State) (tid path : Nat) : Out :=
  let gone := goneRun s (((s.teams.at? tid).map (·.wg)).getD 0)
  let out := fun r => (((s.teams.at? tid).bind fun t => firstOf t path).map fun f => hashOut s f r).getD false
  if lostFlight s tid path (deadRun s) then .next (dataError s tid (deadRun s) 4 0)
  else if lostFlight s tid path gone then .next (refuseAccess s tid gone)
  else if lostFlight s tid path out then .next (refuseAccess s tid out)
  else match completeFlight s tid path with | some s' => .next (settleEnd s' tid) | none => notNow

/-- LD falls (R195). -/
def execLoadComplete (team : Nat) (s : State) : Out := complete s team 0
/-- ST falls: every store acknowledged by its site, or by its completion (R188, R35). -/
def execStoreAck (team : Nat) (s : State) : Out := complete s team 1
/-- AT falls: every lane's old value is written. -/
def execAtomicComplete (team : Nat) (s : State) : Out := complete s team 3
/-- GA falls: the gather's registers are written. -/
def execGatherComplete (team : Nat) (s : State) : Out := complete s team 2

end Sys2Proof.Machine
end

