-- ==== Sys2Proof/Machine/Device.lean ====
section
/-! DEFINITION. The thermal response (R15, R16) and data errors (R21, R61, R62). -/

namespace Sys2Proof.Machine

/-! Temperature (R15). -/

def setLowered (s : State) (island n : Nat) : State :=
  { s with dev := { s.dev with lowered := s.dev.lowered.set island (BitVec.ofNat 8 n) } }

/-- 105 °C: each island of the general partition on the die is lowered one point (R15). The temperature that the event of a
further lowering names, before the die has cooled to 100 °C, is a free value from 101 to 109 (R57, log entry 58). -/
def execTempHigh (die : Nat) (s : State) : Out :=
  if 4 ≤ die || s.dev.bringup != 9 || s.dev.tripped then notNow
  else
    let isl := ((List.range 16).map (die * 16 + ·)).filter fun c => partOf s c == 0
    let again := isl.any fun c => loweredBy s c != 0
    let temp := if again then 101 + Config.freeNat s.fresh % 9 else 105
    let s := isl.foldl (fun s c => setLowered s c (Nat.min (loweredBy s c + 1) (3 - s.dev.opp))) s
    .next (postEvent (if again then { s with fresh := s.fresh + 1 } else s) 4 die 0 temp)

/-- 10 ms below 95 °C: a lowered island is raised one point (R15, R16). -/
def execIslandRaise (island : Nat) (s : State) : Out :=
  if loweredBy s island == 0 || s.dev.tripped then notNow
  else .next (setLowered s island (loweredBy s island - 1))

/-- Is a grid running: a workgroup of it has been placed, and it has not retired or failed (R84)? -/
def Grid.running (g : Grid) : Bool :=
  g.st == .dispatched || g.st == .retiring || (g.st == .eligible && g.next != 0)

/-- 110 °C: every core stops, every running grid fails with DATA_ERROR, and the trip is reported (R15, R57). No workgroup fails
by itself: the failure word names index 0 (log entry 58). -/
def execThermalTrip (die temp : Nat) (s : State) : Out :=
  if 4 ≤ die || temp < 110 || s.dev.tripped then notNow
  else
    let s := (s.grids.filter Grid.running).foldl (fun s g => reportFail s g.gid cData 0 0) s
    .next (postEvent { s with dev := { s.dev with tripped := true } } 4 die 1 temp)

/-! Data errors (R61). -/

/-- The unit that counts an error: the die, or 4 for the IOD (R52, R62). -/
def eccUnit (s : State) (p : EccPlace) : Nat :=
  let team := fun t => ((s.teams.at? t).map (·.core.die)).getD 0
  match p with
  | .near pa => localOf pa / 0x0020_0000_0000 % 4
  | .lpddr _ | .expander _ => 4
  | .cacheClean c _ | .cacheDirty c _ => c.die
  | .sliceClean k _ | .sliceDirty k _ => k / 48
  | .scratch w _ => ((s.wgs.at? w).map (·.home.die)).getD 0
  | .vectorReg t | .tileReg t | .accReg t | .lodge t => team t

/-- TINFO0 of DATA_ERROR (R265). -/
def eccCode : EccPlace → Nat
  | .vectorReg _ => 0
  | .tileReg _ => 1
  | .accReg _ => 2
  | .lodge _ => 3
  | _ => 4

/-- The physical address of an error, or 0. -/
def eccPa : EccPlace → Nat
  | .near pa | .lpddr pa | .expander pa => pa
  | .cacheClean _ l | .cacheDirty _ l | .sliceClean _ l | .sliceDirty _ l => l
  | _ => 0

/-- Bytes a code word protects, for the model's account of what a remap recovers (log entry 11). -/
def codeBytes : Nat := 8
/-- Bytes of a row within one channel's interleave unit (R168, log entry 11). -/
def rowBytes : Nat := 2048

/-- How an access meets an error: one in flight, one of an engine context, one that a split waits for (of the matrix unit, a monitor
(R202), its fetch, its instruction or its trap's entry), or none but its owner's. -/
inductive EccBy where
  | flight | engine (ctx : Nat) | read (p : Split) | owner
  deriving DecidableEq, Repr

/-- The split that the error names, where no flight tells it (R274). -/
def EccBy.split : EccBy → Option Split
  | .read p => some p
  | _ => none

/-- A state in which these places alone are read again. -/
def rereading (s : State) (l : List EccPlace) : State := { s with dev := { s.dev with rereads := l } }

/-- How a team's accesses meet an error at a place, the first of these kinds. -/
def eccBy (s : State) (p : EccPlace) (t : Team) : Option EccBy :=
  let free := rereading s []
  let head := fun c => ((t.ops c).head?).any fun o => o.started && placeHit p (o.touches free t)
  if !eccCore p t.core then none
  else if t.flights.any fun f => f.runs.any (runAt p) then some .flight
  else match (List.range 5).find? head with
  | some c => some (.engine c)
  | none =>
    match (t.mat.head?).filter (fun m => m.unread && placeHit p (m.touches free t)) with
    | some m => some (.read (m.actor t))
    | none =>
      let watch := fun (p' : Split) => match p'.park with | some (.waitw loc n _ _ _ _) => placeHit p [(loc, n)] | _ => false
      match t.splits.find? watch with
      | some q => some (.read q)
      | none => ((t.fetches (rereading s [p])).find? fun x => placeHit p [(x.1, 4)]).map fun x => .read x.2

/-- The team whose access meets the error, and by which: the register's own, the first with an access there, a scratchpad's
own, or none (a read by no team). -/
def eccMeets (s : State) (p : EccPlace) : Option (Nat × EccBy) :=
  let first := s.teams.findSome? fun e => (eccBy s p e.2).map fun k => (e.1, k)
  match p with
  | .vectorReg t | .tileReg t | .accReg t | .lodge t => if (s.teams.at? t).isSome then some (t, .owner) else none
  | .scratch w _ => first.or ((s.teams.find? fun e => e.2.wg == w).map fun e => (e.1, .owner))
  | _ => first

/-- The team whose access meets the error. -/
def eccTeam (s : State) (p : EccPlace) : Option Nat := (eccMeets s p).map (·.1)

/-- Can the place hold an error? -/
def eccPlaceOk (s : State) (p : EccPlace) : Bool :=
  match p with
  | .near pa => isLocal s pa && (match spaceOf s (localOf pa) with | .near _ => true | _ => false)
  | .lpddr pa => isLocal s pa && spaceOf s (localOf pa) == .far && (expanderOf s pa).isNone
  | .expander pa => isLocal s pa && (expanderOf s pa).isSome
  | .cacheClean c l => s.l1.any fun x => x.core == c && x.line == l
  | .cacheDirty c l => c.die < 4 && c.cluster < 16 && c.core < 7 && l % 128 == 0 && isLocal s l
  | .sliceClean k l | .sliceDirty k l => l % 128 == 0 && isLocal s l && homeSlice s (localOf l) == some k
  | .scratch w b => ((s.wgs.at? w).map fun x => x.live && b < x.blocks.length).getD false
  | .vectorReg t | .tileReg t | .accReg t | .lodge t => (s.teams.at? t).isSome

/-- The retry event of an access that is delayed, counted for its team's partition (R21). -/
def delayed (s : State) (p : EccPlace) : State :=
  match (eccTeam s p).bind (s.teams.at? ·) with
  | some t => retryEvent s (s.pidOf t)
  | none => s

/-- A read returns data its code cannot correct, and is read again once (R61); what it reads waits for that. -/
def execEccUncorrectable (place : EccPlace) (s : State) : Out :=
  if !eccPlaceOk s place || s.dev.rereads.contains place || s.dev.tripped then notNow
  else .next { delayed s place with dev := { (delayed s place).dev with rereads := s.dev.rereads ++ [place] } }

def modErrs (s : State) (unit : Nat) (f : ErrWord → ErrWord) : State :=
  { s with dev := { s.dev with errs := s.dev.errs.insert unit (f (errsOf s unit)) } }

/-- A row is remapped to a spare row, which holds what the code could recover and zero elsewhere (R61, R62): which words of
the row's unit it recovers is a free choice, but not the word that failed (log entry 11). -/
def remapRow (s : State) (pa : Nat) : State :=
  let base := pa - pa % rowBytes
  let s' := modErrs s (eccUnit s (if spaceOf s (localOf pa) == .far then .lpddr pa else .near pa))
    fun e => { e with rowspare := e.rowspare + 1 }
  let n := rowBytes / codeBytes
  let lost := (List.range n).filter fun i => i == pa % rowBytes / codeBytes || Config.freeBit (s.fresh + i)
  lost.foldl (fun s i => s.wrMem (base + i * codeBytes) (List.replicate codeBytes 0)) { s' with fresh := s.fresh + n }

/-- DATA_ERROR in the team whose access meets the error; an engine operation that meets it ends with it (R397). A
request of another package that meets it is answered so (R33). -/
def eccFault (s : State) (p : EccPlace) : State :=
  match eccMeets s p with
  | some (tid, k) =>
    (match k, s.teams.at? tid with
      | .engine c, some t =>
        (match (t.ops c).head? with
         | some o =>
           let meets := fun va => match engineTran (rereading s []) t 0 va with | .ok x => placeHit p [(x, 4)] | .error _ => false
           engineFault s tid c t o ⟨cData, false, ((o.nextVas s t).find? meets).getD o.dst.1.base⟩
         | none => s)
      | _, _ => dataError s tid (runAt p) (eccCode p) 0 k.split)
  | none =>
    match s.reqFab with
    | r :: rest =>
      if placeHit p [(.mem (ownPa s r.pa), accessBytes r.acc)] then
        { s with reqFab := rest, fabArr := s.fabArr.drop 1, fabReads := s.fabReads ++ [(r.src, r.chan, .failed)] }
      else s
    | [] => s

/-- A block of a core's caches waits for the BANKCFG that would use it (R61). -/
def wearCache (s : State) (c : CoreId) : State :=
  { s with dev := { s.dev with
      retireBlock := s.dev.retireBlock.insert (coreKey c) ((s.dev.retireBlock.at? (coreKey c)).getD 0 + 1) } }

/-- A workgroup's block waits for the BANKCFG that would use it again (R61). -/
def wearBlock (s : State) (w b : Nat) : State :=
  s.modWg w fun x => { x with worn := if x.worn.contains b then x.worn else x.worn ++ [b] }

/-- A dirty line is lost with its block: what memory then holds of it is free (log entry 5). -/
def loseDirty (s : State) (line : Nat) : State :=
  let bs := (List.range 128).map fun i => BitVec.ofNat 8 (Config.freeNat (s.fresh + i))
  { s.wrMem line bs with fresh := s.fresh + 128 }

/-- The outcome of a lasting error at each location (R61). -/
def lastingOutcome (s : State) (p : EccPlace) : State :=
  match p with
  | .near pa | .lpddr pa => eccFault (remapRow s pa) p
  | .expander _ => eccFault s p
  | .cacheClean c l =>
    let s := l1Drop (delayed s p) c (fun x => x.line == l)
    let s := modErrs s c.die fun e => { e with blockret := Nat.min 15 (e.blockret + 1) }
    let n := (s.dev.retired.at? (retireKey c)).getD 0
    loseWay { s with dev := { s.dev with retired := s.dev.retired.insert (retireKey c) (n + 1) } } c
  | .cacheDirty c l => wearCache (eccFault (loseDirty s l) p) c
  | .sliceClean k _ =>
    let s := modErrs (delayed s p) (k / 48) fun e => { e with blockret := Nat.min 15 (e.blockret + 1) }
    { s with dev := { s.dev with retired := s.dev.retired.insert (512 + k) ((s.dev.retired.at? (512 + k)).getD 0 + 1) } }
  -- no BANKCFG makes a block of a slice scratchpad
  | .sliceDirty _ l => eccFault (loseDirty s l) p
  | .scratch w b => eccFault (wearBlock s w b) p
  | _ => eccFault s p

/-- The reread returns (R61, R62): intact, the error is transient; else it is lasting, posted, and has its location's
outcome. -/
def execEccRereadResult (intact : Bool) (s : State) : Out :=
  match s.dev.rereads with
  | [] => notNow
  | p :: rest =>
    let s := { s with dev := { s.dev with rereads := rest } }
    let unit := eccUnit s p
    if intact then .next (modErrs s unit fun e => { e with transient := Nat.min 0xFFFFF (e.transient + 1) })
    else
      let s := modErrs s unit fun e => { e with lasting := Nat.min 0xFF (e.lasting + 1) }
      .next (lastingOutcome (postEvent s 3 unit (eccCode p) (eccPa p)) p)

/-! Borrowed phases of near memory (R166). -/

/-- The near-memory channel of a package physical address (R166, R168). -/
def channelOf (s : State) (pa : Nat) : Option (Nat × Nat) :=
  match spaceOf s (localOf pa) with
  | .near d =>
    let out := (s.dev.channels.at? d).getD []
    let live := (List.range 64).filter fun c => !out.contains c
    (live[localOf pa % 0x0020_0000_0000 / 2048 % Nat.max 1 live.length]?).map fun c => (d, c)
  | _ => none

/-- Is an access of a partition to near memory of the third kind of R166? -/
def thirdKind (s : State) (pid die off : Nat) : Bool :=
  match rangeOwner s die off with
  | some p => p != pid
  | none => pid != 0 || ((List.range 16).filter fun c => partOf s (die * 16 + c) == 0).isEmpty

/-- The owner of the phase that a waiting access takes (R166). -/
def phaseOwner (s : State) (die : Nat) : Nat :=
  let held := fun p => ((List.range 16).filter fun c => partOf s (die * 16 + c) == p).length
  if held 0 != 0 then 0
  else (List.range 16).foldl (fun m p => if held m < held p then p else m) 0

/-- What waits for a phase: a run of a flight, an engine operation's next chunk, the oldest host access, the oldest request of
another package. -/
inductive PhaseUser where
  | run (team flight run : Nat) | engine (team ctx : Nat) | host | fabric
  deriving DecidableEq, Repr

/-- Is a location an access of the third kind on a channel, for a partition or, with none, for the host or another package? -/
def waitsPhase (s : State) (die channel : Nat) (pid : Option Nat) (loc : Loc) : Bool :=
  match loc with
  | .mem pa => isLocal s pa && channelOf s pa == some (die, channel) &&
      (match pid with | some p => thirdKind s p die (localOf pa % 0x0020_0000_0000) | none => true)
  | _ => false

/-- The accesses of teams that have waited 4 µs on a channel by the die's clock: when they arrived, and which. -/
def latePhase (s : State) (die channel : Nat) : List (List Nat × PhaseUser) :=
  let late := fun (since : List Nat) => decide (atD since die 0 + 4000 ≤ clockOf s die)
  s.teams.flatMap fun e =>
    let third := waitsPhase s die channel (some (s.pidOf e.2))
    (e.2.flights.flatMap fun f => (List.range f.runs.length).filterMap fun i =>
      match f.runs[i]? with
      | some r => if !r.done && third r.loc && late f.since then some ([atD f.since die 0, f.id], .run e.1 f.id i) else none
      | none => none) ++
    (List.range 5).filterMap fun c =>
      ((e.2.ops c).head?).bind fun o =>
        if o.started && late o.since && (o.touches s e.2).any (fun x => third x.1) then
          some ([atD o.since die 0, o.seqNo], .engine e.1 c) else none

/-- The oldest access of the host, and of another package, if it lies on the channel and has waited 4 µs there (R166). -/
def outsidePhase (s : State) (die channel : Nat) : List (List Nat × PhaseUser) :=
  let here := fun pa => waitsPhase s die channel none (.mem (ownPa s pa))
  let one := fun (arr : List (List Nat)) (u : PhaseUser) =>
    let at_ := atD (atD arr 0 []) die 0
    if at_ + 4000 ≤ clockOf s die then [([at_, 0], u)] else []
  (match s.reqHost with
   | .read pa _ :: _ => if here pa then one s.hostArr .host else []
   | .write pa _ :: _ => if here pa then one s.hostArr .host else []
   | _ => []) ++
  (match s.reqFab with | r :: _ => if here r.pa then one s.fabArr .fabric else [] | [] => [])

/-- A list in ascending order of its keys. -/
def insertKey (x : List Nat × PhaseUser) : List (List Nat × PhaseUser) → List (List Nat × PhaseUser)
  | [] => [x]
  | y :: r => if x.1 < y.1 then x :: y :: r else y :: insertKey x r

/-- The access is issued: an access in flight is performed, an engine advances, a request is served. -/
def phaseIssue (s : State) : PhaseUser → Option State
  | .run t f r => (s.teams.at? t).bind fun x => (x.flights.find? (·.id == f)).bind fun g =>
      if (runsAt s g r).all (g.matFree s x) then (performAll s t f (runsAt s g r)).map fun s' => settleSeg s' t f else none
  | .engine t c => (s.teams.at? t).bind fun x => ((x.ops c).head?).bind fun o =>
      (match (if o.kind.copies then execCopyChunk t c s else execDrainChunk t c s) with | .next s' => some s' | _ => none)
  | .host => (match execHostMemRead s with
      | .next s' => some s'
      | _ => (match execHostMemWrite s with | .next s' => some s' | _ => none))
  | .fabric => (match execFabricRequest s with | .next s' => some s' | _ => none)

/-- An access that has waited 4 µs on a channel is issued in another partition's phase, a retry event of its owner, the first
that arrived (R166, R21), at most once per 4 µs on the channel. -/
def execPhaseSteal (die channel : Nat) (s : State) : Out :=
  let key := die * 64 + channel
  let late : Bool := match s.steals.at? key with | some c => decide (c + 4000 ≤ clockOf s die) | none => true
  let wait := ((latePhase s die channel ++ outsidePhase s die channel).foldl (fun l x => insertKey x l) []).map (·.2)
  match (if late then wait.findSome? (phaseIssue s) else none) with
  | some s' =>
    let o := phaseOwner s die
    let p := (s'.parts.at? o).getD {}
    .next { s' with steals := s'.steals.insert key (clockOf s die),
                    parts := s'.parts.insert o { p with retry := p.retry + 1 } }
  | none => notNow

/-- A value that its code corrects is used, and counted (R61, R62). -/
def countCorrected (s : State) (unit : Nat) : State :=
  if unit ≤ 4 then modErrs s unit fun e => { e with corrected := Nat.min 0xFFFFFF (e.corrected + 1) } else s

end Sys2Proof.Machine
end

