-- ==== Sys2Proof/Machine/FaultQ.lean ====
section
/-! DEFINITION. The fault queue (R64, R81, R275 to R278): an entry is written, the host's RESUME is seen. -/

namespace Sys2Proof.Machine

/-- The fault queue of a partition, if it is usable (R81): control block, ring, log2 of its entries. -/
structure FQueue where
  ctl  : Nat
  ring : Nat
  log  : Nat
  deriving DecidableEq, Repr

def faultQueueOf (s : State) (pid : Nat) : Option FQueue :=
  (ctlBlock s pid).bind fun b =>
    let ring := hostNum s b 8
    let lg := hostNum s (b + 8) 1
    if 4 ≤ lg && lg ≤ 12 && ring % 64 == 0 && ring < 2 ^ 47 && (s.rdMem (b + 9) 55).all (· == 0) then
      some { ctl := b, ring := hostPa s ring, log := lg } else none

/-- Is the slot of the next entry free: never used, or its RESUME written and FQHEAD past it (R81)? -/
def slotFree (s : State) (q : FQueue) : Bool :=
  let tail := hostNum s (q.ctl + 64) 8
  let pa := q.ring + 64 * (tail % 2 ^ q.log)
  tail < 2 ^ q.log ||
    (tail - 2 ^ q.log < hostNum s (q.ctl + 128) 8 && hostNum s (pa + 56) 8 != 0 && !(s.faultQ.any fun f => f.slotPa == pa))

/-- The 64 bytes of an entry (R81). -/
def entryBytes (s : State) (r : FaultReq) (seq : Nat) : List Byte :=
  let pt := ((s.gridOf r.grid).map (·.ptbase)).getD 0
  leBytes 8 r.va.toNat ++ leBytes 8 r.tpc.toNat ++ leBytes 1 r.cause ++ leBytes 1 r.access ++
  leBytes 2 (r.core.die + r.core.cluster * 4 + r.core.core * 64) ++ leBytes 1 r.pid ++ leBytes 3 0 ++ leBytes 8 pt ++
  leBytes 8 r.grid.toNat ++ leBytes 8 seq ++ leBytes 8 0 ++ leBytes 8 0

/-- The index of the workgroup a fault belongs to. -/
def FaultReq.lin (r : FaultReq) (s : State) : Nat :=
  match r.wg with
  | some x => x.2
  | none => (((s.teams.at? r.team).bind fun t => s.wgs.at? t.wg).map (·.lin)).getD 0

/-- The team once its fault has its entry: the privileged record, with the entry's SEQ (R267), and what waits for RESUME. -/
def Team.entryMade (t : Team) (r : FaultReq) (seq : Nat) : Team :=
  let t := t.setK { r.trap with info := setAt r.trap.info 1 (BitVec.ofNat 64 seq) }
  match r.engine with
  | none => t.modSplit r.split fun p => if p.park == some .faultPending then { p with park := some (.fault seq) } else p
  | some 5 => { t with mat := t.mat.map fun m => if m.held then { m with entry := some seq } else m }
  | some 6 => { t with preEntry := some seq }
  | some c => t.setOps c ((t.ops c).map fun o => if o.fault then { o with entry := some seq } else o)

/-- A fault of a team gets its entry when a slot is free, and the team waits for RESUME; without a usable queue its grid
fails (R81). As the entry to a team-wide trap it waits until the team's path counters are zero (R264). -/
def execFaultQueueWrite (team : Nat) (s : State) : Out :=
  match s.faultReq.find? fun f => f.team == team with
  | none => notNow
  | some r =>
    let s0 := { s with faultReq := s.faultReq.erase r }
    if r.wg.isNone && ((s.teams.at? team).map Team.pathsBusy).getD false then notNow
    else match faultQueueOf s r.pid with
    | none => .next (reportFail s0 r.grid r.cause 0 (r.lin s))
    | some q =>
      if !slotFree s q then notNow
      else
        let tail := hostNum s (q.ctl + 64) 8
        let pa := q.ring + 64 * (tail % 2 ^ q.log)
        let seq := (s.fseq.get r.pid).toNat
        let s1 := devStore (devStore s0 pa (entryBytes s r seq)) (q.ctl + 64) (leBytes 8 (tail + 1))
        let w : FaultWait := { team := team, split := r.split, pid := r.pid, seq := seq, slotPa := pa, cause := r.cause,
                               grid := r.grid, lanes := r.lanes, engine := r.engine, wg := r.wg }
        let s1 := { s1 with fseq := s1.fseq.set r.pid (BitVec.ofNat 64 (seq + 1)), faultQ := s1.faultQ ++ [w] }
        .next (if r.wg.isSome then s1 else s1.modTeam team fun t => t.entryMade r seq)

/-- Does a team still wait for a fault to be served? -/
def waitsFault (s : State) (tid : Nat) (t : Team) : Bool :=
  (t.splits.any fun p => match p.park with | some (.fault _) => true | some .faultPending => true | _ => false) ||
  t.preEntry.isSome || (t.eng.any fun l => l.any (·.fault)) || (t.mat.any (·.held)) ||
  (s.faultReq.any fun f => f.team == tid && f.wg.isNone)

/-- The split that met a fault after RESUME = 1: the faulting lanes execute again, and translate anew (R275, R378); a trap whose
entry met it is entered (R462). -/
def Split.resumed (p : Split) (lanes : Mask) : Split :=
  { p with park := p.waitsTrap, redo := if lanes == 0 then p.redo else some lanes, stage := p.stage &&& 11 }

/-- A team goes on after RESUME = 1 (R81, R275, R276): the faulting lanes execute again, the engine goes on from its chunk, and
splits inside a clause finish it interlocked (R305). -/
def resumeTeam (s : State) (f : FaultWait) (t : Team) : State :=
  let t : Team := { t with splits := t.splits.map fun p => { p with intl := p.clause.isSome } }
  let t : Team := match f.engine with
    | none => t.modSplit f.split fun p => if p.park == some (.fault f.seq) then p.resumed f.lanes else p
    | some 5 => { t with mat := t.mat.map fun m => { m with held := false, entry := none } }
    | some 6 => { t with preEntry := none }
    | some c => t.setOps c ((t.ops c).map fun o => { o with fault := false, entry := none })
  -- the entry of a team that PREEMPT has stopped has no further effect, and a handler keeps the team stopped
  let t := if t.kframe.isSome || t.dead || waitsFault s f.team t then t else { t with stop := false }
  let s := s.setTeam f.team t
  match s.wgs.at? t.wg with
  | some w => if w.ready || t.stop then s else placementReads s t.wg
  | none => s

/-- Did the fault's team stop for it and still wait? -/
def stillWaits (t : Team) (f : FaultWait) : Bool :=
  match f.engine with
  | none => t.splits.any fun p => p.park == some (.fault f.seq)
  | some 5 => t.mat.any fun m => m.held && m.entry == some f.seq
  | some 6 => t.preEntry == some f.seq
  | some c => (t.ops c).any fun o => o.fault && o.entry == some f.seq

/-- The host has written RESUME (R81): 1 retries, or places a killed workgroup again (R278); any other value fails the grid
with the entry's cause. A team that has been pre-empted since executes the access again anyway; placement reads that a port holds
are read once it is up (R37). -/
def execFaultResume (team : Nat) (s : State) : Out :=
  match s.faultQ.find? fun f => f.team == team && hostNum s (f.slotPa + 56) 8 != 0 with
  | none => notNow
  | some f =>
    let v := hostNum s (f.slotPa + 56) 8
    let held := ((s.teams.at? team).bind fun t => (s.wgs.at? t.wg).filter (!·.ready)).any fun w =>
      (s.gridOf w.grid).any (placementHeld s)
    if held then notNow else
    let s := { s with faultQ := s.faultQ.erase f }
    let lin := match f.wg with
      | some x => x.2
      | none => ((((s.teams.at? team).or (s.savedTeams.at? team)).bind fun t => s.wgs.at? t.wg).map (·.lin)).getD 0
    if v != 1 then .next (reportFail s f.grid f.cause 0 lin)
    else match f.wg with
      | some (g, n) => .next (s.modGrid g fun x => if x.fail.isSome then x else { x with again := x.again ++ [n] })
      | none =>
        match s.teams.at? team with
        | some t => .next (if stillWaits t f then resumeTeam s f t else s)
        | none => .next s

end Sys2Proof.Machine
end

