-- ==== Sys2Proof/Machine/Irreg.lean ====
section
/-! DEFINITION. Expansion, hash sets and gather (R421 to R434). -/

namespace Sys2Proof.Machine

/-! The region of an expansion (R424). -/

/-- Bytes of the region of G teams of w lanes. -/
def regionBytes (g w : Nat) : Nat := 128 * ceilDiv (64 + 12 * g * w) 128

/-- Does a window reach every byte from `va` on (R148, R155)? -/
def spanOk (s : State) (t : Team) (va n : Nat) : Bool :=
  va % 2 ^ 20 + n ≤ 2 ^ 20 &&
  (List.range (n / 32768 + 2)).all fun i => (windowLoc s t.core t.wg (va + Nat.min (32768 * i) (n - 1))).isSome

/-- The fault of a window operand, 128-byte aligned: its cause. -/
def windowFault (s : State) (t : Team) (ok : Nat → Bool) (va : Nat) : Option Nat :=
  if !(vaOk va && inWindow va && ok (nbits va 39 36)) || (windowLoc s t.core t.wg va).isNone then some cProt
  else if va % 128 != 0 then some cMisal
  else none

/-- The fault of a region of n bytes in the own window, within the allocation (R425). -/
def regionFault (s : State) (t : Team) (va n : Nat) : Option Nat :=
  (windowFault s t (· == 0) va).or (if spanOk s t va n then none else some cProt)

def Expan.active (x : Expan) : Bool := x.stat.getLsbD 0
def Expan.g (x : Expan) : Nat := bits x.stat 3 2 + 1
def Expan.pos (x : Expan) : Nat := bits x.stat 5 4
def Expan.exh (x : Expan) : Bool := x.stat.getLsbD 6
/-- The region's offset in the workgroup's scratchpad. -/
def Expan.off (x : Expan) : Nat := x.region.toNat % 2 ^ 20

/-- Word `field` of owner o: 0 start, 1 prefix, 2 accumulator. -/
def ownerWord (s : State) (t : Team) (o field : Nat) : Nat :=
  leNat (((s.wgOf t).map fun w => w.scr.read (t.exp.off + 64 + 12 * o + 4 * field) 4).getD [])

/-- NOT_QUIESCENT of the expansion instructions (R422): trap context before any other condition, then the given ones in order
(R141). -/
def Ctx.exFault (c : Ctx) (l : List (Bool × Nat)) : Option Nat :=
  if c.sp.lvl != 0 then some 0x0A else (l.find? fun e => !e.1).map (·.2)

/-- Is the issuing split converged, holding every lane (R425, R426)? -/
def Ctx.whole (c : Ctx) : Bool := c.t.converged && c.sp.mask == c.t.all

/-! EXPAND (R425). -/

/-- An arrival: region address, MOD, the starts, the lengths. -/
def arrival (c : Ctx) (w : OpA) (va : Nat) : List Nat :=
  let ls := List.range c.t.width
  let m := c.writing w.gN w.gnB
  va :: w.modN :: (ls.map fun l => (c.rdV w.aN l).toNat) ++
    ls.map fun l => if m.getLsbD l then (c.rdV ((sigExpand w).bOf w) l).toNat else 0

/-- A gang member of a team at a position: its team, if it still runs and is not fused away. -/
def memberAt (s : State) (t : Team) (g j : Nat) : Option (Nat × Team) :=
  (s.teamsOf t.wg).find? fun e => e.2.idx == t.idx - t.idx % g + j && !e.2.ended && e.2.fused.isNone

/-- The split of a team parked in a gang EXPAND, and the instruction's length. -/
def gangParked (t : Team) : Option (Nat × Nat) :=
  t.splits.findSome? fun p => match p.park with | some (.gang n) => some (p.id, n) | _ => none

/-- The initial value of an accumulator (R425): type 0 f32, 1 i32. -/
def accInit (op ty : Nat) : Nat :=
  match op with
  | 0 => 0
  | 1 => if ty == 0 then posInf else 0x7FFFFFFF
  | _ => if ty == 0 then negInf else 0x80000000

/-- The owners' words in order from a running sum: start, prefix, accumulator; and the total. -/
def ownerWords (init : Nat) : List (Nat × Nat) → Nat → List Nat × Nat
  | [], sum => ([], sum)
  | (st, len) :: r, sum =>
    let x := ownerWords init r (sum + len)
    (st :: sum :: init :: x.1, x.2)

/-- The header of a region: T, G arrivals, no bit of a mask; the other bytes are the device's own (R424, log entry 13). -/
def headerBytes (s : State) (total g : Nat) : List Byte :=
  (List.range 8).flatMap fun q =>
    match headerSlots.findIdx (· == q) with
    | 0 => leBytes 8 total
    | 1 => leBytes 8 g
    | n => leBytes 8 (if n < 4 then 0 else Config.freeNat (s.fresh + q))

/-- EXSTAT after a successful EXPAND by the member at position j. -/
def exstatOf (mod g j : Nat) : Quad :=
  BitVec.ofNat 64 (1 + nbits mod 0 0 * 2 + (g - 1) * 4 + j * 16 + nbits mod 4 3 * 128 + nbits mod 5 5 * 512)

/-- A member goes on past its EXPAND with an active expansion. -/
def startExpansion (t : Team) (sid len mod g j va total : Nat) : Team :=
  { t with exp := { stat := exstatOf mod g j, region := BitVec.ofNat 64 va, total := BitVec.ofNat 64 total, batch := 0 } }.modSplit
    sid fun p => nextSplit len (countIssue 1 { p with park := none })

/-- All members have arrived: the region is written at once, and every member starts or overflows (R425). -/
def expandAll (s : State) (members : List (Nat × Team × Nat × Nat)) (w : Nat) : State :=
  match members with
  | [] => s
  | (_, t0, _, _) :: _ =>
    let arr := fun t : Team => (t.exp.arrived).getD []
    let va := atD (arr t0) 0 0
    let mod := atD (arr t0) 1 0
    let off := va % 2 ^ 20
    let g := members.length
    let owners := members.flatMap fun e => (List.range w).map fun l =>
      (atD (arr e.2.1) (2 + l) 0, atD (arr e.2.1) (2 + w + l) 0)
    let x := ownerWords (accInit (nbits mod 4 3) (nbits mod 5 5)) owners 0
    let hdr := headerBytes s x.2 g
    let s := { s with fresh := s.fresh + 8 }
    let s := writeLoc s none (.scr t0.wg off) (hdr ++ x.1.flatMap (leBytes 4))
    (members.zip (List.range g)).foldl (fun s (e : (Nat × Team × Nat × Nat) × Nat) =>
      match s.teams.at? e.1.1 with
      | none => s
      | some t =>
        let t := { t with exp := { t.exp with arrived := none } }
        if 2 ^ 32 ≤ x.2 then
          (match t.split? e.1.2.2.1 with
           | some p =>
             let p := { p with park := none }
             let t := t.modSplit p.id fun _ => p
             raise (s.setTeam e.1.1 t) e.1.1 t p cExpOver [x.2 % 2 ^ 32, x.2 / 2 ^ 32] p.mask e.1.2.2.2
           | none => s)
        else s.setTeam e.1.1 (startExpansion t e.1.2.2.1 e.1.2.2.2 mod g e.2 va x.2)) s

/-- The teams parked in a gang EXPAND whose gang, by their own MOD, holds a team. -/
def gangsOver (s : State) (t : Team) : List (Nat × Team) :=
  (s.teamsOf t.wg).filter fun e => match e.2.exp.arrived with
    | some a => let g := nbits (atD a 1 0) 2 1 + 1; e.2.idx != t.idx && e.2.idx / g == t.idx / g
    | none => false

/-- The gang of an EXPAND (R425): complete, waiting, or mismatched with the members to be released, those among them that
wait for this team under another MOD. -/
def Ctx.expand (c : Ctx) (w : OpA) (va g : Nat) : Out :=
  let j := c.t.idx % g
  let arr := arrival c w va
  let members := (List.range g).map fun k => if k == j then some (c.tid, c.t) else memberAt c.s c.t g k
  let own := members.filterMap fun m => match m with | some e => if e.1 == c.tid then none else some e | none => none
  let other := own ++ (gangsOver c.s c.t).filter fun e => !own.any fun x => x.1 == e.1
  let bad := members.any Option.isNone || other.any fun e =>
    e.2.width != c.t.width ||
    (match e.2.exp.arrived with | some a => atD a 0 0 != va || atD a 1 0 != w.modN | none => false)
  if bad then
    let s := other.foldl (fun s e => match gangParked e.2 with
      | some (sid, n) => releaseWith s e.1 sid 0x0B n | none => s) (c.put c.t)
    { c with s := s }.trap cQuiesce [0x0B] (lenA w)
  else if own.all fun e => e.2.exp.arrived.isSome then
    let t := { c.t with exp := { c.t.exp with arrived := some arr } }
    let all := members.filterMap fun m => m.bind fun e =>
      if e.1 == c.tid then some (c.tid, t, c.sp.id, lenA w)
      else (gangParked e.2).map fun x => (e.1, e.2, x.1, x.2)
    .next (expandAll (c.put t) all c.t.width)
  else
    let t := { c.t with exp := { c.t.exp with arrived := some arr } }
    .next (c.put (t.modSplit c.sp.id fun x => { x with park := some (.gang (lenA w)) }))

def execExpand (w : OpA) (s : State) : Out :=
  issueA 24 0 (sigExpand w) w s fun c =>
    match c.exFault [(!c.t.exp.active, 0x04), (c.whole, 0x01)] with
    | some r => c.trap cQuiesce [r] (lenA w)
    | none =>
      let g := w.md 2 1 + 1
      let va := (c.rdS ((sigExpand w).cOf w)).toNat
      match regionFault c.s c.t va (regionBytes g c.t.width) with
      | some e => c.trap e [va] (lenA w)
      | none => (c.settleAt (.scr c.t.wg (va % 2 ^ 20)) (regionBytes g c.t.width)).expand w va g

/-! EXNEXT, SEGRED, EXDONE (R426 to R428). -/

/-- The last owner whose prefix does not exceed an iteration number; a region that software changed may have none. -/
def ownerAt (prefixes : List Nat) (g : Nat) : Option Nat :=
  ((List.range prefixes.length).filter fun o => atD prefixes o 0 ≤ g).getLast?

def execExnext (w : OpA) (s : State) : Out :=
  issueU 24 1 (sigExnext w) w s fun c =>
    match c.exFault [(c.whole, 0x01), (c.t.exp.active, 0x04)] with
    | some r => c.trap cQuiesce [r] (lenA w)
    | none =>
      let x := c.t.exp
      let wd := c.t.width
      let total := x.total.toNat
      let b := x.batch.toNat
      let base := (b * x.g + x.pos) * wd
      let q := w.md 1 0
      if x.exh || total ≤ base then
        let s := setHeader c.s c.t 2 (headerField c.s c.t 2 ||| 2 ^ x.pos)
        let t := { c.t with exp := { x with stat := x.stat ||| 64#64 } }
        { c with s := s }.done ((t.wrQ q true).wrP ((sigExnext w).cOf w) t.all 0) (lenA w)
      else
        let c := c.settleAt (.scr c.t.wg x.off) (regionBytes x.g wd)
        let pre := (List.range (x.g * wd)).map fun o => ownerWord c.s c.t o 1
        let ls := (List.range wd).filter fun l => base + l < total
        let deal := ls.map fun l => (l, (ownerAt pre (base + l)).getD (Config.freeNat (c.s.fresh + l) % (x.g * wd)))
        let t := deal.foldl (fun (t : Team) (e : Nat × Nat) =>
          let t := t.wrV 0 w.dN e.1 (BitVec.ofNat 32 (e.2 / wd * 1024 + e.2 % wd))
          t.wrV 0 (w.dN + 1) e.1 (ofInt 32 ((ownerWord c.s c.t e.2 0 : Int) + (base + e.1 : Nat) - (atD pre e.2 0 : Nat)))) c.t
        let t := (t.wrP ((sigExnext w).cOf w) t.all (laneMask ls)).wrQ q false
        let c := { c with s := { c.s with fresh := c.s.fresh + wd } }
        c.done { t with exp := { x with batch := BitVec.ofNat 64 ((b + 1) % 2 ^ 32) } } (lenA w)

/-- SEGRED (R427): its runs are applied at the bank in issue order, counted on no path. -/
def execSegred (w : OpA) (s : State) : Out :=
  issueA 24 2 (sigSegred w) w s fun c =>
    match c.exFault [(c.t.exp.active, 0x04)] with
    | some r => c.trap cQuiesce [r] (lenA w)
    | none =>
      let x := c.t.exp
      let code := fun l => (c.rdV w.aN l).toNat
      let ls := (c.lanes (c.writing w.gN w.gnB)).filter fun l => code l / 1024 < x.g && code l % 1024 < c.t.width
      let runs := ls.foldl (fun rs l =>
        let o := code l / 1024 * c.t.width + code l % 1024
        addRun rs (.scr c.t.wg (x.off + 64 + 12 * o + 8)) 4 false (x.region.toNat + 64 + 12 * o + 8)
          { lane := l, reg := 0, data := (c.rdV ((sigSegred w).bOf w) l).toNat }) []
      if runs.isEmpty then c.done c.t (lenA w)
      else
        let c := c.fly { id := 0, split := 0, path := 4, kind := .segred (bits x.stat 8 7) (bits x.stat 9 9), runs := runs }
        c.done c.t (lenA w)

def execExdone (w : OpA) (s : State) : Out :=
  issueU 24 3 (sigExdone w) w s fun c =>
    match c.exFault [(c.t.exp.active && c.t.exp.exh, 0x04)] with
    | some r => c.trap cQuiesce [r] (lenA w)
    | none =>
      let x := c.t.exp
      let mask := headerField c.s c.t 3 ||| 2 ^ x.pos
      let s := setHeader (c.put c.t) c.t 3 mask
      let c := { c with s := s }
      if !expansionDone s c.t mask then c.parkIn c.t .exdone
      else
        let t := (List.range c.t.width).foldl (fun (t : Team) l =>
          t.wrV 0 w.dN l (BitVec.ofNat 32 (ownerWord s c.t (x.pos * c.t.width + l) 2))) c.t
        match c.done { t with exp := { x with stat := x.stat &&& ~~~1#64 } } (lenA w) with
        | .next s => .next (wakeExdone s c.t.wg)
        | o => o

/-! EXSAVE and EXRSTR (R429, R430). -/

/-- The expansion save record (R429). -/
def exRecord (x : Expan) (w bytes : Nat) : List Byte :=
  leBytes 8 x.stat.toNat ++ leBytes 8 x.region.toNat ++ leBytes 8 x.total.toNat ++ leBytes 8 x.batch.toNat ++
    leBytes 4 w ++ leBytes 4 bytes ++ List.replicate 24 0

def execExsave (w : OpA) (s : State) : Out :=
  issueA 24 4 (sigExsave w) w s fun c =>
    let va := (c.rdS w.aN).toNat
    if c.guarded w && va % 8 != 0 then c.trap cMisal [va] (lenA w)
    else
      let ctx := c.engineCtx w.dN
      c.issueOp w ctx fun c =>
        let x := c.t.exp
        let n := if x.active && x.pos == 0 then regionBytes x.g c.t.width else 0
        c.submit ctx { num := 0, split := 0, mask := 0, fmt := 0,
                       kind := .exsave va (exRecord x c.t.width n) (if n == 0 then none else some (x.off, n)) }

/-- n quadwords from an address, read at their site. -/
def readQuads (s : State) (t : Team) (va n : Nat) : Except EFault (List Nat) :=
  allOk (fun i =>
    match engineTran s t 0 ((va + 8 * i) % 2 ^ 64) with
    | .error e => .error e
    | .ok loc => if va % 8 == 0 then .ok (siteRead s [(loc, 8)])
        else (allOk (fun b => (engineTran s t 0 ((va + 8 * i + b) % 2 ^ 64)).map fun l => (l, 1)) (List.range 8)).map (siteRead s))
    (List.range n)

/-- The context after the split's own earlier accesses to n quadwords (R183). -/
def Ctx.settleQuads (c : Ctx) (va n : Nat) : Ctx :=
  (List.range n).foldl (fun c i =>
    match engineTran c.s c.t 0 ((va + 8 * i) % 2 ^ 64) with | .ok loc => c.settleAt loc 8 | .error _ => c) c

/-- Is a save record acceptable to a team (R430)? -/
def exRecordOk (t : Team) (q : List Nat) : Bool :=
  let stat := atD q 0 0
  let g := nbits stat 3 2 + 1
  let bytes := nbits (atD q 4 0) 63 32
  nbits stat 63 10 == 0 && nbits (atD q 2 0) 63 32 == 0 && nbits (atD q 3 0) 63 32 == 0 &&
  (List.range 3).all (fun i => atD q (5 + i) 0 == 0) && nbits (atD q 4 0) 31 0 == t.width &&
  nbits stat 5 4 == t.idx % g && (bytes == 0 || bytes == regionBytes g t.width)

/-- EXRSTR reads the record and applies it in one step. -/
def execExrstr (w : OpA) (s : State) : Out :=
  issueU 24 5 (sigExrstr w) w s fun c =>
    if c.t.exp.active then c.trap cQuiesce [0x04] (lenA w)
    else
      let va := (c.rdS w.aN).toNat
      let c := c.settleQuads va 8
      let fail := fun e : EFault => c.tfault ⟨e.cause, e.served⟩ e.addr 0 0 (lenA w)
      match readQuads c.s c.t va 8 with
      | .error e => fail e
      | .ok q =>
        if !exRecordOk c.t q then c.trap cFormat [0xFFFFFFFF] (lenA w)
        else
          let bytes := nbits (atD q 4 0) 63 32
          let region := atD q 1 0
          let c := c.settleQuads (va + 64) (bytes / 8)
          match readQuads c.s c.t (va + 64) (bytes / 8) with
          | .error e => fail e
          | .ok img =>
            if bytes != 0 && (regionFault c.s c.t region bytes).isSome then c.trap cProt [region] (lenA w)
            else
              let s := if bytes == 0 then c.s else
                writeLoc c.s none (.scr c.t.wg (region % 2 ^ 20)) (img.flatMap (leBytes 8))
              let c := { c with s := s, t := (s.teams.at? c.tid).getD c.t }
              let x : Expan := { stat := BitVec.ofNat 64 (atD q 0 0), region := BitVec.ofNat 64 region,
                                 total := BitVec.ofNat 64 (atD q 2 0), batch := BitVec.ofNat 64 (atD q 3 0) }
              c.done { c.t with exp := x } (lenA w)

/-! Hash sets (R431, R432). -/

/-- HINS and HPROBE: one run at the table for each writing lane. -/
def hashOp (fn : Nat) (ins : Bool) (g : Sig) (w : OpA) (s : State) : Out :=
  issueA 24 fn g w s fun c =>
    let va := (c.rdS (g.bOf w)).toNat
    let k := w.md 4 0
    let lanes := c.lanes (c.writing w.gN w.gnB)
    -- with no writing lane nothing is checked (R353)
    match (if lanes.isEmpty then none else windowFault c.s c.t (· ≤ 1) va) with
    | some e => c.trapLanes c.t e [va] (c.writing w.gN w.gnB) (lenA w)
    | none =>
      let loc := (windowLoc c.s c.t.core c.t.wg va).getD (.scr c.t.wg 0)
      let runs := lanes.map fun l =>
        let key := (c.rdV w.aN l).toNat
        ({ loc := loc, bytes := 4 * 2 ^ k, va := va,
           accs := [{ lane := l, reg := w.dN, data := key }, { lane := l, reg := 256 + g.cOf w, data := key }] } : Run)
      let c := c.fly { id := 0, split := 0, path := 3, kind := .hash ins k (w.md 6 5), runs := runs }
      c.done c.t (lenA w)

def execHins (w : OpA) (s : State) : Out := hashOp 6 true (sigHins w) w s
def execHprobe (w : OpA) (s : State) : Out := hashOp 7 false (sigHprobe w) w s

/-! FETCH (R433, R434). -/

/-- The checks of a FETCH at issue: its record and the size of its row, or the trap. -/
def Ctx.fetchCheck (c : Ctx) (r : Option BRec) (n : Nat) (h : Hdl) (l : Lay) (hn ln : Nat) :
    Except TrapWhy BRec :=
  match recFault (((c.s.wgOf c.t).map (·.brecs)).getD []) n 1, r with
  | some e, _ => .error e
  | none, none => .error (cProt, [n])
  | none, some r =>
    if BRec.etype r == 6 || l.fmt != (if BRec.etype r == 0 then BRec.fmtc r else 0) then .error (cFormat, [0x0202])
    else
      let k := accept 5 (h.for 5) l
      if k.cls == 2 then .error (rejected 5 0 k.reason ln (some hn))
      else .ok r

/-- A FETCH's row stands below A, or in a handler within the Lodge registers (R268, R433): stage 7 (R315). -/
def Ctx.fetchRange (c : Ctx) (w : OpA) : Option Nat :=
  let l := (c.imaged 0 (tileL ((sigFetch w).cOf w)) 0).2.2.1
  (List.range (Nat.min 257 l.size)).findSome? fun e =>
    Fld.outside .v c.t.regs 0 0 (c.sp.lvl != 0 && 240 ≤ w.dN) (w.dN + e)

def execFetch (w : OpA) (s : State) : Out :=
  issueKR (fun _ => none) (·.fetchRange w) 24 8 (sigFetch w) w s fun c =>
    let tile := (sigFetch w).cOf w
    let hn := tileH tile
    let ln := tileL tile
    let (c, h, l, _) := c.imaged hn ln 0
    if h.kind == 0 && c.s.migrated c.t then c.trap cHandle [hn] (lenA w)
    else
      let n := (c.rdS ((sigFetch w).bOf w)).toNat % 256
      let recs := ((c.s.wgOf c.t).map (·.brecs)).getD []
      let chk := c.fetchCheck recs[n]? n h l hn ln
      let seen : Bool := c.sp.image.isNone && (match chk with | .error e => e.1 == cLayout | .ok _ => true)
      let c := if seen then { c with t := c.t.setLstat (firstDegree (h.for 5) l) (accept 5 (h.for 5) l).ways false } else c
      match chk with
      | .error e => c.why e (lenA w)
      | .ok r =>
        let lanes := c.lanes (c.writing w.gN w.gnB)
        let row := fun i => (c.rdV w.aN i).toNat
        let inn := lanes.filter fun i => row i < BRec.extent r
        let va := fun i e => (((BRec.base r + row i * BRec.stride r : Nat) : Int) + (l.eval e).elem * (BRec.elem r : Nat)).emod
          (2 ^ 64 : Nat) |>.toNat
        let els := inn.flatMap fun i => (List.range l.size).map fun e => (i, e, va i e)
        let pairs := els.map fun x => (x.1, x.2.2)
        match c.misses pairs with
        | v :: vs => c.park (.walk (v :: vs))
        | [] =>
          let m := c.mapLanes (BRec.elem r) 0 (kindReaches c.s h.kind) pairs
          let runs := els.filterMap fun x => (m.ok.find? fun o => o.1 == x.1 && o.2.1 == x.2.2).map fun o =>
            ({ loc := o.2.2.loc, bytes := BRec.elem r, strm := o.2.2.strm, va := x.2.2,
               accs := [{ lane := x.1, reg := w.dN + x.2.1, data := 0 }] } : Run)
          let c := c.fly { id := 0, split := 0, path := 2, kind := .gather r, runs := runs,
                           zero := (lanes.filter fun i => BRec.extent r ≤ row i).flatMap fun i =>
                             (List.range l.size).map fun e => (i, w.dN + e) }
          c.endAccess m 0 (lenA w) none false

end Sys2Proof.Machine
end

