-- ==== Sys2Proof/Machine/VFp.lean ====
section
/-! DEFINITION. Vector floating point (R360 to R363, R241). -/

namespace Sys2Proof.Machine

/-- The format of a VFP TYPE (R300). -/
def vfpFmt (ty : Nat) : Fmt := match ty with | 0 => fmtF32 | 1 => fmtF16 | _ => fmtBf16

/-- A 16- or 32-bit code with its sign bit inverted where asked (R360). -/
def negCode (f : Fmt) (neg : Bool) (x : Nat) : Nat := let x := x % (2 * f.sign); if neg then x ^^^ f.sign else x

/-- The operands of a VFP instruction in one lane, after NEGA and NEGB. -/
structure FOps where
  m : Mod300
  f : Fmt
  a : Nat
  b : Nat
  c : Nat
  deriving DecidableEq, Repr

def FOps.va (o : FOps) : FV := decodeF o.f o.a
def FOps.vb (o : FOps) : FV := decodeF o.f o.b
def FOps.vc (o : FOps) : FV := decodeF o.f o.c

def Ctx.fsrc (c : Ctx) (broad : Bool) (r lane : Nat) : Nat :=
  if broad then (c.rdS r).toNat % 2 ^ 32 else (c.rdV r lane).toNat

def Ctx.fops (c : Ctx) (g : Sig) (w : OpA) (l : Nat) : FOps :=
  let m := mod300 w
  let f := vfpFmt m.type
  { m := m, f := f, a := negCode f m.nega (c.fsrc m.au w.aN l), b := negCode f m.negb (c.fsrc m.bu (g.bOf w) l),
    c := (c.rdV (g.cOf w) l).toNat % (2 * f.sign) }

/-- The report of lanes' flags (R243). -/
def fpReport (r : List (Nat × Nat × Nat)) : Report :=
  { flags := (r.map fun e => e.2.2).foldl (· ||| ·) 0, fpLanes := r.map fun e => (e.1, e.2.2) }

/-- A lane result with its flags, written to one register. -/
def vfp (fn : Nat) (g : OpA → Sig) (w : OpA) (s : State) (f : FOps → Nat × Nat) : Out :=
  issueR 13 fn g w s fun w c =>
    let r := (c.lanes (c.writing w.gN w.gnB)).map fun l => (l, f (c.fops (g w) w l))
    (c.t.wrVs c.sp.lvl w.dN (r.map fun e => (e.1, BitVec.ofNat 32 e.2.1)), fpReport r)

/-- An exact value with flags, rounded once into TYPE (R360). -/
def FOps.round (o : FOps) (x : FV × Nat) : Nat × Nat :=
  let r := roundTo o.f (match x.1 with | .nan _ => .nan false | v => v) o.m.round o.m.sat
  (r.1, x.2 ||| r.2)

def execFadd (w : OpA) (s : State) : Out := vfp 0 sigF3 w s fun o => o.round (addF o.va o.vb o.m.round)
def execFsub (w : OpA) (s : State) : Out := vfp 1 sigF3 w s fun o => o.round (addF o.va o.vb.negate o.m.round)
def execFmul (w : OpA) (s : State) : Out := vfp 2 sigF3 w s fun o => o.round (mulF o.va o.vb)
def execFfma (w : OpA) (s : State) : Out := vfp 3 sigFfma w s fun o => o.round (fmaF o.va o.vb o.vc o.m.round)

/-- FMIN (−1) and FMAX (1) (R362). -/
def FOps.minmax (sgn : Int) (o : FOps) : Nat × Nat :=
  let fl := if o.va.isSig || o.vb.isSig then flIV else 0
  let r := if o.va.isNan && o.vb.isNan then o.f.nanc
    else if o.va.isNan then o.b
    else if o.vb.isNan then o.a
    else if o.va.isZero && o.vb.isZero then (if o.va.neg? == decide (sgn < 0) then o.a else o.b)
    else if 0 < sgn * cmpF o.vb o.va then o.b else o.a
  (r, fl)

def execFmin (w : OpA) (s : State) : Out := vfp 4 sigFmm w s (FOps.minmax (-1))
def execFmax (w : OpA) (s : State) : Out := vfp 5 sigFmm w s (FOps.minmax 1)
def execFabs (w : OpA) (s : State) : Out := vfp 6 sigFun w s fun o => (o.a % o.f.sign, 0)

/-- FCMP (R300, R362): the condition and the flags. -/
def FOps.compare (o : FOps) : Bool × Nat :=
  let nan := o.va.isNan || o.vb.isNan
  let ordered := o.m.cond == 2 || o.m.cond == 3 || o.m.cond == 4 || o.m.cond == 5
  let fl := if o.va.isSig || o.vb.isSig || (ordered && nan) then flIV else 0
  let k := cmpF o.va o.vb
  (match o.m.cond with
   | 0 => !nan && k == 0
   | 1 => nan || k != 0
   | 2 => !nan && decide (k < 0)
   | 3 => !nan && decide (k ≤ 0)
   | 4 => !nan && decide (0 < k)
   | 5 => !nan && decide (0 ≤ k)
   | 6 => !nan
   | _ => nan, fl)

def execFcmp (w : OpA) (s : State) : Out :=
  issueR 13 7 sigFcmp w s fun w c =>
    let sel := c.writing w.gN w.gnB
    -- MOD[1] belongs to COND: A is not negated
    let ops := fun l => let o := c.fops (sigFcmp w) w l; { o with a := c.fsrc o.m.au w.aN l % (2 * o.f.sign) }
    let r := (c.lanes sel).map fun l => (l, (ops l).compare)
    (c.t.wrP w.dN sel (laneMask ((r.filter fun e => e.2.1).map (·.1))),
     fpReport (r.map fun e => (e.1, 0, e.2.2)))

/-- FCLASS (R362). -/
def FOps.classOf (o : FOps) : Nat :=
  match o.va with
  | .nan s => if s then 2 ^ 8 else 2 ^ 9
  | .inf n => if n then 2 ^ 0 else 2 ^ 7
  | .fin n m _ _ =>
    if m == 0 then (if n then 2 ^ 3 else 2 ^ 4)
    else if m < 2 ^ (o.f.prec - 1) then (if n then 2 ^ 2 else 2 ^ 5)
    else if n then 2 ^ 1 else 2 ^ 6

def execFclass (w : OpA) (s : State) : Out := vfp 8 sigFun w s fun o => (o.classOf, 0)

/-- FRND (R361): no flag but invalid; the sign of a zero is kept. -/
def FOps.integral (o : FOps) : Nat × Nat :=
  match o.va with
  | .nan s => (o.f.nanc, if s then flIV else 0)
  | .inf _ => (o.a, 0)
  | .fin n m e st =>
    let i := (toIntegral (.fin n m e st) o.m.round).1
    ((roundTo o.f (ofSigned i 0 n) 0 false).1, 0)

def execFrnd (w : OpA) (s : State) : Out := vfp 9 sigFrnd w s FOps.integral

/-- The bits of a conversion between two formats (R234, R363): equal codes move the bits; a signalling NaN sets
invalid there too (R228). -/
def cvtBits (dst src : Nat) (x mode : Nat) (sat : Bool) : Nat × Nat :=
  match fmtOf dst, fmtOf src with
  | some d, some f =>
    let v := decodeF f x
    if dst == src then (x % 2 ^ (8 * fmtBytes dst), if v.isSig then flIV else 0)
    else roundTo d v mode sat
  | _, _ => (0, 0)

/-- The format codes of CVT (R363): destination in B, source in C. -/
def cvtCodes (w : OpA) : Nat × Nat := ((sigCvt w).bOf w, (sigCvt w).cOf w)

/-- CVT (R363). A reserved format code traps whatever the guard (log entry 73). -/
def execCvt (w : OpA) (s : State) : Out :=
  issueRC 13 10 sigCvt
    (fun w _ => let k := cvtCodes w
      if (fmtOf k.1).isNone then some (cFormat, [k.1]) else if (fmtOf k.2).isNone then some (cFormat, [k.2]) else none)
    w s fun w c =>
      let m := mod300 w
      let k := cvtCodes w
      let r := (c.lanes (c.writing w.gN w.gnB)).map fun l =>
        (l, cvtBits k.1 k.2 (c.fsrc m.au w.aN l) m.round m.sat)
      (c.t.wrVs c.sp.lvl w.dN (r.map fun e => (e.1, BitVec.ofNat 32 e.2.1)), fpReport r)

/-- The integer a lane's source holds, by the code of C[1:0] (R363). -/
def intSrc (code n : Nat) : Int := if code % 2 == 0 then signedN (if 2 ≤ code then 64 else 32) n else n

def execI2f (w : OpA) (s : State) : Out :=
  issueR 13 11 sigI2f w s fun w c =>
    let m := mod300 w
    let k := intTypeC w
    let src := fun l : Nat =>
      if m.au then (if 2 ≤ k then (c.rdS w.aN).toNat else (c.rdS w.aN).toNat % 2 ^ 32)
      else if 2 ≤ k then (c.rdV64 w.aN l).toNat else (c.rdV w.aN l).toNat
    let r := (c.lanes (c.writing w.gN w.gnB)).map fun l =>
      (l, roundTo (vfpFmt m.type) (intF (intSrc k (src l))) m.round m.sat)
    (c.t.wrVs c.sp.lvl w.dN (r.map fun e => (e.1, BitVec.ofNat 32 e.2.1)), fpReport r)

/-- The range of an integer type code. -/
def intRange (code : Nat) : Int × Int :=
  match code with
  | 0 => (-(2 ^ 31 : Nat), (2 ^ 31 : Nat) - 1)
  | 1 => (0, (2 ^ 32 : Nat) - 1)
  | 2 => (-(2 ^ 63 : Nat), (2 ^ 63 : Nat) - 1)
  | _ => (0, (2 ^ 64 : Nat) - 1)

def execF2i (w : OpA) (s : State) : Out :=
  issueR 13 12 sigF2i w s fun w c =>
    let m := mod300 w
    let k := intTypeC w
    let r := (c.lanes (c.writing w.gN w.gnB)).map fun l =>
      (l, toInt (decodeF (vfpFmt m.type) (c.fsrc m.au w.aN l)) m.round (intRange k).1 (intRange k).2)
    let t := if 2 ≤ k then c.t.wrV64s c.sp.lvl w.dN (r.map fun e => (e.1, ofInt 64 e.2.1))
      else c.t.wrVs c.sp.lvl w.dN (r.map fun e => (e.1, ofInt 32 e.2.1))
    (t, fpReport (r.map fun e => (e.1, 0, e.2.2)))

/-! The functions of R241, f32 only; NEGA applies. -/

def execRcp (w : OpA) (s : State) : Out := vfp 13 sigTrans w s fun o => rcpF o.a
def execRsq (w : OpA) (s : State) : Out := vfp 14 sigTrans w s fun o => rsqF o.a
def execSqrt (w : OpA) (s : State) : Out := vfp 15 sigTrans w s fun o => sqrtOp o.a o.m.round o.m.sat
def execExp2 (w : OpA) (s : State) : Out := vfp 16 sigTrans w s fun o => exp2F o.a
def execLog2 (w : OpA) (s : State) : Out := vfp 17 sigTrans w s fun o => log2F o.a
def execSinpi (w : OpA) (s : State) : Out := vfp 18 sigTrans w s fun o => trigF false o.a
def execCospi (w : OpA) (s : State) : Out := vfp 19 sigTrans w s fun o => trigF true o.a

end Sys2Proof.Machine
end

