-- ==== Sys2Proof/Machine/Moment.lean ====
section
/-! DEFINITION. Moment-register arithmetic (R246 to R254, R258 to R260, R419). -/

namespace Sys2Proof.Machine

/-! Linear rules (R248 to R250). -/

/-- A sum of products with the special values of R250, to be rounded once; an exact zero is negative only when every
term is −0. -/
def fieldF (terms : List (List FV)) : FV × Nat :=
  let ins := terms.flatten
  if ins.any FV.isNan then (.nan false, if ins.any FV.isSig then flIV else 0)
  else
    let ps := terms.map fun l => match l with
      | [] => (intF 0, 0)
      | x :: r => r.foldl (fun p y => let q := mulF p.1 y; (q.1, p.2 ||| q.2)) (x, 0)
    if ps.any fun p => p.2 != 0 then (.nan false, flIV)
    else match ps.map (·.1) with
      | [] => (intF 0, 0)
      | x :: r => r.foldl (fun p y => let q := addF p.1 y 0; (q.1, p.2 ||| q.2)) (x, 0)

/-- A moment as f32 bits (R246). -/
structure Mom where
  mean : Nat
  var  : Nat
  deriving DecidableEq, Repr

/-- A moment register of a lane. A variance of −0 reads as +0 (R247). -/
def Mom.ofBits (x : Quad) : Mom :=
  let v := bits x 63 32
  { mean := bits x 31 0, var := if v == 0x80000000 then 0 else v }
def Mom.image (m : Mom) : Quad := BitVec.ofNat 64 (m.mean % 2 ^ 32 + m.var % 2 ^ 32 * 2 ^ 32)

/-- Two exact fields rounded; a variance of −0 is written as +0 (R247, R249). -/
def momRound (mean var : FV × Nat) : Mom × Nat :=
  let m := roundF32 mean.1
  let v := roundF32 var.1
  ({ mean := m.1, var := if v.1 == 0x80000000 then 0 else v.1 }, mean.2 ||| var.2 ||| m.2 ||| v.2)

/-- The square root of an exact value that is not negative, exact or with a sticky tail. -/
def rootF (x : FV) : FV :=
  match x with
  | .fin n m e _ => if m == 0 then .fin n 0 e false else sqrtF m e
  | x => x

/-- The covariance of a mode (R248): 0 IND, 1 POS, 2 NEG, 3 GIV with the value `g`; its rounding reports no flag. -/
def covOf (cov : Nat) (va vb : Nat) (g : Nat) : FV × Nat :=
  let p := mulF (decodeF fmtF32 va) (decodeF fmtF32 vb)
  let r := decodeF fmtF32 (roundF32 (rootF p.1)).1
  match cov with
  | 0 => (intF 0, 0)
  | 1 => (r, p.2)
  | 2 => (r.negate, p.2)
  | _ => (decodeF fmtF32 g, 0)

/-- MADD (0), MSUB (1) and MMUL (2) of two moments (R249): the rounded result before the check of R259. -/
def momLin (op cov : Nat) (a b : Mom) (g : Nat) : Mom × Nat :=
  let c := covOf cov a.var b.var g
  let f := decodeF fmtF32
  let two := intF 2
  let r := match op with
    | 0 => momRound (fieldF [[f a.mean], [f b.mean]]) (fieldF [[f a.var], [f b.var], [two, c.1]])
    | 1 => momRound (fieldF [[f a.mean], [(f b.mean).negate]]) (fieldF [[f a.var], [f b.var], [two.negate, c.1]])
    | _ => momRound (fieldF [[f a.mean, f b.mean], [c.1]])
        (fieldF [[f a.var, f b.var], [f a.var, f b.mean, f b.mean], [f b.var, f a.mean, f a.mean],
                 [two, c.1, f a.mean, f b.mean], [c.1, c.1]])
  (r.1, r.2 ||| c.2)

/-- MSCALE (R249). -/
def momScale (k : Nat) (a : Mom) : Mom × Nat :=
  let f := decodeF fmtF32
  momRound (fieldF [[f k, f a.mean]]) (fieldF [[f k, f k, f a.var]])

/-- A result after the check of R259 and R260: the moment, its flags, and the bits of a variance that traps. -/
structure MomRes where
  m     : Mom
  flags : Nat := 0
  bad   : Option Nat := none
  deriving DecidableEq, Repr

/-- A negative variance is clamped, or becomes the canonical NaN and is reported (R260). -/
def nvCheck (clamp : Bool) (r : Mom × Nat) : MomRes :=
  if negVarBits r.1.var then
    if clamp then { m := { r.1 with var := 0 }, flags := r.2 ||| flNVC }
    else { m := { r.1 with var := canonNan }, flags := r.2, bad := some r.1.var }
  else { m := r.1, flags := r.2 }

/-- MFMA (R249): MMUL, then MADD of its result with the old destination. -/
def momFma (clamp : Bool) (cov : Nat) (a b d : Mom) (g : Nat) : MomRes :=
  let p := nvCheck clamp (momLin 2 cov a b g)
  let q := nvCheck clamp (momLin 0 cov p.m d g)
  { m := q.m, flags := p.flags ||| q.flags, bad := p.bad.or q.bad }

/-! Exact reals for the nonlinear rules: an exact dyadic value, or an enclosure [lo, hi] × 2^k. -/

structure Encl where
  exact : Option FV := none
  lo    : Int := 0
  hi    : Int := 0
  k     : Int := 0
  deriving DecidableEq, Repr

/-- An exact value n × 2^k. -/
def Encl.dy (n k : Int) : Encl := { exact := some (ofSigned n k false), lo := n, hi := n, k := k }

/-- n × 2^s for a shift of either sign, rounded down. -/
def shiftI (n : Int) (s : Int) : Int := if 0 ≤ s then n * (2 ^ s.toNat : Nat) else n / (2 ^ (-s).toNat : Nat)

/-- The f32 code at a place of the order of finite values: the negative ones below 0, then the positive. -/
def ordCode (o : Int) : Nat := if o < 0 then 0x80000000 + o.natAbs else o.toNat
def codeOrd (c : Nat) : Int := if 0x80000000 ≤ c then -((c - 0x80000000 : Nat) : Int) else c

/-- Is an f32 code within 4 ulp of every value of the enclosure (R253, ulp of R241)? -/
def within4 (e : Encl) (c : Nat) : Bool :=
  match decodeF fmtF32 c with
  | .fin n m x _ =>
    let mag := Nat.min e.lo.natAbs e.hi.natAbs
    let E : Int := (mag.log2 : Int) + e.k
    let ue : Int := if mag == 0 || E < -126 then -149 else E - 23
    let q := min (min x ue) e.k
    let v := (FV.fin n m x false).atExp q
    let u : Int := 4 * (2 ^ (ue - q).toNat : Nat)
    let l := shiftI e.lo (e.k - q)
    let h := shiftI e.hi (e.k - q)
    decide (h - v ≤ u) && decide (v - l ≤ u)
  | _ => false

/-- The values allowed for a field whose reference is not an f32 value: those within 4 ulp, and an infinity where the
reference rounds to one. -/
def nearCodes (e : Encl) : List Nat :=
  let at_ := fun mode => (roundTo fmtF32 (ofSigned e.lo e.k false) mode false).1
  let o := codeOrd (at_ 1)
  let near := (List.range 19).filterMap fun i : Nat =>
    let c := ordCode (o + (i : Int) - 9)
    if within4 e c then some c else none
  near ++ (if e.lo < 0 && near.contains 0 then [0x80000000] else []) ++
    (if at_ 0 == posInf || at_ 0 == negInf then [at_ 0] else [])

/-- One field of a nonlinear result: its code and whether its reference is an f32 value (R253, log entry 7). -/
def pickNear (fn mean var : Nat) (e : Encl) : Nat × Bool :=
  let free :=
    let l := nearCodes e
    match l[Config.momentPick fn mean var % l.length]? with
    | some c => (c, false)
    | none => ((roundF32 (ofSigned e.lo e.k false)).1, false)
  match e.exact with
  | some v => let r := roundF32 v; if r.2 &&& (flNX ||| flOF) == 0 then (r.1, true) else free
  | none => free

/-- A real in an interval rounded to f32 (R252): the square root of n / d × 2^e, negated where asked. -/
def rootRatio (neg : Bool) (n d : Nat) (e : Int) : FV :=
  if n == 0 then .fin false 0 0 false
  else
    let odd := e % 2 != 0
    let n := if odd then 2 * n else n
    let e := if odd then e - 1 else e
    let q := n * 2 ^ 1400 / d
    let r := isqrt q
    .fin neg r (e / 2 - 700) (r * r * d != n * 2 ^ 1400)

/-- e^x for an exact x = n × 2^k, |x| at most about 1,000: an enclosure (relative width below 2^-100). -/
def expEncl (n k : Int) : Encl :=
  let x := shiftI n (k + fp)
  let j := x / (ln2 : Int)
  let r := (x - j * ln2).toNat
  let y := series r 0 1 false
  { lo := y - slack, hi := y + slack, k := j - fp }

/-- A product of enclosures of values that are not negative. -/
def Encl.mul (a b : Encl) : Encl := { lo := a.lo * b.lo, hi := a.hi * b.hi, k := a.k + b.k }

/-! The device's normal functions (R252), in units of 2^-64 within 2^-22 of the exact ones (log entry 7). -/

/-- φ(x) for x = m × 2^-k in (0, 6), in fixed point. -/
def phiFix (x : Nat) : Nat :=
  let z := x * x / one / 2
  let ez := (series z 0 1 false).toNat
  -- 1 / (e^z √(2π))
  let s := isqrt (2 * piFix * one)
  one * one / ez * one / s

/-- Φ(x) − 1/2 in fixed point: φ(x) Σ x^(2k+1) / (1 · 3 · … · (2k+1)). -/
def halfPhiFix (x : Nat) : Nat :=
  let rec go : Nat → Nat → Nat → Nat → Nat
    | 0, _, _, acc => acc
    | n + 1, i, t, acc => go n (i + 2) (t * x / one * x / one / (i + 2)) (acc + t)
  phiFix x * go 220 1 x 0 / one

/-- A value the device gives within 2^-22 of an exact one, from fixed point, in units of 2^-64. -/
def deviceVal (pick : Nat) (exact : Int) : Int :=
  exact / (2 ^ 256 : Nat) - (2 ^ 42 : Nat) + 2 + (pick % (2 ^ 43 - 4) : Nat)

/-- The magnitude of a finite f32 code in fixed point. -/
def fixOf (c : Nat) : Nat :=
  match decodeF fmtF32 (c % 0x80000000) with
  | .fin _ m e _ => (shiftI m (e + fp)).toNat
  | _ => 0

/-- Φ and φ at an f32 code, in units of 2^-64 (R252). -/
def devPhi (c : Nat) : Int :=
  let neg := decide (0x80000000 ≤ c)
  if c % 0x80000000 == 0 then 2 ^ 63
  else if 0x40C00000 ≤ c % 0x80000000 then (if neg then 0 else 2 ^ 64)
  else
    let h := halfPhiFix (fixOf c)
    deviceVal (Config.tablePick 0 c) (if neg then (one / 2 : Nat) - h else (one / 2 : Nat) + h)
def devDensity (c : Nat) : Int :=
  if 0x40C00000 ≤ c % 0x80000000 then 0
  else deviceVal (Config.tablePick 1 c) (phiFix (fixOf c))

/-- atan(a) for 0 ≤ a ≤ 1 in fixed point: two halvings, then the series. -/
def atanFix (a : Nat) : Nat :=
  let half := fun a : Nat => a * one / (one + isqrt (one * one + a * a))
  let b := half (half a)
  let rec go : Nat → Nat → Nat → Bool → Int → Int
    | 0, _, _, _, acc => acc
    | n + 1, i, t, sg, acc =>
      let d : Int := (t / i : Nat)
      go n (i + 2) (t * b / one * b / one) (!sg) (if sg then acc - d else acc + d)
  4 * (go 90 1 b false 0).toNat

/-- Owen's T for 0 ≤ h < 9.5 and 0 ≤ a < 1 in fixed point: (atan a − Σ (−1)^j a^(2j+1) / (2j+1) · P_j) / 2π, with P_j the
chance that a Poisson count of mean h²/2 exceeds j. -/
def owenFix (h a : Nat) : Int :=
  let z := h * h / one / 2
  -- e^z from e^(z / 8)
  let sq := fun x : Nat => x * x / one
  let e0 := one * one / sq (sq (sq (series (z / 8) 0 1 false).toNat))
  let rec go : Nat → Nat → Nat → Nat → Nat → Int → Int
    | 0, _, _, _, _, acc => acc
    | n + 1, j, t, below, p, acc =>
      -- t is the chance of a count j, below that of a count under j, p is a^(2j+1)
      let below := below + t
      let tail := one - below
      let d : Int := (p * tail / one / (2 * j + 1) : Nat)
      go n (j + 1) (t * z / one / (j + 1)) below (p * a / one * a / one) (if j % 2 == 0 then acc + d else acc - d)
  ((atanFix a : Int) - go 160 0 e0 0 a 0) * (one : Nat) / (2 * piFix : Nat)

/-- T at f32 codes h ≥ 0 and 0 ≤ a ≤ 1, in units of 2^-129, in which a half of a product of two values of Φ is exact (R252). From
h = 9.5 on the exact T is below 2^-64. -/
def devOwen (h a : Nat) : Int :=
  if a == 0x3F800000 then devPhi h * (2 ^ 64 - devPhi h)
  else
    let x := if 0x41180000 ≤ h then 0 else owenFix (fixOf h) (fixOf a)
    deviceVal (Config.tablePick 2 (h * 2 ^ 32 + a)) x * 2 ^ 65

/-! The nonlinear rules (R253): references for finite inputs m × 2^e and n × 2^f, v > 0. -/

/-- A reference r + s √v, r and s exact at exponent q, v = n × 2^f: exact where √v or s allows it. -/
def rootRef (r s q : Int) (n : Nat) (f : Int) : Encl :=
  if s = 0 then .dy r q
  else
    let odd := f % 2 != 0
    let n' := if odd then 2 * n else n
    let g := if odd then (f - 1) / 2 else f / 2
    let w := isqrt n'
    if w * w == n' then
      let e := min q (q + g)
      .dy (shiftI r (q - e) + shiftI (s * w) (q + g - e)) e
    else
      -- √v = √n' 2^g, to 2^-500 of a unit
      let w := isqrt (n' * 2 ^ 1000)
      let e := min q (q + g - 500)
      let lo := if 0 < s then s * w else s * (w + 1)
      let hi := if 0 < s then s * (w + 1) else s * w
      { lo := shiftI r (q - e) + shiftI lo (q + g - 500 - e), hi := shiftI r (q - e) + shiftI hi (q + g - 500 - e), k := e }

/-- MomentRelu's references: μ = M × 2^e, v = n × 2^f. -/
def reluRef (M e : Int) (n : Nat) (f : Int) : Encl × Encl :=
  let α := (roundF32 (rootRatio (decide (M < 0)) (M.natAbs * M.natAbs) n (2 * e - f))).1
  let p := devPhi α
  let d := devDensity α
  -- everything in units of 2^q
  let q := min (2 * e) f - 128
  let U : Int := 2 ^ 64
  -- μ p at 2^(e − 64); σ d at 2^-64
  let mean := rootRef (shiftI (M * p) (e - min e 0)) (shiftI d (0 - min e 0)) (min e 0 - 64) n f
  -- (μ² + v) p − μ²p² − v d² + σ (μ d − 2 μ p d)
  let rr := shiftI (M * M * (p * U - p * p)) (2 * e - 128 - q) + shiftI (n * (p * U - d * d)) (f - 128 - q)
  let ss := M * (d * U - 2 * p * d)
  let q2 := min q (e - 128)
  (mean, rootRef (shiftI rr (q - q2)) (shiftI ss (e - 128 - q2)) q2 n f)

/-- MomentSigm's references. -/
def sigmRef (M e : Int) (n : Nat) (f : Int) : Encl × Encl :=
  let s : Int := if f < 0 then -f else 0
  let vn := n * 2 ^ (f + s).toNat
  -- λ²μ² / (1 + λ²v) = π μ² / (8 + π v)
  let h := (roundF32 (rootRatio (decide (M < 0)) (piFix * (M.natAbs * M.natAbs))
    (8 * one * 2 ^ s.toNat + piFix * vn) (2 * e + s))).1
  -- 1 / (1 + 2 λ²v) = 4 / (4 + π v)
  let a := (roundF32 (rootRatio false (4 * one * 2 ^ s.toNat) (4 * one * 2 ^ s.toNat + piFix * vn) 0)).1
  let p := devPhi (h % 0x80000000)
  let U : Int := 2 ^ 64
  (.dy (if 0x80000000 < h then U - p else p) (-64), .dy (p * (U - p) - devOwen (h % 0x80000000) a) (-128))

/-- e^x bounded away from what f32 can hold. -/
def hugeEncl : Encl := { lo := 1, hi := 1, k := 1000 }
def tinyEncl : Encl := { lo := 1, hi := 1, k := -1000 }

/-- MomentExp's references; v may be 0. -/
def expRef (M e : Int) (n : Nat) (f : Int) : Encl × Encl :=
  let q := min (e + 1) f
  -- 2μ + v and v at 2^q
  let y := shiftI M (e + 1 - q) + shiftI n (f - q)
  let big := fun (x : Int) (b : Int) => decide (shiftI b (0 - q) < x)
  let mean := if y = 0 then Encl.dy 1 0 else if big y 400 then hugeEncl else if big (-y) 400 then tinyEncl
    else expEncl y (q - 1)
  let var :=
    if n == 0 then Encl.dy 0 0
    else if big y 1000 then hugeEncl
    else if big (shiftI n (f - q)) 60 then
      -- e^(2μ + 2v), e^-v being below 2^-80
      let w := y + shiftI n (f - q)
      if big w 1000 then hugeEncl else if big (-w) 1000 then tinyEncl
      else let x := expEncl w q; { x with lo := x.lo - x.lo / 2 ^ 80 }
    else if big (-y) 1000 then tinyEncl
    else
      let ev := expEncl n f
      let m1 : Encl := { lo := shiftI ev.lo (ev.k + fp) - one, hi := shiftI ev.hi (ev.k + fp) + 1 - one, k := -(fp : Int) }
      m1.mul (expEncl y q)
  (mean, var)

/-- A nonlinear function of finite inputs (R253): 0 MRELU, 1 MSIGM, 2 MEXP. -/
def momFinite (fn : Nat) (a : Mom) (M e : Int) (n : Nat) (f : Int) : Mom × Nat :=
  let refs := match fn with
    | 0 => if n == 0 then (if 0 < M then Encl.dy M e else Encl.dy 0 0, Encl.dy 0 0) else reluRef M e n f
    | 1 => sigmRef M e n f
    | _ => expRef M e n f
  let m := pickNear (2 * fn) a.mean a.var refs.1
  let v := pickNear (2 * fn + 1) a.mean a.var refs.2
  let vc := if 0x80000000 ≤ v.1 then 0 else v.1
  ({ mean := m.1, var := vc },
   (if m.2 && v.2 then 0 else flNX) ||| (if m.1 == posInf || vc == posInf then flOF else 0))

/-- A nonlinear function (R253, R254). -/
def momNonlin (fn : Nat) (a : Mom) : Mom × Nat :=
  match decodeF fmtF32 a.mean, decodeF fmtF32 a.var with
  | .nan s, v => ({ mean := canonNan, var := canonNan }, if s || v.isSig then flIV else 0)
  | _, .nan s => ({ mean := canonNan, var := canonNan }, if s then flIV else 0)
  | .inf _, .inf _ => ({ mean := canonNan, var := canonNan }, flIV)
  | .fin _ _ _ _, .inf _ =>
    (if fn == 1 then { mean := 0x3F000000, var := 0x3E800000 } else { mean := posInf, var := posInf }, 0)
  | .inf true, _ => ({ mean := 0, var := 0 }, 0)
  | .inf false, v =>
    (match fn with
     | 0 => { mean := posInf, var := a.var }
     | 1 => { mean := 0x3F800000, var := 0 }
     | _ => { mean := posInf, var := if v.isZero then 0 else posInf }, 0)
  | .fin neg m e _, .fin _ n f _ => momFinite fn a (if neg then -(m : Int) else m) e n f

/-- MCOLL (R258): 0 .mean, 1 .var, 2 .sd, 3 .sample with z. -/
def momColl (sel : Nat) (a : Mom) (z : Nat) : Nat × Nat :=
  let v := decodeF fmtF32 a.var
  let sd := let r := roundF32 (rootF v); (r.1, r.2)
  match sel with
  | 0 => (a.mean, 0)
  | 1 => (a.var, 0)
  | 2 => sd
  | _ =>
    let f := decodeF fmtF32
    let x := fieldF [[f a.mean], [f sd.1, f z]]
    let r := roundF32 x.1
    (r.1, sd.2 ||| x.2 ||| r.2)

/-! The instructions (R419). -/

def Ctx.mom (c : Ctx) (r l : Nat) : Mom := .ofBits (c.rdM r l)

/-- The report of lanes' results (R243, R260). -/
def momReport (d : Nat) (r : List (Nat × MomRes)) : Report :=
  let bad := r.filter fun e => e.2.bad.isSome
  { flags := (r.map fun e => e.2.flags).foldl (· ||| ·) 0, fpLanes := r.map fun e => (e.1, e.2.flags),
    nvLanes := laneMask (bad.map (·.1)), nvReg := d, nvBits := ((bad.head?).bind fun e => e.2.bad).getD 0 }

/-- A moment instruction whose lanes each write mD (R251, R419). -/
def momOp (fn : Nat) (g : OpA → Sig) (w : OpA) (s : State) (f : OpA → Ctx → Nat → MomRes) : Out :=
  issueR 23 fn g w s fun w c =>
    let r := (c.lanes (c.writing w.gN w.gnB)).map fun l => (l, f w c l)
    (r.foldl (fun t (e : Nat × MomRes) => t.wrM w.dN e.1 e.2.m.image) c.t, momReport w.dN r)

/-- A linear instruction under FMT.COV of the split (R248, R249). -/
def momLinOp (fn op : Nat) (w : OpA) (s : State) : Out :=
  momOp fn sigM4 w s fun w c l =>
    nvCheck (nvClamp c.t) (momLin op (bits c.sp.fmt 32 31) (c.mom w.aN l) (c.mom ((sigM4 w).bOf w) l)
      (c.rdV ((sigM4 w).cOf w) l).toNat)

/-- A nonlinear instruction (R253). -/
def momNonlinOp (fn op : Nat) (w : OpA) (s : State) : Out :=
  momOp fn sigM2 w s fun w c l => let r := momNonlin op (c.mom w.aN l); { m := r.1, flags := r.2 }

def execMset (w : OpA) (s : State) : Out :=
  momOp 0 sigMset w s fun w c l =>
    let v := (c.rdV ((sigMset w).bOf w) l).toNat
    nvCheck (nvClamp c.t) ({ mean := (c.rdV w.aN l).toNat, var := if v == 0x80000000 then 0 else v }, 0)

def execMcoll (w : OpA) (s : State) : Out :=
  issueR 23 1 sigMcoll w s fun w c =>
    let sel := w.md 1 0
    let r := (c.lanes (c.writing w.gN w.gnB)).map fun l =>
      (l, momColl sel (c.mom w.aN l) (if sel == 3 then (c.rdV ((sigMcoll w).bOf w) l).toNat else 0))
    (c.t.wrVs c.sp.lvl w.dN (r.map fun e => (e.1, BitVec.ofNat 32 e.2.1)), fpReport r)

def execMadd (w : OpA) (s : State) : Out := momLinOp 2 0 w s
def execMsub (w : OpA) (s : State) : Out := momLinOp 3 1 w s
def execMmul (w : OpA) (s : State) : Out := momLinOp 4 2 w s

def execMfma (w : OpA) (s : State) : Out :=
  momOp 5 sigM4 w s fun w c l =>
    momFma (nvClamp c.t) (bits c.sp.fmt 32 31) (c.mom w.aN l) (c.mom ((sigM4 w).bOf w) l) (c.mom w.dN l)
      (c.rdV ((sigM4 w).cOf w) l).toNat

def execMscale (w : OpA) (s : State) : Out :=
  momOp 6 sigMscale w s fun w c l =>
    nvCheck (nvClamp c.t) (momScale (c.fsrc (w.md 8 8 == 1) ((sigMscale w).bOf w) l) (c.mom w.aN l))

def execMrelu (w : OpA) (s : State) : Out := momNonlinOp 7 0 w s
def execMsigm (w : OpA) (s : State) : Out := momNonlinOp 8 1 w s
def execMexp (w : OpA) (s : State) : Out := momNonlinOp 9 2 w s

def execMmov (w : OpA) (s : State) : Out :=
  momOp 10 sigM2 w s fun w c l => { m := { mean := bits (c.rdM w.aN l) 31 0, var := bits (c.rdM w.aN l) 63 32 } }

end Sys2Proof.Machine
end

