-- ==== Sys2Proof/Machine/VInt.lean ====
section
/-! DEFINITION. Vector integer instructions: VALU (R356 to R358), IADDI and MOVI (R359). -/

namespace Sys2Proof.Machine

/-- The width of a VALU TYPE. -/
def valuWidth (ty : Nat) : Nat := if ty ≤ 1 then 32 else 64
/-- Is a VALU TYPE signed? -/
def valuSigned (ty : Nat) : Bool := ty == 0 || ty == 2

/-- The operands of a VALU instruction in one lane, as bits, and its MOD (R356). -/
structure VOps where
  lane : Nat
  m : Mod300
  a : Nat
  b : Nat
  c : Nat
  deriving DecidableEq, Repr

def VOps.w (o : VOps) : Nat := valuWidth o.m.type
/-- The value of bits under TYPE. -/
def VOps.val (o : VOps) (n : Nat) : Int := if valuSigned o.m.type then signedN o.w n else n
/-- Source A, exactly negated where asked. -/
def VOps.va (o : VOps) : Int := if o.m.nega then -(o.val o.a) else o.val o.a
def VOps.vb (o : VOps) : Int := if o.m.negb then -(o.val o.b) else o.val o.b
def VOps.vc (o : VOps) : Int := o.val o.c

/-- A source of width 32 or 64: a vector register or pair, or an s register (R300, R354). -/
def Ctx.vsrc (c : Ctx) (wide broad : Bool) (r lane : Nat) : Nat :=
  if broad then (if wide then (c.rdS r).toNat else (c.rdS r).toNat % 2 ^ 32)
  else if wide then (c.rdV64 r lane).toNat else (c.rdV r lane).toNat

/-- The operands in a lane; `b32` says that B is a 32-bit operand in every TYPE (R357). -/
def Ctx.vops (c : Ctx) (g : Sig) (w : OpA) (b32 : Bool) (l : Nat) : VOps :=
  let m := mod300 w
  { lane := l, m := m, a := c.vsrc (is64 m) m.au w.aN l, b := c.vsrc (is64 m && !b32) m.bu (g.bOf w) l,
    c := c.vsrc (is64 m) false (g.cOf w) l }

/-- An exact result reduced once (R356). -/
def VOps.reduce (o : VOps) (r : Int) : Int :=
  if !o.m.sat then r
  else if valuSigned o.m.type then clampInt (-(2 ^ (o.w - 1) : Nat)) ((2 ^ (o.w - 1) : Nat) - 1) r
  else clampInt 0 ((2 ^ o.w : Nat) - 1) r

/-- A full-width result in every writing lane. -/
def valu (fn : Nat) (g : OpA → Sig) (b32 : Bool) (w : OpA) (s : State) (f : VOps → Int) : Out :=
  issueV 10 fn g w s fun w c =>
    let r := (c.lanes (c.writing w.gN w.gnB)).map fun l => (l, let o := c.vops (g w) w b32 l; o.reduce (f o))
    if is64 (mod300 w) then c.t.wrV64s c.sp.lvl w.dN (r.map fun e => (e.1, ofInt 64 e.2))
    else c.t.wrVs c.sp.lvl w.dN (r.map fun e => (e.1, ofInt 32 e.2))

/-- A 32-bit result under every TYPE. -/
def valu32 (fn : Nat) (g : OpA → Sig) (w : OpA) (s : State) (f : VOps → Nat) : Out :=
  issueV 10 fn g w s fun w c =>
    c.t.wrVs c.sp.lvl w.dN ((c.lanes (c.writing w.gN w.gnB)).map fun l =>
      (l, BitVec.ofNat 32 (f (c.vops (g w) w false l))))

def execIadd (w : OpA) (s : State) : Out := valu 0 (sigI3 true) false w s fun o => o.va + o.vb
def execIsub (w : OpA) (s : State) : Out := valu 1 (sigI3 true) false w s fun o => o.va - o.vb
def execImul (w : OpA) (s : State) : Out := valu 2 (sigI3 true) false w s fun o => o.va * o.vb
def execImulh (w : OpA) (s : State) : Out := valu 3 (sigI3 false) false w s fun o => o.va * o.vb / (2 ^ o.w : Nat)
def execImad (w : OpA) (s : State) : Out := valu 4 sigImad false w s fun o => o.va * o.vb + o.vc
def execImin (w : OpA) (s : State) : Out := valu 5 (sigI3 false) false w s fun o => min o.va o.vb
def execImax (w : OpA) (s : State) : Out := valu 6 (sigI3 false) false w s fun o => max o.va o.vb
def execIabs (w : OpA) (s : State) : Out := valu 7 sigIabs false w s fun o => (o.va.natAbs : Int)
def execVand (w : OpA) (s : State) : Out := valu 8 sigLogic false w s fun o => (o.a &&& o.b : Nat)
def execVor (w : OpA) (s : State) : Out := valu 9 sigLogic false w s fun o => (o.a ||| o.b : Nat)
def execVxor (w : OpA) (s : State) : Out := valu 10 sigLogic false w s fun o => (o.a ^^^ o.b : Nat)
def execVnot (w : OpA) (s : State) : Out := valu 11 sigUn false w s fun o => (2 ^ o.w - 1 - o.a : Nat)
def execShl (w : OpA) (s : State) : Out := valu 12 sigShift true w s fun o => (o.a * 2 ^ (o.b % o.w) : Nat)
def execShr (w : OpA) (s : State) : Out := valu 13 sigShift true w s fun o => (o.a / 2 ^ (o.b % o.w) : Nat)
def execSar (w : OpA) (s : State) : Out :=
  valu 14 sigShift true w s fun o => signedN o.w o.a / (2 ^ (o.b % o.w) : Nat)
def execRot (w : OpA) (s : State) : Out :=
  valu 15 sigShift true w s fun o => (o.a * 2 ^ (o.b % o.w) + o.a / 2 ^ (o.w - o.b % o.w) : Nat)
def execPopc (w : OpA) (s : State) : Out := valu32 16 sigCount w s fun o => popcount o.a o.w
def execClz (w : OpA) (s : State) : Out :=
  valu32 17 sigCount w s fun o => if o.a == 0 then o.w else o.w - 1 - o.a.log2
/-- Bits in the opposite order. -/
def bitRev (w n : Nat) : Nat := (List.range w).foldl (fun r i => if n.testBit i then r + 2 ^ (w - 1 - i) else r) 0
def execBrev (w : OpA) (s : State) : Out := valu 18 sigUn false w s fun o => (bitRev o.w o.a : Nat)
/-- pos and the effective length of a field descriptor (R358). -/
def fieldOf (w b : Nat) : Nat × Nat :=
  let pos := b % 256
  (pos, if w ≤ pos then 0 else Nat.min (b / 256 % 256) (w - pos))
def execBfe (w : OpA) (s : State) : Out :=
  valu 19 sigShift true w s fun o =>
    let (pos, len) := fieldOf o.w o.b
    let x := o.a / 2 ^ pos % 2 ^ len
    if valuSigned o.m.type then signedN len x else x
def execBfi (w : OpA) (s : State) : Out :=
  valu 20 sigBfi true w s fun o =>
    let (pos, len) := fieldOf o.w o.b
    (o.c - o.c / 2 ^ pos % 2 ^ len * 2 ^ pos + o.a % 2 ^ len * 2 ^ pos : Nat)
def execSel (w : OpA) (s : State) : Out :=
  issueV 10 21 sigSel w s fun w c =>
    let p := c.rdP ((sigSel w).cOf w)
    let r := (c.lanes (c.writing w.gN w.gnB)).map fun l =>
      (l, let o := c.vops (sigSel w) w false l; if p.getLsbD l then o.a else o.b)
    if is64 (mod300 w) then c.t.wrV64s c.sp.lvl w.dN (r.map fun e => (e.1, BitVec.ofNat 64 e.2))
    else c.t.wrVs c.sp.lvl w.dN (r.map fun e => (e.1, BitVec.ofNat 32 e.2))
def execMov (w : OpA) (s : State) : Out := valu 22 sigUn false w s fun o => (o.a : Nat)
def execLane (w : OpA) (s : State) : Out := valu32 23 sigLane w s fun o => o.lane

def execIcmp (w : OpA) (s : State) : Out :=
  issueV 10 24 sigIcmp w s fun w c =>
    let sel := c.writing w.gN w.gnB
    let hit := (c.lanes sel).filter fun l =>
      let o := c.vops (sigIcmp w) w false l
      condInt o.m.cond (o.val o.a) o.vb
    c.t.wrP w.dN sel (laneMask hit)

/-! Immediate forms (R359): IMM7 or IMM30 sign-extended to 32 bits, in every active lane. -/

def execIaddi (w : OpI7) (s : State) : Out :=
  issueIV (fun d a => .i7 11 { w with d := BitVec.ofNat 8 d, a := BitVec.ofNat 8 a } true true) true
    w.d.toNat w.a.toNat 1 s fun x => x + w.imm.signExtend 32
def execIaddiImm30 (w : OpI30) (s : State) : Out :=
  issueIV (fun d a => .i30 11 { w with d := BitVec.ofNat 8 d, a := BitVec.ofNat 8 a } true true) true
    w.d.toNat w.a.toNat 2 s fun x => x + w.imm.signExtend 32
def execMovi (w : OpI7) (s : State) : Out :=
  issueIV (fun d a => .i7 12 { w with d := BitVec.ofNat 8 d, a := BitVec.ofNat 8 a } true false) false
    w.d.toNat w.a.toNat 1 s fun _ => w.imm.signExtend 32
def execMoviImm30 (w : OpI30) (s : State) : Out :=
  issueIV (fun d a => .i30 12 { w with d := BitVec.ofNat 8 d, a := BitVec.ofNat 8 a } true false) false
    w.d.toNat w.a.toNat 2 s fun _ => w.imm.signExtend 32

end Sys2Proof.Machine
end

