-- ==== Sys2Proof/Machine/Xlane.lean ====
section
/-! DEFINITION. Cross-lane instructions (R364 to R368, R244, R245) and predicates (R369). -/

namespace Sys2Proof.Machine

/-! SHFL (R365). -/

/-- The source lane of SHFL. -/
def shflSource (mode g l b : Nat) : Option Nat :=
  let base := l - l % g
  match mode with
  | 0 => some (base + b % g)
  | 1 => if base + b ≤ l then some (l - b) else none
  | 2 => if l + b < base + g then some (l + b) else none
  | _ => some (l ^^^ (b % g))

def execShfl (w : OpA) (s : State) : Out :=
  issueA 14 0 (sigShfl w) w s fun c =>
    let seg := w.md 5 2
    let g := if seg == 0 then c.t.width else Nat.min (2 ^ seg) c.t.width
    let br := (sigShfl w).bOf w
    let r := (c.lanes (c.writing w.gN w.gnB)).map fun l =>
      let b := if w.md 8 8 == 1 then (c.rdS br).toNat % 2 ^ 32 else (c.rdV br l).toNat
      let src := match shflSource (w.md 1 0) g l b with
        | some x => if c.active.getLsbD x then x else l
        | none => l
      (l, c.rdV w.aN src)
    c.done (c.t.wrVs c.sp.lvl w.dN r) (lenA w)

/-! SCAN (R366). -/

/-- Each value's prefix: with or without itself. -/
def prefixes (op ty : Nat) (excl : Bool) : List Nat → List Nat → List Word
  | _, [] => []
  | seen, x :: r =>
    let now := seen ++ [x]
    reduce op ty (if excl then seen else now) :: prefixes op ty excl now r

def execScan (w : OpA) (s : State) : Out :=
  issueA 14 1 (sigScan w) w s fun c =>
    let ls := c.lanes (c.writing w.gN w.gnB)
    let vs := prefixes (w.md 2 0) (w.md 4 3) (w.md 5 5 == 1) [] (ls.map fun l => (c.rdV w.aN l).toNat)
    c.done (c.t.wrVs c.sp.lvl w.dN (ls.zip vs)) (lenA w)

/-! TOPK (R245, R367). -/

/-- Does value x of lane i rank before value y of lane j? -/
def ranksBefore (ty : Nat) (x i y j : Nat) : Bool :=
  if ty == 0 then
    let a := decodeF fmtF32 x
    let b := decodeF fmtF32 y
    if a.isNan then b.isNan && decide (i < j)
    else if b.isNan then true
    else
      let k := cmpF a b
      decide (0 < k) || (k == 0 && decide (i < j))
  else
    let v := fun n : Nat => if ty == 1 then signedN 32 n else (n : Int)
    decide (v y < v x) || (x == y && decide (i < j))

/-- Insertion by rank. -/
def insertRank (ty : Nat) (e : Nat × Nat) : List (Nat × Nat) → List (Nat × Nat)
  | [] => [e]
  | f :: r => if ranksBefore ty e.2 e.1 f.2 f.1 then e :: f :: r else f :: insertRank ty e r

/-- Is a value zero for .nz? -/
def topkZero (ty x : Nat) : Bool := if ty == 0 then x % 2 ^ 31 == 0 else x == 0

/-- The fill value of TOPK. -/
def topkFill (ty : Nat) : Nat := match ty with | 0 => negInf | 1 => 0x80000000 | _ => 0

def execTopk (w : OpA) (s : State) : Out :=
  issueA 14 2 (sigTopk w) w s fun c =>
    let ty := w.md 1 0
    let cand := ((c.lanes (c.writing w.gN w.gnB)).map fun l => (l, (c.rdV w.aN l).toNat)).filter
      fun e => !(w.md 2 2 == 1 && topkZero ty e.2)
    let ranked := cand.foldl (fun r e => insertRank ty e r) []
    let k := Nat.min ((c.rdS ((sigTopk w).bOf w)).toNat % 2 ^ 32) (Nat.min 1024 c.t.width)
    let out := (List.range k).filter fun j => c.active.getLsbD j
    let t := c.t.wrVs c.sp.lvl w.dN (out.map fun j => (j, BitVec.ofNat 32 (((ranked[j]?).map (·.1)).getD 0xFFFFFFFF)))
    let t := t.wrVs c.sp.lvl (w.dN + 1)
      (out.map fun j => (j, BitVec.ofNat 32 (((ranked[j]?).map (·.2)).getD (topkFill ty))))
    c.done t (lenA w)

/-! RAND (R244, R368). -/

/-- The low 32 bits of the global lane index (R109). -/
def globalLane (s : State) (t : Team) (l : Nat) : Nat :=
  match s.wgOf t, s.teamGrid t with
  | some w, some g => (w.lin * lrF g.lrec 4 4 0 + t.idx) * 2 ^ t.twlog + l
  | _, _ => t.idx * 2 ^ t.twlog + l

/-- The value of RAND (R244). -/
def randVal (key : Quad) (g counter : Nat) : Word :=
  let x := key ^^^ BitVec.ofNat 64 (g % 2 ^ 32 * 2 ^ 32 ||| counter)
  let x := x ^^^ (x >>> 31)
  let x := x * 0xD1B54A32D192ED03#64
  let x := x ^^^ (x >>> 29)
  let x := x * 0xAEF17502108EF2D9#64
  let x := x ^^^ (x >>> 32)
  x.extractLsb' 0 32

def execRand (w : OpA) (s : State) : Out :=
  issueA 14 3 (sigRand w) w s fun c =>
    let key := c.rdS ((sigRand w).bOf w)
    let r := (c.lanes (c.writing w.gN w.gnB)).map fun l =>
      (l, randVal key (globalLane c.s c.t l) (c.rdV w.aN l).toNat)
    c.done (c.t.wrVs c.sp.lvl w.dN r) (lenA w)

/-! Predicates (R369). -/

/-- A predicate result in the writing lanes. -/
def pred (fn : Nat) (g : OpA → Sig) (w : OpA) (s : State) (f : OpA → Mask → Mask → Mask) : Out :=
  issueV 15 fn g w s fun w c =>
    let neg := fun (b : Nat) (m : Mask) => if b == 1 then ~~~m else m
    let a := neg (w.md 1 1) (c.rdP w.aN)
    let b := neg (w.md 0 0) (c.rdP ((g w).bOf w))
    c.t.wrP w.dN (c.writing w.gN w.gnB) (f w a b)

def execPand (w : OpA) (s : State) : Out := pred 0 sigP3 w s fun _ a b => a &&& b
def execPor (w : OpA) (s : State) : Out := pred 1 sigP3 w s fun _ a b => a ||| b
def execPxor (w : OpA) (s : State) : Out := pred 2 sigP3 w s fun _ a b => a ^^^ b
def execPnot (w : OpA) (s : State) : Out := pred 3 sigP2 w s fun _ a _ => ~~~a
def execPmov (w : OpA) (s : State) : Out := pred 4 sigP2 w s fun _ a _ => a

def execPset (w : OpA) (s : State) : Out :=
  issueV 15 5 sigPset w s fun w c =>
    let sel := c.writing w.gN w.gnB
    let n := w.md 5 0
    let hit := (c.lanes sel).filter fun l =>
      if w.md 9 9 == 1 then (c.rdS w.aN).getLsbD n else (c.rdV w.aN l).getLsbD n
    c.t.wrP w.dN sel (laneMask hit)

end Sys2Proof.Machine
end

