-- ==== Sys2Proof/Machine/Dispatch.lean ====
section
/-! DEFINITION. Dispatch: one arm per constructor of Instr. -/

namespace Sys2Proof.Machine

/-- The meaning of each row of the opcode table. -/
def exec (i : Instr) (s : State) : Host.Outcome State Fault Refusal :=
  match i with
  | .retrainComplete port lanes => Sys2Proof.Machine.execRetrainComplete port lanes s
  | .orangeryDecay die pid => Sys2Proof.Machine.execOrangeryDecay die pid s
  | .tempHigh die => Sys2Proof.Machine.execTempHigh die s
  | .islandRaise island => Sys2Proof.Machine.execIslandRaise island s
  | .thermalTrip die temp => Sys2Proof.Machine.execThermalTrip die temp s
  | .flitCrcFail link => Sys2Proof.Machine.execFlitCrcFail link s
  | .flitReplayResult link intact fix => Sys2Proof.Machine.execFlitReplayResult link intact fix s
  | .modulePauseEnd link => Sys2Proof.Machine.execModulePauseEnd link s
  | .portNoPartner port => Sys2Proof.Machine.execPortNoPartner port s
  | .portHoldTimeout port => Sys2Proof.Machine.execPortHoldTimeout port s
  | .fabricCompletion id => Sys2Proof.Machine.execFabricCompletion id s
  | .expanderFail port => Sys2Proof.Machine.execExpanderFail port s
  | .eccUncorrectable place => Sys2Proof.Machine.execEccUncorrectable place s
  | .eccRereadResult intact => Sys2Proof.Machine.execEccRereadResult intact s
  | .queueMonitorWake pid q => Sys2Proof.Machine.execQueueMonitorWake pid q s
  | .takeRecord die pid q => Sys2Proof.Machine.execTakeRecord die pid q s
  | .descriptorReread pid q => Sys2Proof.Machine.execDescriptorReread pid q s
  | .dependenceWake grid => Sys2Proof.Machine.execDependenceWake grid s
  | .takeChildRecord die pid => Sys2Proof.Machine.execTakeChildRecord die pid s
  | .launchRetry team split => Sys2Proof.Machine.execLaunchRetry team split s
  | .placeWorkgroup die grid => Sys2Proof.Machine.execPlaceWorkgroup die grid s
  | .restoreWorkgroup wg => Sys2Proof.Machine.execRestoreWorkgroup wg s
  | .gridBlocking die grid => Sys2Proof.Machine.execGridBlocking die grid s
  | .childRescuePreempt die grid => Sys2Proof.Machine.execChildRescuePreempt die grid s
  | .priorityPreempt die grid => Sys2Proof.Machine.execPriorityPreempt die grid s
  | .partitionTurn die => Sys2Proof.Machine.execPartitionTurn die s
  | .gridFailure grid => Sys2Proof.Machine.execGridFailure grid s
  | .gridRetire grid => Sys2Proof.Machine.execGridRetire grid s
  | .claimGrant core => Sys2Proof.Machine.execClaimGrant core s
  | .migrationServe die cluster => Sys2Proof.Machine.execMigrationServe die cluster s
  | .migrationComplete team => Sys2Proof.Machine.execMigrationComplete team s
  | .digestCheck grid kindL => Sys2Proof.Machine.execDigestCheck grid kindL s
  | .preemptDelivery team => Sys2Proof.Machine.execPreemptDelivery team s
  | .trapEntry team split => Sys2Proof.Machine.execTrapEntry team split s
  | .faultQueueWrite team => Sys2Proof.Machine.execFaultQueueWrite team s
  | .faultResume team => Sys2Proof.Machine.execFaultResume team s
  | .monitorWake team split => Sys2Proof.Machine.execMonitorWake team split s
  | .fifoServe wg block => Sys2Proof.Machine.execFifoServe wg block s
  | .homeWrite team flight run => Sys2Proof.Machine.execHomeWrite team flight run s
  | .loadComplete team => Sys2Proof.Machine.execLoadComplete team s
  | .storeAck team => Sys2Proof.Machine.execStoreAck team s
  | .atomicComplete team => Sys2Proof.Machine.execAtomicComplete team s
  | .gatherComplete team => Sys2Proof.Machine.execGatherComplete team s
  | .releaseFenceComplete team split => Sys2Proof.Machine.execReleaseFenceComplete team split s
  | .walkComplete core ptbase va => Sys2Proof.Machine.execWalkComplete core ptbase va s
  | .reservationTimeout team split => Sys2Proof.Machine.execReservationTimeout team split s
  | .fairnessRotate team => Sys2Proof.Machine.execFairnessRotate team s
  | .grottoSpillDone team split => Sys2Proof.Machine.execGrottoSpillDone team split s
  | .grottoReloadDone team split => Sys2Proof.Machine.execGrottoReloadDone team split s
  | .phaseSteal die channel => Sys2Proof.Machine.execPhaseSteal die channel s
  | .copyEngineStart core => Sys2Proof.Machine.execCopyEngineStart core s
  | .copyChunk team ctx => Sys2Proof.Machine.execCopyChunk team ctx s
  | .copyComplete team ctx => Sys2Proof.Machine.execCopyComplete team ctx s
  | .drainOperationComplete team ctx => Sys2Proof.Machine.execDrainOperationComplete team ctx s
  | .matrixStart team => Sys2Proof.Machine.execMatrixStart team s
  | .matrixComplete team => Sys2Proof.Machine.execMatrixComplete team s
  | .bra w => Sys2Proof.Machine.execBra w s
  | .brc w => Sys2Proof.Machine.execBrc w s
  | .bru w => Sys2Proof.Machine.execBru w s
  | .call w => Sys2Proof.Machine.execCall w s
  | .jmpi w => Sys2Proof.Machine.execJmpi w s
  | .calli w => Sys2Proof.Machine.execCalli w s
  | .ret w => Sys2Proof.Machine.execRet w s
  | .join w => Sys2Proof.Machine.execJoin w s
  | .yield w => Sys2Proof.Machine.execYield w s
  | .exit w => Sys2Proof.Machine.execExit w s
  | .nop w => Sys2Proof.Machine.execNop w s
  | .eqpt w => Sys2Proof.Machine.execEqpt w s
  | .migrate w => Sys2Proof.Machine.execMigrate w s
  | .launch w => Sys2Proof.Machine.execLaunch w s
  | .waitchild w => Sys2Proof.Machine.execWaitchild w s
  | .repeatN w => Sys2Proof.Machine.execRepeatN w s
  | .smov w => Sys2Proof.Machine.execSmov w s
  | .sadd w => Sys2Proof.Machine.execSadd w s
  | .ssub w => Sys2Proof.Machine.execSsub w s
  | .smul w => Sys2Proof.Machine.execSmul w s
  | .smad w => Sys2Proof.Machine.execSmad w s
  | .sand w => Sys2Proof.Machine.execSand w s
  | .sor w => Sys2Proof.Machine.execSor w s
  | .sxor w => Sys2Proof.Machine.execSxor w s
  | .sshl w => Sys2Proof.Machine.execSshl w s
  | .sshr w => Sys2Proof.Machine.execSshr w s
  | .ssar w => Sys2Proof.Machine.execSsar w s
  | .smin w => Sys2Proof.Machine.execSmin w s
  | .smax w => Sys2Proof.Machine.execSmax w s
  | .scmp w => Sys2Proof.Machine.execScmp w s
  | .ssel w => Sys2Proof.Machine.execSsel w s
  | .smovi w => Sys2Proof.Machine.execSmovi w s
  | .smoviImm30 w => Sys2Proof.Machine.execSmoviImm30 w s
  | .saddi w => Sys2Proof.Machine.execSaddi w s
  | .saddiImm30 w => Sys2Proof.Machine.execSaddiImm30 w s
  | .gets w => Sys2Proof.Machine.execGets w s
  | .sets w => Sys2Proof.Machine.execSets w s
  | .vote w => Sys2Proof.Machine.execVote w s
  | .red w => Sys2Proof.Machine.execRed w s
  | .sldp w => Sys2Proof.Machine.execSldp w s
  | .qop w => Sys2Proof.Machine.execQop w s
  | .iadd w => Sys2Proof.Machine.execIadd w s
  | .isub w => Sys2Proof.Machine.execIsub w s
  | .imul w => Sys2Proof.Machine.execImul w s
  | .imulh w => Sys2Proof.Machine.execImulh w s
  | .imad w => Sys2Proof.Machine.execImad w s
  | .imin w => Sys2Proof.Machine.execImin w s
  | .imax w => Sys2Proof.Machine.execImax w s
  | .iabs w => Sys2Proof.Machine.execIabs w s
  | .vand w => Sys2Proof.Machine.execVand w s
  | .vor w => Sys2Proof.Machine.execVor w s
  | .vxor w => Sys2Proof.Machine.execVxor w s
  | .vnot w => Sys2Proof.Machine.execVnot w s
  | .shl w => Sys2Proof.Machine.execShl w s
  | .shr w => Sys2Proof.Machine.execShr w s
  | .sar w => Sys2Proof.Machine.execSar w s
  | .rot w => Sys2Proof.Machine.execRot w s
  | .popc w => Sys2Proof.Machine.execPopc w s
  | .clz w => Sys2Proof.Machine.execClz w s
  | .brev w => Sys2Proof.Machine.execBrev w s
  | .bfe w => Sys2Proof.Machine.execBfe w s
  | .bfi w => Sys2Proof.Machine.execBfi w s
  | .sel w => Sys2Proof.Machine.execSel w s
  | .mov w => Sys2Proof.Machine.execMov w s
  | .lane w => Sys2Proof.Machine.execLane w s
  | .icmp w => Sys2Proof.Machine.execIcmp w s
  | .iaddi w => Sys2Proof.Machine.execIaddi w s
  | .iaddiImm30 w => Sys2Proof.Machine.execIaddiImm30 w s
  | .movi w => Sys2Proof.Machine.execMovi w s
  | .moviImm30 w => Sys2Proof.Machine.execMoviImm30 w s
  | .fadd w => Sys2Proof.Machine.execFadd w s
  | .fsub w => Sys2Proof.Machine.execFsub w s
  | .fmul w => Sys2Proof.Machine.execFmul w s
  | .ffma w => Sys2Proof.Machine.execFfma w s
  | .fmin w => Sys2Proof.Machine.execFmin w s
  | .fmax w => Sys2Proof.Machine.execFmax w s
  | .fabs w => Sys2Proof.Machine.execFabs w s
  | .fcmp w => Sys2Proof.Machine.execFcmp w s
  | .fclass w => Sys2Proof.Machine.execFclass w s
  | .frnd w => Sys2Proof.Machine.execFrnd w s
  | .cvt w => Sys2Proof.Machine.execCvt w s
  | .i2f w => Sys2Proof.Machine.execI2f w s
  | .f2i w => Sys2Proof.Machine.execF2i w s
  | .rcp w => Sys2Proof.Machine.execRcp w s
  | .rsq w => Sys2Proof.Machine.execRsq w s
  | .sqrt w => Sys2Proof.Machine.execSqrt w s
  | .exp2 w => Sys2Proof.Machine.execExp2 w s
  | .log2 w => Sys2Proof.Machine.execLog2 w s
  | .sinpi w => Sys2Proof.Machine.execSinpi w s
  | .cospi w => Sys2Proof.Machine.execCospi w s
  | .shfl w => Sys2Proof.Machine.execShfl w s
  | .scan w => Sys2Proof.Machine.execScan w s
  | .topk w => Sys2Proof.Machine.execTopk w s
  | .rand w => Sys2Proof.Machine.execRand w s
  | .pand w => Sys2Proof.Machine.execPand w s
  | .por w => Sys2Proof.Machine.execPor w s
  | .pxor w => Sys2Proof.Machine.execPxor w s
  | .pnot w => Sys2Proof.Machine.execPnot w s
  | .pmov w => Sys2Proof.Machine.execPmov w s
  | .pset w => Sys2Proof.Machine.execPset w s
  | .ld w => Sys2Proof.Machine.execLd w s
  | .lds w => Sys2Proof.Machine.execLds w s
  | .ldb w => Sys2Proof.Machine.execLdb w s
  | .ldres w => Sys2Proof.Machine.execLdres w s
  | .pref w => Sys2Proof.Machine.execPref w s
  | .probe w => Sys2Proof.Machine.execProbe w s
  | .ldt w => Sys2Proof.Machine.execLdt w s
  | .st w => Sys2Proof.Machine.execSt w s
  | .sts w => Sys2Proof.Machine.execSts w s
  | .stb w => Sys2Proof.Machine.execStb w s
  | .stcond w => Sys2Proof.Machine.execStcond w s
  | .stt w => Sys2Proof.Machine.execStt w s
  | .atomAdd w => Sys2Proof.Machine.execAtomAdd w s
  | .atomMin w => Sys2Proof.Machine.execAtomMin w s
  | .atomMax w => Sys2Proof.Machine.execAtomMax w s
  | .atomAnd w => Sys2Proof.Machine.execAtomAnd w s
  | .atomOr w => Sys2Proof.Machine.execAtomOr w s
  | .atomXor w => Sys2Proof.Machine.execAtomXor w s
  | .atomXchg w => Sys2Proof.Machine.execAtomXchg w s
  | .atomCas w => Sys2Proof.Machine.execAtomCas w s
  | .atomFadd w => Sys2Proof.Machine.execAtomFadd w s
  | .fence w => Sys2Proof.Machine.execFence w s
  | .waitp w => Sys2Proof.Machine.execWaitp w s
  | .barinit w => Sys2Proof.Machine.execBarinit w s
  | .bararr w => Sys2Proof.Machine.execBararr w s
  | .barwait w => Sys2Proof.Machine.execBarwait w s
  | .barsync w => Sys2Proof.Machine.execBarsync w s
  | .waitw w => Sys2Proof.Machine.execWaitw w s
  | .qpush w => Sys2Proof.Machine.execQpush w s
  | .qpop w => Sys2Proof.Machine.execQpop w s
  | .lset w => Sys2Proof.Machine.execLset w s
  | .lget w => Sys2Proof.Machine.execLget w s
  | .lchain w => Sys2Proof.Machine.execLchain w s
  | .lpart w => Sys2Proof.Machine.execLpart w s
  | .ltrans w => Sys2Proof.Machine.execLtrans w s
  | .lflat w => Sys2Proof.Machine.execLflat w s
  | .lslice w => Sys2Proof.Machine.execLslice w s
  | .lcheck w => Sys2Proof.Machine.execLcheck w s
  | .hset w => Sys2Proof.Machine.execHset w s
  | .hget w => Sys2Proof.Machine.execHget w s
  | .copy w => Sys2Proof.Machine.execCopy w s
  | .tlwait w => Sys2Proof.Machine.execTlwait w s
  | .tlread w => Sys2Proof.Machine.execTlread w s
  | .bankcfg w => Sys2Proof.Machine.execBankcfg w s
  | .mma w => Sys2Proof.Machine.execMma w s
  | .mma2 w => Sys2Proof.Machine.execMma2 w s
  | .accz w => Sys2Proof.Machine.execAccz w s
  | .accld w => Sys2Proof.Machine.execAccld w s
  | .drain w => Sys2Proof.Machine.execDrain w s
  | .fmtset w => Sys2Proof.Machine.execFmtset w s
  | .fmtget w => Sys2Proof.Machine.execFmtget w s
  | .mset w => Sys2Proof.Machine.execMset w s
  | .mcoll w => Sys2Proof.Machine.execMcoll w s
  | .madd w => Sys2Proof.Machine.execMadd w s
  | .msub w => Sys2Proof.Machine.execMsub w s
  | .mmul w => Sys2Proof.Machine.execMmul w s
  | .mfma w => Sys2Proof.Machine.execMfma w s
  | .mscale w => Sys2Proof.Machine.execMscale w s
  | .mrelu w => Sys2Proof.Machine.execMrelu w s
  | .msigm w => Sys2Proof.Machine.execMsigm w s
  | .mexp w => Sys2Proof.Machine.execMexp w s
  | .mmov w => Sys2Proof.Machine.execMmov w s
  | .mmma w => Sys2Proof.Machine.execMmma w s
  | .mdrain w => Sys2Proof.Machine.execMdrain w s
  | .expand w => Sys2Proof.Machine.execExpand w s
  | .exnext w => Sys2Proof.Machine.execExnext w s
  | .segred w => Sys2Proof.Machine.execSegred w s
  | .exdone w => Sys2Proof.Machine.execExdone w s
  | .exsave w => Sys2Proof.Machine.execExsave w s
  | .exrstr w => Sys2Proof.Machine.execExrstr w s
  | .hins w => Sys2Proof.Machine.execHins w s
  | .hprobe w => Sys2Proof.Machine.execHprobe w s
  | .fetch w => Sys2Proof.Machine.execFetch w s
  | .trap w => Sys2Proof.Machine.execTrap w s
  | .tret w => Sys2Proof.Machine.execTret w s
  | .tretTo w => Sys2Proof.Machine.execTretTo w s
  | .bkpt w => Sys2Proof.Machine.execBkpt w s
  | .movuser w => Sys2Proof.Machine.execMovuser w s
  | .splitsv w => Sys2Proof.Machine.execSplitsv w s
  | .splitld w => Sys2Proof.Machine.execSplitld w s
  | .tsaved w => Sys2Proof.Machine.execTsaved w s
  | .rclaim w => Sys2Proof.Machine.execRclaim w s
  | .rrel w => Sys2Proof.Machine.execRrel w s
  | .rquery w => Sys2Proof.Machine.execRquery w s
  | .treshape w => Sys2Proof.Machine.execTreshape w s
  | .leaseclk w => Sys2Proof.Machine.execLeaseclk w s
  | .drainChunk team ctx => Sys2Proof.Machine.execDrainChunk team ctx s
  | .bankcfgChangeComplete team split => Sys2Proof.Machine.execBankcfgChangeComplete team split s
  | .powerOn => Sys2Proof.Machine.execPowerOn s
  | .bringupStepTimeout => Sys2Proof.Machine.execBringupStepTimeout s
  | .hostLinkRetry => Sys2Proof.Machine.execHostLinkRetry s
  | .bringupStepDone => Sys2Proof.Machine.execBringupStepDone s
  | .state => Sys2Proof.Machine.execState s
  | .capset => Sys2Proof.Machine.execCapset s
  | .pcreate => Sys2Proof.Machine.execPcreate s
  | .premove => Sys2Proof.Machine.execPremove s
  | .preport => Sys2Proof.Machine.execPreport s
  | .linkst => Sys2Proof.Machine.execLinkst s
  | .retrain => Sys2Proof.Machine.execRetrain s
  | .routewr => Sys2Proof.Machine.execRoutewr s
  | .pkgnum => Sys2Proof.Machine.execPkgnum s
  | .measure => Sys2Proof.Machine.execMeasure s
  | .fwload => Sys2Proof.Machine.execFwload s
  | .errcnt => Sys2Proof.Machine.execErrcnt s
  | .event => Sys2Proof.Machine.execEvent s
  | .mailboxUnsupported => Sys2Proof.Machine.execMailboxUnsupported s
  | .qtbaseWrite => Sys2Proof.Machine.execQtbaseWrite s
  | .pctlGo => Sys2Proof.Machine.execPctlGo s
  | .pctlHold => Sys2Proof.Machine.execPctlHold s
  | .registerWrite => Sys2Proof.Machine.execRegisterWrite s
  | .hostMemWrite => Sys2Proof.Machine.execHostMemWrite s
  | .hostMemRead => Sys2Proof.Machine.execHostMemRead s
  | .hostSnoop => Sys2Proof.Machine.execHostSnoop s
  | .fabricRequest => Sys2Proof.Machine.execFabricRequest s
  | .translatedBodyInstall => Sys2Proof.Machine.execTranslatedBodyInstall s

end Sys2Proof.Machine
end

