-- ==== Sys2Proof/Machine/Pipes.lean ====
section
/-! DEFINITION. The pipes of a core (R102 to R105): which split issues next and from which cycle, what an issue leaves of cycles, of
writes that are not complete (R302 to R304), and of the rotation (R104). -/

namespace Sys2Proof.Machine

/-! What an instruction leaves (R302, R303). -/

/-- The fixed latency of an instruction in core cycles (R302); on another stepping an implementation's own (R136). -/
def latencyOf (st : BitVec 16) (f : Form) (lcore : Bool) : Option Nat :=
  let row : Option (Nat × Nat × Nat) :=
    match f.op, f.fn with
    | 6, _ | 7, _ | 8, _ | 15, _ => some (0, 2, 1)
    | 9, 2 | 9, 3 | 14, _ => some (3, 8, 4)
    | 9, _ => some (0, 2, 1)
    | 10, _ | 11, _ | 12, _ => some (1, 4, 1)
    | 13, n => if n < 13 then some (2, 4, 2) else some (4, 12, 6)
    | 23, n => if n == 7 || n == 8 || n == 9 then some (6, 20, 10) else if n ≤ 10 then some (5, 6, 3) else none
    | _, _ => none
  row.map fun r =>
    if st == 1 then (if lcore then r.2.2 else r.2.1) else Config.latency (2 * r.1 + (if lcore then 1 else 0))

/-- The guard field of a form: its predicate and negation. -/
def Form.guard : Form → Nat × Bool
  | .a _ _ w _ => (w.gN, w.gnB)
  | .m _ _ w _ => (w.gN, w.gn)
  | _ => (0, false)

/-- The lanes that repetition `j` of an instruction writes: its guard as it was read at issue (`c`), and once an earlier
repetition has written the guard's own predicate, as that left it in `t1` (R353). TOPK writes those below k' (R245). -/
def destLanes (c : Ctx) (t1 : Team) (fs : List Form) (j : Nat) (f : Form) : Mask :=
  let g := f.guard
  let after := (fs.take j).any fun x => x.writes.contains (2, g.1)
  let same := (fs.take 2).all fun x => x.writes.contains (2, g.1)
  let ec := ((fs.take j).foldl (fun c x => { c.early x with ov := [] }) c).early f
  match f with
  | .a 14 2 w s => c.sp.mask &&& laneMask (List.range (Nat.min ((ec.rdS (s.bOf w)).toNat % 2 ^ 32) (Nat.min 1024 c.t.width)))
  | _ => c.sp.mask &&& (if after && !same then (if g.2 then ~~~(t1.rdP g.1) else t1.rdP g.1) else ec.guard g.1 g.2)

/-- The registers that an instruction has written, with their lanes: none where no lane is a writing one (R330, R353), but VOTE
and RED write theirs always. -/
def written (c : Ctx) (t1 : Team) (f : Form) : List (Nat × Nat × Mask) :=
  let fs := repeats c.sp f
  (fs.zip (List.range fs.length)).flatMap fun e =>
    let m := destLanes c t1 fs e.2 e.1
    if m == 0 && !(f.op == 9 && (f.fn == 2 || f.fn == 3)) then []
    else e.1.writes.map fun d => (d.1, d.2, m)

/-- A register as it stood before the instruction: its lanes and values. -/
def oldVals (t : Team) (p : Split) (lanes : Mask) (kind reg : Nat) : List (Nat × Nat) :=
  if kind == 1 || kind == 3 then [(0, t.regVal p.lvl kind reg 0)]
  else (maskLanes lanes t.width).map fun l => (l, t.regVal p.lvl kind reg l)

/-- Accesses in flight some of whose registers a later write overtakes (R303): a write of `dests` by an instruction of level
`lvl`, or a flight or a drain of its own, numbered from `first`. -/
def overtake (t : Team) (first lvl : Nat) (dests : List (Nat × Nat × Mask)) : Team :=
  let later := (t.flights.filter fun f => first ≤ f.id).flatMap Flight.dests ++
    (t.mat.filter fun m => first ≤ m.seqNo && m.mod.testBit 3).flatMap fun m =>
      (drainItems m).map fun e => (if m.fn.1 == 22 then 0 else 4, e.2.1, e.1)
  let hit := fun (f : Flight) (e : Nat × Nat × Nat) => !lodgeApart e.1 e.2.1 f.lvl lvl &&
    ((dests.any fun d => d.1 == e.1 && d.2.1 == e.2.1 && (uniformReg (e.1, e.2.1) || d.2.2.getLsbD e.2.2)) || later.contains e)
  { t with flights := t.flights.map fun f => if first ≤ f.id then f else f.overtakenBy (hit f) }

/-- Is what an instruction writes complete when its fixed latency has passed, or at once where it has none: is it no access in flight and
no drain (R303)? -/
def Form.writesNow (f : Form) : Bool :=
  match f with
  | .m _ _ _ _ => false
  | f => !((f.op == 24 && 6 ≤ f.fn && f.fn ≤ 8) || (f.op == 19 && f.fn == 8) || (f.op == 22 && f.fn == 4) ||
      (f.op == 23 && f.fn == 12))

/-- After an instruction: the cycle from which its split issues next, the writes that are not complete then (R302), the
loads its writes overtake (R303). What issues interlocked counts as well: a later instruction by stall counts reads what it
wrote. One that has not gone on leaves its pipe alone. `s0` is the state at issue. -/
def afterIssue (s0 : State) (tid sid : Nat) (f : Form) (s : State) : State :=
  match s0.teams.at? tid, s.teams.at? tid with
  | some t0, some t1 =>
    match t0.split? sid with
    | none => s
    | some p0 =>
      let moved := match t1.split? sid with
        | some p1 => (p1.lvl == p0.lvl && p1.pc != p0.pc) ||
            (p1.lvl == 1 && p0.lvl == 0 && (t1.urec.cause == cNegVar || t1.urec.cause == cFp))
        | none => true
      let mine := fun p : Split => p.id == sid || !(t0.splits.any fun q => q.id == p.id)
      let from_ := fun (n : Nat) => t1.splits.map fun p => if mine p then { p with cycle := n } else p
      let first := firstPass s0 t0 p0 f
      let free := first + pipeCycles t0 p0 f
      if !moved then s.setTeam tid { t1 with splits := from_ free }
      else
        let dests := written { s := s0, tid := tid, t := t0, sp := p0 } t1 f
        let next := free + gapOf t0 p0 f
        let splits := from_ next
        let t1 := if t1.flights.isEmpty then t1 else overtake t1 s0.nextId p0.lvl dests
        let ids := (t1.splits.filter mine).map (·.id)
        let k := cyclesOf f p0
        let ready := match latencyOf s0.dev.stepping f (isL t0.core) with
          | some n => if first + k + n ≤ next + 1 then 0 else first + k + n - 1
          | none => 0
        let new := if ready == 0 then [] else (dests.map fun d => (d.1, d.2.1)).eraseDups.map fun d =>
          { split := sid, kind := d.1, reg := d.2, ready := ready,
            olds := oldVals t0 p0 ((dests.filter fun e => e.1 == d.1 && e.2.1 == d.2).foldl (fun m e => m ||| e.2.2) 0) d.1 d.2 }
        -- the lanes that this instruction writes show no older value once it is complete (R303)
        let old := (t1.hazards.filter fun h => h.split != sid || next < h.ready).flatMap fun h =>
          let uni := uniformReg (h.kind, h.reg)
          if f.writesNow && (uni || h.split == sid) then
            h.until (fun n => dests.any fun d => d.1 == h.kind && d.2.1 == h.reg && (uni || d.2.2.getLsbD n))
              (if h.split == sid then ready else 0)
          else [h]
        s.setTeam tid ({ t1 with splits := splits, hazards := old ++ new }.forkHazards sid ids)
  | _, _ => s

/-! Selection (R102). -/

/-- The pipes of a core (R102). -/
def pipesOf (c : CoreId) : Nat := if isL c then 1 else 2

/-- Does a split have a pipe: its clause is being issued whole (R102)? -/
def hasPipe (s : State) (t : Team) (p : Split) : Bool := p.pipe.isSome && holdsPipe t p && splitFree s t p

/-- A split of a core, with its team and the core cycle from which it can issue its next instruction; none while something holds it. -/
structure Waiter where
  tid : Nat
  t   : Team
  p   : Split
  due : Option Nat
  deriving DecidableEq, Repr

/-- The splits of a core. -/
def waiters (s : State) (c : CoreId) : List Waiter :=
  (s.teams.filter fun e => e.2.core == c).flatMap fun e => e.2.splits.map fun p =>
    { tid := e.1, t := e.2, p := p, due := readyAt s e.1 p.id }

/-- Has a split been ready for 8,192 cycles without issuing (R102, key 2), at a cycle, by its count up to the core's latest issue? -/
def Waiter.starved (x : Waiter) (now cycle : Nat) : Bool :=
  x.due.any fun d => decide (8192 ≤ x.p.waited + (cycle - Nat.max d now))

/-- The place of a split in the order of R102: a live reservation, 8,192 cycles without issuing, the workgroup's age, the team's
index, the place in the rotation. -/
def selKey (s : State) (now cycle : Nat) (x : Waiter) : List Nat :=
  [if x.p.holds s then 0 else 1, if x.starved now cycle then 0 else 1, ((s.wgOf x.t).map (·.seq)).getD 0, x.t.idx,
   x.t.splits.findIdx fun q => q.id == x.p.id]

/-- The first of some splits in the order of R102. -/
def firstWaiter (s : State) (now cycle : Nat) (l : List Waiter) : Option Waiter :=
  l.foldl (fun m x => match m with
    | some y => if selKey s now cycle x < selKey s now cycle y then some x else some y
    | none => some x) none

/-- An issue that a pipe makes next: the split, the pipe and the core cycle. -/
structure Turn where
  tid   : Nat
  sid   : Nat
  pipe  : Nat
  start : Nat
  deriving DecidableEq, Repr

/-- What a pipe of a core issues next (R102): the split that has it; else, at the first cycle at which it is free and a split without a
pipe is ready, the first of those by the order. -/
def pipeNext (s : State) (c : CoreId) (ws : List Waiter) (q : Nat) : Option Turn :=
  let k := s.coreOf c
  match ws.find? fun x => x.p.pipe == some q && hasPipe s x.t x.p with
  | some x => x.due.map fun d => { tid := x.tid, sid := x.p.id, pipe := q, start := Nat.max d k.now }
  | none =>
    let l := ws.filter fun x => !hasPipe s x.t x.p
    ((l.filterMap (·.due)).min?).bind fun d =>
      let start := Nat.max d (Nat.max k.now (atD k.pipes q 0))
      (firstWaiter s k.now start (l.filter fun x => x.due.any (· ≤ start))).map fun x =>
        { tid := x.tid, sid := x.p.id, pipe := q, start := start }

/-- The issue that a core makes next: the earlier of its pipes', in one cycle pipe 0's before pipe 1's (R102). -/
def coreTurn (s : State) (c : CoreId) (ws : List Waiter) : Option Turn :=
  (List.range (pipesOf c)).foldl (fun best q => match best, pipeNext s c ws q with
    | some b, some y => if y.start < b.start then some y else some b
    | none, y => y
    | b, none => b) none

/-- The issue of a split that its core makes next, if it is that one's turn, with the splits of the core. -/
def turnFor (s : State) (tid sid : Nat) : Option (CoreId × List Waiter × Turn) :=
  (s.teams.at? tid).bind fun t =>
    let ws := waiters s t.core
    ((coreTurn s t.core ws).filter fun u => u.tid == tid && u.sid == sid).map fun u => (t.core, ws, u)

/-- May a split issue now (R102)? -/
def mayIssue (s : State) (tid sid : Nat) : Bool := (turnFor s tid sid).isSome

/-! Cycles (R102, R104). -/

/-- The cycles of a team's fairness timer up to a core cycle (R104): those in which the front split is selected or ready while another
is ready. `due` is when a split can issue; cycles up to `from_` are counted. -/
def Team.frontCycles (s : State) (t : Team) (due : Nat → Option Nat) (from_ upTo : Nat) : Nat :=
  match t.splits with
  | f :: r =>
    match (if hasPipe s t f then some from_ else due f.id), (r.filterMap fun p => due p.id).min? with
    | some x, some y => upTo - Nat.max from_ (Nat.max x y)
    | _, _ => 0
  | [] => 0

/-- When a split of a team can issue. -/
def dueOf (ws : List Waiter) (tid sid : Nat) : Option Nat :=
  (ws.find? fun x => x.tid == tid && x.p.id == sid).bind (·.due)

/-- A core's cycles pass up to an issue (R102, R104): splits that are ready wait longer, fairness timers count; which splits of the
issuing team are ready is noted (R121). -/
def account (s : State) (c : CoreId) (ws : List Waiter) (u : Turn) : State :=
  let k := s.coreOf c
  let s1 := s.setCore c { k with now := u.start }
  { s1 with teams := s1.teams.map fun e =>
      if e.2.core != c then e
      else
        let due := dueOf ws e.1
        let wait := fun (p : Split) =>
          let on := (due p.id).any (· ≤ u.start)
          { p with waited := if on then p.waited + (u.start - Nat.max ((due p.id).getD 0) k.now) else 0,
                   ready := if e.1 == u.tid && 2 ≤ e.2.splits.length then on else p.ready }
        (e.1, { e.2 with splits := e.2.splits.map wait, counted := Nat.max e.2.counted u.start,
                         timer := e.2.timer + e.2.frontCycles s due (Nat.max e.2.counted k.now) u.start }) }

/-- A split takes its pipe at its turn, for the cycles of one instruction: the front split is selected in them (R104). -/
def takeTurn (s : State) (ws : List Waiter) (u : Turn) (f : Form) : State :=
  s.modTeam u.tid fun t =>
    let free := u.start + ((t.split? u.sid).map fun p => pipeCycles t p f).getD 0
    let t := if (t.splits.head?).any (·.id == u.sid) then
        match ((t.splits.drop 1).filterMap fun p => dueOf ws u.tid p.id).min? with
        | some y => { t with timer := t.timer + (free - Nat.max y (Nat.max u.start t.counted)), counted := Nat.max t.counted free }
        | none => t
      else t
    t.modSplit u.sid fun p => { p with cycle := u.start, waited := 0 }

/-- The pipe after an instruction: it is free from the cycle in which its passes end, and the split's own while it is inside a clause
issued whole (R102). `s1` is the state at issue. -/
def leaveTurn (c : CoreId) (u : Turn) (f : Form) (s1 s : State) : State :=
  let k := s.coreOf c
  let free := ((s1.teams.at? u.tid).bind fun t => (t.split? u.sid).map fun p => u.start + pipeCycles t p f).getD u.start
  let s2 := s.setCore c { k with pipes := setAt k.pipes u.pipe free }
  { s2 with teams := s2.teams.map fun e =>
      let own := fun (p : Split) =>
        if e.1 == u.tid && p.id == u.sid then { p with pipe := if holdsPipe e.2 p then some u.pipe else none }
        else if p.pipe == some u.pipe then { p with pipe := none } else p
      if e.2.core != c then e
      else (e.1, { e.2 with splits := e.2.splits.map own,
                            uframe := e.2.uframe.map fun f => { f with split := f.split.map fun p => { p with pipe := none } } }) }

/-- The rotation after an issue: the front split goes to the back at its pipe release once the fairness timer has reached 2,048, later
where it holds a reservation; a split that leaves the table, and a divergence, restart the timer (R104, R117). -/
def rotateAfter (s0 : State) (tid sid : Nat) (s : State) : State :=
  match s0.teams.at? tid, s.teams.at? tid with
  | some t0, some t =>
    match t0.splits.head?, t.splits with
    | some old, p :: _ =>
      let ids := fun (t : Team) => t.splits.map (·.id)
      let trap := t0.uframe.isSome != t.uframe.isSome || t0.kframe.isSome != t.kframe.isSome
      let left := fun (i : Nat) => !(ids t).contains i
      let t := if !trap && ((ids t0).any left || (ids t).any fun i => !(ids t0).contains i) then { t with timer := 0 } else t
      let t := if left old.id then { t with rotate := false, timer := 0 } else t
      let due := t.rotate || decide (2048 ≤ t.timer)
      s.setTeam tid (
        if !due || p.id != sid || holdsPipe t p then t
        else if p.holds s then { t with rotate := true } else t.rotateFront)
    | _, _ => s
  | _, _ => s

end Sys2Proof.Machine
end

