-- ==== Sys2Proof/Machine/Run.lean ====
section
/-! DEFINITION. One choice of the environment or the schedule, carried out; and the choice the machine makes itself
when the agenda is empty (log entry 4). -/

namespace Sys2Proof.Machine

/-- Leave the issuing split. -/
def settle (o : Out) : Out :=
  match o with
  | .next s => .next { s with cur := none }
  | .fault f => .fault f
  | .refused r => .refused r

/-- What an issue leaves (R102 to R104, R302, R303): `s0` before the fetch, `s1` at the instruction, `s` after its effect. -/
def issued (s0 : State) (c : CoreId) (u : Turn) (i : Instr) (s1 s : State) : State :=
  { rotateAfter s0 u.tid u.sid (leaveTurn c u (form i) s1 (afterIssue s1 u.tid u.sid (form i) s)) with cur := none }

/-- Issue the next instruction of a split at its turn (R102): fetch, then its meaning for that split. -/
def issueSplit (s : State) (tid sid : Nat) : Out :=
  match turnFor s tid sid with
  | none => .fault .notEnabled
  | some (c, ws, u) =>
    let s := account s c ws u
    match fetchInstr s tid sid with
    | .run i s' =>
      let s' := { takeTurn s' ws u (form i) with cur := some (tid, sid) }
      match exec i s' with
      | .next s'' => .next (issued s c u i s' s'')
      | o => o
    | .out s' => .next s'
    | .wait => .fault .notEnabled

/-- A host store to its own memory: the host's snoop removes the device's copy of the line, translations built from it
go (R44, R177, R190). -/
def hostStore (s : State) (pa : Nat) (bs : List Byte) : Out :=
  let a := hostPa s pa
  if bs.isEmpty || 2 ^ 47 < pa + bs.length then notNow
  else .next (writeLoc ((hostWrites s a bs.length).loseHost (hostLinesOf a bs.length)) none (.mem a) bs)

/-- A store of another package to its own memory. -/
def remoteStore (s : State) (pa : Nat) (bs : List Byte) : Out :=
  if bs.isEmpty || isLocal s pa || 2 ^ 57 < pa + bs.length then notNow else .next (writeLoc s none (.mem pa) bs)

/-- A home slice evicts a line: an unexpired lease moves to the slice's register (R187); a host line leaves the device (R45).
A pinned line is not replaced (R165), and a line under a distributor's monitor stays until the host writes it (R66, R68, log entry 39). -/
def evictLine (s : State) (pa : Nat) : State :=
  let line := lineOf pa
  if s.orangery.any (fun e => e.2.pinned.contains line) || s.watched.contains (hostLine pa) then s else
  let s := if isLocal s pa && spaceOf s (localOf pa) == .host then s.loseHost [hostLine pa] else s
  match s.leases.at? line with
  | none => s
  | some e =>
    let k := (homeSlice s (localOf line)).getD 192
    { s with leases := s.leases.erase line,
             sliceExp := s.sliceExp.insert k (Nat.max e ((s.sliceExp.at? k).getD 0)) }

/-- The host gives up a line of device memory that it held, asked or of itself: with its bytes, if it has changed them (R190). -/
def hostGives (s : State) (line : Nat) (dirty : Option (List Byte)) : Out :=
  if !s.hostHeld.contains line || (dirty.any fun bs => bs.length != 64) then notNow
  else
    let s := { s with hostHeld := s.hostHeld.filter (· != line) }
    .next (match dirty with | some bs => writeLoc s none (.mem line) bs | none => s)

/-- A run of a team's access to another package that is still to be performed. -/
def remoteRun (s : State) (tid flight run : Nat) : Option Run :=
  ((s.teams.at? tid).bind fun t => (t.flights.find? (·.id == flight)).bind fun f => f.runs[run]?).filter fun r =>
    !r.done && remoteLoc s r.loc

/-- Another package refuses an access of an operation's next chunk, or answers that it failed (R33, R48): the operation ends. -/
def refuseOp (s : State) (tid ctx : Nat) (failed : Bool) : Out :=
  match (s.teams.at? tid).bind fun t => ((t.ops ctx).head?).map fun o => (t, o) with
  | none => notNow
  | some (t, o) =>
    let away := fun (va : Nat) => match engineTran s t 0 va with | .ok l => remoteLoc s l | .error _ => false
    match (if o.started && engineFree t ctx o then o.nextVas s t else []).find? away with
    | some va => if ctx != 4 && corrHeld s t then notNow else .next (engineFault s tid ctx t o ⟨if failed then cData else cProt, false, va⟩)
    | none => notNow

/-- The same of the operands of the instruction at the head of the matrix queue (R33, R48): the first element there tells the address. -/
def refuseMat (s : State) (tid : Nat) (failed : Bool) : Out :=
  match (s.teams.at? tid).bind fun t => (t.mat.head?).map fun m => (t, m) with
  | none => notNow
  | some (t, m) =>
    let away := fun (e : Place × Nat) => match e.1 with
      | .va a => (match engineTran s t 0 a with | .ok l => if remoteLoc s l then some a else none | .error _ => none)
      | _ => none
    let place := (m.operands.zip (List.range m.operands.length)).findSome? fun x =>
      ((operandPlaces x.1).findSome? away).map fun a => (a, if m.operands.length == 4 then x.2 / 2 else x.2)
    match (if m.unread && !m.held && (m.lvl == 2 || !corrHeld s t) then place else none) with
    | some (a, opn) =>
      .next (settleAcquire (operandFault s tid t m (.access ⟨if failed then cData else cProt, false, a⟩ opn)) tid)
    | none => notNow

/-- The same of a split's next fetch (R33, R48). -/
def refuseFetch (s : State) (tid sid : Nat) (failed : Bool) : Out :=
  match (s.teams.at? tid).bind fun t => (t.split? sid).map fun p => (t, p) with
  | none => notNow
  | some (t, p) =>
    let (va, access) := match p.goal.bind (·.idx) with
      | some i => targetVa s t i
      | none => ((t.addrOf p.pc).toNat, 3)
    let away : Bool := match translate s t.core (s.pidOf t) t.wg (s.ptbaseOf t) va access with
      | .ok tr => remoteLoc s tr.loc
      | .error _ => false
    if !splitFree s t p || !away then notNow
    else .next (lostAccess s tid (fun _ => false) (if failed then cData else cProt) (if failed then [4, 0] else [va]) (some p))

/-- A line that a PREF asked for comes in (R377). -/
def prefDone (s : State) (tid n : Nat) : Out :=
  match (s.teams.at? tid).bind fun t => (t.prefs[n]?).map fun l => (t, l) with
  | some (t, l) => .next ((prefetch s t l).modTeam tid fun t => { t with prefs := t.prefs.eraseIdx n })
  | none => notNow

/-- Firmware's privileged handler executes an instruction. One that must wait, for an operand (R271), for the path counters (R442) or for
a read that is held (R37), stands in the handler, which executes nothing else until it has gone on (Park.again). -/
def firmwareRun (s : State) (tid : Nat) (i : Instr) : Out :=
  let mine := fun (p : Split) => p.lvl == 2 && !p.grotto && (match p.park with
    | none => true | some (.again j _) => j == i | some _ => false)
  match (s.teams.at? tid).bind fun t => (t.splits.find? mine).map fun p => (t, p) with
  | none => notNow
  | some (t, p) =>
    let again := fun (s : State) (read : Option (Nat × Nat)) =>
      s.modTeam tid fun t => t.modSplit p.id fun x => { x with park := some (.again i read) }
    let t0 := t.modSplit p.id fun x => { x with park := none }
    if s.dev.tripped then notNow
    else if !operandsFree s t0 { p with park := none } (form i) then .next (again s none)
    else match settle (exec i { s.setTeam tid t0 with cur := some (tid, p.id) }) with
      | .next s' => .next (match ((s'.teams.at? tid).bind fun t => t.split? p.id).bind (·.park) with
          | some (.held va access) => again s' (some (va, access))
          | _ => s')
      | o => o

/-- Carry out one choice. -/
def doChoice (c : Choice) (s : State) : Out :=
  match c with
  | .event i => exec i s
  | .issue tid sid => issueSplit s tid sid
  | .advance d ns => .next (hostCompletions { s with clocks := setAt s.clocks d (clockOf s d + ns) })
  | .hostStore pa bs => hostStore s pa bs
  | .mailbox r => .next { s with reqMbox := s.reqMbox ++ [r] }
  | .regWrite o v => .next { s with reqRegs := s.reqRegs ++ [(o, v)] }
  | .host r => .next { s with reqHost := s.reqHost ++ [r], hostArr := s.hostArr ++ [s.clocks] }
  | .fabric r => .next { s with reqFab := s.reqFab ++ [r], fabArr := s.fabArr ++ [s.clocks] }
  | .built b => .next { s with reqTrans := s.reqTrans ++ [b] }
  | .found f => .next { s with findings := s.findings ++ [f] }
  | .loadRead t f r =>
    match (s.teams.at? t).bind fun x => x.flights.find? (·.id == f) with
    | some g =>
      if g.kind.writes || !((s.teams.at? t).any fun x => g.matFree s x r) then notNow else (match performRun s t f r with | some s' => .next s' | none => notNow)
    | none => notNow
  | .evict pa => .next (evictLine s pa)
  | .hostInv line dirty => hostGives s line dirty
  | .remoteStore pa bs => remoteStore s pa bs
  | .refused t f r failed => (match remoteRun s t f r with
      | some x => .next (if failed then dataError s t (· == x) 4 0 else refuseAccess s t (· == x))
      | none => notNow)
  | .refusedOp t c failed => refuseOp s t c failed
  | .refusedWord g => retireGrid g true s
  | .prefDone t n => prefDone s t n
  | .corrected unit => .next (countCorrected s unit)
  | .refusedMat t failed => refuseMat s t failed
  | .refusedFetch t p failed => refuseFetch s t p failed
  | .willRelease tid =>
    if (s.teams.at? tid).any fun t => !t.ended then .next (s.modTeam tid fun t => { t with willRelease := true }) else notNow
  | .firmware tid i => firmwareRun s tid i

/-- Steps of a team that may be due. -/
def teamSteps (tid : Nat) (t : Team) : List Instr :=
  let split := fun (p : Split) => (([.trapEntry tid p.id, .monitorWake tid p.id, .releaseFenceComplete tid p.id,
    .bankcfgChangeComplete tid p.id, .grottoSpillDone tid p.id, .grottoReloadDone tid p.id] : List Instr))
  let walks := fun (p : Split) => match p.park with
    | some (.walk l) => l.map (Instr.walkComplete t.core 0)
    | _ => ([] : List Instr)
  let runs := fun (f : Flight) => (List.range f.runs.length).map (Instr.homeWrite tid f.id)
  let engine := fun (c : Nat) => (([.copyChunk tid c, .drainChunk tid c, .copyComplete tid c, .drainOperationComplete tid c] : List Instr))
  let own : List Instr := [.loadComplete tid, .storeAck tid, .atomicComplete tid, .gatherComplete tid, .matrixStart tid,
    .matrixComplete tid, .copyEngineStart t.core, .preemptDelivery tid, .migrationComplete tid]
  List.flatten [t.splits.flatMap fun p => (walks p).append (split p), t.flights.flatMap runs, own, (List.range 5).flatMap engine]

/-- Steps of a grid that may be due. -/
def gridSteps (s : State) (g : Grid) : List Instr :=
  let own : List Instr := [.dependenceWake g.gid, .gridFailure g.gid, .gridRetire g.gid, .digestCheck g.gid false,
    .digestCheck g.gid true]
  let saved := s.wgs.filter fun e => e.2.st == .saved && e.2.grid == g.gid
  List.flatten [(List.range 4).map (Instr.placeWorkgroup · g.gid), own, saved.map fun e => Instr.restoreWorkgroup e.1]

/-- The service of requests that have arrived. -/
def requestSteps (s : State) : List Instr :=
  let when := fun (none : Bool) (l : List Instr) => if none then [] else l
  List.flatten [
    when s.reqMbox.isEmpty [.state, .capset, .pcreate, .premove, .preport, .linkst, .retrain, .routewr, .pkgnum, .measure, .fwload,
      .errcnt, .event, .mailboxUnsupported],
    when s.reqRegs.isEmpty [.qtbaseWrite, .pctlGo, .pctlHold, .registerWrite],
    when s.reqHost.isEmpty [.hostMemWrite, .hostMemRead, .hostSnoop],
    when s.reqFab.isEmpty [.fabricRequest],
    when s.reqTrans.isEmpty [.translatedBodyInstall],
    s.fabReqs.map fun e => Instr.fabricCompletion e.1]

/-- Descriptors of the partitions' control blocks that are to be read: never read, or written since (R63, R66). -/
def rereads (s : State) : List Instr :=
  s.qtbase.flatMap fun e => (List.range 256).filterMap fun q =>
    match descOf s e.1 q with
    | some d => if (s.queueOf e.1 q).isSome && lineHeld s d then none else some (.descriptorReread e.1 q)
    | none => none

/-- Device steps that may be due in what the machine runs, in a fixed order. -/
def ownSteps (s : State) : List Instr :=
  let team := fun (e : Nat × Team) => (teamSteps e.1 e.2).map fun i =>
    match i with | .walkComplete c _ va => .walkComplete c (s.ptbaseOf e.2) va | i => i
  let queue := fun (e : Nat × Queue) => Instr.queueMonitorWake (e.1 / 256) (e.1 % 256) ::
    (List.range 4).map fun d => Instr.takeRecord d (e.1 / 256) (e.1 % 256)
  List.flatten [
    if s.dev.bringup < 9 then [Instr.bringupStepDone] else [],
    requestSteps s,
    if s.dev.rereads.isEmpty then [] else [Instr.eccRereadResult true],
    s.teams.flatMap team,
    s.faultReq.map fun f => Instr.faultQueueWrite f.team,
    s.faultQ.map fun f => Instr.faultResume f.team,
    s.cores.map fun e => Instr.claimGrant (keyCore e.1),
    s.migs.map fun e => Instr.migrationServe (e.1 / 16) (e.1 % 16),
    s.wgs.flatMap fun e => (List.range e.2.blocks.length).map (Instr.fifoServe e.1),
    s.queues.flatMap queue,
    s.dqueues.map fun e => Instr.takeChildRecord (e.1 % 4) (e.1 / 4),
    (s.teams.filter fun e => 2048 ≤ e.2.timer && !e.2.rotate).map fun e => Instr.fairnessRotate e.1,
    s.grids.flatMap (gridSteps s)]

/-- Device steps that may be due: descriptors are read again before records are taken (R68). -/
def dueSteps (s : State) : List Instr := rereads s ++ ownSteps s

/-- The cores on which teams stand. -/
def busyCores (s : State) : List CoreId := (distinct (s.teams.vals.map fun t => coreKey t.core)).map keyCore

/-- The splits that cores may issue next, one of each core. -/
def coreChoices (s : State) : List (Nat × Nat) :=
  (busyCores s).filterMap fun c => (coreTurn s c (waiters s c)).map fun u => (u.tid, u.sid)

/-- Steps that are due when no split can issue: retries, and what a grid that finds no room asks for (R87, R100, R341). -/
def lateSteps (s : State) : List Instr :=
  let retry := fun (e : Nat × Team) => e.2.splits.map fun p => Instr.launchRetry e.1 p.id
  let grid := fun (g : Grid) => (List.range 4).flatMap fun d =>
    [Instr.gridBlocking d g.gid, Instr.priorityPreempt d g.gid, Instr.childRescuePreempt d g.gid]
  (s.teams.flatMap retry).append (s.grids.flatMap grid)

/-- The first of these steps that can occur, carried out. -/
def firstStep (s : State) (l : List Instr) : Option State :=
  l.findSome? fun i => match exec i s with | .next s' => some s' | _ => none

/-- TSAVED and TRET as firmware's routines write them (R279, R284, R439, R442). -/
def plainWord : OpA := { stall := 0, d := 0, a := 0, ext := none }

/-- Firmware's routines in the privileged handler: an instruction that waits goes on; the restore routine ends with TRET (R284); the save
routine ends a pre-empted team's residence once its accesses are done (R279 to R281). -/
def firmwareStep (s : State) : Option State :=
  s.teams.findSome? fun e => (e.2.splits.find? (·.lvl == 2)).bind fun h =>
    let restoring := (s.savedTeams.at? e.1).isSome
    let saving := ((s.wgOf e.2).map fun x => x.st == .saving).getD false
    let due := match h.park with
      | some (.again i _) => some i
      | some _ => none
      | none =>
        if e.2.krec.cause != cPreempt then none
        else if restoring then some (.tret plainWord)
        else if saving && e.2.flights.isEmpty then some (.tsaved plainWord) else none
    match due.map (firmwareRun s e.1) with
    | some (.next s') =>
      let waits := ((s'.teams.at? e.1).bind fun t => t.split? h.id).any fun p => match p.park with
        | some (.again _ _) => true | _ => false
      if waits then none else some s'
    | _ => none

/-- The host answers for a line of device memory that it may hold (R190), and a line that a PREF asked for comes in (R377),
unasked by the agenda, so that no store waits for ever (R189). -/
def quietStep (s : State) : Option State :=
  match s.hostHeld, s.teams.find? fun e => !e.2.prefs.isEmpty with
  | _, some e => (match prefDone s e.1 0 with | .next s' => some s' | _ => none)
  | line :: _, none => (match hostGives s line none with | .next s' => some s' | _ => none)
  | [], none => none

/-- Time passes on every die. -/
def timePasses (s : State) (ns : Nat) : State := hostCompletions { s with clocks := s.clocks.map (· + ns) }

/-- 100 ns pass on every die, and with them a turn of each distributor (R106). -/
def turnPasses (s : State) : State := timePasses { s with turns := s.turns.map fun t => (t + 1) % 16 } 100

/-- With an empty agenda: the first device step that is due and can occur, or the host's answer, else the split of one of the cores, which take turns
as time passes, else a later step, else a turn of the distributors passes. Each issue takes 1 ns. -/
def ownChoice (s : State) : Out :=
  match (firstStep s (dueSteps s)).or (quietStep s) with
  | some s' => .next s'
  | none =>
    let later := timePasses s 1
    let l := coreChoices later
    match l[clockOf s 0 % Nat.max 1 l.length]? with
    | some x => issueSplit later x.1 x.2
    | none => .next (((firmwareStep s).or (firstStep s (lateSteps s))).getD (turnPasses s))

/-- The test of R130 on every core with claims whose free count a step has changed (R95). -/
def poolHook (s : State) (o : Out) : Out :=
  match o with
  | .next s' => .next ((s'.cores.filter fun e => !e.2.claims.isEmpty).foldl (fun x e =>
      if freeSlabs s' (keyCore e.1) != freeSlabs s (keyCore e.1) then poolTest x (keyCore e.1) else x) s')
  | o => o

/-- Words of kernel objects that a step has changed: fetches may still give the old ones (R80). -/
def Grid.noteCode (s s' : State) (g : Grid) : Grid :=
  { g with code := g.code.mapVals fun c =>
      if s.rdMemN c.pa 4 == s'.rdMemN c.pa 4 then c else { c with olds := BitVec.ofNat 32 (s.rdMemN c.pa 4) :: c.olds } }

/-- What a step's writes leave of the words that fetches may give (R80). -/
def codeHook (s : State) (o : Out) : Out :=
  match o with
  | .next s' => .next { s' with grids := s'.grids.map (Grid.noteCode s s') }
  | o => o

/-- Which splits of a team are ready as a step begins (R101, R121): noted where another split of the team may make an entry. -/
def noteReady (s : State) : State :=
  { s with teams := s.teams.map fun e =>
      (e.1, if e.2.splits.length < 2 then e.2
            else { e.2 with splits := e.2.splits.map fun p => { p with ready := splitReady s e.1 p.id } }) }

/-- One step. -/
def runStep (s : State) : Out :=
  codeHook s <| poolHook s (match s.agenda with
    | c :: rest => doChoice c { noteReady s with agenda := rest }
    | [] => ownChoice (noteReady s))

end Sys2Proof.Machine
end

