-- ==== Sys2Proof/Machine/Step.lean ====
section
/-! DEFINITION. One step of the machine, and the placement of one instruction where the next step fetches. -/

namespace Sys2Proof.Machine

/-- One step: the head of the agenda is carried out; with an empty agenda the machine chooses itself. -/
def step (s : State) : Host.Outcome State Fault Refusal := runStep s

/-- The state with an instruction stored where the next step fetches it: a team is placed in the machine with a native
L-body whose first clause holds it (log entry 10 says how a program comes to run from reset). -/
def State.withFetchWord (s : State) (nbits w : Nat) : State := probe s nbits w

end Sys2Proof.Machine
end

