-- ==== Sys2Proof/Safety.lean ====
section
/-! DEFINITION. What a safe run is: no step of it ends in a fault or a refusal. -/

namespace Sys2Proof

open Machine

/-- k steps from s all answer a next state. -/
def safeRun : Nat → State → Prop
  | 0, _ => True
  | k + 1, s => match step s with | .next s' => safeRun k s' | _ => False

end Sys2Proof
end

