-- ==== Sys2Proof/Certificates/Slice0/Obligations.lean ====
section
/-! DEFINITION. The statements for the provers, from the spec's rules. Section by section: the words the statements use
(namespace Sys2Proof.Stated), then the statements. -/

namespace Sys2Proof.Stated

open Machine

/-! The issuing split. -/

/-- Split `p` of team `t` issues its next instruction. -/
def Issues (s : State) (tid : Nat) (t : Team) (p : Split) : Prop :=
  s.cur = some (tid, p.id) ∧ s.teams.at? tid = some t ∧ t.split? p.id = some p

/-- The issuing split, with the window of its reservation counted (R103). -/
def start (s : State) (tid : Nat) (t : Team) (p : Split) : Ctx := Ctx.window { s := s, tid := tid, t := t, sp := p }

/-- The issuing split with the values that its sources return (R303). -/
def src (s : State) (tid : Nat) (t : Team) (p : Split) (i : Instr) : Ctx := (start s tid t p).early (form i)

/-- Is a vector register within the allocation, or a Lodge register in trap context (R126, R268)? -/
def allotted (c : Ctx) (r : Nat) : Bool := (Fld.outside .v c.t.regs 0 0 (c.sp.lvl != 0) r).isNone

/-- Stages 7 and 8 of R315 find nothing: the registers are allotted (R126), no source is read too early (R304). -/
def passes (c : Ctx) (f : Form) : Bool :=
  (match f with
   | .a _ _ w g => (g.range c.t.regs c.t.moms c.t.accs (c.sp.lvl != 0) w).isNone
   | .m _ _ w g => (g.rangeM c.t.regs c.t.moms c.t.accs (c.sp.lvl != 0) w).isNone
   | .i7 _ w lane useA => !lane || (allotted c w.d.toNat && (!useA || allotted c w.a.toNat))
   | .i30 _ w lane useA => !lane || (allotted c w.d.toNat && (!useA || allotted c w.a.toNat))
   | _ => true) && (c.tooEarly f).isNone

/-- A register outside the allocation that the layout of a FETCH, a DRAIN.v, an MDRAIN.m, an LDT or an STT reaches (R209, R216,
R315, R408, R433). -/
def layoutRange (c : Ctx) : Instr → Option Nat
  | .fetch w => c.fetchRange w
  | .drain w => c.drainRange w ((sigDrain w).bOf w) false
  | .mdrain w => c.drainRange w ((sigMdrain w).bOf w) true
  | .ldt w => c.tileRange w
  | .stt w => c.tileRange w
  | _ => none

/-- A well-formed instruction issues and stages 7 and 8 find nothing. -/
def Ready (s : State) (tid : Nat) (t : Team) (p : Split) (i : Instr) : Prop :=
  Issues s tid t p ∧ i.wf = true ∧ passes (start s tid t p) (form i) = true ∧ layoutRange (start s tid t p) i = none

/-- The instruction ends with the team as `t1`, its split past the instruction's words. -/
def Completes (i : Instr) (s : State) (c : Ctx) (t1 : Team) : Prop :=
  exec i s = .next (c.put (c.doneTeam t1 (form i).len))

/-- The instruction raises a trap naming the split's lanes: the machine of R262 to R275 takes it. -/
def Traps (i : Instr) (s : State) (c : Ctx) (cause : Nat) (info : List Nat) : Prop :=
  exec i s = .next (raise c.s c.tid c.t c.sp cause info c.sp.mask (form i).len)

/-- The instruction raises a trap naming some lanes, the team being `t1`. -/
def TrapsWith (i : Instr) (s : State) (c : Ctx) (t1 : Team) (cause : Nat) (info : List Nat) (lanes : Mask) : Prop :=
  exec i s = .next (raise (c.put t1) c.tid t1 c.sp cause info lanes (form i).len)

/-- Field B of an instruction that uses it: of the extension word, or D in a short form (R296). -/
def fieldB (w : OpA) : Nat := match w.ext with | some e => e.b.toNat | none => w.d.toNat
/-- Field C of an instruction that uses it. -/
def fieldC (w : OpA) : Nat := match w.ext with | some e => e.c.toNat | none => w.d.toNat

/-! What changes in a team, and that nothing else of it does. -/

/-- Uniform register d takes x; no other register and nothing else of the team changes. -/
def SetsS (t t1 : Team) (lvl d : Nat) (x : Quad) : Prop :=
  (∀ r, t1.rdS lvl r = if r = d then x else t.rdS lvl r) ∧ (∀ r l, t1.rdV lvl r l = t.rdV lvl r l) ∧
  t1 = { t with s := t1.s, uframe := t1.uframe, kframe := t1.kframe }

/-- Is lane l one of a mask's lanes in the team? -/
def inLanes (c : Ctx) (m : Mask) (l : Nat) : Bool := m.getLsbD l && decide (l < c.t.width)

/-- Vector register d takes `val` in the lanes that `on` names; no other lane, register or thing of the team changes. -/
def SetsV (t t1 : Team) (lvl d : Nat) (on : Nat → Bool) (val : Nat → Word) : Prop :=
  (∀ r l, l < 1024 → t1.rdV lvl r l = if r = d ∧ on l = true then val l else t.rdV lvl r l) ∧
  (∀ r, t1.rdS lvl r = t.rdS lvl r) ∧ t1 = { t with v := t1.v, uframe := t1.uframe, kframe := t1.kframe }

/-- The vector pair d, d + 1 takes `val` in the lanes that `on` names; nothing else changes. -/
def SetsV64 (t t1 : Team) (lvl d : Nat) (on : Nat → Bool) (val : Nat → Quad) : Prop :=
  (∀ l, l < 1024 → t1.rdV64 lvl d l = if on l = true then val l else t.rdV64 lvl d l) ∧
  (∀ r l, l < 1024 → r ≠ d → r ≠ d + 1 → t1.rdV lvl r l = t.rdV lvl r l) ∧
  (∀ r, t1.rdS lvl r = t.rdS lvl r) ∧ t1 = { t with v := t1.v, uframe := t1.uframe, kframe := t1.kframe }

/-- Predicate n takes `bits` in the lanes of `sel`; nothing else changes. -/
def SetsP (t t1 : Team) (n : Nat) (sel bits : Mask) : Prop :=
  (∀ k, t1.rdP k = if k = n then (t.rdP n &&& ~~~sel) ||| (bits &&& sel) else t.rdP k) ∧ t1 = { t with p := t1.p }

/-- Uniform predicate n takes b; nothing else changes. -/
def SetsQ (t t1 : Team) (n : Nat) (b : Bool) : Prop :=
  (∀ k, k < 4 → t1.rdQ k = if k = n then b else t.rdQ k) ∧ t1 = { t with q := t1.q }

/-- Moment register d takes `val` in the lanes that `on` names; nothing else changes. -/
def SetsM (t t1 : Team) (d : Nat) (on : Nat → Bool) (val : Nat → Quad) : Prop :=
  (∀ r l, l < 1024 → t1.rdM r l = if r = d ∧ on l = true then val l else t.rdM r l) ∧ t1 = { t with m := t1.m }

end Sys2Proof.Stated

open Sys2Proof Sys2Proof.Machine Sys2Proof.Stated

/-! Encoding, decoding, the step. -/

namespace Sys2Proof.Stated

/-- Every well-formed instruction word decodes from its encoding to itself, with every operand (R293 to R298). -/
def DecodeReturnsTheEncoded : Prop :=
  ∀ i : Instr, i.wf = true → form i ≠ .dev → decodeList (encode i) = some i

/-- Words that decode are the encoding of what they decode to: no bit of a word is dropped (R293 to R298). -/
def EncodeReturnsTheDecoded : Prop :=
  ∀ (w0 e : Word) (i : Instr), decodeWords w0 (some e) = .ok i → encode i = if xOf w0 then [w0, e] else [w0]

end Sys2Proof.Stated

/-- Decoding and encoding agree, every word and every instruction, with every operand (R293 to R298). -/
def Obligations.WordsRoundTrip : Prop :=
  DecodeReturnsTheEncoded ∧ EncodeReturnsTheDecoded

namespace Sys2Proof.Stated

/-- How many functions R312 assigns to an opcode of formats A and M. -/
def functionsOf : List (Nat × Nat) :=
  [(4, 11), (6, 15), (9, 6), (10, 25), (13, 20), (14, 4), (15, 6), (16, 7), (17, 5), (18, 9), (19, 9), (20, 10), (21, 4),
   (22, 7), (23, 13), (24, 9), (25, 12)]

/-- Opcodes 26 to 63, clause headers and functions beyond an opcode's list are no instruction (R289, R312, R316). -/
def ReservedWordsAreNoInstruction : Prop :=
  ∀ (w0 : Word) (next : Option Word),
    (26 ≤ opOf w0 ∨ isHeader w0 = true ∨ ∃ n, (opOf w0, n) ∈ functionsOf ∧ n ≤ fnOf w0) →
    ∃ e, decodeWords w0 next = .error e

/-- Words written out from the field tables of R293 to R298 and R312. -/
def WrittenWordsDecode : Prop :=
  -- BRA 3: opcode 0, offset 3
  decodeList [0x00000003#32] = some (.bra { stall := 0, psel := 0, pn := false, h := false, off := 3 }) ∧
  -- SADD s5, s7 in a short form: opcode 6, D 5, A 7, FN 1
  decodeList [0b00011000000001010000011110000001#32] =
    some (.sadd { stall := 0, d := 5, a := 7, ext := none }) ∧
  -- IADD v1, v2, v3 guarded by !p4: opcode 10, X, D 1, A 2, FN 0; mark 01, B 3, C 0, G 4, GN, MOD 0
  decodeList [0b00101010000000001000000100000000#32, 0b01000000110000000010010000000000#32] =
    some (.iadd { stall := 0, d := 1, a := 2, ext := some { b := 3, c := 0, g := 4, gn := true, mod := 0 } }) ∧
  -- LD v8, [s6 + v9 + 4]: opcode 16, X, D 8, A 9, FN 0; mark 01, SB 6, IMM10 1, G 0, MOD: SIZE 4
  decodeList [0b01000010000001000000010010000000#32, 0b01000110000000000100000000010000#32] =
    some (.ld { stall := 0, d := 8, a := 9, sb := 6, imm := 1, g := 0, gn := false, mod := 16 }) ∧
  -- REPEAT 4: opcode 5, CNTM1 3, DD 1
  decodeList [0b00010100000001100100000000000000#32] =
    some (.repeatN { stall := 0, cntm1 := 3, dd := 1, da := 0, db := 0, dc := 0, rest := 0 })

end Sys2Proof.Stated

/-- Reserved words are no instruction; words written out from the field tables decode to theirs (R289, R293 to R298, R312, R316). -/
def Obligations.EncodingsAreAsWritten : Prop :=
  ReservedWordsAreNoInstruction ∧ WrittenWordsDecode

/-- The split at the head of the agenda issues the instruction its words decode to, in a portable body or in a slot of a
native clause, where its core issues it next (R102): around its meaning the step only notes which splits were ready (R121),
keeps what R102 to R104 and R302 to R304 count and the words that fetches may still give (R80), and makes the test of R130.
Where the spec leaves a point open, it states the model's choice: log entries 4, 5, 23, 24 and 27. -/
def Obligations.StepRunsTheDecodedInstruction : Prop :=
  ∀ (s s2 s3 : State) (rest : List Choice) (core : CoreId) (ws : List Waiter) (u : Turn) (tid : Nat) (t : Team) (q : Split)
    (w0 w1 : Word) (i : Instr),
    let s0 := account { noteReady s with agenda := rest } core ws u
    let p := { q with park := none }
    let t1 := t.modSplit p.id fun _ => p
    let s1 := s0.setTeam tid t1
    let si := { takeTurn s3 ws u (form i) with cur := some (tid, p.id) }
    s.agenda = .issue tid p.id :: rest → turnFor { noteReady s with agenda := rest } tid p.id = some (core, ws, u) →
    s0.teams.at? tid = some t → t.split? q.id = some q → splitFree s0 t q = true → p.goal = none → p.rep = none →
    p.pc + 1 < t.body.len →
    breakAt s1 t1 p = none → fetchWord s1 t1 p.pc = .ok (w0, s2) →
    (if (xOf w0 || opOf w0 == 5) = true then fetchWord s2 t1 (p.pc + 1) = .ok (w1, s3) else s3 = s2) →
    decodeWords w0 (some w1) = .ok i → i.wf = true → operandsFree s3 t1 p (form i) = true →
    ((t.body.kind = .portable ∧ startBit s3 t1 (p.pc + 1) = .ok (!xOf w0) ∧ (form i).stall = 0 ∧
        ((form i).op = 5 → repeatableWord w1 = true)) ∨
     (∃ c, p.clause = some c ∧ t.body.kind.native = true ∧
        ((form i).op = 5 → repeatableWord w1 = true ∧ c.slot + 1 < c.count ∧ classOkWord c.cls w1 = true) ∧
        (if (form i).control then c.count ≤ c.slot + 1 else (form i).classOk c.cls = true) ∧
        (t.body.kind = .nativeD → isL t.core = false → stage5At true i none 0 = true))) →
    step s = codeHook s (poolHook s (match exec i si with
      | .next s4 => .next (issued s0 core u i si s4)
      | .fault f => .fault f
      | .refused r => .refused r))

/-! What holds of every instruction. -/

namespace Sys2Proof.Stated

/-- Every instruction word that a split issues goes on: it has its effect, parks, or takes a trap (no fault and no refusal,
whatever its operands). -/
def EveryWordGoesOn : Prop :=
  ∀ (s : State) (tid : Nat) (t : Team) (p : Split) (i : Instr), Issues s tid t p → form i ≠ .dev →
    ∃ s', exec i s = .next s'

/-- No step is refused. -/
def NoStepIsRefused : Prop := ∀ (s : State) (r : Refusal), step s ≠ .refused r

end Sys2Proof.Stated

/-- Every issued word goes on, and no step is refused.
Where the spec leaves a point open, it states the model's choice: log entry 4. -/
def Obligations.InstructionsGoOn : Prop :=
  EveryWordGoesOn ∧ NoStepIsRefused

/-- Memory keeps its canonical form over every step.
Where the spec leaves a point open, it states the model's choice: log entry 1. -/
def Obligations.EveryStepKeepsMemoryCanonical : Prop :=
  ∀ s s' : State, s.mem.wf = true → step s = .next s' → s'.mem.wf = true

namespace Sys2Proof.Stated

/-- Memory is canonical at reset. -/
def ResetMemoryIsCanonical : Prop := State.reset.mem.wf = true

/-- After power-on: bring-up step 1 (R49), replica mode (R39, R49), the cap 2,800 W (R13), package number 0 (R34), no
partition, no grid, no team, the component registers 0 (R63). -/
def ResetValues : Prop :=
  State.reset.dev.bringup = 1 ∧ State.reset.dev.recovery = false ∧ State.reset.dev.replica = true ∧
  State.reset.dev.cap * 10 = 2800 ∧ State.reset.dev.pkgnum = 0 ∧ State.reset.parts = [] ∧ State.reset.grids = [] ∧
  State.reset.teams = [] ∧ (∀ p, State.reset.qtbase.get p = 0 ∧ State.reset.pctl.get p = 0 ∧ State.reset.dbgctl.get p = 0)

end Sys2Proof.Stated

/-- What power-on leaves (R13, R34, R39, R49, R63); memory is then canonical.
Where the spec leaves a point open, it states the model's choice: log entry 1. -/
def Obligations.ResetLeavesTheMachine : Prop :=
  ResetMemoryIsCanonical ∧ ResetValues

namespace Sys2Proof.Stated

/-- An instruction whose registers lie outside the allocation raises REGISTER_RANGE naming the first of them (R126, R265):
every format-A instruction without a privilege of its own, not repeated. -/
def RegistersOutsideTheAllocationTrap : Prop :=
  ∀ (s : State) (tid : Nat) (t : Team) (p : Split) (i : Instr) (op fn : Nat) (w : OpA) (g : Sig) (r : Nat),
    let c := start s tid t p
    Issues s tid t p → p.rep = none → form i = .a op fn w g → op ≠ 9 → op ≠ 25 →
    g.range c.t.regs c.t.moms c.t.accs (c.sp.lvl != 0) w = some r →
    exec i s = .next (raise c.s tid c.t c.sp 0x05 [r] p.mask (form i).len)

/-- With MODE.SBCHK on, an instruction issued by stall counts that reads a register too early raises STALL (R304). -/
def ReadingTooEarlyTraps : Prop :=
  ∀ (s : State) (tid : Nat) (t : Team) (p : Split) (i : Instr) (op fn : Nat) (w : OpA) (g : Sig) (r : Nat),
    let c := start s tid t p
    Issues s tid t p → p.rep = none → form i = .a op fn w g → op ≠ 9 → op ≠ 25 →
    (g.range c.t.regs c.t.moms c.t.accs (c.sp.lvl != 0) w) = none → layoutRange c i = none → c.tooEarly (form i) = some r →
    exec i s = .next (raise c.s tid c.t c.sp 0x03 [r] p.mask (form i).len)

end Sys2Proof.Stated

/-- The register checks of R315 trap (R126, R265, R304). -/
def Obligations.RegisterChecksTrap : Prop :=
  RegistersOutsideTheAllocationTrap ∧ ReadingTooEarlyTraps

namespace Sys2Proof.Stated

/-- A split that issues interlocked reads its registers as the instructions before it left them (R134, R303). -/
def InterlockedSourcesAreTheRegisters : Prop :=
  ∀ (s : State) (tid : Nat) (t : Team) (p : Split) (i : Instr),
    let c := src s tid t p i
    interlocked (start s tid t p).t (start s tid t p).sp = true →
    (∀ r l, c.rdV r l = t.rdV p.lvl r l) ∧ (∀ r, c.rdS r = t.rdS p.lvl r) ∧ (∀ n, c.rdP n = t.rdP n) ∧
    (∀ n, c.rdQ n = t.rdQ n) ∧ (∀ r l, c.rdM r l = t.rdM r l)

/-- p0 reads as all ones and discards writes (R353). -/
def PredicateZeroIsTrue : Prop :=
  ∀ (t : Team) (sel bits : Mask), t.rdP 0 = BitVec.allOnes 1024 ∧ t.wrP 0 sel bits = t

end Sys2Proof.Stated

/-- What a source reads: the register as earlier instructions left it, and p0 all ones (R134, R303, R353). -/
def Obligations.SourcesAreTheRegisters : Prop :=
  InterlockedSourcesAreTheRegisters ∧ PredicateZeroIsTrue

/-! Uniform instructions. -/

namespace Sys2Proof.Stated

/-- The wrapped result of a UALU function on n bits, signed or not (R344). -/
def uniWrap (i : Instr) (n : Nat) (sg : Bool) (a b c : BitVec n) : Option (BitVec n) :=
  match i with
  | .smov _ => some a
  | .sadd _ => some (a + b)
  | .ssub _ => some (a - b)
  | .smul _ => some (a * b)
  | .smad _ => some (a * b + c)
  | .sand _ => some (a &&& b)
  | .sor _ => some (a ||| b)
  | .sxor _ => some (a ^^^ b)
  | .sshl _ => some (a <<< (b.toNat % n))
  | .sshr _ => some (a >>> (b.toNat % n))
  | .ssar _ => some (a.sshiftRight (b.toNat % n))
  | .smin _ => some (if (if sg then a.slt b else a.ult b) then a else b)
  | .smax _ => some (if (if sg then a.slt b else a.ult b) then b else a)
  | _ => none

/-- A value of n bits. -/
def numOf {n : Nat} (sg : Bool) (x : BitVec n) : Int := if sg then x.toInt else (x.toNat : Int)

/-- The exact result of the functions that may saturate. -/
def uniExact (i : Instr) {n : Nat} (sg : Bool) (a b c : BitVec n) : Option Int :=
  match i with
  | .sadd _ => some (numOf sg a + numOf sg b)
  | .ssub _ => some (numOf sg a - numOf sg b)
  | .smul _ => some (numOf sg a * numOf sg b)
  | .smad _ => some (numOf sg a * numOf sg b + numOf sg c)
  | _ => none

/-- An exact value clamped to n bits. -/
def clampTo (n : Nat) (sg : Bool) (x : Int) : BitVec n :=
  let lo : Int := if sg then -(2 ^ (n - 1) : Nat) else 0
  let hi : Int := if sg then (2 ^ (n - 1) : Nat) - 1 else (2 ^ n : Nat) - 1
  BitVec.ofInt n (max lo (min hi x))

/-- The result in n bits, wrapped or with SAT clamped. -/
def uniBits (i : Instr) (n : Nat) (sg sat : Bool) (a b c : BitVec n) : Option (BitVec n) :=
  if sat then (uniExact i sg a b c).map (clampTo n sg) else uniWrap i n sg a b c

/-- A UALU result in its register, by TYPE: 64 bits signed or unsigned, 32 bits sign-extended or zero-extended. -/
def uniResult (i : Instr) (m : Mod300) (a b c : Quad) : Option Quad :=
  let a := if m.nega then -a else a
  let b := if m.negb then -b else b
  match m.type with
  | 0 => uniBits i 64 true m.sat a b c
  | 1 => uniBits i 64 false m.sat a b c
  | 2 => (uniBits i 32 true m.sat (a.setWidth 32) (b.setWidth 32) (c.setWidth 32)).map (·.signExtend 64)
  | _ => (uniBits i 32 false m.sat (a.setWidth 32) (b.setWidth 32) (c.setWidth 32)).map (·.setWidth 64)

/-- A register's number under a TYPE of UALU. -/
def uniNum (type : Nat) (x : Quad) : Int :=
  match type with
  | 0 => x.toInt
  | 1 => x.toNat
  | 2 => (x.setWidth 32).toInt
  | _ => (x.setWidth 32).toNat

/-- The low bits of a register under a TYPE, extended. -/
def uniExt (type : Nat) (x : Quad) : Quad :=
  match type with
  | 2 => (x.setWidth 32).signExtend 64
  | 3 => (x.setWidth 32).setWidth 64
  | _ => x

/-- COND on numbers (R300). -/
def holds (cond : Nat) (a b : Int) : Prop :=
  match cond with
  | 0 => a = b
  | 1 => a ≠ b
  | 2 => a < b
  | 3 => a ≤ b
  | 4 => b < a
  | _ => b ≤ a

/-- UALU (R344): with its guard true in a lane the instruction writes its result to s[D] and nothing else; else it writes
nothing. -/
def UniformArithmeticResults : Prop :=
  ∀ (s : State) (tid : Nat) (t : Team) (p : Split) (i : Instr) (fn : Nat) (w : OpA) (g : Sig) (x : Quad),
    let c := src s tid t p i
    Ready s tid t p i → form i = .a 6 fn w g →
    uniResult i (mod300 w) (c.rdS w.aN) (c.rdS (fieldB w)) (c.rdS (fieldC w)) = some x →
    if c.guarded w then ∃ t1, Completes i s c t1 ∧ SetsS c.t t1 c.sp.lvl w.dN x else Completes i s c c.t

/-- SCMP, SSEL and QOP (R344, R351): their uniform predicate or register, under a guard true in a lane. -/
def UniformComparesAndSelects : Prop :=
  ∀ (s : State) (tid : Nat) (t : Team) (p : Split) (w : OpA),
    (let c := src s tid t p (.scmp w)
     let m := mod300 w
     Ready s tid t p (.scmp w) →
     if c.guarded w then
       ∃ t1 b, Completes (.scmp w) s c t1 ∧ SetsQ c.t t1 w.dN b ∧
         (b = true ↔ holds m.cond (uniNum m.type (c.rdS w.aN))
           (uniNum m.type (if m.negb then -(c.rdS (fieldB w)) else c.rdS (fieldB w))))
     else Completes (.scmp w) s c c.t) ∧
    (let c := src s tid t p (.ssel w)
     let m := mod300 w
     Ready s tid t p (.ssel w) →
     if c.guarded w then
       ∃ t1, Completes (.ssel w) s c t1 ∧ SetsS c.t t1 c.sp.lvl w.dN (uniExt m.type
         (if c.rdQ (fieldC w) then (if m.nega then -(c.rdS w.aN) else c.rdS w.aN)
          else (if m.negb then -(c.rdS (fieldB w)) else c.rdS (fieldB w))))
     else Completes (.ssel w) s c c.t) ∧
    (let c := src s tid t p (.qop w)
     let a := c.rdQ w.aN
     let b := c.rdQ (fieldB w)
     Ready s tid t p (.qop w) →
     if c.guarded w then
       ∃ t1, Completes (.qop w) s c t1 ∧ SetsQ c.t t1 w.dN
         (match w.md 2 0 with
          | 0 => a && b | 1 => a || b | 2 => a ^^ b | 3 => !a | 4 => a | _ => w.md 3 3 == 1)
     else Completes (.qop w) s c c.t)

end Sys2Proof.Stated

/-- Uniform arithmetic, compares and selects (R344, R351). -/
def Obligations.UniformResults : Prop :=
  UniformArithmeticResults ∧ UniformComparesAndSelects

/-- Format I (R297, R345, R359): SMOVI and SADDI write s[D], MOVI and IADDI write v[D] in every active lane, from the
sign-extended immediate. -/
def Obligations.ImmediateResults : Prop :=
  ∀ (s : State) (tid : Nat) (t : Team) (p : Split),
    (∀ (i : Instr) (d a : BitVec 8) (x : Quad) (add : Bool),
      let c := src s tid t p i
      Ready s tid t p i →
      ((∃ w, i = .smovi w ∧ d = w.d ∧ a = w.a ∧ x = w.imm.signExtend 64 ∧ add = false) ∨
       (∃ w, i = .smoviImm30 w ∧ d = w.d ∧ a = w.a ∧ x = w.imm.signExtend 64 ∧ add = false) ∨
       (∃ w, i = .saddi w ∧ d = w.d ∧ a = w.a ∧ x = w.imm.signExtend 64 ∧ add = true) ∨
       (∃ w, i = .saddiImm30 w ∧ d = w.d ∧ a = w.a ∧ x = w.imm.signExtend 64 ∧ add = true)) →
      ∃ t1, Completes i s c t1 ∧ SetsS c.t t1 c.sp.lvl d.toNat (if add then c.rdS a.toNat + x else x)) ∧
    (∀ (i : Instr) (d a : BitVec 8) (x : Word) (add : Bool),
      let c := src s tid t p i
      Ready s tid t p i → p.rep = none →
      ((∃ w, i = .movi w ∧ d = w.d ∧ a = w.a ∧ x = w.imm.signExtend 32 ∧ add = false) ∨
       (∃ w, i = .moviImm30 w ∧ d = w.d ∧ a = w.a ∧ x = w.imm.signExtend 32 ∧ add = false) ∨
       (∃ w, i = .iaddi w ∧ d = w.d ∧ a = w.a ∧ x = w.imm.signExtend 32 ∧ add = true) ∨
       (∃ w, i = .iaddiImm30 w ∧ d = w.d ∧ a = w.a ∧ x = w.imm.signExtend 32 ∧ add = true)) →
      ∃ t1, Completes i s c t1 ∧ SetsV c.t t1 c.sp.lvl d.toNat (inLanes c c.active)
        fun l => if add then c.rdV a.toNat l + x else x)

namespace Sys2Proof.Stated

/-- The words of a fault record by their index above 0x040 or 0x140: TMASK stands at 8 in the user record and at 7 in the privileged one,
TEQ at the other (R266, R267). -/
def RecordReads (r : TrapRec) (mask k : Nat) (x : Quad) : Prop :=
  (k = 0 → x = r.tpc) ∧ (k = 1 → x = r.tpc2) ∧
  (k = 2 → x = BitVec.ofNat 64 (r.cause + 256 * r.resume + (if r.team = true then 1024 else 0) + 2048 * r.slot)) ∧
  (3 ≤ k → k ≤ 6 → x = r.info.getD (k - 3) 0) ∧ (k + mask = 15 → x = r.teq) ∧ (k = 9 → x = r.exb) ∧
  (k = mask → r.tmask = none → x = BitVec.ofNat 64 ((summary r.lanes).toNat + 2 ^ 32 * (List.range 1024).countP r.lanes.getLsbD))

/-- What the state registers read (R110, R129, R140, R149, R163, R164, R187, R188, R195, R196, R226, R236, R242, R266, R267, R304, R347): the
registers of the team, of its workgroup and grid, of the split, of the trap being handled, of the core. -/
def RegisterReads (c : Ctx) (i : Nat) (x : Quad) : Prop :=
  let t := c.t
  (i = 0x000 → x = BitVec.ofNat 64 (t.idx + 16 * t.twlog)) ∧
  (∀ g, c.s.wgs.at? t.wg = some g → (i = 0x001 → x = BitVec.ofNat 64 g.lin) ∧ (i = 0x002 → x = g.grid) ∧
    (i = 0x006 → x = BitVec.ofNat 64 (g.home.core + 8 * g.slot + 2 ^ 16 * g.blocks.length))) ∧
  (i = 0x003 → x = BitVec.ofNat 64 (t.width + 2 ^ 16 * ((t.width + 31) / 32))) ∧
  (i = 0x004 → x = BitVec.ofNat 64 (t.core.die + 4 * t.core.cluster + 64 * t.core.core + (if t.core.core = 6 then 512 else 0) +
    (if c.s.dev.replica = true then 1024 else 0))) ∧
  (∀ g, c.s.teamGrid t = some g → i = 0x005 → x = BitVec.ofNat 64 g.depth) ∧
  (i = 0x010 → x = c.sp.fmt) ∧ (i = 0x011 → x = t.flags) ∧ (i = 0x012 → x = t.lstat) ∧
  (i = 0x013 → x = BitVec.ofNat 64 (t.regs + 2 ^ 9 * t.moms + 2 ^ 16 * freeSlabs c.s t.core + 2 ^ 32 * t.slabs +
    2 ^ 48 * (c.s.coreOf t.core).claims.length)) ∧
  (i = 0x014 → x = BitVec.ofNat 64 t.wct) ∧ (i = 0x015 → x = BitVec.ofNat 64 (clockOf c.s t.core.die)) ∧ (i = 0x016 → x = c.sp.lnk) ∧
  (∀ k, k < 4 → (i = 0x018 + k → x = BitVec.ofNat 64 (t.tlc.getD k 0)) ∧ (i = 0x01C + k → x = BitVec.ofNat 64 (t.tliss.getD k 0)) ∧
    (i = 0x020 + k → x = BitVec.ofNat 64 ((t.flights.filter fun f => f.path == k).length)) ∧
    (i = 0x120 + k → x = (c.s.coreOf t.core).bps.getD k 0)) ∧
  (i = 0x030 → x = t.exp.stat) ∧ (i = 0x031 → x = t.exp.region) ∧ (i = 0x032 → x = t.exp.total) ∧ (i = 0x033 → x = t.exp.batch) ∧
  (i = 0x047 → c.sp.lvl = 0 → x = t.teq) ∧
  (∀ k, k < 10 → i = 0x040 + k → (k = 7 → c.sp.lvl ≠ 0) → RecordReads (if c.sp.lvl = 2 then t.krec else t.urec) 8 k x) ∧
  (i = 0x050 → x = t.thbase) ∧ (i = 0x108 → t.forced = false → x = t.mode) ∧
  (let o := c.s.orangeryOf t.core.die (c.s.pidOf t)
   i = 0x110 → x = BitVec.ofNat 64 (o.ways + 2 ^ 8 * o.thresh + 2 ^ 16 * o.decay + 2 ^ 32 * o.pinned.length)) ∧
  (∀ k, k < 10 → i = 0x140 + k → RecordReads t.krec 7 k x)

/-- GETS reads a state register into s[D]; SETS writes FLAGS without its reserved bits, LNK, THBASE, MODE and an accepted
FMT (R347, R236, R242); both under a guard true in a lane. -/
def StateRegistersReadAndWritten : Prop :=
  ∀ (s : State) (tid : Nat) (t : Team) (p : Split) (w : OpA),
    (let c := src s tid t p (.gets w)
     Ready s tid t p (.gets w) → (w.modN < 0x100 ∨ p.lvl = 2) →
     if c.guarded w then ∃ t1 x, Completes (.gets w) s c t1 ∧ SetsS c.t t1 c.sp.lvl w.dN x ∧ RegisterReads c w.modN x
     else Completes (.gets w) s c c.t) ∧
    (let c := src s tid t p (.sets w)
     let x := c.rdS w.aN
     Ready s tid t p (.sets w) → (w.modN < 0x100 ∨ p.lvl = 2) →
     if c.guarded w then
       (w.modN = 0x011 → Completes (.sets w) s c { c.t with flags := x &&& 0x11F3F#64 }) ∧
       (w.modN = 0x016 → Completes (.sets w) s c (c.t.modSplit p.id fun q => { q with lnk := x })) ∧
       (w.modN = 0x050 → Completes (.sets w) s c { c.t with thbase := x }) ∧
       (w.modN = 0x108 → Completes (.sets w) s c { c.t with mode := x &&& 3#64 }) ∧
       (w.modN = 0x010 → fmtBad x = none → Completes (.sets w) s c (c.t.modSplit p.id fun q => { q with fmt := x })) ∧
       (∀ e, w.modN = 0x010 → fmtBad x = some e → Traps (.sets w) s c 0x23 [e])
     else Completes (.sets w) s c c.t)

/-- A state register at 0x100 or above, outside the privileged handler, raises PRIVILEGED with its index (R314, R347), and
writes nothing. -/
def PrivilegedRegistersTrap : Prop :=
  ∀ (s : State) (tid : Nat) (t : Team) (p : Split) (i : Instr) (w : OpA),
    Issues s tid t p → (i = .gets w ∨ i = .sets w) → 0x100 ≤ w.modN → p.lvl ≠ 2 →
    exec i s = .next (raise s tid (start s tid t p).t (start s tid t p).sp 0x04 [w.modN] p.mask (form i).len)

end Sys2Proof.Stated

/-- VOTE, RED and SLDP (R348 to R350). VOTE: a voting lane is a writing lane whose p[A] is true; .any, .all, .bal and .cnt.
RED reduces v[A] over the writing lanes; SLDP reads quadword A of the parameter block. -/
def Obligations.VotesReductionsAndParameters : Prop :=
  ∀ (s : State) (tid : Nat) (t : Team) (p : Split) (w : OpA),
    (let c := src s tid t p (.vote w)
     let on := c.writing w.gN w.gnB
     let voting := on &&& c.rdP w.aN
     Ready s tid t p (.vote w) →
     ∃ t1, Completes (.vote w) s c t1 ∧
       (w.md 1 0 = 0 → SetsQ c.t t1 w.dN (decide (voting ≠ 0))) ∧
       (w.md 1 0 = 1 → SetsQ c.t t1 w.dN (decide (voting = on))) ∧
       (w.md 1 0 = 2 → ∀ x, (∀ j, j < 64 → x.getLsbD j =
            (decide (64 * (sigVote w).bOf w < c.t.width) && voting.getLsbD (64 * (sigVote w).bOf w + j))) →
          SetsS c.t t1 c.sp.lvl w.dN x) ∧
       (w.md 1 0 = 3 → SetsS c.t t1 c.sp.lvl w.dN (BitVec.ofNat 64 ((List.range 1024).countP voting.getLsbD)))) ∧
    (let c := src s tid t p (.red w)
     let l := (c.lanes (c.writing w.gN w.gnB)).map fun l => (c.rdV w.aN l).toNat
     Ready s tid t p (.red w) →
     ∃ t1, Completes (.red w) s c t1 ∧
       (w.md 4 3 = 1 → w.md 2 0 = 0 → SetsS c.t t1 c.sp.lvl w.dN (BitVec.ofNat 64 (l.sum % 2 ^ 32))) ∧
       (w.md 4 3 = 0 → w.md 2 0 = 0 → SetsS c.t t1 c.sp.lvl w.dN ((BitVec.ofNat 32 l.sum).signExtend 64)) ∧
       SetsS c.t t1 c.sp.lvl w.dN (if w.md 4 3 = 0 then (reduce (w.md 2 0) (w.md 4 3) l).signExtend 64
         else (reduce (w.md 2 0) (w.md 4 3) l).setWidth 64)) ∧
    (let c := src s tid t p (.sldp w)
     Ready s tid t p (.sldp w) →
     if c.guarded w then
       ∃ t1, Completes (.sldp w) s c t1 ∧
         (∀ g, s.wgs.at? t.wg = some g →
           SetsS c.t t1 c.sp.lvl w.dN (BitVec.ofNat 64 (leNat (g.param.read (8 * w.aN) 8))))
     else Completes (.sldp w) s c c.t)

/-! Vector integer and predicates. -/

namespace Sys2Proof.Stated

/-- A 32-bit source in a lane: a vector register, or the low word of a uniform register (R300). -/
def lane32 (c : Ctx) (uni : Bool) (r l : Nat) : Word := if uni then (c.rdS r).setWidth 32 else c.rdV r l
/-- A 64-bit source in a lane: an even-odd pair, or a uniform register (R354). -/
def lane64 (c : Ctx) (uni : Bool) (r l : Nat) : Quad := if uni then c.rdS r else c.rdV (r + 1) l ++ c.rdV r l

/-- pos and len of a field descriptor on n bits: byte 0 and byte 1, cut at the top (R358). -/
def fieldPos (k : Nat) : Nat := k % 256
def fieldLen (n k : Nat) : Nat := if n ≤ k % 256 then 0 else min (k / 256 % 256) (n - k % 256)

/-- The result of a VALU function of full width in a lane: sources a, b, c of n bits, k the low 32 bits of B (R356 to
R358). -/
def laneResult (i : Instr) (n : Nat) (sg : Bool) (m : Mod300) (a b c : BitVec n) (k : Nat) : Option (BitVec n) :=
  let va := if m.nega then -(numOf sg a) else numOf sg a
  let vb := if m.negb then -(numOf sg b) else numOf sg b
  let fin := fun x : Int => some (if m.sat then clampTo n sg x else BitVec.ofInt n x)
  match i with
  | .iadd _ => fin (va + vb)
  | .isub _ => fin (va - vb)
  | .imul _ => fin (va * vb)
  | .imulh _ => fin (va * vb / (2 ^ n : Nat))
  | .imad _ => fin (va * vb + numOf sg c)
  | .imin _ => fin (min va vb)
  | .imax _ => fin (max va vb)
  | .iabs _ => fin (numOf sg a).natAbs
  | .vand _ => some (a &&& b)
  | .vor _ => some (a ||| b)
  | .vxor _ => some (a ^^^ b)
  | .vnot _ => some (~~~a)
  | .shl _ => some (a <<< (k % n))
  | .shr _ => some (a >>> (k % n))
  | .sar _ => some (a.sshiftRight (k % n))
  | .rot _ => some (a.rotateLeft (k % n))
  | .brev _ => some a.reverse
  | .bfe _ =>
    let x := a.extractLsb' (fieldPos k) (fieldLen n k)
    some (if sg then x.signExtend n else x.setWidth n)
  | .bfi _ =>
    let on := (BitVec.allOnes (fieldLen n k)).setWidth n <<< fieldPos k
    some ((c &&& ~~~on) ||| (a <<< fieldPos k &&& on))
  | .mov _ => some a
  | _ => none

/-- VALU functions of full width (R356 to R358): each writing lane of v[D], or of the pair in a 64-bit TYPE, takes its
result; nothing else changes. -/
def LaneArithmeticResults : Prop :=
  ∀ (s : State) (tid : Nat) (t : Team) (p : Split) (i : Instr) (fn : Nat) (w : OpA) (g : Sig),
    let c := src s tid t p i
    let m := mod300 w
    let sg := m.type == 0 || m.type == 2
    let k := fun l => (lane32 c m.bu (fieldB w) l).toNat
    let on := inLanes c (c.writing w.gN w.gnB)
    Ready s tid t p i → p.rep = none → form i = .a 10 fn w g →
    (∀ f, m.type ≤ 1 →
      (∀ l, laneResult i 32 sg m (lane32 c m.au w.aN l) (lane32 c m.bu (fieldB w) l) (c.rdV (fieldC w) l) (k l) = some (f l)) →
      ∃ t1, Completes i s c t1 ∧ SetsV c.t t1 c.sp.lvl w.dN on f) ∧
    (∀ f, 2 ≤ m.type →
      (∀ l, laneResult i 64 sg m (lane64 c m.au w.aN l) (lane64 c m.bu (fieldB w) l) (lane64 c false (fieldC w) l) (k l) =
        some (f l)) →
      ∃ t1, Completes i s c t1 ∧ SetsV64 c.t t1 c.sp.lvl w.dN on f)

/-- POPC, CLZ, LANE, SEL and ICMP (R356, R357): counts and lane numbers are 32 bits in every TYPE; ICMP writes p[D]. -/
def LaneCountsSelectsAndCompares : Prop :=
  ∀ (s : State) (tid : Nat) (t : Team) (p : Split) (w : OpA),
    let m := mod300 w
    p.rep = none →
    (let c := src s tid t p (.popc w)
     Ready s tid t p (.popc w) →
     ∃ t1, Completes (.popc w) s c t1 ∧ SetsV c.t t1 c.sp.lvl w.dN (inLanes c (c.writing w.gN w.gnB)) fun l =>
       BitVec.ofNat 32 (if m.type ≤ 1 then (List.range 32).countP (lane32 c m.au w.aN l).getLsbD
         else (List.range 64).countP (lane64 c m.au w.aN l).getLsbD)) ∧
    (let c := src s tid t p (.clz w)
     Ready s tid t p (.clz w) →
     ∃ t1, ∃ n : Nat → Nat, Completes (.clz w) s c t1 ∧
       SetsV c.t t1 c.sp.lvl w.dN (inLanes c (c.writing w.gN w.gnB)) (fun l => BitVec.ofNat 32 (n l)) ∧
       ∀ l, if m.type ≤ 1 then
           n l ≤ 32 ∧ (∀ j, j < n l → (lane32 c m.au w.aN l).getLsbD (31 - j) = false) ∧
             (n l < 32 → (lane32 c m.au w.aN l).getLsbD (31 - n l) = true)
         else n l ≤ 64 ∧ (∀ j, j < n l → (lane64 c m.au w.aN l).getLsbD (63 - j) = false) ∧
             (n l < 64 → (lane64 c m.au w.aN l).getLsbD (63 - n l) = true)) ∧
    (let c := src s tid t p (.lane w)
     Ready s tid t p (.lane w) →
     ∃ t1, Completes (.lane w) s c t1 ∧
       SetsV c.t t1 c.sp.lvl w.dN (inLanes c (c.writing w.gN w.gnB)) fun l => BitVec.ofNat 32 l) ∧
    (let c := src s tid t p (.sel w)
     let on := inLanes c (c.writing w.gN w.gnB)
     let q := c.rdP (fieldC w)
     Ready s tid t p (.sel w) →
     ∃ t1, Completes (.sel w) s c t1 ∧
       (m.type ≤ 1 → SetsV c.t t1 c.sp.lvl w.dN on fun l =>
         if q.getLsbD l then lane32 c m.au w.aN l else lane32 c m.bu (fieldB w) l) ∧
       (2 ≤ m.type → SetsV64 c.t t1 c.sp.lvl w.dN on fun l =>
         if q.getLsbD l then lane64 c m.au w.aN l else lane64 c m.bu (fieldB w) l)) ∧
    (let c := src s tid t p (.icmp w)
     let sg := m.type == 0 || m.type == 2
     let neg := fun x : Int => if m.negb then -x else x
     Ready s tid t p (.icmp w) →
     ∃ t1 hit, Completes (.icmp w) s c t1 ∧ SetsP c.t t1 w.dN (c.writing w.gN w.gnB) hit ∧
       ∀ l, inLanes c (c.writing w.gN w.gnB) l = true → (hit.getLsbD l = true ↔
         if m.type ≤ 1 then holds m.cond (numOf sg (lane32 c m.au w.aN l)) (neg (numOf sg (lane32 c m.bu (fieldB w) l)))
         else holds m.cond (numOf sg (lane64 c m.au w.aN l)) (neg (numOf sg (lane64 c m.bu (fieldB w) l)))))

end Sys2Proof.Stated

/-- The vector integer instructions (R356 to R358). -/
def Obligations.LaneResults : Prop :=
  LaneArithmeticResults ∧ LaneCountsSelectsAndCompares

/-- A repeated IADD on 32 bits, issued interlocked (R306, R307, R356): with a prefix of two repetitions, the second reads what
the first wrote; the split goes past one instruction. -/
def Obligations.RepetitionsRunInOrder : Prop :=
  ∀ (s : State) (tid : Nat) (t : Team) (p : Split) (w w1 w2 : OpA) (r : OpP),
    let c := start s tid t p
    let on := fun x : OpA => inLanes c (c.writing x.gN x.gnB)
    let sum := fun (u : Team) (x : OpA) (l : Nat) => u.rdV c.sp.lvl x.aN l + u.rdV c.sp.lvl (fieldB x) l
    Issues s tid t p → p.rep = some r → r.cntm1 = 1 → interlocked c.t c.sp = true → (mod300 w).type ≤ 1 → w.modN / 256 = 0 →
    w.modN % 8 = 0 → (sigI3 true w).stepped r 0 w = some w1 → (sigI3 true w).stepped r 1 w = some w2 →
    (∀ x ∈ [w1, w2], (sigI3 true x).range c.t.regs c.t.moms c.t.accs (c.sp.lvl != 0) x = none) →
    ∃ u t1, SetsV c.t u c.sp.lvl w1.dN (on w1) (sum c.t w1) ∧ SetsV u t1 c.sp.lvl w2.dN (on w2) (sum u w2) ∧
      Completes (.iadd w) s c t1

/-- Predicate logic (R369): a result in the writing lanes of p[D]; bits 1 and 0 of MOD negate A and B; PSET copies one bit
of a register. -/
def Obligations.PredicateResults : Prop :=
  ∀ (s : State) (tid : Nat) (t : Team) (p : Split) (w : OpA),
    let bit := fun (b : Nat) (m : Mask) => if b = 1 then ~~~m else m
    p.rep = none →
    (∀ i f, ((i = .pand w ∧ f = fun a b : Mask => a &&& b) ∨ (i = .por w ∧ f = fun a b : Mask => a ||| b) ∨
             (i = .pxor w ∧ f = fun a b : Mask => a ^^^ b)) →
      let c := src s tid t p i
      Ready s tid t p i →
      ∃ t1, Completes i s c t1 ∧ SetsP c.t t1 w.dN (c.writing w.gN w.gnB)
        (f (bit (w.md 1 1) (c.rdP w.aN)) (bit (w.md 0 0) (c.rdP (fieldB w))))) ∧
    (∀ i f, ((i = .pnot w ∧ f = fun a : Mask => ~~~a) ∨ (i = .pmov w ∧ f = fun a : Mask => a)) →
      let c := src s tid t p i
      Ready s tid t p i →
      ∃ t1, Completes i s c t1 ∧ SetsP c.t t1 w.dN (c.writing w.gN w.gnB) (f (c.rdP w.aN))) ∧
    (let c := src s tid t p (.pset w)
     Ready s tid t p (.pset w) →
     ∃ t1 hit, Completes (.pset w) s c t1 ∧ SetsP c.t t1 w.dN (c.writing w.gN w.gnB) hit ∧
       ∀ l, inLanes c (c.writing w.gN w.gnB) l = true →
         hit.getLsbD l = (if w.md 9 9 = 1 then (c.rdS w.aN).getLsbD (w.md 5 0) else (c.rdV w.aN l).getLsbD (w.md 5 0)))

/-- SHFL, SCAN, TOPK and RAND (R244, R245, R365 to R368): SHFL, SCAN and RAND write v[D] in the writing lanes, a SHFL source
lane that is not active giving the lane's own value; TOPK writes, in each active lane j below k', the lane and the value of the
candidate of rank j to v[D] and v[D+1], or the fill where there are fewer candidates. -/
def Obligations.CrossLaneResults : Prop :=
  ∀ (s : State) (tid : Nat) (t : Team) (p : Split) (w : OpA),
    (let c := src s tid t p (.shfl w)
     let seg := if w.md 5 2 = 0 then c.t.width else min (2 ^ w.md 5 2) c.t.width
     let b := fun l => (lane32 c (w.md 8 8 == 1) (fieldB w) l).toNat
     let from_ := fun l =>
       let base := l - l % seg
       match w.md 1 0 with
       | 0 => base + b l % seg
       | 1 => if base + b l ≤ l then l - b l else l
       | 2 => if l + b l < base + seg then l + b l else l
       | _ => l ^^^ (b l % seg)
     Ready s tid t p (.shfl w) →
     ∃ t1, Completes (.shfl w) s c t1 ∧ SetsV c.t t1 c.sp.lvl w.dN (inLanes c (c.writing w.gN w.gnB)) fun l =>
       c.rdV w.aN (if c.active.getLsbD (from_ l) then from_ l else l)) ∧
    (let c := src s tid t p (.scan w)
     let ls := c.lanes (c.writing w.gN w.gnB)
     Ready s tid t p (.scan w) →
     ∃ t1, Completes (.scan w) s c t1 ∧ SetsV c.t t1 c.sp.lvl w.dN (inLanes c (c.writing w.gN w.gnB)) fun l =>
       reduce (w.md 2 0) (w.md 4 3) ((ls.filter fun k => if w.md 5 5 = 1 then k < l else k ≤ l).map fun k => (c.rdV w.aN k).toNat)) ∧
    (let c := src s tid t p (.topk w)
     Ready s tid t p (.topk w) → (c.rdS (fieldB w)).toNat % 2 ^ 32 = 0 → Completes (.topk w) s c c.t) ∧
    (let c := src s tid t p (.topk w)
     let v := fun l => (c.rdV w.aN l).toNat
     let ls := (c.lanes (c.writing w.gN w.gnB)).filter fun l => !(w.md 2 2 == 1 && topkZero (w.md 1 0) (v l))
     let rank := fun l => (ls.filter fun k => ranksBefore (w.md 1 0) (v k) k (v l) l).length
     let k := min ((c.rdS (fieldB w)).toNat % 2 ^ 32) (min 1024 c.t.width)
     let on := fun j => decide (j < k) && c.active.getLsbD j
     let fill := match w.md 1 0 with | 0 => 0xFF800000#32 | 1 => 0x80000000#32 | _ => 0#32
     Ready s tid t p (.topk w) →
     ∃ u t1, Completes (.topk w) s c t1 ∧
       SetsV c.t u c.sp.lvl w.dN on (fun j => ((ls.find? fun l => rank l == j).map (BitVec.ofNat 32)).getD 0xFFFFFFFF#32) ∧
       SetsV u t1 c.sp.lvl (w.dN + 1) on fun j => ((ls.find? fun l => rank l == j).map (c.rdV w.aN)).getD fill) ∧
    (let c := src s tid t p (.rand w)
     let key := c.rdS (fieldB w)
     let mix := fun l =>
       let x := key ^^^ (BitVec.ofNat 32 (globalLane c.s c.t l) ++ c.rdV w.aN l)
       let x := (x ^^^ (x >>> 31)) * 0xD1B54A32D192ED03#64
       let x := (x ^^^ (x >>> 29)) * 0xAEF17502108EF2D9#64
       x ^^^ (x >>> 32)
     Ready s tid t p (.rand w) →
     ∃ t1, Completes (.rand w) s c t1 ∧ SetsV c.t t1 c.sp.lvl w.dN (inLanes c (c.writing w.gN w.gnB)) fun l =>
       (mix l).setWidth 32)

/-! Floating point. -/

namespace Sys2Proof.Stated

/-- A VFP function in a lane: its code and the flags it raises (R228 to R235, R360 to R362, R241). -/
def laneFloat (i : Instr) (o : FOps) : Option (Nat × Nat) :=
  match i with
  | .fadd _ => some (o.round (addF o.va o.vb o.m.round))
  | .fsub _ => some (o.round (addF o.va o.vb.negate o.m.round))
  | .fmul _ => some (o.round (mulF o.va o.vb))
  | .ffma _ => some (o.round (fmaF o.va o.vb o.vc o.m.round))
  | .fmin _ => some (o.minmax (-1))
  | .fmax _ => some (o.minmax 1)
  | .fabs _ => some (o.a % o.f.sign, 0)
  | .fclass _ => some (o.classOf, 0)
  | .frnd _ => some o.integral
  | .rcp _ => some (rcpF o.a)
  | .rsq _ => some (rsqF o.a)
  | .sqrt _ => some (sqrtOp o.a o.m.round o.m.sat)
  | .exp2 _ => some (exp2F o.a)
  | .log2 _ => some (log2F o.a)
  | .sinpi _ => some (trigF false o.a)
  | .cospi _ => some (trigF true o.a)
  | _ => none

/-- The flags of a list of lanes together. -/
def orAll (l : List Nat) : Nat := l.foldl (· ||| ·) 0

/-- A source of CVT, I2F and F2I in a lane. -/
def cvtSource (c : Ctx) (uni : Bool) (r l : Nat) : Nat := (lane32 c uni r l).toNat

/-- The integer that I2F converts, by the code of field C: i32, u32, i64, u64. -/
def intOperand (c : Ctx) (uni : Bool) (code r l : Nat) : Int :=
  match code with
  | 0 => (lane32 c uni r l).toInt
  | 1 => (lane32 c uni r l).toNat
  | 2 => (lane64 c uni r l).toInt
  | _ => (lane64 c uni r l).toNat

/-- VFP (R360 to R362, R241): without an enabled flag, v[D] takes the function's result in the writing lanes and FLAGS
accumulates the lanes' flags; nothing else changes. -/
def FloatingPointResults : Prop :=
  ∀ (s : State) (tid : Nat) (t : Team) (p : Split) (i : Instr) (fn : Nat) (w : OpA) (g : Sig) (f : Nat → Nat × Nat),
    let c := src s tid t p i
    let on := c.writing w.gN w.gnB
    let flags := fun l => (f l).2
    Ready s tid t p i → p.rep = none → form i = .a 13 fn w g → (∀ l, laneFloat i (c.fops g w l) = some (f l)) →
    (∀ l ∈ c.lanes on, enabledFlags c.t (flags l) = 0) →
    ∃ t1, SetsV c.t t1 c.sp.lvl w.dN (inLanes c on) (fun l => BitVec.ofNat 32 (f l).1) ∧
      Completes i s c (t1.orFlags (orAll ((c.lanes on).map flags)))

/-- FP_EXCEPTION (R243): a lane that reports an enabled flag raises it after the results are written; TINFO0 holds the
enabled flags, TMASK the lanes. -/
def EnabledFlagsTrap : Prop :=
  ∀ (s : State) (tid : Nat) (t : Team) (p : Split) (i : Instr) (fn : Nat) (w : OpA) (g : Sig) (f : Nat → Nat × Nat),
    let c := src s tid t p i
    let on := c.writing w.gN w.gnB
    let flags := fun l => (f l).2
    let hit := (c.lanes on).filter fun l => enabledFlags c.t (flags l) != 0
    Ready s tid t p i → p.rep = none → form i = .a 13 fn w g → (∀ l, laneFloat i (c.fops g w l) = some (f l)) → hit ≠ [] →
    ∃ t1, SetsV c.t t1 c.sp.lvl w.dN (inLanes c on) (fun l => BitVec.ofNat 32 (f l).1) ∧
      TrapsWith i s c (t1.orFlags (orAll ((c.lanes on).map flags))) 0x31
        [orAll (hit.map fun l => enabledFlags c.t (flags l))] (laneMask hit)

end Sys2Proof.Stated

/-- The floating-point instructions, their flags and FP_EXCEPTION (R241, R243, R360 to R362).
Where the spec leaves a point open, it states the model's choice: log entry 6. -/
def Obligations.FloatingPointOperations : Prop :=
  FloatingPointResults ∧ EnabledFlagsTrap

/-- FCMP, CVT, I2F and F2I (R234, R300, R362, R363) without an enabled flag: p[D] or v[D] in the writing lanes, the flags
accumulated. A CVT of a reserved destination or source format raises OPERAND_FORMAT, whatever its guard.
Where the spec leaves a point open, it states the model's choice: log entries 25 and 73. -/
def Obligations.FloatComparesAndConversions : Prop :=
  ∀ (s : State) (tid : Nat) (t : Team) (p : Split) (w : OpA),
    let m := mod300 w
    p.rep = none →
    (let c := src s tid t p (.fcmp w)
     let on := c.writing w.gN w.gnB
     let f := vfpFmt m.type
     let a := fun l => decodeF f (cvtSource c m.au w.aN l % (2 * f.sign))
     let b := fun l => decodeF f (negCode f m.negb (cvtSource c m.bu (fieldB w) l))
     let unordered := fun l => (a l).isNan || (b l).isNan
     let invalid := fun l => (a l).isSig || (b l).isSig || (decide (2 ≤ m.cond ∧ m.cond ≤ 5) && unordered l)
     let flags := fun l => if invalid l then flIV else 0
     Ready s tid t p (.fcmp w) → (∀ l ∈ c.lanes on, enabledFlags c.t (flags l) = 0) →
     ∃ t1 hit, SetsP c.t t1 w.dN on hit ∧ Completes (.fcmp w) s c (t1.orFlags (orAll ((c.lanes on).map flags))) ∧
       ∀ l, inLanes c on l = true → (hit.getLsbD l = true ↔
         match m.cond with
         | 6 => unordered l = false
         | 7 => unordered l = true
         | 1 => unordered l = true ∨ cmpF (a l) (b l) ≠ 0
         | k => unordered l = false ∧ holds k (cmpF (a l) (b l)) 0)) ∧
    (let c := src s tid t p (.cvt w)
     let on := c.writing w.gN w.gnB
     let r := fun l => cvtBits (cvtCodes w).1 (cvtCodes w).2 (cvtSource c m.au w.aN l) m.round m.sat
     Ready s tid t p (.cvt w) →
     ((fmtOf (cvtCodes w).1).isSome → (fmtOf (cvtCodes w).2).isSome →
       (∀ l ∈ c.lanes on, enabledFlags c.t (r l).2 = 0) →
       ∃ t1, SetsV c.t t1 c.sp.lvl w.dN (inLanes c on) (fun l => BitVec.ofNat 32 (r l).1) ∧
         Completes (.cvt w) s c (t1.orFlags (orAll ((c.lanes on).map fun l => (r l).2)))) ∧
     (∀ code, ((fmtOf (cvtCodes w).1).isNone ∧ code = (cvtCodes w).1) ∨
         ((fmtOf (cvtCodes w).1).isSome ∧ (fmtOf (cvtCodes w).2).isNone ∧ code = (cvtCodes w).2) →
       Traps (.cvt w) s (start s tid t p) 0x23 [code])) ∧
    (let c := src s tid t p (.i2f w)
     let on := c.writing w.gN w.gnB
     let r := fun l => roundTo (vfpFmt m.type) (intF (intOperand c m.au (intTypeC w) w.aN l)) m.round m.sat
     Ready s tid t p (.i2f w) → intTypeC w < 4 → (∀ l ∈ c.lanes on, enabledFlags c.t (r l).2 = 0) →
     ∃ t1, SetsV c.t t1 c.sp.lvl w.dN (inLanes c on) (fun l => BitVec.ofNat 32 (r l).1) ∧
       Completes (.i2f w) s c (t1.orFlags (orAll ((c.lanes on).map fun l => (r l).2)))) ∧
    (let c := src s tid t p (.f2i w)
     let on := c.writing w.gN w.gnB
     let range : Int × Int := match intTypeC w with
       | 0 => (-2147483648, 2147483647) | 1 => (0, 4294967295)
       | 2 => (-9223372036854775808, 9223372036854775807) | _ => (0, 18446744073709551615)
     let r := fun l => toInt (decodeF (vfpFmt m.type) (cvtSource c m.au w.aN l)) m.round range.1 range.2
     Ready s tid t p (.f2i w) → (∀ l ∈ c.lanes on, enabledFlags c.t (r l).2 = 0) →
     ∃ t1, Completes (.f2i w) s c (t1.orFlags (orAll ((c.lanes on).map fun l => (r l).2))) ∧
       (intTypeC w < 2 → SetsV c.t t1 c.sp.lvl w.dN (inLanes c on) fun l => BitVec.ofInt 32 (r l).1) ∧
       (2 ≤ intTypeC w → SetsV64 c.t t1 c.sp.lvl w.dN (inLanes c on) fun l => BitVec.ofInt 64 (r l).1))

/-! Control. -/

namespace Sys2Proof.Stated

/-- The split goes to word k, the team as t1. -/
def GoesTo (i : Instr) (s : State) (c : Ctx) (t1 : Team) (k : Nat) : Prop :=
  exec i s = .next (c.put (t1.modSplit c.sp.id fun q => jumpSplit k (countIssue 1 q)))

/-- A part of a divided split, with its lanes. -/
def part (p : Split) (id : Nat) (parent : Option Nat) (m : Mask) : Split :=
  { p with id := id, parent := parent, mask := m, resv := none, pipe := none, anc := p.id :: p.anc }

/-- A split as a branch or a call makes it: whether it is ready then is noted (R101, R121). -/
def made (c : Ctx) (i : Instr) (q : Split) : Split := { q with ready := c.childReady (form i) q }

/-- The team's other splits. -/
def others (c : Ctx) : List Split := c.t.splits.filter fun q => q.id != c.sp.id

/-- The join record that split p leaves in its place. -/
def record (p : Split) (id addr pending : Nat) (call : Bool) : Join :=
  { id := id, parent := p.parent, addr := addr, call := call, mask := p.mask, arrived := 0, lnk := p.lnk, fmt := p.fmt,
    pending := pending, next := addr, lvl := p.lvl }

/-- BRA, BRU and CALL (R285, R331, R333): the split continues at word W + OFF18 where that is an acceptable target, else
BRANCH_TARGET names the address; CALL sets LNK to the next instruction; an untaken BRU goes on. -/
def BranchesAndCalls : Prop :=
  ∀ (s : State) (tid : Nat) (t : Team) (p : Split) (w : OpB) (i : Instr) (k : Nat),
    let c := src s tid t p i
    let taken := (i = .bra w ∨ i = .call w ∨ (i = .bru w ∧ c.rdQ w.psel.toNat ≠ w.pn))
    let t1 := if i = .call w then c.t.modSplit c.sp.id (fun q => { q with lnk := c.t.addrOf (p.pc + 1) }) else c.t
    Ready s tid t p i →
    (taken → (p.pc : Int) + w.off.toInt = k → targetOk c.s c.t k = .ok true → GoesTo i s c t1 k) ∧
    (taken → (p.pc : Int) + w.off.toInt = k → targetOk c.s c.t k = .ok false → k < 2 ^ 32 →
      Traps i s c 0x02 [(c.t.addrOf k).toNat]) ∧
    (i = .bru w → ¬taken → Completes i s c c.t)

/-- BRC (R116, R117, R332): no lane taken goes on, every lane taken jumps; else a join record at W + JOIN takes the split's
place and two splits with the taken and the other lanes go to the back of the rotation, the H one first. -/
def ConditionalBranchesDiverge : Prop :=
  ∀ (s : State) (tid : Nat) (t : Team) (p : Split) (w : OpBRC) (k j : Nat),
    let c := src s tid t p (.brc w)
    let on := c.rdP w.psel.toNat
    let taken := p.mask &&& (if w.pn then ~~~on else on)
    let rest := p.mask &&& ~~~taken
    let n := c.s.nextId
    let tk := fun id => made c (.brc w) (jumpSplit k (part p id (some n) taken))
    let nt := fun id => made c (.brc w) (nextSplit 2 (part p id (some n) rest))
    let t1 := { c.t with splits := others c ++ (if w.h then [tk (n + 1), nt (n + 2)] else [nt (n + 1), tk (n + 2)]),
                         joins := c.t.joins ++ [record p n j 2 false] }
    Ready s tid t p (.brc w) →
    (taken = 0 → Completes (.brc w) s c c.t) ∧
    ((p.pc : Int) + w.off.toInt = k → targetOk c.s c.t k = .ok false → taken ≠ 0 → k < 2 ^ 32 →
      Traps (.brc w) s c 0x02 [(c.t.addrOf k).toNat]) ∧
    ((p.pc : Int) + w.off.toInt = k → targetOk c.s c.t k = .ok true → taken ≠ 0 →
      (rest = 0 → GoesTo (.brc w) s c c.t k) ∧
      (rest ≠ 0 → (p.pc : Int) + w.join.toInt = j → t1.entries ≤ 32 →
        exec (.brc w) s = .next { c.put t1 with nextId := n + 3 }))

end Sys2Proof.Stated

/-- BRA, BRU, CALL and BRC (R116, R117, R285, R331 to R333).
Where the spec leaves a point open, it states the model's choice: log entries 14 (no part of a divided split holds the
reservation) and 15. -/
def Obligations.Branches : Prop :=
  BranchesAndCalls ∧ ConditionalBranchesDiverge

/-- JMPI and CALLI (R120, R286, R335): with one target in v[A] the split goes there, CALLI with LNK at the next
instruction; with several, one split per target, the lowest lane's first, each to check its target when it issues; the parts
of a JMPI stand under the split's own parent record, which awaits each of them; a CALLI's parts stand under a record at the
return address. A guard false in every lane jumps nowhere.
Where the spec leaves a point open, it states the model's choice: log entries 14 (no part of a divided split holds the
reservation) and 15. -/
def Obligations.LaneJumpsAndCalls : Prop :=
  ∀ (s : State) (tid : Nat) (t : Team) (p : Split) (w : OpA) (call : Bool),
    let i := if call then Instr.calli w else Instr.jmpi w
    let c := src s tid t p i
    let len := (form i).len
    let back := c.t.addrOf (p.pc + len)
    let gs := c.laneTargets w.aN
    let n := c.s.nextId
    let kids := fun (parent : Option Nat) (first : Nat) => (gs.zip (List.range gs.length)).map fun e =>
      made c i { part p (first + e.2) parent e.1.2 with
        lnk := if call then back else p.lnk
        goal := some { idx := e.1.1.1, addr := e.1.1.2, len := len, call := call } }
    Ready s tid t p i →
    (c.guarded w = false → Completes i s c c.t) ∧
    (∀ k, c.guarded w = true → c.s.transOf c.t = none → c.lanes p.mask ≠ [] →
      (∀ l ∈ c.lanes p.mask, (c.rdV w.aN l).toNat = k) → targetOk c.s c.t k = .ok true →
      GoesTo i s c (if call then c.t.modSplit c.sp.id (fun q => { q with lnk := back }) else c.t) k) ∧
    (c.guarded w = true → 2 ≤ gs.length → call = false → p.parent = none →
      let t1 := { c.t with splits := others c ++ kids none n }
      t1.entries ≤ 32 → exec i s = .next { c.put t1 with nextId := n + gs.length }) ∧
    (∀ j, c.guarded w = true → 2 ≤ gs.length → call = false → p.parent = some j →
      let t1 := { ({ c.t with splits := others c } : Team).modJoin j fun r =>
          if r.lvl = p.lvl then { r with pending := r.pending + (gs.length - 1) } else r with
        splits := others c ++ kids (some j) n }
      t1.entries ≤ 32 → exec i s = .next { c.put t1 with nextId := n + gs.length }) ∧
    (c.guarded w = true → 2 ≤ gs.length → call = true →
      let t1 := { c.t with splits := others c ++ kids (some n) (n + 1),
                           joins := c.t.joins ++ [record p n (p.pc + len) gs.length true] }
      t1.entries ≤ 32 → exec i s = .next { c.put t1 with nextId := n + gs.length + 1 })

/-- RET and JOIN (R118, R336, R337): RET goes to LNK, a LNK of 0 raises BRANCH_TARGET; a RET to a CALLI record's address
and a JOIN at its record's address arrive: the record takes the lanes, and with the last arrival the lanes form one split
past the JOIN, its LNK and FMT as at the branch; a JOIN elsewhere goes on.
Where the spec leaves a point open, it states the model's choice: log entry 15. -/
def Obligations.ReturnsAndJoins : Prop :=
  ∀ (s : State) (tid : Nat) (t : Team) (p : Split) (w : OpA) (i : Instr) (r : Join),
    let c := src s tid t p i
    let kept := c.t.joins.find? (fun x => some x.id == p.parent)
    let whole := (c.t.splits.all fun q => !q.spilled) && (c.t.joins.all fun q => !q.spilled)
    Ready s tid t p i → c.guarded w = true →
    (i = .ret w → p.lnk = 0 → Traps i s c 0x02 [0]) ∧
    (∀ k, i = .ret w → p.lnk ≠ 0 → c.t.indexOf p.lnk = some k → targetOk c.s c.t k = .ok true → p.parent = none →
      GoesTo i s c c.t k) ∧
    (i = .join w → p.parent = none → Completes i s c c.t) ∧
    (i = .join w → kept = some r → r.lvl = p.lvl → r.addr ≠ p.pc → Completes i s c c.t) ∧
    (((i = .join w ∧ r.addr = p.pc ∧ r.call = false) ∨
      (i = .ret w ∧ p.lnk ≠ 0 ∧ c.t.indexOf p.lnk = some r.addr ∧ targetOk c.s c.t r.addr = .ok true ∧ r.call = true)) →
     kept = some r → r.lvl = p.lvl → whole = true →
     let next := if i = .join w then p.pc + (form i).len else r.next
     (2 ≤ r.pending → ∃ a,
       exec i s = .next (c.put ({ c.t with splits := others c }.modJoin r.id fun _ =>
         { r with arrived := r.arrived ||| p.mask, pending := r.pending - 1, next := next, anc := a }))) ∧
     (r.pending = 1 → r.arrived ||| p.mask ≠ 0 → ∃ q,
       exec i s = .next (c.put { c.t with splits := others c ++ [q], joins := c.t.joins.filter fun x => x.id != r.id }) ∧
       q.id = r.id ∧ q.parent = r.parent ∧ q.mask = r.arrived ||| p.mask ∧ q.pc = next ∧ q.lnk = r.lnk ∧ q.fmt = r.fmt))

namespace Sys2Proof.Stated

/-- EXIT in a team that is alone in its workgroup (R119, R338): the split leaves the table and its lanes leave the team and its
records; an arrival without lanes counts at its parent record; the team of the last split ends, and once nothing of it is in
flight is gone, its workgroup ended; a user handler's EXIT is that of the split it serves. -/
def ExitsLeave : Prop :=
  ∀ (s : State) (tid : Nat) (t : Team) (p : Split) (w : OpA),
    let c := src s tid t p (.exit w)
    let left : Team := { c.t with joins := c.t.joins.map fun r => { r with mask := r.mask &&& ~~~p.mask } }
    Ready s tid t p (.exit w) → c.guarded w = true → p.park = none → c.t.ended = false →
    (∀ e ∈ s.teams, e.2.wg = t.wg → e = (tid, t)) →
    (∀ q ∈ others c, q.pend = [] ∧ q.spilled = false ∧ q.park = none) → (∀ q ∈ c.t.joins, q.spilled = false) →
    (p.lvl = 0 → p.parent = none → others c ≠ [] →
      exec (.exit w) s = .next ((c.put c.t).setTeam tid { left with splits := others c })) ∧
    (p.lvl = 0 → p.parent = none → others c = [] → c.t.joins = [] → (∀ e ∈ s.cores, e.2.claims = []) →
      let gone : Team := { c.t with splits := [], ended := true }
      ∃ s1, exec (.exit w) s = .next s1 ∧
        (gone.quiet = false → s1 = (c.put c.t).setTeam tid gone) ∧
        (gone.quiet = true → s1.teams.at? tid = none ∧
          ∀ x, s.wgs.at? t.wg = some x → x.st = .resident → (s1.wgs.at? t.wg).map (·.st) = some .ended)) ∧
    (∀ j r, p.lvl = 0 → p.parent = some j → left.joins.find? (fun x => x.id == j) = some r → r.pend = [] →
      (2 ≤ r.pending → ∃ a, exec (.exit w) s = .next ((c.put c.t).setTeam tid
        (({ left with splits := others c } : Team).modJoin r.id fun _ => { r with pending := r.pending - 1, anc := a }))) ∧
      (r.pending = 1 → r.arrived ≠ 0 → ∃ q,
        exec (.exit w) s = .next ((c.put c.t).setTeam tid
          { left with splits := others c ++ [q], joins := left.joins.filter fun x => x.id != r.id }) ∧
        q.id = r.id ∧ q.parent = r.parent ∧ q.mask = r.arrived ∧ q.pc = r.next ∧ q.lnk = r.lnk ∧ q.fmt = r.fmt ∧
        q.park = none)) ∧
    (∀ f q, p.lvl = 1 → c.t.uframe = some f → f.split = some q → q.parent = none →
      (∀ x ∈ c.t.splits, x.pend = [] ∧ x.spilled = false ∧ x.park = none) →
      let kept := (c.t.splits.filter fun x => x.lvl != 1).filter fun x => x.id != q.id
      kept ≠ [] →
      exec (.exit w) s = .next ((c.put c.t).setTeam tid { c.t.loseLodge with
        uframe := none, splits := kept,
        joins := (c.t.joins.filter fun r => r.lvl != 1).map fun r => { r with mask := r.mask &&& ~~~q.mask } }))

end Sys2Proof.Stated

/-- YIELD, NOP, EXIT and REPEAT (R104, R119, R306, R337, R338, R343): YIELD goes on and to the back of the rotation, but
with a live reservation only goes on; NOP only goes on; EXIT takes its split's lanes out of the team, counts as an arrival
without lanes at a parent record, ends the team with its last split, and leaves a user handler; REPEAT hands its counts to the
next instruction.
Where the spec leaves a point open, it states the model's choice: log entry 15. -/
def Obligations.YieldsEndsAndRepeats : Prop :=
  ExitsLeave ∧
  ∀ (s : State) (tid : Nat) (t : Team) (p : Split) (w : OpA),
    (let c := src s tid t p (.nop w)
     Ready s tid t p (.nop w) → Completes (.nop w) s c c.t) ∧
    (let c := src s tid t p (.yield w)
     let t1 := c.doneTeam c.t (form (.yield w)).len
     Ready s tid t p (.yield w) → c.guarded w = true →
     (c.sp.holds c.s = true → Completes (.yield w) s c c.t) ∧
     (c.sp.holds c.s = false → ∃ q, t1.split? p.id = some q ∧
       exec (.yield w) s = .next (c.put
         { t1 with splits := (t1.splits.filter fun x => x.id != p.id) ++ [q], rotate := false, timer := 0 }))) ∧
    (∀ r : OpP, Issues s tid t p → exec (.repeatN r) s =
      .next (s.setTeam tid (t.modSplit p.id fun q => { nextSplit 1 q with rep := some r, bpSkip := q.bpSkip })))

namespace Sys2Proof.Stated

/-- What register r of a kind holds, in a lane or at an element of a tile (R77: v, s, p, q, m, ly, h, acc). -/
def regOf (t : Team) (kind r l : Nat) : Nat :=
  match kind with
  | 0 => (t.rdV 0 r l).toNat
  | 1 => (t.rdS 0 r).toNat
  | 2 => if (t.rdP r).getLsbD l then 1 else 0
  | 3 => if t.rdQ r then 1 else 0
  | 4 => (t.rdM r l).toNat
  | 5 => (t.ly.get r).toNat
  | 6 => (t.h.get r).toNat
  | _ => (t.acc.get (r * 4096 + l)).toNat

/-- Does a team have that register, and that lane or element? -/
def regIn (t : Team) (kind r l : Nat) : Prop :=
  match kind with
  | 0 => r < t.regs ∧ l < t.width
  | 1 => r < 64
  | 2 => 1 ≤ r ∧ r ≤ 7 ∧ l < t.width
  | 3 => r < 4
  | 4 => r < t.moms ∧ l < t.width
  | 5 => r < 16
  | 6 => r < 16
  | 7 => r < t.accs ∧ l < 4096
  | _ => False

/-- A team continues in another body at word `pc` (R144): each listed value stands in the register the body gives it, every
other register reads zero (but a uniform predicate that a MIGRATE.TRY writes), its splits keep their lanes, LNK and FMT, all else is
as it was, but what the core counts of issue. -/
def EntersBody (s : State) (m : MapEntry) (t t1 : Team) (b : Body) (pc : Nat) (pred : Option Nat) : Prop :=
  t1.body = b ∧ t1.splits.map (fun p => (p.id, p.mask, p.lnk, p.fmt)) = t.splits.map (fun p => (p.id, p.mask, p.lnk, p.fmt)) ∧
  (∀ p ∈ t1.splits, p.pc = pc ∧ p.park = none ∧ p.clause = none) ∧ (∀ q, q < 4 → pred = some q → t1.rdQ q = true) ∧
  (t.width ≤ 1024 → (t.acc.map (·.1)).Nodup → ∀ k r l, k < 8 → regIn t k r l → ¬ (k = 3 ∧ pred = some r) →
    (∀ w ∈ m.live, ∀ a, bits w 3 0 = k → liveReg s m t.body w = some a → liveReg s m b w = some r → regIn t k a l →
      (∀ x ∈ m.live, bits x 3 0 = k → liveReg s m b x = some r → x = w) → regOf t1 k r l = regOf t k a l) ∧
    ((∀ w ∈ m.live, bits w 3 0 = k → liveReg s m b w ≠ some r) → regOf t1 k r l = 0)) ∧
  t1 = { t with v := t1.v, s := t1.s, p := t1.p, q := t1.q, m := t1.m, ly := t1.ly, h := t1.h, acc := t1.acc,
                hazards := t1.hazards, counted := t1.counted, body := t1.body, forced := t1.forced, prefs := t1.prefs,
                splits := t1.splits }

/-- MIGRATE where the cluster has a core of the other kind that it asks for (R96, R143): .try that cannot be served now clears
its predicate and goes on; else the request stands at the tail of the cluster's queue and the team parks, and the transfer of a
head that can be served starts. -/
def MigrationsAreQueued : Prop :=
  ∀ (s : State) (tid : Nat) (t : Team) (p : Split) (w : OpA) (m : MapEntry),
    let c := src s tid t p (.migrate w)
    let toL := !bit w.a 0
    let try_ := bit w.a 1
    let key := clusterOf c.t.core
    let queue := (c.s.migs.at? key).getD []
    let r : MigReq := { team := tid, split := p.id, toL := toL, pred := if try_ then some w.dN else none, entry := m }
    let t0 := c.t.modSplit p.id fun x => { countIssue 1 x with park := some .migrate }
    let s0 := { c.put t0 with migs := c.s.migs.insert key (queue ++ [r]) }
    Ready s tid t p (.migrate w) → c.guarded w = true → p.lvl = 0 → c.quiesce toL = .ok (.ok m) →
    kindCores c.t.core toL ≠ [] → toL ≠ isL c.t.core →
    (try_ = true → queue ≠ [] ∨ migTarget c.s c.t toL = none →
      ∃ t1, Completes (.migrate w) s c t1 ∧ SetsQ c.t t1 w.dN false) ∧
    ((try_ = true → queue = [] ∧ migTarget c.s c.t toL ≠ none) →
      (serveMig s0 key = none → exec (.migrate w) s = .next s0) ∧
      (∀ d b pc, queue = [] → migTarget s0 t0 toL = some d → targetBody s0 t0 m toL = some (b, pc) →
        ∃ s1 x, exec (.migrate w) s = .next s1 ∧ s1.teams.at? tid = some { t0 with xfer := some x } ∧ x.dest = d ∧
          x.body = b ∧ x.entry = m ∧ x.pred = r.pred ∧ s1.migs.at? key = some []))

end Sys2Proof.Stated

/-- EQPT and MIGRATE (R140 to R144, R339, R340): EQPT writes TEQ, in a handler nothing, and where a better body is there and no
MIGRATE follows the team continues in it, after its matrix queue; MIGRATE on a core of its target kind goes on, to the other kind
it is queued; .try without a core of that kind clears its predicate; in a handler MIGRATE raises NOT_QUIESCENT.
Where the spec leaves a point open, it states the model's choice: log entries 17, 18 and 52. -/
def Obligations.EquivalencePointsAndMigration : Prop :=
  MigrationsAreQueued ∧
  ∀ (s : State) (tid : Nat) (t : Team) (p : Split) (w : OpA),
    (let c := src s tid t p (.eqpt w)
     let e := w.dN * 256 + w.aN
     let mapped := { c.t with teq := BitVec.ofNat 64 (e + 65536 + 131072) }
     Ready s tid t p (.eqpt w) → c.guarded w = true →
     (p.lvl ≠ 0 → Completes (.eqpt w) s c c.t) ∧
     (p.lvl = 0 → smapEntry c.s c.t e = .ok none → Completes (.eqpt w) s c { c.t with teq := BitVec.ofNat 64 (e + 65536) }) ∧
     (∀ m, p.lvl = 0 → smapEntry c.s c.t e = .ok (some m) →
       (c.better m = none → Completes (.eqpt w) s c mapped) ∧
       (∀ b pc, c.better m = some (b, pc) →
         (migrateNext c.s c.t p.pc (form (.eqpt w)).len = .ok true → Completes (.eqpt w) s c mapped) ∧
         (migrateNext c.s c.t p.pc (form (.eqpt w)).len = .ok false →
           (c.t.mat ≠ [] → exec (.eqpt w) s = .next (c.put (c.t.modSplit p.id fun x => { x with park := some .matrixQueue }))) ∧
           (c.t.mat = [] → ∃ s1 t1, exec (.eqpt w) s = .next s1 ∧ s1.teams.at? tid = some t1 ∧
             EntersBody c.s m mapped t1 b pc none))))) ∧
    (let c := src s tid t p (.migrate w)
     let toL := !bit w.a 0
     let try_ := bit w.a 1
     Ready s tid t p (.migrate w) → c.guarded w = true →
     (p.lvl ≠ 0 → Traps (.migrate w) s c 0x42 [0x0A]) ∧
     (∀ m, p.lvl = 0 → c.quiesce toL = .ok (.ok m) →
       (kindCores c.t.core toL ≠ [] → toL = isL c.t.core →
         ∃ t1, Completes (.migrate w) s c t1 ∧ if try_ = true then SetsQ c.t t1 w.dN true else t1 = c.t) ∧
       (kindCores c.t.core toL = [] → try_ = true →
         ∃ t1, Completes (.migrate w) s c t1 ∧ SetsQ c.t t1 w.dN false) ∧
       (kindCores c.t.core toL = [] → try_ = false → Traps (.migrate w) s c 0x42 [0x08])) ∧
     (∀ x, p.lvl = 0 → c.quiesce toL = .ok (.error x) → Traps (.migrate w) s c 0x42 [x]))

/-- LAUNCH and WAITCHILD (R82, R83, R341, R342): with no earlier access unfenced and a good record, LAUNCH queues the
record for the die with its GRIDID in s[D]; at depth 10 it raises LAUNCH_DEPTH. WAITCHILD with every child retired
returns and clears the failed count; else it parks.
Where the spec leaves a point open, it states the model's choice: log entry 22. -/
def Obligations.ChildLaunches : Prop :=
  ∀ (s : State) (tid : Nat) (t : Team) (p : Split) (w : OpA),
    (let c := src s tid t p (.launch w)
     let va := (c.rdS w.aN).toNat
     ∀ g l x, Ready s tid t p (.launch w) → c.guarded w = true → c.s.teamGrid c.t = some g →
     (g.depth = 10 → Traps (.launch w) s c 0x60 [10]) ∧
     (let key := g.pid * 4 + c.t.core.die
      let q := (c.s.dqueues.at? key).getD []
      let gid := BitVec.ofNat 64 (g.pid * 2 ^ 60 + 2 ^ 59 + c.t.core.die * 2 ^ 57 + (c.s.dcount.get key).toNat % 2 ^ 57)
      g.depth ≠ 10 → fenceDone c.s c.t (c.scopeOf 4) c.s.nextId = true → vaOk va = true → va % 8 = 0 →
      rdRecord c.s c.t va 16 = .ok l → checkRecord c.s g.pid g.ptbase l = .ok x → q.length < 4096 →
      ∃ t1, SetsS c.t t1 c.sp.lvl w.dN gid ∧
        let u := { t1 with children := t1.children + 1 }
        exec (.launch w) s = .next
          { c.put (c.doneTeam u (form (.launch w)).len) with
            dqueues := c.s.dqueues.insert key (q ++ [{ lrec := l, gid := gid, parent := g.gid, team := tid }])
            dcount := c.s.dcount.set key (c.s.dcount.get key + 1) })) ∧
    (let c := src s tid t p (.waitchild w)
     Ready s tid t p (.waitchild w) → c.guarded w = true →
     if c.t.children = 0 then
       ∃ t1, SetsS c.t t1 c.sp.lvl w.dN (BitVec.ofNat 64 c.t.failed) ∧ Completes (.waitchild w) s c { t1 with failed := 0 }
     else exec (.waitchild w) s = .next (c.put (c.t.modSplit p.id fun q =>
       { q with park := some (.waitchild (form (.waitchild w)).len) })))

/-! Memory. -/

namespace Sys2Proof.Stated

/-- An access goes in flight (R195), to another package by the route as it stands (R34), and the split goes past the
instruction; an acquire holds it until what it waits for has returned (R186): the one access, or every earlier one where no
lane accesses. -/
def flown (c : Ctx) (f : Flight) (acq : Option Nat) (none_ : Bool) : State :=
  let f := { f with id := c.s.nextId, split := c.sp.id, anc := c.sp.anc, lvl := c.sp.lvl, since := c.s.clocks,
                    pc := c.sp.pc, slot := (c.sp.clause.map (·.slot)).getD 0,
                    runs := f.runs.map fun r => r.issued c.s (c.s.pidOf c.t) }
  let n := c.s.nextId + 1
  let c := { c with s := { c.s with nextId := n }, t := { c.t with flights := c.t.flights ++ [f] } }
  let t := c.doneTeam c.t 2
  match acq with
  | none => c.put t
  | some scope => settleAcquire (c.put (t.modSplit c.sp.id fun q => { q with park := some (.acquire scope n (!none_) false) })) c.tid

/-- Every lane's address is translated already and reaches a location (R463 finds no fault). -/
def Reaches (c : Ctx) (size access : Nat) (pairs : List (Nat × Nat)) (tr : Nat → Tran) : Prop :=
  c.misses pairs = [] ∧ ∀ e ∈ pairs, c.checkVa size access (fun _ => true) e.2 = .ok (tr e.1)

/-- The lanes with their addresses and locations. -/
def reached (pairs : List (Nat × Nat)) (tr : Nat → Tran) : List (Nat × Nat × Tran) := pairs.map fun e => (e.1, e.2, tr e.1)

/-- Addresses by lane. -/
def lanesAt (ls : List Nat) (addr : Nat → Quad) : List (Nat × Nat) := ls.map fun l => (l, (addr l).toNat)

/-- s[SB] + v[A] + IMM10 × size, modulo 2^64 (R372). -/
def laneAddr (c : Ctx) (w : OpM) (imm : Int) (size l : Nat) : Quad :=
  c.rdS w.sbN + (c.rdV w.aN l).setWidth 64 + BitVec.ofInt 64 (imm * size)

/-- s[SB] + (IMM10 + l) × size, modulo 2^64 (R373, R374). -/
def blockAddr (c : Ctx) (w : OpM) (size l : Nat) : Quad := c.rdS w.sbN + BitVec.ofInt 64 ((w.imm.toInt + l) * size)

/-- An instruction's release has nothing to wait for (R184, R185). -/
def released (c : Ctx) (ord scope : Nat) : Bool := ord < 2 || fenceDone c.s c.t (c.scopeOf scope) c.s.nextId

/-- A SIZE in bytes (R370). -/
def sizeOf_ (w : OpM) : Nat := match w.size with | 0 => 1 | 1 => 1 | 2 => 2 | 3 => 2 | 4 => 4 | 5 => 8 | _ => 16

/-- LD, LDS and LDB (R370 to R374) without a record: each writing lane, for LDS the lowest, reads its address; the access
is in flight on the load path. -/
def LoadsReadTheirAddresses : Prop :=
  ∀ (s : State) (tid : Nat) (t : Team) (p : Split) (i : Instr) (w : OpM) (kind : FKind) (pairs : List (Nat × Nat))
    (tr : Nat → Tran),
    let c := src s tid t p i
    let ls := c.lanes (c.writingM w)
    let size := sizeOf_ w
    Ready s tid t p i →
    ((i = .ld w ∧ w.isRec = false ∧ kind = .load w.size ∧ pairs = lanesAt ls (laneAddr c w w.imm.toInt size)) ∨
     (i = .lds w ∧ kind = .loadU w.size ∧ pairs = lanesAt (ls.take 1) (fun _ => blockAddr c w size 0)) ∨
     (i = .ldb w ∧ kind = .load w.size ∧ pairs = lanesAt ls (blockAddr c w size))) →
    Reaches c size 0 pairs tr →
    exec i s = .next (flown c
      { id := 0, split := 0, path := 0, kind := kind, site := c.atSite w, stream := w.stream, scope := w.scope,
        runs := mkRuns size (reached pairs tr) fun l _ => { lane := l, reg := w.dN, data := 0 } } (c.acqOf w) pairs.isEmpty)

/-- ST, STS and STB (R370 to R374) without a record, their release passed: each lane's data goes to its address; the
access is in flight on the store path. -/
def StoresGoToTheirAddresses : Prop :=
  ∀ (s : State) (tid : Nat) (t : Team) (p : Split) (i : Instr) (w : OpM) (data : Nat → Nat) (pairs : List (Nat × Nat))
    (tr : Nat → Tran),
    let c := src s tid t p i
    let ls := c.lanes (c.writingM w)
    let size := sizeOf_ w
    let value := c.regValue w.dN (max 1 (size / 4))
    Ready s tid t p i → released c w.ord w.scope = true →
    ((i = .st w ∧ w.isRec = false ∧ data = value ∧ pairs = lanesAt ls (laneAddr c w w.imm.toInt size)) ∨
     (i = .sts w ∧ data = (fun _ => (c.rdS w.dN).toNat) ∧ pairs = lanesAt (ls.take 1) (fun _ => blockAddr c w size 0)) ∨
     (i = .stb w ∧ data = value ∧ pairs = lanesAt ls (blockAddr c w size))) →
    Reaches c size 1 pairs tr →
    exec i s = .next (flown c
      { id := 0, split := 0, path := 1, kind := .store, stream := w.stream, scope := w.scope,
        runs := mkRuns size (reached pairs tr) fun l _ => { lane := l, reg := 0, data := data l } } none false)

end Sys2Proof.Stated

/-- LD, LDS, LDB, ST, STS and STB without a record (R370 to R374).
Where the spec leaves a point open, it states the model's choice: log entry 26. -/
def Obligations.LoadsAndStoresReachTheirAddresses : Prop :=
  LoadsReadTheirAddresses ∧ StoresGoToTheirAddresses

namespace Sys2Proof.Stated

/-- The nine atomics by function number (R379). -/
def atomics (w : OpM) : List (Nat × Instr) :=
  [(0, .atomAdd w), (1, .atomMin w), (2, .atomMax w), (3, .atomAnd w), (4, .atomOr w), (5, .atomXor w), (6, .atomXchg w),
   (7, .atomCas w), (8, .atomFadd w)]

/-- LD, ST and the atomics by their opcode and function. -/
def recordAccess (i : Instr) (w : OpM) (op fn : Nat) : Prop :=
  (op = 16 ∧ fn = 0 ∧ i = .ld w) ∨ (op = 17 ∧ fn = 0 ∧ i = .st w) ∨ (op = 18 ∧ (fn, i) ∈ atomics w)

/-- The permissions that an access needs (R169, R172): R, W, or both R and AT. -/
def recordNeed (op : Nat) : Nat := if op = 16 then 1 else if op = 17 then 2 else 5

/-- The number of a record in its uniform register, and the workgroup's records (R170, R172). -/
def recordNo (c : Ctx) (w : OpM) : Nat := (c.rdS w.sbN).toNat % 256
def records (c : Ctx) : List BRec := ((c.s.wgOf c.t).map (·.brecs)).getD []

/-- The structure index v[A] + IMM10 modulo 2^32, and the address of field SIZE of its structure (R170). -/
def recordIndex (c : Ctx) (w : OpM) (l : Nat) : Nat := (c.rdV w.aN l + BitVec.ofInt 32 w.imm.toInt).toNat
def recordAddr (c : Ctx) (w : OpM) (r : BRec) (l : Nat) : Nat :=
  (BRec.base r + recordIndex c w l * BRec.stride r + w.size * BRec.elem r) % 2 ^ 64

/-- The writing lanes whose structure the buffer has, with their addresses; the others perform nothing (R170). -/
def recordPairs (c : Ctx) (w : OpM) (r : BRec) : List (Nat × Nat) :=
  ((c.lanes (c.writingM w)).filter fun l => recordIndex c w l < BRec.extent r).map fun l => (l, recordAddr c w r l)

/-- The access names no register outside the allocation, and reads none too early, beyond D (R171, R304, R379); a pair starts at
an even D (R354). -/
def recordRegs (c c1 : Ctx) (op fn : Nat) (w : OpM) : List Nat → Prop := fun more =>
  recOdd (records c1) (recordNo c1 w) op fn w = false ∧ more = recMore (records c1) (recordNo c1 w) op fn w ∧
  (∀ x ∈ more, Fld.outside .v c.t.regs 0 0 (c.sp.lvl != 0) x = none) ∧
  (op ≠ 16 → c.firstEarly (more.map fun x => (0, x)) = none)

/-- A record that is absent, invalid, reserved or without the permission, and a field beyond its fields, raise PROTECTION
with the record's number (R172, R372). -/
def RefusedRecordsTrap : Prop :=
  ∀ (s : State) (tid : Nat) (t : Team) (p : Split) (i : Instr) (w : OpM) (op fn : Nat),
    let c := src s tid t p i
    let n := recordNo c w
    recordAccess i w op fn → w.isRec = true → Ready s tid t p i → c.lanes (c.writingM w) ≠ [] →
    (op ≠ 16 → released c w.ord w.scope = true) →
    ((records c)[n]? = none → TrapsWith i s c c.t 0x11 [n] (c.writingM w)) ∧
    (∀ r, (records c)[n]? = some r →
      ((BRec.f r 2 28 28 = 0 ∨ BRec.etype r = 7 ∨ (BRec.f r 2 27 25) &&& recordNeed op ≠ recordNeed op ∨
          BRec.f r 1 63 48 ≠ 0 ∨ BRec.f r 2 63 29 ≠ 0 ∨ BRec.f r 3 63 32 ≠ 0 ∨ BRec.f r 4 63 0 ≠ 0) →
        TrapsWith i s c c.t 0x11 [n] (c.writingM w)) ∧
      (recFault (records c) n (recordNeed op) = none → (op = 18 → recAtomSize r fn ≠ none) → BRec.nf r ≤ w.size →
        TrapsWith i s c c.t 0x11 [n] (c.writingM w)))

/-- An odd D where the record moves pairs is no legal encoding (R354, R372, R379). -/
def OddPairsTrap : Prop :=
  ∀ (s : State) (tid : Nat) (t : Team) (p : Split) (i : Instr) (w : OpM) (op fn : Nat) (r : BRec),
    let c := src s tid t p i
    recordAccess i w op fn → w.isRec = true → Issues s tid t p → i.wf = true →
    (records c)[recordNo c w]? = some r → recFault (records c) (recordNo c w) (recordNeed op) = none → w.size < BRec.nf r →
    (op = 18 → recAtomSize r fn ≠ none) → BRec.elem r = 8 → w.dN % 2 = 1 →
    Traps i s (start s tid t p) 0x01 [((encode i).headD 0).toNat, 0xFFFFFFFF]

/-- LD through a record: the lanes read their addresses, converted as the record says (R171); those beyond EXTENT get 0. -/
def RecordLoads : Prop :=
  ∀ (s : State) (tid : Nat) (t : Team) (p : Split) (w : OpM) (r : BRec) (tr : Nat → Tran) (more : List Nat),
    let c := src s tid t p (.ld w)
    let pairs := recordPairs c w r
    w.isRec = true → Ready s tid t p (.ld w) → recordRegs (start s tid t p) c 16 0 w more → c.lanes (c.writingM w) ≠ [] →
    (records c)[recordNo c w]? = some r → recFault (records c) (recordNo c w) 1 = none → w.size < BRec.nf r →
    Reaches c (BRec.elem r) 0 pairs tr →
    exec (.ld w) s = .next (flown c
      { id := 0, split := 0, path := 0, kind := .loadRec r, site := c.atSite w, stream := w.stream, scope := w.scope,
        runs := mkRuns (BRec.elem r) (reached pairs tr) fun l _ => { lane := l, reg := w.dN, data := 0 },
        zero := ((c.lanes (c.writingM w)).filter fun l => BRec.extent r ≤ recordIndex c w l).flatMap fun l =>
          (List.range (valueRegs (BRec.elem r))).map fun k => (l, w.dN + k) } (c.acqOf w) pairs.isEmpty)

/-- ST through a record: the lanes' values, converted as the record says, go to their addresses; the conversion's flags are
set (R171, R243). -/
def RecordStores : Prop :=
  ∀ (s : State) (tid : Nat) (t : Team) (p : Split) (w : OpM) (r : BRec) (tr : Nat → Tran) (more : List Nat),
    let c1 := src s tid t p (.st w)
    let c := c1.earlyOf (more.map fun x => (0, x))
    let pairs := recordPairs c w r
    let x := fun l => recStore r (c.regValue w.dN (valueRegs (BRec.elem r)) l)
    let d := { c with t := c.t.orFlags ((pairs.map fun e => (x e.1).2).foldl (· ||| ·) 0) }
    w.isRec = true → Ready s tid t p (.st w) → recordRegs (start s tid t p) c1 17 0 w more →
    c.lanes (c.writingM w) ≠ [] → released c w.ord w.scope = true → (records c)[recordNo c w]? = some r →
    recFault (records c) (recordNo c w) 2 = none → w.size < BRec.nf r → Reaches d (BRec.elem r) 1 pairs tr →
    exec (.st w) s = .next (flown d
      { id := 0, split := 0, path := 1, kind := .store, stream := w.stream, scope := w.scope,
        runs := mkRuns (BRec.elem r) (reached pairs tr) fun l _ => { lane := l, reg := 0, data := (x l).1 } } none false)

/-- An atomic through a record that does not convert: the type follows from the record (R379); a record that converts, or
does not give the function, raises ATOMIC_UNSUPPORTED_TYPE (R171, R379, R380). -/
def RecordAtomics : Prop :=
  ∀ (s : State) (tid : Nat) (t : Team) (p : Split) (i : Instr) (w : OpM) (fn : Nat) (r : BRec) (tr : Nat → Tran)
    (more : List Nat),
    let c1 := src s tid t p i
    let c := c1.earlyOf (more.map fun x => (0, x))
    let pairs := recordPairs c w r
    w.isRec = true → (fn, i) ∈ atomics w → Ready s tid t p i → recordRegs (start s tid t p) c1 18 fn w more →
    c.lanes (c.writingM w) ≠ [] → (records c)[recordNo c w]? = some r → recFault (records c) (recordNo c w) 5 = none →
    (recAtomSize r fn = none → Traps i s c 0x50 [0xFFFFFFFF, fn]) ∧
    (∀ sz, recAtomSize r fn = some sz → released c w.ord w.scope = true → w.size < BRec.nf r →
      let size := if fn = 8 then 4 else sizeBytes sz
      let k := valueRegs size
      let value := fun l => c.regValue w.dN k l
      let lines := (reached pairs tr).filterMap fun e => match e.2.2.loc with | .mem pa => some (lineOf pa) | _ => none
      Reaches c size 2 pairs tr →
      (∀ e ∈ pairs, atomAccepts (c.rowOf (tr e.1).loc) (nearLoc (tr e.1).loc) fn sz = true) →
      exec i s = .next (flown { c with s := l1Drop c.s c.t.core fun l => lines.contains l.line }
        { id := 0, split := 0, path := 3, kind := .atomic fn (sz + (if w.stream then 8 else 0)), scope := w.scope,
          runs := mkRuns size (reached pairs tr) fun l _ =>
            if fn = 7 then { lane := l, reg := w.dN, data := c.regValue (w.dN + k) k l, cmp := value l }
            else { lane := l, reg := w.dN, data := value l } }
        (c.acqOf w) pairs.isEmpty))

end Sys2Proof.Stated

/-- LD, ST and the atomics through a buffer record (R169 to R172, R379): lane l reaches BASE + index × STRIDE + field ×
element, the index v[A] + IMM10 modulo 2^32; a lane whose index is EXTENT or above reads zero and stores nothing. A record
that is absent or that R172 refuses, and a field beyond the record's fields, raise PROTECTION with the record's number; an
odd D of 64-bit elements is no legal encoding (R354).
Where the spec leaves a point open, it states the model's choice: log entries 25 and 26. -/
def Obligations.BufferRecordsAddressElements : Prop :=
  RefusedRecordsTrap ∧ OddPairsTrap ∧ RecordLoads ∧ RecordStores ∧ RecordAtomics

/-- LDRES and STCOND (R200, R375, R376): an LDRES over reservable locations asks each site for the granules of its 32
lowest active lanes, none of them reserved before its site performs the load; a STCOND takes the split's reservation with
its stores, a lane after another, and leaves none.
Where the spec leaves a point open, it states the model's choice: log entry 14. -/
def Obligations.ReservationsAreTakenAndSpent : Prop :=
  ∀ (s : State) (tid : Nat) (t : Team) (p : Split) (w : OpM) (tr : Nat → Tran),
    let size := sizeOf_ w
    w.isRec = false →
    (let c := src s tid t p (.ldres w)
     let pairs := lanesAt (c.lanes (c.writingM w)) (laneAddr c w w.imm.toInt size)
     let asks := pairs.filter fun e => ((c.lanes p.mask).take 32).contains e.1
     Ready s tid t p (.ldres w) → Reaches c size 0 pairs tr → (∀ e ∈ pairs, reservable c.s (tr e.1).loc = true) →
     ∃ r : Option Resv, (r = none ↔ asks = []) ∧
       (∀ q, r = some q → q.count = 0 ∧ q.granules = [] ∧ q.flight = c.s.nextId ∧
         ∀ g, g ∈ q.pending ↔ ∃ e ∈ asks, g = granuleOf (tr e.1).loc) ∧
       exec (.ldres w) s = .next (flown { c with t := c.t.modSplit p.id fun q => { q with resv := r } }
         { id := 0, split := 0, path := 0, kind := .load w.size, site := true, stream := w.stream, scope := w.scope,
           resvs := true,
           runs := mkRuns size (reached pairs tr) fun l _ => { lane := l, reg := w.dN, data := 0 } }
         (c.acqOf w) pairs.isEmpty)) ∧
    (let c := src s tid t p (.stcond w)
     let pairs := lanesAt (c.lanes (c.writingM w)) (laneAddr c w (w.imm.extractLsb' 0 7).toInt size)
     Ready s tid t p (.stcond w) → released c w.ord w.scope = true → Reaches c size 1 pairs tr →
     exec (.stcond w) s = .next (flown { c with t := c.t.modSplit p.id fun q => { q with resv := none } }
       { id := 0, split := 0, path := 1, kind := .stcond (bits w.imm 9 7), stream := w.stream, scope := w.scope,
         resv := c.sp.resv,
         runs := laneRuns size (reached pairs tr) fun l =>
           { lane := l, reg := 0, data := c.regValue w.dN (max 1 (size / 4)) l } }
       (c.acqOf w) pairs.isEmpty))

/-- PREF and PROBE (R377, R378) without a record: PREF goes on, having asked for lines that its lanes' addresses reach, which
may come in at any later moment; with .stream it asks for none. PROBE goes on once every lane's address translates, with no
access. Where the spec leaves a point open, it states the model's choice: log entry 26. -/
def Obligations.PrefetchesAndProbesGoOn : Prop :=
  ∀ (s : State) (tid : Nat) (t : Team) (p : Split) (w : OpM),
    w.isRec = false →
    (let c := src s tid t p (.pref w)
     let pairs := lanesAt (c.lanes (c.writingM w)) (laneAddr c w w.imm.toInt (sizeOf_ w))
     Ready s tid t p (.pref w) →
     ∃ asked, Completes (.pref w) s c { c.t with prefs := c.t.prefs ++ asked } ∧ (w.stream = true → asked = []) ∧
       ∀ x ∈ asked, ∃ e ∈ pairs, ∃ tr, c.checkVa (sizeOf_ w) 0 (fun _ => true) e.2 = .ok tr ∧ tr.loc = x) ∧
    (let c := src s tid t p (.probe w)
     let pairs := (lanesAt (c.lanes (c.writingM w)) (laneAddr c w w.imm.toInt (sizeOf_ w))).filter fun e =>
       !(vaOk e.2 && inWindow e.2)
     ∀ tr, Ready s tid t p (.probe w) → Reaches c 1 0 pairs tr → Completes (.probe w) s c c.t)

namespace Sys2Proof.Stated

/-- A value after an atomic of n bits (R198, R379): function, signed, old, operand, compare value. -/
def atomicValue {n : Nat} (fn : Nat) (sg : Bool) (old x cmp : BitVec n) : BitVec n :=
  match fn with
  | 0 => old + x
  | 1 => if numOf sg x < numOf sg old then x else old
  | 2 => if numOf sg old < numOf sg x then x else old
  | 3 => old &&& x
  | 4 => old ||| x
  | 5 => old ^^^ x
  | 6 => x
  | _ => if old = cmp then x else old

/-- A run of a flight of a team, ready to be performed alone at a memory address of a line (R45, R61, R183, R190, R404). -/
def Performs (s : State) (tid : Nat) (t : Team) (f : Flight) (ri : Nat) (r : Run) (pa : Nat) : Prop :=
  s.teams.at? tid = some t ∧ t.flights.find? (·.id == f.id) = some f ∧ f.runs[ri]? = some r ∧ r.done = false ∧
  runFree t f ri r = true ∧ r.loc = .mem pa ∧ pa % 128 + r.bytes ≤ 128 ∧ heldRun s f.kind.writes r = false ∧
  deadRun s r = false ∧ rereadHeld s t.core [(r.loc, r.bytes)] = false ∧ f.matFree s t ri = true ∧ f.path ≠ 4 ∧
  runsAt s f ri = [ri]

/-- Memory takes the little-endian value at an address and no other byte changes. -/
def Stores (s s1 : State) (pa n value : Nat) : Prop :=
  (∀ k, k < n → s1.mem.byte (memKey s pa + k) = BitVec.ofNat 8 (value / 256 ^ k)) ∧
  (∀ a, (a < memKey s pa ∨ memKey s pa + n ≤ a) → s1.mem.byte a = s.mem.byte a)

end Sys2Proof.Stated

/-- The atomics (R379 to R381) without a record, where their site accepts them: the lanes' operands are in flight on the
atomic path, the core's own lines of the locations dropped. A lane whose site does not accept raises ATOMIC_UNSUPPORTED_TYPE with
the row of the lowest such lane.
Where the spec leaves a point open, it states the model's choice: log entry 26. -/
def Obligations.AtomicsGoToTheirSites : Prop :=
  ∀ (s : State) (tid : Nat) (t : Team) (p : Split) (i : Instr) (w : OpM) (fn : Nat) (tr : Nat → Tran),
    let c := src s tid t p i
    let size := if fn = 8 then 4 else sizeOf_ w
    let k := max 1 (size / 4)
    let pairs := lanesAt (c.lanes (c.writingM w)) (laneAddr c w w.imm.toInt size)
    let value := fun l => c.regValue w.dN k l
    let lines := (reached pairs tr).filterMap fun e => match e.2.2.loc with | .mem pa => some (lineOf pa) | _ => none
    let accepts := fun l => atomAccepts (c.rowOf (tr l).loc) (nearLoc (tr l).loc) fn w.size
    Ready s tid t p i → (fn, i) ∈ atomics w → w.isRec = false → released c w.ord w.scope = true → Reaches c size 2 pairs tr →
    ((∀ e ∈ pairs, accepts e.1 = true) →
      exec i s = .next (flown { c with s := l1Drop c.s c.t.core fun l => lines.contains l.line }
        { id := 0, split := 0, path := 3, kind := .atomic fn (w.size + (if w.stream then 8 else 0)), scope := w.scope,
          runs := mkRuns size (reached pairs tr) fun l _ =>
            if fn = 7 then { lane := l, reg := w.dN, data := c.regValue (w.dN + k) k l, cmp := value l }
            else { lane := l, reg := w.dN, data := value l } }
        (c.acqOf w) pairs.isEmpty)) ∧
    (∀ l, (pairs.map (·.1)).find? (fun x => !accepts x) = some l → Traps i s c 0x50 [c.rowOf (tr l).loc, fn])

namespace Sys2Proof.Stated

/-- A store performed at its site (R187): its bytes, little-endian, and no other byte of memory. -/
def PerformedStoresWriteTheirBytes : Prop :=
  ∀ (s : State) (tid : Nat) (t : Team) (f : Flight) (ri : Nat) (r : Run) (a : LaneAcc) (pa : Nat),
    Performs s tid t f ri r pa → f.kind = .store → r.accs = [a] →
    ∃ s1, exec (.homeWrite tid f.id ri) s = .next s1 ∧ Stores s s1 pa r.bytes a.data

/-- An atomic performed at its site (R198, R381): memory takes the new value, the lane the old one. -/
def PerformedAtomicsUpdateTheirWord : Prop :=
  ∀ (s : State) (tid : Nat) (t : Team) (f : Flight) (ri : Nat) (r : Run) (a : LaneAcc) (pa fn sz : Nat) (sg : Bool),
    let n := 8 * r.bytes
    let old := leNat (s.mem.read (memKey s pa) r.bytes)
    Performs s tid t f ri r pa → f.kind = .atomic fn (sz + if sg then 8 else 0) → fn ≤ 7 →
    ((sz = 4 ∧ r.bytes = 4) ∨ (sz = 5 ∧ r.bytes = 8)) → r.accs = [a] → a.data < 2 ^ n → a.cmp < 2 ^ n →
    ∃ s1, exec (.homeWrite tid f.id ri) s = .next s1 ∧
      Stores s s1 pa r.bytes
        (atomicValue fn sg (BitVec.ofNat n old) (BitVec.ofNat n a.data) (BitVec.ofNat n a.cmp)).toNat ∧
      ∃ t1 f1 r1, s1.teams.at? tid = some t1 ∧ t1.flights.find? (·.id == f.id) = some f1 ∧ f1.runs[ri]? = some r1 ∧
        r1.done = true ∧ r1.accs = [{ a with old := old }]

/-- The oldest load of a team completes (R195, R371): a lane's register takes the value by its SIZE, sign- or zero-extended,
and no other register of the level changes. -/
def CompletedLoadsWriteTheirRegister : Prop :=
  ∀ (s : State) (tid : Nat) (t : Team) (f : Flight) (r : Run) (a : LaneAcc) (sz : Nat),
    s.teams.at? tid = some t → t.flights = f :: t.flights.tail → (∀ g ∈ t.flights.tail, g.id ≠ f.id) → f.path = 0 →
    f.kind = .load sz → sz ≤ 4 → f.runs = [r] → r.done = true → r.req = none → r.accs = [a] →
    a.live = true → a.cut = 0 → f.zero = [] → f.lvl = 0 →
    a.lane < 1024 → a.old < 2 ^ (8 * r.bytes) → r.bytes = (match sz with | 0 => 1 | 1 => 1 | 2 => 2 | 3 => 2 | _ => 4) →
    ∃ t1, exec (.loadComplete tid) s = .next (settleEnd (settleAcquire (s.setTeam tid t1) tid) tid) ∧
      t1.flights = t.flights.tail ∧ (∀ n, t1.rdS 0 n = t.rdS 0 n) ∧
      ∀ n l, l < 1024 → t1.rdV 0 n l = if n = a.reg ∧ l = a.lane then (match sz with
        | 1 => (BitVec.ofNat 8 a.old).signExtend 32
        | 3 => (BitVec.ofNat 16 a.old).signExtend 32
        | _ => BitVec.ofNat 32 a.old) else t.rdV 0 n l

end Sys2Proof.Stated

/-- Stores and atomics at their sites, loads at their registers (R187, R195, R198, R371, R381).
Where the spec leaves a point open, it states the model's choice: log entries 4 and 26. -/
def Obligations.AccessesArePerformed : Prop :=
  PerformedStoresWriteTheirBytes ∧ PerformedAtomicsUpdateTheirWord ∧ CompletedLoadsWriteTheirRegister

/-! Fences, barriers, waits, FIFOs. -/

/-- FENCE and WAITP (R193, R383, R384): with no access of the team unfenced and no operand of a matrix instruction unread
(R404), a FENCE goes on, an acquire at pkg or sys
dropping the core's lines homed on other dies and FENCE.sc every line; a WAITP goes on at its count and parks above it.
Where the spec leaves a point open, it states the model's choice: log entry 26. -/
def Obligations.FencesAndPathWaits : Prop :=
  ∀ (s : State) (tid : Nat) (t : Team) (p : Split) (w : OpA),
    (let c := src s tid t p (.fence w)
     let ord := w.md 6 5
     let sc := c.scopeOf (w.md 9 7)
     let len := (form (.fence w)).len
     Ready s tid t p (.fence w) → c.t.flights = [] → (∀ q ∈ c.t.splits, q.park = none) →
     (ord ≠ 1 → fenceDone c.s c.t sc c.s.nextId = true) → (ord ≠ 2 → ∀ m ∈ c.t.mat, m.unread = false) →
     exec (.fence w) s = .next (if ord = 2 then c.put (c.doneTeam c.t len)
       else acquireInval (c.put (c.doneTeam c.t len)) c.t.core sc (ord = 0))) ∧
    (let c := src s tid t p (.waitp w)
     let n := (c.rdS w.aN).toNat
     Ready s tid t p (.waitp w) → c.guarded w = true →
     if (c.t.flights.filter fun f => f.path == w.dN).length ≤ n then Completes (.waitp w) s c c.t
     else exec (.waitp w) s = .next (c.put (c.t.modSplit p.id fun q => { q with park := some (.waitp w.dN n) })))

namespace Sys2Proof.Stated

/-- A word of a workgroup's scratchpad. -/
def scrWord (s : State) (wg off n : Nat) : Nat := leNat (((s.wgs.at? wg).map fun g => g.scr.read off n).getD [])

/-- The word at an offset takes a value; no other byte of the scratchpad and no byte of memory changes. -/
def WritesScr (s s1 : State) (wg off value : Nat) : Prop :=
  scrWord s1 wg off 8 = value ∧ s1.mem = s.mem ∧
  ∀ a, (a < off ∨ off + 8 ≤ a) → scrWord s1 wg a 1 = scrWord s wg a 1

/-- A barrier's word from its fields: EXPECT, ARRIVED, GEN (R201). -/
def barrier (expect arrived gen : Nat) : Nat := expect + arrived * 2 ^ 16 + gen * 2 ^ 32

/-- A barrier instruction acts on a word of its own workgroup's scratchpad, with no access of the team in flight and no data of the
word being read again (R61). -/
def AtBarrier (c : Ctx) (w : OpA) (wg off : Nat) : Prop :=
  let va := (c.rdS w.aN).toNat
  c.guarded w = true ∧ vaOk va = true ∧ inWindow va = true ∧ windowLoc c.s c.t.core c.t.wg va = some (.scr wg off) ∧
  va % 8 = 0 ∧ (c.s.wgs.at? wg).isSome ∧ c.t.flights = [] ∧ fenceDone c.s c.t (c.scopeOf (barScope w)) c.s.nextId = true ∧
  rereadHeld c.s c.t.core [(.scr wg off, 8)] = false

/-- The instruction's split stands past it in a later state, not parked. -/
def Past (s1 : State) (tid : Nat) (p : Split) (len : Nat) : Prop :=
  ∃ t1 q, s1.teams.at? tid = some t1 ∧ t1.split? p.id = some q ∧ q.pc = p.pc + len ∧ q.park = none

end Sys2Proof.Stated

/-- Barriers (R201, R385): BARINIT sets EXPECT and clears ARRIVED, GEN kept; an arrival counts ARRIVED up, and the one
that reaches EXPECT clears it and counts GEN up; BARARR returns the GEN it found; BARWAIT goes on when GEN differs from
s[B]; BARSYNC arrives and, last to arrive, goes on.
Where the spec leaves a point open, it states the model's choice: log entry 50. -/
def Obligations.BarriersCountArrivals : Prop :=
  ∀ (s : State) (tid : Nat) (t : Team) (p : Split) (i : Instr) (w : OpA) (wg off e a g : Nat),
    let c := src s tid t p i
    let len := (form i).len
    let arrival := if a + 1 = e then barrier e 0 ((g + 1) % 65536) else barrier e (a + 1) g
    Ready s tid t p i → p.park = none → AtBarrier c w wg off → scrWord s wg off 8 = barrier e a g →
    e < 65536 → a < 65535 → g < 65536 →
    (i = .barinit w → ∃ s1, exec i s = .next s1 ∧ Past s1 tid p len ∧
      WritesScr s s1 wg off (barrier ((c.rdS (fieldB w)).toNat % 65536) 0 g)) ∧
    (i = .bararr w → e ≠ 0 → ∃ s1, exec i s = .next s1 ∧ Past s1 tid p len ∧ WritesScr s s1 wg off arrival ∧
      ∃ t1, s1.teams.at? tid = some t1 ∧ t1.rdS c.sp.lvl w.dN = BitVec.ofNat 64 g) ∧
    (i = .barwait w → (c.rdS (fieldB w)).toNat % 65536 ≠ g → ∃ s1, exec i s = .next s1 ∧ Past s1 tid p len ∧
      WritesScr s s1 wg off (barrier e a g)) ∧
    (i = .barsync w → e = a + 1 → ∃ s1, exec i s = .next s1 ∧ Past s1 tid p len ∧ WritesScr s s1 wg off arrival)

/-- WAITW (R386) on a word of scratchpad: it goes on when the condition holds, the word an unsigned number, else parks.
Where the spec leaves a point open, it states the model's choice: log entries 26 and 50. -/
def Obligations.WordWaits : Prop :=
  ∀ (s : State) (tid : Nat) (t : Team) (p : Split) (w : OpA) (l : Nat) (tr : Tran) (wg off : Nat),
    let c := src s tid t p (.waitw w)
    let size : Nat := if w.md 4 2 = 4 then 4 else 8
    let va := (c.rdS w.aN).toNat
    let v : Nat := (c.rdS (fieldB w)).toNat % 2 ^ (8 * size)
    Ready s tid t p (.waitw w) → p.park = none → (c.lanes (c.writing w.gN w.gnB)).head? = some l → c.misses [(l, va)] = [] →
    c.checkVa size 0 (fun _ => true) va = .ok tr → tr.loc = .scr wg off → (s.wgs.at? wg).isSome → c.t.flights = [] →
    rereadHeld c.s c.t.core [(.scr wg off, size)] = false →
    ∃ s1, exec (.waitw w) s = .next s1 ∧ s1.mem = s.mem ∧
      (holds (fieldC w) (scrWord s wg off size) v → Past s1 tid p (form (.waitw w)).len) ∧
      (¬holds (fieldC w) (scrWord s wg off size) v → ∃ t1 q, s1.teams.at? tid = some t1 ∧ t1.split? p.id = some q ∧
        q.pc = p.pc ∧ q.park.isSome)

/-- QPUSH and QPOP (R157, R387): one entry a pass of 32 lanes; QPUSH appends them with zero in the other lanes, QPOP takes
the oldest into a load in flight that holds, for each writing lane and no other, that lane's word of its pass's entry. The
block's data are not being read again (R61).
Where the spec leaves a point open, it states the model's choice: log entry 26. -/
def Obligations.FifosMoveEntries : Prop :=
  ∀ (s : State) (tid : Nat) (t : Team) (p : Split) (w : OpA) (b : Nat),
    let n := (passes p.mask).length
    let free := s.dev.rereads.all fun x => !placeHit x [(.scr t.wg (b * 32768), 32768)]
    free = true →
    (let c := src s tid t p (.qpush w)
     let on := c.writing w.gN w.gnB
     Ready s tid t p (.qpush w) → released c (w.md 6 5) (w.md 9 7) = true → c.fifoBlock (c.rdS w.aN) = some b →
     fifoAhead c.s c.t.wg b c.s.nextId true = false → (fifoOf c.s c.t.wg b).length + n ≤ 256 →
     ∃ (es : List Nat) (s1 : State), exec (.qpush w) s = .next s1 ∧ fifoOf s1 c.t.wg b = fifoOf s c.t.wg b ++ es ∧ es.length = n ∧
       s1.mem = s.mem ∧ s1.teams.at? tid = some ((c.t.modSplit p.id fun q =>
         nextSplit (form (.qpush w)).len (countIssue 1 { q with park := none }))) ∧
       ∀ k x j : Nat, es[k]? = some x → (passes p.mask)[k]? = some j → ∀ y, y < 32 → x / 2 ^ (32 * y) % 2 ^ 32 =
         if on.getLsbD (32 * j + y) then (c.rdV (fieldB w) (32 * j + y)).toNat else 0) ∧
    (let c := src s tid t p (.qpop w)
     let on := c.writing w.gN w.gnB
     let entry := fun l : Nat => (fifoOf s c.t.wg b).getD ((passes p.mask).idxOf (l / 32)) 0
     Ready s tid t p (.qpop w) → c.fifoBlock (c.rdS w.aN) = some b →
     fifoAhead c.s c.t.wg b c.s.nextId false = false → n ≤ (fifoOf s c.t.wg b).length →
     ∃ (f : Flight) (r : Run) (s1 : State), exec (.qpop w) s = .next s1 ∧ s1.mem = s.mem ∧
       fifoOf s1 c.t.wg b = (fifoOf s c.t.wg b).drop n ∧
       s1.teams.at? tid = some (({ c.t with flights := c.t.flights ++ [f] } : Team).modSplit p.id fun q =>
         { nextSplit (form (.qpop w)).len (countIssue 1 { q with park := none }) with
             park := if w.md 6 5 = 1 then some (.acquire (c.scopeOf (w.md 9 7)) (f.id + 1) (on != 0) false) else none }) ∧
       f.path = 0 ∧ f.kind = .fifo ∧ f.split = p.id ∧ f.lvl = p.lvl ∧ f.runs = [r] ∧ r.done = true ∧
       ∀ l, l < 1024 → r.accs.filter (fun a => a.lane == l) =
         if on.getLsbD l then [{ lane := l, reg := w.dN, data := 0, old := entry l / 2 ^ (32 * (l % 32)) % 2 ^ 32 }] else [])

/-! Layouts, tiles, engines. -/

/-- LSET, LGET, HSET, HGET (R204, R211, R390): an accepted image enters its register, a refused one raises OPERAND_FORMAT;
the images are read back in quadwords. -/
def Obligations.LayoutAndHandleRegisters : Prop :=
  ∀ (s : State) (tid : Nat) (t : Team) (p : Split) (w : OpA),
    (let c := src s tid t p (.lset w)
     let consts := ((c.s.wgOf c.t).map (·.lconsts)).getD []
     ∀ x : BitVec 512, Ready s tid t p (.lset w) → c.guarded w = true →
     (if w.md 0 0 = 1 then consts[w.aN]? = some x else ∀ j, j < 8 → x.extractLsb' (64 * j) 64 = c.rdS (w.aN + j)) →
     if imageOk x = true then ∃ t1, Completes (.lset w) s c t1 ∧ t1 = { c.t with ly := t1.ly } ∧
         ∀ k, t1.ly.get k = if k = w.dN then x else c.t.ly.get k
     else Traps (.lset w) s c 0x23 [w.dN, if w.md 0 0 = 1 then w.aN else 0xFFFFFFFF]) ∧
    (let c := src s tid t p (.lset w)
     let consts := ((c.s.wgOf c.t).map (·.lconsts)).getD []
     Ready s tid t p (.lset w) → c.guarded w = true → w.md 0 0 = 1 → consts.length ≤ w.aN →
     Traps (.lset w) s c 0x23 [w.dN, w.aN]) ∧
    (let c := src s tid t p (.lget w)
     Ready s tid t p (.lget w) → c.guarded w = true →
     ∃ t1, Completes (.lget w) s c t1 ∧ t1 = { c.t with s := t1.s, uframe := t1.uframe, kframe := t1.kframe } ∧
       ∀ r, t1.rdS c.sp.lvl r = if w.dN ≤ r ∧ r < w.dN + 8 then (c.t.ly.get w.aN).extractLsb' (64 * (r - w.dN)) 64
         else c.t.rdS c.sp.lvl r) ∧
    (let c := src s tid t p (.hset w)
     let x : BitVec 128 := c.rdS (w.aN + 1) ++ c.rdS w.aN
     Ready s tid t p (.hset w) → c.guarded w = true →
     if handleOk x = true then ∃ t1, Completes (.hset w) s c t1 ∧ t1 = { c.t with h := t1.h } ∧
         ∀ k, t1.h.get k = if k = w.dN then x else c.t.h.get k
     else Traps (.hset w) s c 0x23 [w.dN]) ∧
    (let c := src s tid t p (.hget w)
     Ready s tid t p (.hget w) → c.guarded w = true →
     ∃ t1, Completes (.hget w) s c t1 ∧ t1 = { c.t with s := t1.s, uframe := t1.uframe, kframe := t1.kframe } ∧
       ∀ r, t1.rdS c.sp.lvl r = if w.dN ≤ r ∧ r < w.dN + 2 then (c.t.h.get w.aN).extractLsb' (64 * (r - w.dN)) 64
         else c.t.rdS c.sp.lvl r)

namespace Sys2Proof.Stated

/-- The layout operations on register A (R213 to R218): the layout they give, or the trap. -/
def layoutOp (i : Instr) (c : Ctx) : Option (Except TrapWhy Lay) :=
  match i with
  | .lchain w => some (lchainOf (c.t.lay w.aN) (c.t.lay (fieldB w)))
  | .lpart w => some (lpartOf (c.t.lay w.aN) (w.md 2 0) (c.rdS (fieldB w)).toNat (w.md 5 3))
  | .lflat w => some (lflatOf (c.t.lay w.aN) (w.md 2 0))
  | .lslice w => some (lsliceOf (c.t.lay w.aN) (w.md 2 0) (c.rdS (fieldB w)).toNat)
  | .ltrans w => (ltransOf (c.t.lay w.aN) (c.rdS (fieldB w))).map .ok
  | _ => none

end Sys2Proof.Stated

/-- LCHAIN, LPART, LTRANS, LFLAT and LSLICE (R213 to R218, R392): a result whose image is well formed enters l[D]; a fault
of the operation raises its trap and writes nothing; entries that are no permutation make LTRANS an ILLEGAL_ENCODING. -/
def Obligations.LayoutOperations : Prop :=
  ∀ (s : State) (tid : Nat) (t : Team) (p : Split) (i : Instr) (fn : Nat) (w : OpA) (g : Sig),
    let c := src s tid t p i
    Ready s tid t p i → form i = .a 20 fn w g → c.guarded w = true →
    (∀ l, layoutOp i c = some (.ok l) → imageOk l.image = true →
      ∃ t1, Completes i s c t1 ∧ t1 = { c.t with ly := t1.ly } ∧
        ∀ k, t1.ly.get k = if k = w.dN then l.image else c.t.ly.get k) ∧
    (∀ e, layoutOp i c = some (.error e) → Traps i s c e.1 e.2) ∧
    (i = .ltrans w → ltransOf (c.t.lay w.aN) (c.rdS (fieldB w)) = none →
      Traps i s c 0x01 [((encode i).headD 0).toNat, 0xFFFFFFFF])

/-- Splitting a mode into modes of its own space (R215) and merging two (R217) leave the offsets of every index as they
were. -/
def Obligations.SplitsAndMergesKeepOffsets : Prop :=
  ∀ (x : BitVec 512) (k f : Nat) (l : Lay),
    (lflatOf (Lay.read x) k = .ok l → ∀ i, l.eval i = (Lay.read x).eval i) ∧
    (∀ m, (Lay.read x).modes[k]? = some m → lpartOf (Lay.read x) k f m.space = .ok l →
      ∀ i, l.eval i = (Lay.read x).eval i)

namespace Sys2Proof.Stated

/-- The handle and layout of an LDT or STT's memory side, and its register layout. -/
def tileSides (c : Ctx) (w : OpM) : Hdl × Lay × Lay :=
  (c.t.hdl (tileH w.a.toNat), c.t.lay (tileL w.a.toNat), c.t.lay w.sbN)

/-- LDT and STT pass their checks and every element reaches a location (R220, R375, R463). -/
def TileReaches (c c1 : Ctx) (w : OpM) (access : Nat) (es : List TElem) (tr : TElem → Tran) : Prop :=
  let x := tileSides c w
  c.sp.image = none ∧ c.unreach (tileH w.a.toNat) = false ∧
  c1 = { c with t := c.t.setLstat (c.tileDegree (c.writingM w) x.1 x.2.1 x.2.2) 0 false } ∧
  c1.tileCheck w x.1 x.2.1 x.2.2 = none ∧ es = tileElems (c.writingM w) w.dN x.1 x.2.1 x.2.2 ∧
  released c1 w.ord w.scope = true ∧
  c1.misses (es.filterMap fun e => match e.place with | .va a => some (e.lane, a) | _ => none) = [] ∧
  ∀ e ∈ es, c1.checkElem x.2.1.width access x.1 e = .ok (tr e)

end Sys2Proof.Stated

/-- LCHECK, LDT and STT (R207 to R209, R226, R375, R393): LCHECK writes LSTAT with degree, class and ways; LDT and STT
write LSTAT's degree and move one element of the memory operand per index of the register layout: lane, register and slot
by Evaluate; LDT by ascending lane, STT by ascending index. An unreachable handle raises HANDLE_UNREACHABLE.
Where the spec leaves a point open, it states the model's choice: log entry 28. -/
def Obligations.TileAccesses : Prop :=
  ∀ (s : State) (tid : Nat) (t : Team) (p : Split) (w : OpM) (v : OpA) (c1 : Ctx) (es : List TElem) (tr : TElem → Tran),
    (let c := src s tid t p (.lcheck v)
     let h := if v.md 2 0 = 5 then { c.t.hdl (tileH v.aN) with base := 0 } else c.t.hdl (tileH v.aN)
     let l := c.t.lay (tileL v.aN)
     let k := accept (v.md 2 0) h l
     Ready s tid t p (.lcheck v) → c.guarded v = true →
     if c.unreach (tileH v.aN) = true then Traps (.lcheck v) s c 0x15 [tileH v.aN]
     else Completes (.lcheck v) s c
       { c.t with lstat := BitVec.ofNat 64 (min 32 (firstDegree h l) + k.cls * 64 + k.ways * 256) }) ∧
    (let c := src s tid t p (.ldt w)
     let n := (c.t.lay (tileL w.a.toNat)).width
     Ready s tid t p (.ldt w) → TileReaches c c1 w 0 es tr →
     exec (.ldt w) s = .next (flown c1
       { id := 0, split := 0, path := 0, kind := .loadTile n, site := c1.atSite w, scope := w.scope,
         runs := (c.lanes p.mask).flatMap fun l => (es.filter fun e => e.lane == l).map fun e =>
           { loc := (tr e).loc, bytes := n, strm := (tr e).strm, va := e.place.addr,
             accs := [{ lane := e.lane, reg := e.reg, data := e.slot }] } } (c1.acqOf w) es.isEmpty)) ∧
    (let c0 := src s tid t p (.stt w)
     let regs := (regsFrom w.dN (c0.t.lay w.sbN)).map fun r => (0, r)
     let c := c0.earlyOf regs
     let n := (c.t.lay (tileL w.a.toNat)).width
     let value := fun e : TElem => (c1.rdV e.reg e.lane).toNat / 2 ^ (8 * n * e.slot) % 2 ^ (8 * n)
     Ready s tid t p (.stt w) → c0.firstEarly regs = none →
     TileReaches c c1 w 1 es tr →
     exec (.stt w) s = .next (flown c1
       { id := 0, split := 0, path := 1, kind := .store, scope := w.scope,
         runs := es.map fun e => { loc := (tr e).loc, bytes := n, strm := (tr e).strm, va := e.place.addr,
                                   accs := [{ lane := e.lane, reg := 0, data := value e }] } }
       none false))

namespace Sys2Proof.Stated

/-- COPY (R196, R219, R394): accepted operands, room in its context and its release passed, the copy joins the context
with the number TLISS + 1 and the images as they stand; LSTAT takes degree and ways. A full context parks it; a rejected
operand raises LAYOUT_REJECTED. -/
def CopiesJoinTheirContext : Prop :=
  ∀ (s : State) (tid : Nat) (t : Team) (p : Split) (w : OpA),
    let c := src s tid t p (.copy w)
    let ctx := w.md 1 0
    let hs := tileH w.aN
    let hd := tileH w.dN
    let k := copyReject (c.t.hdl hs) (c.t.lay (tileL w.aN)) (c.t.hdl hd) (c.t.lay (tileL w.dN))
    let deg := max (firstDegree (c.t.hdl hs) (c.t.lay (tileL w.aN))) (firstDegree (c.t.hdl hd) (c.t.lay (tileL w.dN)))
    let c1 := { c with t := c.t.setLstat deg k.1.ways false }
    let n := atD c.t.tliss ctx 0 + 1
    let op : EngOp :=
      { num := n, kind := .copy, split := p.id, mask := p.mask, fmt := p.fmt, dstH := c.t.h.get hd,
        dstL := c.t.ly.get (tileL w.dN), srcH := c.t.h.get hs, srcL := c.t.ly.get (tileL w.aN),
        tpc := c.t.addrOf p.pc, slot := (p.clause.map (·.slot)).getD 0, seqNo := c.s.nextId }
    Ready s tid t p (.copy w) →
    (c.unreach hs = true → Traps (.copy w) s c 0x15 [hs]) ∧
    (c.unreach hs = false → c.unreach hd = false →
      (k.1.cls = 2 → Traps (.copy w) s c1 0x20 (rejected 0 k.2 k.1.reason (tileL (if k.2 = 0 then w.aN else w.dN))
        (some (if k.2 = 0 then hs else hd))).2) ∧
      (k.1.cls ≠ 2 → c.guarded w = true →
        (16 ≤ (c.t.ops ctx).length →
          exec (.copy w) s = .next (c.put (c1.t.modSplit p.id fun q => { q with park := some (.engine ctx) }))) ∧
        ((c.t.ops ctx).length < 16 → released c1 (w.md 6 5) (w.md 9 7) = true →
          exec (.copy w) s = .next { c.put (c.doneTeam { c1.t with
            eng := setAt c.t.eng ctx (c.t.ops ctx ++ [op]), tliss := setAt c.t.tliss ctx n } (form (.copy w)).len)
            with nextId := c.s.nextId + 1 })))

/-- TLWAIT, TLREAD and BANKCFG (R154, R399 to R401): a TLWAIT goes on once its context's DONE has reached s[A], else
parks; TLREAD reads DONE and the context's status; a BANKCFG to a block's own state goes on, and one whose guard
is false in every lane; a refused one raises PROTECTION, any other parks until the block has changed. -/
def EngineWaitsAndBanks : Prop :=
  ∀ (s : State) (tid : Nat) (t : Team) (p : Split) (w : OpA),
    (let c := src s tid t p (.tlwait w)
     let n := (c.rdS w.aN).toNat
     Ready s tid t p (.tlwait w) → p.lvl ≠ 2 → c.guarded w = true → w.md 6 5 = 0 → w.dN < 4 →
     if n ≤ atD c.t.tlc w.dN 0 then Completes (.tlwait w) s c c.t
     else exec (.tlwait w) s = .next (c.put (c.t.modSplit p.id fun q => { q with park := some (.tlwait w.dN n) }))) ∧
    (let c := src s tid t p (.tlread w)
     Ready s tid t p (.tlread w) → c.guarded w = true →
     ∃ u t1, SetsS c.t u c.sp.lvl w.dN (BitVec.ofNat 64 (atD c.t.tlc w.aN 0)) ∧
       SetsS u t1 c.sp.lvl (w.dN + 1) (BitVec.ofNat 64 (contextStatus (c.t.ops w.aN))) ∧ Completes (.tlread w) s c t1) ∧
    (let c := src s tid t p (.bankcfg w)
     let b := (c.rdS w.aN).toNat
     let x := w.md 1 0
     Ready s tid t p (.bankcfg w) →
     (c.guarded w = false → Completes (.bankcfg w) s c c.t) ∧
     (∀ g, c.guarded w = true → c.s.wgOf c.t = some g → g.blocks.length ≤ b → Traps (.bankcfg w) s c 0x11 [b]) ∧
     (∀ g y, c.guarded w = true → c.s.wgOf c.t = some g → g.blocks[b]? = some y →
       (y = bankState x → Completes (.bankcfg w) s c c.t) ∧
       (y ≠ bankState x → bankRefused c.s g c.t.wg b x = true → Traps (.bankcfg w) s c 0x11 [b]) ∧
       (y ≠ bankState x → bankRefused c.s g c.t.wg b x = false →
         exec (.bankcfg w) s = .next (c.put (c.t.modSplit p.id fun q =>
           { q with park := some (.bankcfg b x (form (.bankcfg w)).len) })))))

end Sys2Proof.Stated

/-- COPY, TLWAIT, TLREAD and BANKCFG (R154, R196, R219, R394, R399 to R401).
Where the spec leaves a point open, it states the model's choice: log entries 28, 29 and 31. -/
def Obligations.EnginesAreUsed : Prop :=
  CopiesJoinTheirContext ∧ EngineWaitsAndBanks

/-! Matrix. -/

namespace Sys2Proof.Stated

/-- The tile operands of the queued instructions (R407, R420), and the queue entry as it stands at issue. -/
def queued (i : Instr) (c : Ctx) : Option (List TileOp × MatOp) :=
  match i with
  | .mma w => some (mmaOps c.sp.fmt w (fieldB w) 64, c.matOp 22 0 w (tileH w.aN) (tileL w.aN) (tileH (fieldB w)) (tileL (fieldB w)))
  | .mma2 w => some (mmaOps c.sp.fmt w (fieldB w) 128, c.matOp 22 1 w (tileH w.aN) (tileL w.aN) (tileH (fieldB w)) (tileL (fieldB w)))
  | .mmma w => some (mmmaOps c.sp.fmt w (fieldB w), c.matOp 23 11 w (tileH w.aN) (tileL w.aN) (tileH (fieldB w)) (tileL (fieldB w)))
  | .accld w =>
    some ([{ opn := 0, code := 1, ly := tileL w.aN, hdl := some (tileH w.aN), shape := .tile 64 64, scaled := true }],
      c.matOp 22 3 w (tileH w.aN) (tileL w.aN) 0 0)
  | _ => none

end Sys2Proof.Stated

namespace Sys2Proof.Stated

/-- A matrix instruction enters its team's queue, under a number of its own, and the split goes past it (R403, R404). -/
def Queues (i : Instr) (s : State) (c : Ctx) (t1 : Team) (m : MatOp) : Prop :=
  exec i s = .next { c.put (c.doneTeam { t1 with mat := c.t.mat ++ [m] } (form i).len) with nextId := c.s.nextId + 1 }

end Sys2Proof.Stated

/-- MMA, MMA2, MMMA, ACCLD and ACCZ (R403, R407, R408, R420): checked operands, and the instruction enters the team's
matrix queue as it stands; the split goes on. The first failing check is the trap.
Where the spec leaves a point open, it states the model's choice: log entry 32. -/
def Obligations.MatrixInstructionsQueue : Prop :=
  ∀ (s : State) (tid : Nat) (t : Team) (p : Split) (i : Instr) (op fn : Nat) (w : OpA) (g : Sig) (ops : List TileOp)
    (m : MatOp),
    let c := src s tid t p i
    let r := c.tileOps ops false
    Ready s tid t p i → form i = .a op fn w g → c.guarded w = true →
    (queued i c = some (ops, m) →
      (r.2 = none → Queues i s c r.1.t m) ∧
      (∀ e, r.2 = some e → Traps i s r.1 e.1 e.2)) ∧
    (i = .accz w → Queues i s c c.t (c.matOp 22 2 w 0 0 0 0))

/-- DRAIN and MDRAIN (R403, R413, R414, R416): a register form enters the matrix queue; a memory form joins its engine
context as COPY does and its accumulator read enters the matrix queue.
Where the spec leaves a point open, it states the model's choice: log entries 30 and 32. -/
def Obligations.DrainsQueue : Prop :=
  ∀ (s : State) (tid : Nat) (t : Team) (p : Split) (i : Instr) (w : OpA) (moment : Bool) (c1 : Ctx),
    let c := src s tid t p i
    let len := (form i).len
    let op := if moment then 23 else 22
    let fn := if moment then 12 else 4
    let ctx := w.md 1 0
    let add := w.md 4 4 == 1
    Ready s tid t p i → i = (if moment then .mdrain w else .drain w) → c.guarded w = true →
    (w.md 3 3 = 1 →
      let o : TileOp := { opn := 3, code := 4, ly := fieldB w, hdl := none, fmts := some (if moment then [0] else [0, 1, 2]),
                          shape := .regs (w.md 9 4), scaled := false }
      c.tileOps [o] false = (c1, none) → Queues i s c c1.t (c.matOp op fn w 0 0 0 (fieldB w))) ∧
    (w.md 3 3 = 0 →
      let h := tileH w.dN
      let n := atD c.t.tliss ctx 0 + 1
      let e : EngOp :=
        { num := n, kind := if moment then .mdrain add else .drain add, split := p.id, mask := p.mask, fmt := p.fmt,
          dstH := c.t.h.get h, dstL := c.t.ly.get (tileL w.dN), snapped := false, tpc := c.t.addrOf p.pc,
          slot := (p.clause.map (·.slot)).getD 0, seqNo := c.s.nextId }
      let m := { c.matOp op fn w h (tileL w.dN) 0 0 with ctx := some (ctx, n), seqNo := c.s.nextId + 1 }
      c.tileOps (drainOps w moment) (spans (c.t.hdl h) (c.t.lay (tileL w.dN)) moment) = (c1, none) →
      (add = true → (c.t.hdl h).kind < 5) → (c.t.ops ctx).length < 16 → released c1 (w.md 6 5) (w.md 9 7) = true →
      c.t.tliss.length = 4 →
      exec i s = .next { c.put (c.doneTeam { c1.t with
        eng := setAt c.t.eng ctx (c.t.ops ctx ++ [e]), tliss := setAt c.t.tliss ctx n, mat := c.t.mat ++ [m] } len)
        with nextId := c.s.nextId + 2 })

namespace Sys2Proof.Stated

/-- The unit can take the head of a team's matrix queue now (R403, R404, R410): no array it uses is at work, no drain that it
waits for and no earlier access of its split to its operands is open. -/
def UnitFree (s : State) (t : Team) (m : MatOp) : Prop :=
  s.dev.tripped = false ∧ m.started = false ∧ m.held = false ∧ arrayBusy s t.core = false ∧ tregWait t m = false ∧
  m.earlier s t = [] ∧ (m.fn = (22, 1) → s.migrated t = false → ∀ p, partnerOf t.core = some p → arrayBusy s p = false)

/-- The head of the queue starts: n accumulator elements from `lo` will take `val`, with the flags and the deferred trap; lines of
host memory that it read are held (R44), no copy of the core's is older than what it read (R183), and acquires that waited for its
reads are complete (R193). -/
def StartsWith (s : State) (tid : Nat) (t : Team) (m : MatOp) (rest : List MatOp) (lo n : Nat) (val : Nat → Nat) (flags : Nat)
    (trap : Option (Nat × List Nat)) : Prop :=
  ∃ acc : Store 32,
    let l := m.touches s t
    exec (.matrixStart tid) s = .next (settleAcquire (((s.seeLocs t.core l).holdLocs l).setTeam tid { t with mat :=
      { m with started := true, result := acc, range := (lo, n), flags := flags, trap := trap } :: rest }) tid) ∧
    (∀ k, k < n → acc.get (lo + k) = BitVec.ofNat 32 (val k)) ∧ ∀ x ∈ acc, lo ≤ x.1 ∧ x.1 < lo + n

/-- The bits of an accumulator element. -/
def accBits (t : Team) (tile k : Nat) : Nat := (t.acc.get (tile * 4096 + k)).toNat

/-- A product of three factors, with its invalid mark. -/
def prod3 (x y z : FV) : FV × Nat := ((mulF (mulF x y).1 z).1, (mulF x y).2 ||| (mulF (mulF x y).1 z).2)

/-- MMA, MMA2, ACCZ, ACCLD and drains start (R240, R403, R404, R407, R409, R411, R412): an MMA's element is its K-blocks added in
ascending order to the accumulator's; ACCZ's zero; ACCLD's the source's, rounded. -/
def MatrixInstructionsStart : Prop :=
  ∀ (s : State) (tid : Nat) (t : Team) (m : MatOp) (rest : List MatOp),
    let k := mmaK m.fmt
    let la := Lay.read m.lA
    let lb := Lay.read m.lB
    let lo := m.d * 4096
    s.teams.at? tid = some t → t.mat = m :: rest → UnitFree s t m →
    (m.fn = (22, 2) → StartsWith s tid t m rest lo 4096 (fun _ => 0) 0 none) ∧
    (m.fn = (22, 4) ∨ m.fn = (23, 12) → StartsWith s tid t m rest 0 0 (fun _ => 0) 0 none) ∧
    (∀ rows a b, (m.fn = (22, 0) ∧ rows = 64) ∨ (m.fn = (22, 1) ∧ rows = 128) →
      readPlane s t (Hdl.read m.hA) la (rows * k) 0 (sexpA m.fmt) = .ok a →
      readPlane s t (Hdl.read m.hB) lb (k * 64) 1 (sexpB m.fmt) = .ok b →
      let el := fun i => dotBlocks (blockSize m.fmt)
        ((List.range k).map fun q => (planeAt la rows k a (i / 64) q, planeAt lb k 64 b q (i % 64))) 4 (accBits t m.d i, 0)
      StartsWith s tid t m rest lo (rows * 64) (fun i => (el i).1) (orAll ((List.range (rows * 64)).map fun i => (el i).2)) none) ∧
    (∀ a, m.fn = (22, 3) → readPlane s t (Hdl.read m.hA) la 4096 0 0 = .ok a →
      StartsWith s tid t m rest lo 4096 (fun i => (roundF32 (planeAt la 64 64 a (i / 64) (i % 64))).1) 0 none)

/-- MMMA starts (R256, R261): the means' and the variances' block sums; a negative input variance makes the variances of its row or
column NaN and names the first one in a deferred NEGATIVE_VARIANCE, or under NVCLAMP reads as zero and sets NVC. -/
def MomentTilesMultiply : Prop :=
  ∀ (s : State) (tid : Nat) (t : Team) (m : MatOp) (rest : List MatOp) (ma va mb vb : List FV),
    let ha := Hdl.read m.hA
    let hb := Hdl.read m.hB
    let la := Lay.read m.lA
    let lb := Lay.read m.lB
    s.teams.at? tid = some t → t.mat = m :: rest → UnitFree s t m → m.fn = (23, 11) →
    readPlane s t ha la 1024 0 (sexpA m.fmt) = .ok ma → readPlane s t (planeHdl ha 1) la 1024 0 (2 * sexpA m.fmt) = .ok va →
    readPlane s t hb lb 1024 1 (sexpB m.fmt) = .ok mb → readPlane s t (planeHdl hb 1) lb 1024 1 (2 * sexpB m.fmt) = .ok vb →
    let clamp := t.flags.getLsbD 16
    let μa := fun r k => planeAt la 64 16 ma r k
    let μb := fun k c => planeAt lb 16 64 mb k c
    let νa := fun r k => planeAt la 64 16 va r k
    let νb := fun k c => planeAt lb 16 64 vb k c
    let fixed := fun v => if clamp && negVar v then FV.fin false 0 0 false else v
    let bad := fun r c => !clamp && (List.range 16).any fun k => negVar (νa r k) || negVar (νb k c)
    let mean := fun i => dotBlocks 16 ((List.range 16).map fun k => (μa (i / 64) k, μb k (i % 64))) 1 (accBits t m.d i, 0)
    let var := fun i =>
      let r := i / 64
      let c := i % 64
      blockSum (accBits t (m.d + 1) i)
        ((if bad r c then [FV.nan false] else []) ++
          (List.range 16).flatMap fun k => [fixed (νa r k), fixed (νb k c), μa r k, μb k c])
        ((List.range 16).flatMap fun k => [mulF (fixed (νa r k)) (fixed (νb k c)), prod3 (fixed (νa r k)) (μb k c) (μb k c),
          prod3 (fixed (νb k c)) (μa r k) (μa r k)])
    let els := (List.range 4096).map mean ++ (List.range 4096).map var
    let hits : Prop := ∃ x k, x < 64 ∧ k < 16 ∧ (negVar (νa x k) = true ∨ negVar (νb k x) = true)
    ∃ nvc trap, StartsWith s tid t m rest (m.d * 4096) 8192 (fun i => (els.getD i (0, 0)).1) (orAll (els.map (·.2)) ||| nvc) trap ∧
      (clamp = true ∧ hits → nvc = 32) ∧ (clamp = false ∨ ¬ hits → nvc = 0) ∧ (clamp = true ∨ ¬ hits → trap = none) ∧
      (∀ r k, clamp = false → r < 64 → k < 16 → negVar (νa r k) = true →
        (∀ r' k', r' < 64 → k' < k ∨ (k' = k ∧ r' < r) → negVar (νa r' k') = false) → trap = some (0x30, [r + 256 * k])) ∧
      (∀ c k, clamp = false → c < 64 → k < 16 → (∀ r k', r < 64 → k' < 16 → negVar (νa r k') = false) → negVar (νb k c) = true →
        (∀ c' k', c' < 64 → k' < k ∨ (k' = k ∧ c' < c) → negVar (νb k' c') = false) → trap = some (0x30, [c + 256 * k + 4096]))

/-- A started instruction that is no drain completes (R403, R405): its elements and its flags are written, no other element;
its deferred trap, or FP_EXCEPTION for an enabled flag, pends with the split that holds its lanes, at its REPEAT where it stands
between one and the repeated instruction (R308). -/
def MatrixInstructionsComplete : Prop :=
  ∀ (s : State) (tid : Nat) (t : Team) (m : MatOp) (rest : List MatOp),
    let en := enabledFlags t m.flags
    let trap := if m.trap.isSome then m.trap else if en = 0 then none else some (0x31, [en])
    s.teams.at? tid = some t → t.mat = m :: rest → s.dev.tripped = false → m.started = true → m.flags < 256 →
    m.fn ∈ [(22, 0), (22, 1), (22, 2), (22, 3), (23, 11)] →
    (∀ e ∈ m.result, m.range.1 ≤ e.1 ∧ e.1 < m.range.1 + m.range.2) →
    ∃ t1 : Team, t1 = { t with mat := rest, acc := t1.acc, flags := t.flags ||| BitVec.ofNat 64 m.flags } ∧
      (∀ k, t1.acc.get k = if m.range.1 ≤ k ∧ k < m.range.1 + m.range.2 then m.result.get k else t.acc.get k) ∧
      (trap = none → exec (.matrixComplete tid) s = .next (settleEnd (s.setTeam tid t1) tid)) ∧
      (∀ x p, trap = some x → m.lvl = 0 → (t.splits.find? fun q => q.lvl == 0 && q.mask &&& m.mask != 0) = some p →
        ∃ r : TrapRec, r.cause = x.1 ∧ r.info = (List.range 4).map (fun k => BitVec.ofNat 64 (x.2.getD k 0)) ∧ r.resume = 0 ∧
          (∀ k, t.indexOf m.tpc = some k → t.addrOf k = m.tpc → r.tpc = m.tpc) ∧ r.slot = m.slot ∧ r.lanes = m.mask ∧ r.order = s.nextId ∧
          exec (.matrixComplete tid) s = .next (settleEnd (deliverPending ({ s with nextId := s.nextId + 1 }.setTeam tid
            (t1.modSplit p.id fun q => { q.unprefix with pend := q.pend ++ [r] })) tid) tid))

end Sys2Proof.Stated

/-- The matrix unit (R256, R261, R403 to R405, R409, R411, R412): a free unit starts the head of a team's queue with the results
that its operands give, and, complete, they stand in its accumulator elements, every other one as it was.
Where the spec leaves a point open, it states the model's choice: log entry 32. -/
def Obligations.MatrixUnitResults : Prop :=
  MatrixInstructionsStart ∧ MomentTilesMultiply ∧ MatrixInstructionsComplete

namespace Sys2Proof.Stated

/-- FMTSET and FMTGET (R236, R418): FMT takes the form's fields, a refused code raises OPERAND_FORMAT; FMTGET reads FMT. -/
def FormatRegister : Prop :=
  ∀ (s : State) (tid : Nat) (t : Team) (p : Split) (w : OpA),
    (let c := src s tid t p (.fmtset w)
     let f := p.fmt
     let a := c.rdS w.aN
     let code := w.md 5 0
     let sets := fun x : Quad => Completes (.fmtset w) s c (c.t.modSplit p.id fun q => { q with fmt := x })
     Ready s tid t p (.fmtset w) → c.guarded w = true →
     (w.md 9 8 = 0 → fmtBad a = none → sets a) ∧
     (w.md 9 8 = 1 → (fmtOf code).isSome = true → ∃ x, sets x ∧ bits x 5 0 = code ∧ bits x 19 12 = bits a 7 0 ∧
       bits x 11 6 = bits f 11 6 ∧ bits x 63 20 = bits f 63 20) ∧
     (w.md 9 8 = 2 → (fmtOf code).isSome = true → ∃ x, sets x ∧ bits x 11 6 = code ∧ bits x 27 20 = bits a 7 0 ∧
       bits x 5 0 = bits f 5 0 ∧ bits x 19 12 = bits f 19 12 ∧ bits x 63 28 = bits f 63 28) ∧
     (w.md 9 8 = 3 → ∃ x, sets x ∧ bits x 29 28 = w.md 1 0 ∧ bits x 30 30 = w.md 2 2 ∧ bits x 32 31 = w.md 4 3 ∧
       bits x 27 0 = bits f 27 0 ∧ bits x 63 33 = bits f 63 33) ∧
     (w.md 9 8 = 1 ∨ w.md 9 8 = 2 → (fmtOf code).isNone = true → Traps (.fmtset w) s c 0x23 [code])) ∧
    (let c := src s tid t p (.fmtget w)
     Ready s tid t p (.fmtget w) → c.guarded w = true →
     ∃ t1, Completes (.fmtget w) s c t1 ∧ SetsS c.t t1 c.sp.lvl w.dN p.fmt)

end Sys2Proof.Stated

/-- GETS, SETS, FMTSET and FMTGET (R236, R242, R314, R347, R418).
Where the spec leaves a point open, it states the model's choice: log entry 17. -/
def Obligations.StateRegisters : Prop :=
  StateRegistersReadAndWritten ∧ PrivilegedRegistersTrap ∧ FormatRegister

/-! Moments. -/

namespace Sys2Proof.Stated

/-- A moment instruction's result in a lane (R249, R253, R258 to R260, R419). -/
def laneMoment (i : Instr) (c : Ctx) (l : Nat) : Option MomRes :=
  let clamp := nvClamp c.t
  let cov := bits c.sp.fmt 32 31
  let lin := fun (op : Nat) (w : OpA) =>
    some (nvCheck clamp (momLin op cov (c.mom w.aN l) (c.mom (fieldB w) l) (c.rdV (fieldC w) l).toNat))
  let nonlin := fun (op : Nat) (w : OpA) =>
    some ({ m := (momNonlin op (c.mom w.aN l)).1, flags := (momNonlin op (c.mom w.aN l)).2 } : MomRes)
  match i with
  | .mset w =>
    let v := if c.rdV (fieldB w) l = 0x80000000#32 then 0 else (c.rdV (fieldB w) l).toNat
    some (nvCheck clamp (⟨(c.rdV w.aN l).toNat, v⟩, 0))
  | .madd w => lin 0 w
  | .msub w => lin 1 w
  | .mmul w => lin 2 w
  | .mfma w => some (momFma clamp cov (c.mom w.aN l) (c.mom (fieldB w) l) (c.mom w.dN l) (c.rdV (fieldC w) l).toNat)
  | .mscale w => some (nvCheck clamp (momScale (lane32 c (w.md 8 8 == 1) (fieldB w) l).toNat (c.mom w.aN l)))
  | .mrelu w => nonlin 0 w
  | .msigm w => nonlin 1 w
  | .mexp w => nonlin 2 w
  | .mmov w => some { m := { mean := ((c.rdM w.aN l).setWidth 32).toNat, var := ((c.rdM w.aN l) >>> 32).toNat } }
  | _ => none

/-- Moment instructions that write moment registers (R249, R253, R259, R419): without an enabled flag or a trapping
variance, m[D] takes the result in the writing lanes and FLAGS accumulates. A negative variance with NVCLAMP clear raises
NEGATIVE_VARIANCE, the lane's variance then the canonical NaN (R260). -/
def MomentResults : Prop :=
  ∀ (s : State) (tid : Nat) (t : Team) (p : Split) (i : Instr) (fn : Nat) (w : OpA) (g : Sig) (f : Nat → MomRes),
    let c := src s tid t p i
    let on := c.writing w.gN w.gnB
    let ls := c.lanes on
    let bad := ls.filter fun l => (f l).bad.isSome
    let sum := orAll (ls.map fun l => (f l).flags)
    Ready s tid t p i → p.rep = none → form i = .a 23 fn w g → (∀ l, laneMoment i c l = some (f l)) →
    ∃ t1, SetsM c.t t1 w.dN (inLanes c on) (fun l => (f l).m.image) ∧
      (bad = [] → (∀ l ∈ ls, enabledFlags c.t (f l).flags = 0) → Completes i s c (t1.orFlags sum)) ∧
      (∀ l b, bad.head? = some l → (f l).bad = some b → TrapsWith i s c (t1.orFlags sum) 0x30 [w.dN, b] (laneMask bad))

/-- MCOLL (R258): v[D] takes the mean, the variance, the standard deviation or a sample of m[A] in the writing lanes. -/
def MomentCollapses : Prop :=
  ∀ (s : State) (tid : Nat) (t : Team) (p : Split) (w : OpA),
    let c := src s tid t p (.mcoll w)
    let on := c.writing w.gN w.gnB
    let f := fun l => momColl (w.md 1 0) (c.mom w.aN l) (if w.md 1 0 = 3 then (c.rdV (fieldB w) l).toNat else 0)
    Ready s tid t p (.mcoll w) → p.rep = none → (∀ l ∈ c.lanes on, enabledFlags c.t (f l).2 = 0) →
    ∃ t1, SetsV c.t t1 c.sp.lvl w.dN (inLanes c on) (fun l => BitVec.ofNat 32 (f l).1) ∧
      Completes (.mcoll w) s c (t1.orFlags (orAll ((c.lanes on).map fun l => (f l).2))) ∧
      (w.md 1 0 = 0 → ∀ l, f l = (((c.rdM w.aN l).setWidth 32).toNat, 0))

end Sys2Proof.Stated

/-- The moment instructions (R249, R253, R258 to R260, R419).
Where the spec leaves a point open, it states the model's choice: log entries 7 and 33. -/
def Obligations.MomentOperations : Prop :=
  MomentResults ∧ MomentCollapses

/-! Traps and system instructions. -/

namespace Sys2Proof.Stated

/-- TRAP and BKPT (R435 to R437). -/
def TrapsAndBreakpoints : Prop :=
  ∀ (s : State) (tid : Nat) (t : Team) (p : Split) (w : OpA),
    (let c := src s tid t p (.trap w)
     Ready s tid t p (.trap w) →
     if c.guarded w then Traps (.trap w) s c 0x80 [w.dN * 256 + w.aN] else Completes (.trap w) s c c.t) ∧
    (let c := src s tid t p (.bkpt w)
     Ready s tid t p (.bkpt w) → if c.guarded w then Traps (.bkpt w) s c 0x81 [0] else Completes (.bkpt w) s c c.t)

/-- The causes of the user level (R265). -/
def userLevel : List Nat :=
  [0x01, 0x02, 0x03, 0x04, 0x05, 0x20, 0x21, 0x22, 0x23, 0x24, 0x30, 0x31, 0x32, 0x40, 0x41, 0x42, 0x50, 0x80, 0x81]

/-- Words 0 to 3 of TINFO. -/
def tinfo (info : List Nat) : List Quad := (List.range 4).map fun k => BitVec.ofNat 64 (info.getD k 0)

/-- A user-level trap with a usable handler that may enter (R269): the user record, the frame with the trapped split, the
handler's split and its Lodge registers (R262, R263, R266, R268, R270). -/
def UserHandlersAreEntered : Prop :=
  ∀ (s : State) (tid : Nat) (t : Team) (p : Split) (cause : Nat) (info : List Nat) (lanes : Mask) (len h : Nat),
    let s1 := { s with nextId := s.nextId + 1 }
    p.lvl = 0 → p.rep = none → t.split? p.id = some p → cause ∈ userLevel → t.thbase ≠ 0 → corrFault s1 t = none → corrHeld s1 t = false →
    handlerIndex s1 t = some h → targetOk s1 t h = .ok true → mayEnter s1 tid t s.nextId = true →
    ∃ (t1 : Team) (q : Split), raise s tid t p cause info lanes len = s1.setTeam tid t1 ∧
      t1.urec.cause = cause ∧ t1.urec.tpc = t.addrOf p.pc ∧ t1.urec.info = tinfo info ∧ t1.urec.lanes = lanes ∧
      t1.urec.teq = t.teq ∧ t1.split? p.id = some q ∧ q.pc = h ∧ q.clause = none ∧ q.mask = p.mask ∧ q.lvl = 1 ∧
      q.lnk = p.lnk ∧ q.fmt = p.fmt ∧
      (∃ (f : Frame) (x : Split), t1.uframe = some f ∧ f.split = some x ∧
        x.pc = p.pc ∧ x.mask = p.mask ∧ x.lnk = p.lnk ∧ x.fmt = p.fmt ∧ x.parent = p.parent ∧ x.resv = none) ∧
      (∀ l, l < t.width → t1.rdV 1 255 l = if lanes.getLsbD l then 1 else 0) ∧
      (∀ r l, 240 ≤ r → r < 255 → l < 1024 → t1.rdV 1 r l = 0) ∧ (∀ r, 56 ≤ r → t1.rdS 1 r = 0) ∧
      (∀ r l, r < 240 → t1.rdV 1 r l = t.rdV 0 r l) ∧ (∀ r, r < 56 → t1.rdS 1 r = t.rdS 0 r)

/-- The word of a failed grid (R72). -/
def failed (cause wg : Nat) : Quad := BitVec.ofNat 64 (2 ^ 63 + cause * 2 ^ 48 + wg)

/-- Traps that no handler takes (R73, R263 to R265, R267, R274): with THBASE 0 a user-level trap terminates the workgroup
and its grid fails; a cause without return stops the team, or its split alone as the cause's reach says, with the privileged
record; a trap in a user handler is a DOUBLE_FAULT, with its event; in a privileged handler it terminates the workgroup, and the grid
fails with DOUBLE_FAULT, with its event. -/
def TrapsWithoutHandlers : Prop :=
  ∀ (s : State) (tid : Nat) (t : Team) (p : Split) (cause : Nat) (info : List Nat) (lanes : Mask) (len : Nat) (x : Wg),
    let s1 := raise s tid t p cause info lanes len
    let ends := (∃ y, s1.wgs.at? t.wg = some y ∧ y.st = .terminated) ∧ s1.teamsOf t.wg = []
    let fails := fun k : Nat => ∀ g, s.gridOf x.grid = some g → g.fail = none →
      ∃ g1, s1.gridOf x.grid = some g1 ∧ g1.fail = some (failed k x.lin)
    s.wgs.at? t.wg = some x → t.flights = [] → t.split? p.id = some p →
    corrFault { s with nextId := s.nextId + 1 } t = none → corrHeld { s with nextId := s.nextId + 1 } t = false →
    (p.lvl = 0 → cause ∈ userLevel → t.thbase = 0 → ends ∧ fails cause) ∧
    (p.lvl = 0 → cause ∈ [0x11, 0x12, 0x13, 0x14, 0x15, 0x60, 0x61, 0x9F] →
      (∃ t1, s1.teams.at? tid = some t1 ∧ t1.krec.cause = cause ∧ t1.krec.resume = 3 ∧ t1.krec.info = tinfo info ∧
        if cause ∈ [0x11, 0x13, 0x9F] then t1.stop = true
        else t1.stop = t.stop ∧ ∃ q, t1.split? p.id = some q ∧ q.park = some .trap ∧ q.pc = p.pc) ∧ fails cause) ∧
    (p.lvl = 1 →
      (∃ t1, s1.teams.at? tid = some t1 ∧ t1.stop = true ∧ t1.krec.cause = 0x90 ∧ t1.krec.resume = 3 ∧
        t1.krec.info = tinfo [cause, info.getD 0 0]) ∧ fails 0x90 ∧
      ∃ e, s1.dev.events.getLast? = some e ∧ e.type = 7 ∧ e.unit = x.pid) ∧
    (p.lvl = 2 → ends ∧ fails 0x90 ∧ ∃ e, s1.dev.events.getLast? = some e ∧ e.type = 7 ∧ e.unit = x.pid)

/-- No entry of the table stands above a level's frame but its handler's split. -/
def Alone (t : Team) (p : Split) : Prop :=
  (∀ x ∈ t.splits, x.lvl = p.lvl → x.id = p.id) ∧ (∀ r ∈ t.joins, r.lvl ≠ p.lvl)

/-- Nothing waits in the team: no pending trap, nothing spilled, not ended. -/
def Calm (t : Team) : Prop :=
  (∀ x ∈ t.splits, x.pend = [] ∧ x.spilled = false) ∧ (∀ r ∈ t.joins, r.spilled = false) ∧ t.ended = false

/-- TRET and TRET.to (R272, R438). In the user handler: the frame goes and the trapped split stands past the trapping
instruction by a return N, at it by I, at it for the record's lanes alone by L, at the target of .to; its mask, LNK, FMT as they were;
by X the workgroup ends. In the privileged handler: the frame goes and the team's splits stand where they stopped, by a return L the first one with the lanes left, those inside a clause interlocked. With an
entry above the frame, NOT_QUIESCENT. -/
def ReturnsFromHandlers : Prop :=
  ∀ (s : State) (tid : Nat) (t : Team) (p : Split) (i : Instr) (w : OpA) (k : Nat),
    let c := src s tid t p i
    let x := c.rdS w.aN
    let goes := c.t.indexOf x = some k ∧ targetOk c.s c.t k = .ok true
    Ready s tid t p i → (i = .tret w ∨ (i = .tretTo w ∧ goes)) → c.guarded w = true → p.lvl ≠ 0 →
    (∀ y ∈ c.t.splits, y.id ≠ p.id → y.lvl = p.lvl → Traps i s c 0x42 [1]) ∧
    (∀ (f : Frame) (q : Split), p.lvl = 1 → Alone c.t p → Calm c.t → c.t.uframe = some f → f.split = some q →
      q.mask = p.mask → q.pend = [] → q.spilled = false → q.clause = none → q.rep = none → f.trap.arrive = false →
      0 < f.trap.len → (i = .tret w → f.trap.resume ≠ 3) →
      ∃ (t1 : Team) (q1 : Split), exec i s = .next (c.put t1) ∧ t1.uframe = none ∧
        t1.splits = c.t.splits.map (fun y => if y.id = p.id then q1 else y) ∧ t1.joins = c.t.joins ∧
        q1.mask = q.mask ∧ q1.lnk = q.lnk ∧ q1.fmt = q.fmt ∧ q1.lvl = q.lvl ∧ q1.parent = q.parent ∧
        q1.pc = (if i = .tretTo w then k else if f.trap.resume = 1 ∨ f.trap.resume = 2 then q.pc else q.pc + f.trap.len) ∧
        (i = .tret w → f.trap.resume = 2 → q1.redo = some (f.trap.redoLanes q)) ∧
        (∀ r l, r < 240 → t1.rdV 0 r l = c.t.rdV 1 r l) ∧ (∀ r, r < 56 → t1.rdS 0 r = c.t.rdS 1 r)) ∧
    (∀ (f : Frame) (q : Split), p.lvl = 1 → Alone c.t p → c.t.uframe = some f → f.split = some q → q.mask = p.mask →
      i = .tret w → f.trap.resume = 3 → exec i s = .next (failWg c.s c.t.wg c.t.urec.cause)) ∧
    (∀ f : Frame, p.lvl = 2 → Alone c.t p → Calm c.t → c.t.kframe = some f → f.split = none →
      c.s.savedTeams.at? tid = none → (i = .tretTo w ∨ c.t.krec.cause = 0x70 ∨ c.t.krec.resume ≠ 3) →
      let redo := if c.t.krec.cause ≠ 0x70 ∧ c.t.krec.resume = 2 then some c.t.krec.lanes else none
      ∃ t1 : Team,
        let s1 := { c.put t1 with savedTeams := c.s.savedTeams.erase tid }
        exec i s = .next (if stillSaving s1 c.t.wg = true then s1
          else s1.modWg c.t.wg fun g => if g.st == .saving then { g with st := .resident } else g) ∧
        t1.kframe = none ∧ t1.stop = false ∧ t1.joins = c.t.joins ∧
        ∀ (y : Split) (rest : List Split), c.t.splits.filter (fun z => z.id != p.id) = y :: rest → (∀ z ∈ rest, z.id ≠ y.id) →
          let on := fun z : Split => { z with intl := z.clause.isSome }
          t1.splits = (if i = .tretTo w then jumpSplit k (on y) else { on y with redo := redo.or y.redo }) :: rest.map on)

/-- The handler instructions outside their handler raise PRIVILEGED (R314, R435): TRET and MOVUSER outside trap context;
MOVUSER.team, SPLITSV, SPLITLD and TSAVED outside the privileged handler. -/
def HandlerInstructionsArePrivileged : Prop :=
  ∀ (s : State) (tid : Nat) (t : Team) (p : Split) (i : Instr) (w : OpA),
    let c := start s tid t p
    Issues s tid t p →
    ((i = .tret w ∧ p.lvl = 0) ∨ (i = .tretTo w ∧ p.lvl = 0) ∨
     (i = .movuser w ∧ (p.lvl = 0 ∨ (w.md 2 2 = 1 ∧ p.lvl = 1))) ∨
     ((i = .splitsv w ∨ i = .splitld w ∨ i = .tsaved w) ∧ p.lvl ≠ 2)) →
    exec i s = .next (raise s tid c.t c.sp 0x04 [0xFFFFFFFF] p.mask (form i).len)

/-- MOVUSER (R439): between a register of the handler and a Lodge-numbered register of the interrupted context, or of the
team; a vector register not allocated to the team raises REGISTER_RANGE. -/
def HandlersMoveUserRegisters : Prop :=
  ∀ (s : State) (tid : Nat) (t : Team) (p : Split) (w : OpA),
    let c := src s tid t p (.movuser w)
    let team := w.md 2 2 = 1
    let u := if p.lvl = 2 ∧ ¬team ∧ c.t.uframe.isSome then 1 else 0
    let dir := w.md 1 0
    let on := inLanes c (c.writing w.gN w.gnB)
    Ready s tid t p (.movuser w) → p.lvl ≠ 0 → (team → p.lvl = 2) →
    (dir % 2 = 0 → u = 0 → c.t.regs ≤ w.aN → Traps (.movuser w) s (start s tid t p) 0x05 [w.aN]) ∧
    ((dir % 2 = 0 → u = 1 ∨ w.aN < c.t.regs) → ∃ t1, Completes (.movuser w) s c t1 ∧
      (dir = 0 → SetsV c.t t1 c.sp.lvl w.dN on fun l => c.t.rdV u w.aN l) ∧
      (dir = 2 → SetsV c.t t1 u w.aN on fun l => c.rdV w.dN l) ∧
      (dir = 1 → if c.guarded w then SetsS c.t t1 c.sp.lvl w.dN (c.t.rdS u w.aN) else t1 = c.t) ∧
      (dir = 3 → if c.guarded w then SetsS c.t t1 u w.aN (c.rdS w.dN) else t1 = c.t))

/-- An A-format access goes in flight and the split goes past its instruction. -/
def flies (c : Ctx) (f : Flight) (len : Nat) : State :=
  let c1 := c.fly f
  c1.put (c1.doneTeam c1.t len)

/-- SPLITSV, SPLITLD and TSAVED (R440 to R442): SPLITSV puts the record's quadwords in flight as stores, and waits until
they are all acknowledged; SPLITLD fills the table below the privileged frame from an accepted record, one that fails
any check of R441 raising OPERAND_FORMAT, and waits while a read of the record is held (R37); TSAVED waits until the team's accesses are
complete, then takes the team off its core to wait saved. -/
def SavedTeams : Prop :=
  ∀ (s : State) (tid : Nat) (t : Team) (p : Split) (w : OpA),
    let at_ := fun c : Ctx => (c.rdS w.aN).toNat
    p.lvl = 2 →
    (let c := src s tid t p (.splitsv w)
     let qs := splitRecord c.s c.t
     let ps := (List.range qs.length).map fun k => (k, (at_ c + 8 * k) % 2 ^ 64)
     Ready s tid t p (.splitsv w) → c.guarded w = true →
     (at_ c % 128 ≠ 0 → Traps (.splitsv w) s c 0x14 [at_ c]) ∧
     (at_ c % 128 = 0 → ∀ tr : Nat → Tran,
       (∀ e ∈ ps, c.checkVa 8 1 (fun _ => true) e.2 = .ok (tr e.1)) →
       ∃ (t1 : Team) (f : Flight), exec (.splitsv w) s = .next ({ c.s with nextId := c.s.nextId + 1 }.setTeam tid t1) ∧
         t1.flights = c.t.flights ++ [f] ∧ f.path = 1 ∧ f.kind = .store ∧
         f.runs = (mkRuns 8 (reached ps tr) fun k _ => { lane := 0, reg := 0, data := qs.getD k 0 }).map
           (fun r => r.issued c.s (c.s.pidOf c.t)) ∧
         ∃ q, t1.split? p.id = some q ∧ q.pc = p.pc + (form (.splitsv w)).len ∧ q.park = some (.waitp 1 0))) ∧
    (let c := src s tid t p (.splitld w)
     Ready s tid t p (.splitld w) → c.guarded w = true →
     ((∃ x ∈ c.t.splits, x.lvl ≠ 2) ∨ c.t.joins ≠ [] ∨ c.t.uframe ≠ none → Traps (.splitld w) s c 0x42 [1]) ∧
     (∀ e va, (∀ x ∈ c.t.splits, x.lvl = 2) → c.t.joins = [] → c.t.uframe = none →
       rdQuads c.s c.t (at_ c) 16 = .error (e, va) → if e.cause = 0 then
         exec (.splitld w) s = .next (c.put (c.t.modSplit p.id fun q => { q with park := some (.held va 0) }))
       else Traps (.splitld w) s c e.cause [va]) ∧
     (∀ hd body : List Nat, (∀ x ∈ c.t.splits, x.lvl = 2) → c.t.joins = [] → c.t.uframe = none →
       rdQuads c.s c.t (at_ c) 16 = .ok hd →
       let n := hd.getD 0 0 % 2 ^ 32
       let hdBad := n = 0 ∨ 2050 < n ∨ (hd.getD 1 0) % 2 ^ 16 ≠ c.t.width ∨ (hd.getD 1 0) / 2 ^ 32 % 2 ^ 32 ≠ 0 ∨
         (∃ x ∈ hd.drop 12, x ≠ 0)
       let es := (List.range n).map fun k => SplitEnt.ofQuads ((body.drop (44 * k)).take 44)
       let zero := (hd.getD 1 0) / 2 ^ 32 % 2 ^ 32 = 0 ∧ (∀ x ∈ hd.drop 12, x = 0) ∧
         ∀ k, k < n → entZero ((body.drop (44 * k)).take 44) = true
       let masks := (es.filter (·.kind == 0)).map fun e => e.mask.toNat
       let bodyBad := (∃ k, k < n ∧ entZero ((body.drop (44 * k)).take 44) = false) ∨ (∃ e ∈ es, 2 < e.kind) ∨
         1 < (es.filter (·.kind == 2)).length ∨ (∃ (k : Nat) (e : SplitEnt), es[k]? = some e ∧ e.parent ≠ 0xFFFF ∧ k ≤ e.parent) ∨
         (∃ (k m x y : Nat), k < m ∧ masks[k]? = some x ∧ masks[m]? = some y ∧ x &&& y ≠ 0) ∨
         (∃ e ∈ es, 2 ^ c.t.width ≤ e.mask.toNat) ∨
         (∃ k, k < masks.length ∧ ∀ e ∈ es, e.kind = 0 → e.rot ≠ k) ∨
         (∃ e ∈ es, fmtBad e.fmt ≠ none)
       (hdBad → Traps (.splitld w) s c 0x23 []) ∧
       (rdQuads c.s c.t (at_ c + 128) (44 * n) = .ok body → bodyBad → Traps (.splitld w) s c 0x23 []) ∧
       (∀ (l : List EntPlace) (x : Stand), 1 ≤ n → n ≤ 2050 → (hd.getD 1 0) % 2 ^ 16 = c.t.width →
         rdQuads c.s c.t (at_ c + 128) (44 * n) = .ok body → zero → entsOk es c.t.width = true →
         (∀ e ∈ es, fmtBad e.fmt = none) → entPlaces c.s c.t 0 es = .ok l →
         trapPlace c.s c.t (urecOf (hd.drop 2)) (!es.any (·.kind == 2)) = .ok x →
         let t1 := { loadSplits c.t l x (urecOf (hd.drop 2)) c.s.nextId p.id with timer := (hd.getD 0 0) / 2 ^ 32 % 2 ^ 32 }
         exec (.splitld w) s = .next ({ c.put (c.doneTeam t1 (form (.splitld w)).len) with nextId := c.s.nextId + n }) ∧
         ∀ e ∈ es, e.kind = 0 → ∃ y ∈ t1.splits, y.mask = e.mask ∧ y.lnk = e.lnk ∧ y.fmt = e.fmt))) ∧
    (let c := src s tid t p (.tsaved w)
     Ready s tid t p (.tsaved w) → c.guarded w = true →
     (c.t.krec.cause ≠ 0x70 → Traps (.tsaved w) s c 0x42 [1]) ∧
     (c.t.krec.cause = 0x70 → c.t.flights ≠ [] →
       exec (.tsaved w) s = .next (c.put (c.t.modSplit p.id fun q => { q with park := some (.again (.tsaved w) none) }))) ∧
     (c.t.krec.cause = 0x70 → c.t.flights = [] → c.s.savedTeams.at? tid = none → (∀ e ∈ s.cores, e.2.claims = []) →
       ∃ s1, exec (.tsaved w) s = .next s1 ∧ s1.teams.at? tid = none ∧
         ∃ t1, s1.savedTeams.at? tid = some t1 ∧ t1.v = c.t.v ∧ t1.s = c.t.s ∧ t1.p = c.t.p ∧ t1.kframe = none ∧
           t1.splits = c.t.splits.filter fun x => x.lvl != 2))

end Sys2Proof.Stated

/-- Raising a trap: TRAP and BKPT; the entry of a user-level trap into its handler; traps without a handler (R262 to R274,
R435 to R437).
Where the spec leaves a point open, it states the model's choice: log entry 49. -/
def Obligations.TrapsTakeTheirEntries : Prop := TrapsAndBreakpoints ∧ UserHandlersAreEntered ∧ TrapsWithoutHandlers

/-- Leaving a handler, and the instructions that only a handler may execute (R272, R314, R438 to R442).
Where the spec leaves a point open, it states the model's choice: log entries 16, 49, 53 (the words of the body that place the entries
of a record are read with it) and 72. -/
def Obligations.HandlersReturnAndSave : Prop :=
  ReturnsFromHandlers ∧ HandlerInstructionsArePrivileged ∧ HandlersMoveUserRegisters ∧ SavedTeams

namespace Sys2Proof.Stated

/-- RQUERY, LEASECLK, RREL and RCLAIM (R127 to R129, R190, R443): RQUERY reads the pool, LEASECLK the die's clock; RREL
drops the highest n registers; RCLAIM parks at the back of the core's claims; a bad count raises CLAIM_RANGE. -/
def PoolInstructions : Prop :=
  ∀ (s : State) (tid : Nat) (t : Team) (p : Split) (w : OpA),
    (let c := src s tid t p (.rquery w)
     Ready s tid t p (.rquery w) →
     if c.guarded w then
       ∃ t1, Completes (.rquery w) s c t1 ∧ SetsS c.t t1 c.sp.lvl w.dN (BitVec.ofNat 64 (c.t.regs + c.t.moms * 2 ^ 9 +
         freeSlabs c.s c.t.core * 2 ^ 16 + c.t.slabs * 2 ^ 32 + (c.s.coreOf c.t.core).claims.length * 2 ^ 48))
     else Completes (.rquery w) s c c.t) ∧
    (let c := src s tid t p (.leaseclk w)
     Ready s tid t p (.leaseclk w) →
     if c.guarded w then
       ∃ t1, Completes (.leaseclk w) s c t1 ∧ SetsS c.t t1 c.sp.lvl w.dN (BitVec.ofNat 64 (clockOf c.s c.t.core.die))
     else Completes (.leaseclk w) s c c.t) ∧
    (∀ i, (i = .rclaim w ∨ i = .rrel w) →
      let c := src s tid t p i
      let n := if w.md 0 0 = 1 then (c.rdS w.aN).toNat else w.aN
      let fits := if i = .rclaim w then c.t.regs + n + 2 * c.t.moms ≤ 256 else n + 8 ≤ c.t.regs
      Ready s tid t p i → c.guarded w = true →
      (p.lvl ≠ 0 → Traps i s c 0x42 [0x0A]) ∧
      (p.lvl = 0 → c.t.converged = false → Traps i s c 0x42 [1]) ∧
      (p.lvl = 0 → c.t.converged = true → ¬(n ≤ 256 ∧ n % 8 = 0 ∧ fits) → Traps i s c 0x41 [n]) ∧
      (p.lvl = 0 → c.t.converged = true → n ≤ 256 → n % 8 = 0 → fits →
        (i = .rrel w → (c.s.coreOf c.t.core).claims = [] → ∃ t1, Completes i s c t1 ∧ t1 = { c.t with regs := c.t.regs - n, v := t1.v, willRelease := false } ∧
          ∀ r l, l < 1024 → t1.v.get (r * 1024 + l) = if r < c.t.regs - n then c.t.v.get (r * 1024 + l) else 0) ∧
        (i = .rclaim w → ∃ s1, exec i s = .next (parkTest s1 c.t) ∧
          (s1.coreOf c.t.core).claims = (c.s.coreOf c.t.core).claims ++ [(tid, p.id, n)] ∧
          ∃ t1 q, s1.teams.at? tid = some t1 ∧ t1.split? p.id = some q ∧ q.pc = p.pc ∧
            q.park = some (.claim n (form i).len))))

/-- TRESHAPE (R122 to R124, R444): FUSE with the buddy parked in its own FUSE gives one team of twice the lanes, the lower
team's first; UNFUSE gives them back, the upper half's lanes from 0. Both go on past the clause that holds the TRESHAPE. -/
def TeamsFuseAndPart : Prop :=
  ∀ (s : State) (tid bt : Nat) (t b : Team) (p : Split) (w : OpA),
    let c := src s tid t p (.treshape w)
    let len := (form (.treshape w)).len
    Ready s tid t p (.treshape w) → c.guarded w = true →
    (p.lvl ≠ 0 → Traps (.treshape w) s c 0x42 [0x0A]) ∧
    (∀ (bp : Split) (blen : Nat) (on : Split → Split), c.pastClause len = .ok on → w.md 0 0 = 0 → p.lvl = 0 → c.t.mat = [] → quietCode c.s c.t = none → 2 * c.t.width ≤ 1024 →
      buddy c.s c.t = some (bt, b) → b.splits = [bp] → bp.park = some (.fuse blen) → bp.pc = p.pc → b.width = c.t.width →
      b.regs = c.t.regs → b.body = c.t.body → tid ≠ bt →
      let n := c.t.width
      let mine := decide (c.t.idx < b.idx)
      let lo := if mine then c.t else b
      let up := if mine then b else c.t
      let lt := if mine then tid else bt
      let ut := if mine then bt else tid
      ∃ (s1 : State) (f u : Team) (q : Split), exec (.treshape w) s = .next s1 ∧ s1.teams.at? lt = some f ∧
        s1.teams.at? ut = some u ∧ f.width = 2 * n ∧ f.splits = [q] ∧ q.pc = (on p).pc ∧
        q.mask = (if mine then p.mask ||| (bp.mask <<< n) else bp.mask ||| (p.mask <<< n)) ∧
        (∀ r l, l < n → f.v.get (r * 1024 + l) = lo.v.get (r * 1024 + l)) ∧
        (∀ r l, l < n → f.v.get (r * 1024 + n + l) = up.v.get (r * 1024 + l)) ∧
        f.s = lo.s ∧ f.q = lo.q ∧ f.acc = lo.acc ∧ u.fused = some lt ∧ u.splits = [] ∧ u.acc = up.acc) ∧
    (∀ (kept : Team) (on : Split → Split), c.pastClause len = .ok on → w.md 0 0 = 1 → p.lvl = 0 → c.t.mat = [] → quietCode c.s c.t = none → c.t.width ≠ 2 ^ c.t.twlog →
      c.t.ended = false → kept.ended = false → tid ≠ bt →
      (c.s.teamsOf c.t.wg).find? (fun e => e.2.fused == some tid && e.2.idx == c.t.idx + c.t.width / (2 * 2 ^ c.t.twlog)) =
        some (bt, kept) →
      let n := c.t.width / 2
      p.mask &&& fullMask n ≠ 0 → p.mask >>> n ≠ 0 →
      ∃ (s1 : State) (lo up : Team) (q r : Split), exec (.treshape w) s = .next s1 ∧ s1.teams.at? tid = some lo ∧
        s1.teams.at? bt = some up ∧ lo.width = n ∧ up.width = n ∧ up.fused = none ∧
        lo.splits = [q] ∧ q.mask = p.mask &&& fullMask n ∧ q.pc = (on p).pc ∧
        up.splits = [r] ∧ r.mask = p.mask >>> n ∧ r.pc = (on p).pc ∧
        (∀ k l, l < n → lo.v.get (k * 1024 + l) = c.t.v.get (k * 1024 + l)) ∧
        (∀ k l, l < n → n + l < 1024 → up.v.get (k * 1024 + l) = c.t.v.get (k * 1024 + n + l)) ∧
        lo.s = c.t.s ∧ up.s = c.t.s ∧ lo.acc = c.t.acc ∧ up.acc = kept.acc)

end Sys2Proof.Stated

/-- The register pool and the reshaping of teams (R122 to R129, R443, R444). -/
def Obligations.PoolAndReshaping : Prop := PoolInstructions ∧ TeamsFuseAndPart

/-! Expansion, hash sets, gather. -/

namespace Sys2Proof.Stated

/-- The word of the running team's region: the owner's start, prefix and accumulator (R424). -/
def region (s : State) (wg off o field : Nat) : Nat := scrWord s wg (off + 64 + 12 * o + 4 * field) 4

/-- The team and its split past the instruction in a later state. -/
def GoesOn (s1 : State) (tid : Nat) (p : Split) (len : Nat) (t1 : Team) : Prop :=
  s1.teams.at? tid = some t1 ∧ ∃ q, t1.split? p.id = some q ∧ q.pc = p.pc + len ∧ q.park = none

/-- An expansion instruction of a converged team of whole mask, with no access in flight (R422). -/
def Whole (c : Ctx) : Prop := c.sp.lvl = 0 ∧ c.t.converged = true ∧ c.sp.mask = c.t.all ∧ c.t.flights = []

/-- EXPAND of a team alone (R425): the region holds each lane's start, the sum of the lengths before it, and the
accumulator's first value; the expansion is active with the total and batch 0. -/
def TeamsExpand : Prop :=
  ∀ (s : State) (tid : Nat) (t : Team) (p : Split) (w : OpA),
    let c := src s tid t p (.expand w)
    let va := (c.rdS (fieldC w)).toNat
    let off := va % 2 ^ 20
    let on := c.writing w.gN w.gnB
    let len := fun l : Nat => if on.getLsbD l then (c.rdV (fieldB w) l).toNat else 0
    let sum := fun l : Nat => ((List.range l).map len).sum
    let total := sum c.t.width
    Ready s tid t p (.expand w) → Whole c → c.t.exp.stat.getLsbD 0 = false → w.md 2 1 = 0 → c.t.width ≤ 1024 →
    (s.wgs.at? t.wg).isSome → regionFault c.s c.t va (regionBytes 1 c.t.width) = none →
    (total < 2 ^ 32 →
      ∃ (s1 : State) (t1 : Team), exec (.expand w) s = .next s1 ∧ GoesOn s1 tid p (form (.expand w)).len t1 ∧ s1.mem = s.mem ∧
        t1.exp.stat = BitVec.ofNat 64 (1 + w.md 0 0 * 2 + w.md 4 3 * 128 + w.md 5 5 * 512) ∧
        t1.exp.region = BitVec.ofNat 64 va ∧ t1.exp.total = BitVec.ofNat 64 total ∧ t1.exp.batch = 0 ∧
        ∀ l, l < c.t.width → region s1 t.wg off l 0 = (c.rdV w.aN l).toNat ∧ region s1 t.wg off l 1 = sum l ∧
          region s1 t.wg off l 2 = (match w.md 4 3, w.md 5 5 with
            | 0, _ => 0 | 1, 0 => 0x7F800000 | 1, _ => 0x7FFFFFFF | _, 0 => 0xFF800000 | _, _ => 0x80000000))

/-- EXNEXT (R426): with the iterations used up it says so, in the region's exhaustion mask too (R424), and clears its
predicate; else each lane whose iteration lies
below the total takes its owner and its own place in the owner's range, and the batch counts up. -/
def BatchesAreDealt : Prop :=
  ∀ (s : State) (tid : Nat) (t : Team) (p : Split) (w : OpA),
    let c := src s tid t p (.exnext w)
    let x := c.t.exp
    let g := bits x.stat 3 2 + 1
    let base := (x.batch.toNat * g + bits x.stat 5 4) * c.t.width
    let off := x.region.toNat % 2 ^ 20
    let pre := fun o => region s t.wg off o 1
    Ready s tid t p (.exnext w) → p.park = none → c.guarded w = true → Whole c → x.stat.getLsbD 0 = true →
    ((x.stat.getLsbD 6 = true ∨ x.total.toNat ≤ base) →
      ∃ u t1, SetsQ c.t u (w.md 1 0) true ∧ SetsP u t1 (fieldC w) c.t.all 0 ∧
        Completes (.exnext w) s { c with s := setHeader c.s c.t 2 (headerField c.s c.t 2 ||| 2 ^ bits x.stat 5 4) }
          { t1 with exp := { x with stat := x.stat ||| 64#64 } }) ∧
    (x.stat.getLsbD 6 = false → base < x.total.toNat →
      ∃ (s1 : State) (t1 : Team), exec (.exnext w) s = .next s1 ∧ GoesOn s1 tid p (form (.exnext w)).len t1 ∧ s1.mem = s.mem ∧
        t1.rdQ (w.md 1 0) = false ∧ t1.exp = { x with batch := BitVec.ofNat 64 ((x.batch.toNat + 1) % 2 ^ 32) } ∧
        (∀ l, l < c.t.width → l < 1024 → ((t1.rdP (fieldC w)).getLsbD l = true ↔ base + l < x.total.toNat)) ∧
        (∀ l o, l < c.t.width → l < 1024 → base + l < x.total.toNat → o < g * c.t.width → pre o ≤ base + l →
          (∀ k, o < k → k < g * c.t.width → base + l < pre k) →
          t1.rdV 0 w.dN l = BitVec.ofNat 32 (o / c.t.width * 1024 + o % c.t.width) ∧
          t1.rdV 0 (w.dN + 1) l = BitVec.ofNat 32 (region s t.wg off o 0 + (base + l - pre o))) ∧
        (∀ l, l < 1024 → (c.t.width ≤ l ∨ x.total.toNat ≤ base + l) → t1.rdV 0 w.dN l = c.t.rdV 0 w.dN l))

/-- SEGRED (R427): the values of the lanes whose owners exist go to their accumulators, in order, on no path; applied,
an accumulator takes the sum, the least or the greatest. -/
def SegmentsReduce : Prop :=
  (∀ (s : State) (tid : Nat) (t : Team) (p : Split) (w : OpA),
    let c := src s tid t p (.segred w)
    let x := c.t.exp
    let code := fun l => (c.rdV w.aN l).toNat
    let ls := (c.lanes (c.writing w.gN w.gnB)).filter fun l =>
      decide (code l / 1024 < bits x.stat 3 2 + 1) && decide (code l % 1024 < c.t.width)
    let acc := fun base l => base + 64 + 12 * (code l / 1024 * c.t.width + code l % 1024) + 8
    Ready s tid t p (.segred w) → p.lvl = 0 → x.stat.getLsbD 0 = true →
    (ls = [] → Completes (.segred w) s c c.t) ∧
    (ls ≠ [] → exec (.segred w) s = .next (flies c
      { id := 0, split := 0, path := 4, kind := .segred (bits x.stat 8 7) (bits x.stat 9 9),
        runs := ls.foldl (fun rs l => addRun rs (.scr c.t.wg (acc (x.region.toNat % 2 ^ 20) l)) 4 false (acc x.region.toNat l)
          { lane := l, reg := 0, data := (c.rdV (fieldB w) l).toNat }) [] } (form (.segred w)).len))) ∧
  (∀ (s : State) (tid : Nat) (t : Team) (f : Flight) (r : Run) (a : LaneAcc) (op wg off : Nat),
    s.teams.at? tid = some t → t.flights.find? (·.id == f.id) = some f → f.runs = [r] → r.done = false →
    runFree t f 0 r = true → goneRun s t.wg r = false → rereadHeld s t.core [(r.loc, r.bytes)] = false → f.matFree s t 0 = true →
    r.loc = .scr wg off → r.bytes = 4 → f.kind = .segred op 1 → t.ended = false → op ≤ 2 → r.accs = [a] →
    a.data < 2 ^ 32 → (s.wgs.at? wg).isSome →
    let old := BitVec.ofNat 32 (scrWord s wg off 4)
    let x := BitVec.ofNat 32 a.data
    ∃ s1, exec (.homeWrite tid f.id 0) s = .next s1 ∧ s1.mem = s.mem ∧
      scrWord s1 wg off 4 = (match op with
        | 0 => old + x
        | 1 => if x.slt old then x else old
        | _ => if old.slt x then x else old).toNat)

/-- EXDONE, EXSAVE and EXRSTR (R428 to R430): with every member done and no SEGRED left, EXDONE gives each lane its
accumulator and ends the expansion; EXSAVE joins its engine context; EXRSTR takes an accepted record's context and writes
its region. -/
def ExpansionsEnd : Prop :=
  ∀ (s : State) (tid : Nat) (t : Team) (p : Split) (w : OpA),
    (let c := src s tid t p (.exdone w)
     let x := c.t.exp
     let off := x.region.toNat % 2 ^ 20
     ∀ g, Ready s tid t p (.exdone w) → c.guarded w = true → p.lvl = 0 → x.stat.getLsbD 0 = true → x.stat.getLsbD 6 = true →
       bits x.stat 5 2 = 0 → s.wgs.at? t.wg = some g → (∀ e ∈ s.teams, e.2.wg = t.wg → e = (tid, t)) →
       (∀ f ∈ t.flights, f.path ≠ 4) → (∀ q ∈ t.splits, q.park = none) →
       ∃ (s1 : State) (t1 : Team), exec (.exdone w) s = .next s1 ∧ GoesOn s1 tid p (form (.exdone w)).len t1 ∧ s1.mem = s.mem ∧
         t1.exp = { x with stat := x.stat &&& ~~~1#64 } ∧
         ∀ l, l < c.t.width → l < 1024 → t1.rdV 0 w.dN l = BitVec.ofNat 32 (region s t.wg off l 2)) ∧
    (let c := src s tid t p (.exsave w)
     let va := (c.rdS w.aN).toNat
     let x := c.t.exp
     let saves := x.stat.getLsbD 0 && bits x.stat 5 4 == 0
     let size := if saves then 128 * ((64 + 12 * (bits x.stat 3 2 + 1) * c.t.width + 127) / 128) else 0
     let n := atD c.t.tliss w.dN 0 + 1
     let op : EngOp :=
       { num := n, split := p.id, mask := p.mask, fmt := p.fmt, tpc := c.t.addrOf p.pc, seqNo := c.s.nextId
         slot := (p.clause.map (·.slot)).getD 0
         kind := .exsave va (leBytes 8 x.stat.toNat ++ leBytes 8 x.region.toNat ++ leBytes 8 x.total.toNat ++
           leBytes 8 x.batch.toNat ++ leBytes 4 c.t.width ++ leBytes 4 size ++ List.replicate 24 0)
           (if saves then some (x.region.toNat % 2 ^ 20, size) else none) }
     Ready s tid t p (.exsave w) → c.guarded w = true → p.lvl ≠ 2 → c.t.tliss.length = 4 →
     (va % 8 ≠ 0 → Traps (.exsave w) s c 0x14 [va]) ∧
     (va % 8 = 0 → 16 ≤ (c.t.ops w.dN).length →
       exec (.exsave w) s = .next (c.put (c.t.modSplit p.id fun q => { q with park := some (.engine w.dN) }))) ∧
     (va % 8 = 0 → (c.t.ops w.dN).length < 16 →
       exec (.exsave w) s = .next { c.put (c.doneTeam { c.t with
         eng := setAt c.t.eng w.dN (c.t.ops w.dN ++ [op]), tliss := setAt c.t.tliss w.dN n } (form (.exsave w)).len)
         with nextId := c.s.nextId + 1 })) ∧
    (let c := src s tid t p (.exrstr w)
     let va := (c.rdS w.aN).toNat
     let s0 := c.put c.t
     ∀ q img : List Nat, Ready s tid t p (.exrstr w) → p.park = none → c.guarded w = true → c.t.flights = [] →
       (c.t.exp.stat.getLsbD 0 = true → Traps (.exrstr w) s c 0x42 [4]) ∧
       (c.t.exp.stat.getLsbD 0 = false → readQuads s0 c.t va 8 = .ok q → exRecordOk c.t q = true →
         let n := q.getD 4 0 / 2 ^ 32 % 2 ^ 32
         let dest := (q.getD 1 0) % 2 ^ 64
         readQuads s0 c.t (va + 64) (n / 8) = .ok img → (n ≠ 0 → regionFault s0 c.t (q.getD 1 0) n = none) →
         (s.wgs.at? t.wg).isSome → (∀ x ∈ img, x < 2 ^ 64) → img.length = n / 8 → 8 * (n / 8) = n →
         ∃ (s1 : State) (t1 : Team), exec (.exrstr w) s = .next s1 ∧ GoesOn s1 tid p (form (.exrstr w)).len t1 ∧ s1.mem = s.mem ∧
           t1.exp = { stat := BitVec.ofNat 64 (q.getD 0 0), region := BitVec.ofNat 64 dest,
                      total := BitVec.ofNat 64 (q.getD 2 0), batch := BitVec.ofNat 64 (q.getD 3 0) } ∧
           ∀ k, k < n / 8 → scrWord s1 t.wg (q.getD 1 0 % 2 ^ 20 + 8 * k) 8 = img.getD k 0))

/-- HINS and HPROBE (R431, R432): one run at the table for each writing lane (a table outside the windows traps if a lane
writes), the slot to v[D], the predicate p[C] and for
HINS `full`; a probed key is found at its first slot, an absent one is inserted by HINS at the first free slot. -/
def HashTables : Prop :=
  (∀ (s : State) (tid : Nat) (t : Team) (p : Split) (w : OpA) (i : Instr) (loc : Loc),
    let c := src s tid t p i
    let va := (c.rdS (fieldB w)).toNat
    let k := w.md 4 0
    let ls := c.lanes (c.writing w.gN w.gnB)
    Ready s tid t p i → (i = .hins w ∨ i = .hprobe w) →
    ((ls = [] ∨ (windowFault c.s c.t (· ≤ 1) va = none ∧ windowLoc c.s c.t.core c.t.wg va = some loc)) →
      exec i s = .next (flies c
        { id := 0, split := 0, path := 3, kind := .hash (i == .hins w) k (w.md 6 5),
          runs := ls.map fun l =>
            { loc := loc, bytes := 4 * 2 ^ k, va := va,
              accs := [{ lane := l, reg := w.dN, data := (c.rdV w.aN l).toNat },
                       { lane := l, reg := 256 + fieldC w, data := (c.rdV w.aN l).toNat }] } } (form i).len)) ∧
    (∀ e, ls ≠ [] → windowFault c.s c.t (· ≤ 1) va = some e → TrapsWith i s c c.t e [va] (c.writing w.gN w.gnB))) ∧
  (∀ (s : State) (core : CoreId) (ins : Bool) (k wg off key j : Nat),
    let n := 2 ^ k
    let slot := fun i => (key * 0x9E3779B1 % 2 ^ 32 / 2 ^ (32 - k) + i) % n
    let word := fun i => scrWord s wg (off + 4 * slot i) 4
    let r := hashLane s core ins k (.scr wg off) key
    hashLane s core ins k (.scr wg off) 0xFFFFFFFF = (s, 0xFFFFFFFF) ∧
    ((s.wgs.at? wg).isSome → 1 ≤ k → k ≤ 18 → key < 0xFFFFFFFF → j < n →
    (∀ i, i < j → word i ≠ key ∧ word i ≠ 0xFFFFFFFF) →
    (word j = key → r = (s, slot j + 2 ^ 32)) ∧
    (word j = 0xFFFFFFFF → ins = false → r = (s, 0xFFFFFFFF)) ∧
    (word j = 0xFFFFFFFF → ins = true → r.2 = slot j ∧ r.1.mem = s.mem ∧ scrWord r.1 wg (off + 4 * slot j) 4 = key ∧
      ∀ a, (a < off + 4 * slot j ∨ off + 4 * slot j + 4 ≤ a) → scrWord r.1 wg a 1 = scrWord s wg a 1) ∧
    (j + 1 = n → word j ≠ key → word j ≠ 0xFFFFFFFF → r = (s, 0xFFFFFFFF + if ins then 2 ^ 33 else 0))))

/-- A lane of a HINS is probed at its table (R431, R432): one update, after the lanes below it; the scratchpad is as the probe leaves
it, and the lane holds what the probe found. -/
def LanesAreInserted : Prop :=
  ∀ (s : State) (tid : Nat) (t : Team) (f : Flight) (r : Run) (a b : LaneAcc) (ri k q wg off : Nat),
    let x := hashLane s t.core true k (.scr wg off) a.data
    s.teams.at? tid = some t → t.flights.find? (·.id == f.id) = some f → f.runs[ri]? = some r → r.done = false →
    f.kind = .hash true k q → f.path = 3 → (∀ y ∈ f.runs.take ri, y.done = true) → r.loc = .scr wg off → r.accs = [a, b] →
    runFree t f ri r = true → goneRun s t.wg r = false → hashOut s f r = false →
    rereadHeld s t.core [(r.loc, r.bytes)] = false → f.matFree s t ri = true →
    ∃ s1 t1 f1 r1, exec (.homeWrite tid f.id ri) s = .next s1 ∧ s1.mem = s.mem ∧
      (∀ m o n, scrWord s1 m o n = scrWord x.1 m o n) ∧ s1.teams.at? tid = some t1 ∧
      t1.flights.find? (·.id == f.id) = some f1 ∧ f1.runs[ri]? = some r1 ∧ r1.done = true ∧
      r1.accs = [{ a with old := x.2 }, { b with old := x.2 }]

/-- A HINS or HPROBE of which every lane is probed completes (R195, R431): each lane's v[D] takes the slot, or all ones, and its p[C]
whether the key stood there; after a HINS the uniform predicate says whether a lane found the table full; no other register changes. -/
def HashResultsAreWritten : Prop :=
  ∀ (s : State) (tid : Nat) (t : Team) (f : Flight) (ins : Bool) (k q d n : Nat) (es : List (Nat × Nat × Nat)),
    s.teams.at? tid = some t → t.flights.find? (fun g => g.path == 3) = some f → (∀ g ∈ t.flights, g.id = f.id → g = f) →
    f.kind = .hash ins k q → f.lvl = 0 → f.zero = [] → q < 4 → d < 256 → 1 ≤ n → n ≤ 7 →
    (∀ r ∈ f.runs, r.done = true ∧ r.wait = none ∧ r.req = none) →
    f.runs.map (·.accs) = es.map (fun e => [{ lane := e.1, reg := d, data := e.2.1, old := e.2.2 },
      { lane := e.1, reg := 256 + n, data := e.2.1, old := e.2.2 }]) → (es.map (·.1)).Nodup → (∀ e ∈ es, e.1 < 1024) →
    ∃ t1, exec (.atomicComplete tid) s = .next (settleEnd (settleAcquire (s.setTeam tid t1) tid) tid) ∧
      (∀ e ∈ es, t1.rdV 0 d e.1 = BitVec.ofNat 32 e.2.2 ∧ (t1.rdP n).getLsbD e.1 = e.2.2.testBit 32) ∧
      (∀ l, l < 1024 → (∀ e ∈ es, e.1 ≠ l) → t1.rdV 0 d l = t.rdV 0 d l ∧ (t1.rdP n).getLsbD l = (t.rdP n).getLsbD l) ∧
      (∀ r l, l < 1024 → r ≠ d → t1.rdV 0 r l = t.rdV 0 r l) ∧ (∀ r, r ≠ n → t1.rdP r = t.rdP r) ∧
      (∀ r, t1.rdS 0 r = t.rdS 0 r) ∧
      ∀ r, r < 4 → t1.rdQ r = if ins = true ∧ r = q then es.any (fun e => e.2.2.testBit 33) else t.rdQ r

/-- FETCH (R433, R434): a writing lane whose row lies below EXTENT reads one element of the row for each index of the
layout, into v[D] up; the other writing lanes take zero there. -/
def RowsAreFetched : Prop :=
  ∀ (s : State) (tid : Nat) (t : Team) (p : Split) (w : OpA) (r : BRec) (tr : Nat → Nat → Tran),
    let c := src s tid t p (.fetch w)
    let h := c.t.hdl (tileH (fieldC w))
    let l := c.t.lay (tileL (fieldC w))
    let n := (c.rdS (fieldB w)).toNat % 256
    let recs := ((c.s.wgOf c.t).map (·.brecs)).getD []
    let c1 := { c with t := c.t.setLstat (firstDegree { h with base := 0 } l) (accept 5 { h with base := 0 } l).ways false }
    let lanes := c.lanes (c.writing w.gN w.gnB)
    let row := fun i => (c.rdV w.aN i).toNat
    let va := fun i e => (((BRec.base r + row i * BRec.stride r : Nat) : Int) +
      (l.eval e).elem * (BRec.elem r : Nat)).emod (2 ^ 64 : Nat) |>.toNat
    let els := (lanes.filter fun i => decide (row i < BRec.extent r)).flatMap fun i => (List.range l.size).map fun e => (i, e)
    Ready s tid t p (.fetch w) → p.image = none →
    (c.unreach (tileH (fieldC w)) = true →
      Traps (.fetch w) s (c.imaged (tileH (fieldC w)) (tileL (fieldC w)) 0).1 0x15 [tileH (fieldC w)]) ∧
    (c.unreach (tileH (fieldC w)) = false →
      c.fetchCheck recs[n]? n h l (tileH (fieldC w)) (tileL (fieldC w)) = .ok r →
      c1.misses (els.map fun x => (x.1, va x.1 x.2)) = [] →
      (∀ x ∈ els, c1.checkVa (BRec.elem r) 0 (kindReaches c.s h.kind) (va x.1 x.2) = .ok (tr x.1 x.2)) →
      exec (.fetch w) s = .next (flies c1
        { id := 0, split := 0, path := 2, kind := .gather r,
          runs := els.map fun x => { loc := (tr x.1 x.2).loc, bytes := BRec.elem r, strm := (tr x.1 x.2).strm, va := va x.1 x.2,
                                     accs := [{ lane := x.1, reg := w.dN + x.2, data := 0 }] },
          zero := (lanes.filter fun i => decide (BRec.extent r ≤ row i)).flatMap fun i =>
            (List.range l.size).map fun e => (i, w.dN + e) } (form (.fetch w)).len))

end Sys2Proof.Stated

/-- The expansion of irregular work (R421 to R430).
Where the spec leaves a point open, it states the model's choice: log entries 13 and 34. -/
def Obligations.ExpansionsRun : Prop := TeamsExpand ∧ BatchesAreDealt ∧ SegmentsReduce ∧ ExpansionsEnd

/-- Hash sets and gather (R431 to R434).
Where the spec leaves a point open, it states the model's choice: log entries 34 and 35. -/
def Obligations.HashSetsAndGather : Prop := HashTables ∧ LanesAreInserted ∧ HashResultsAreWritten ∧ RowsAreFetched

/-! Steps of the memory system and of the engines. -/

namespace Sys2Proof.Stated

/-- A team's split, as it stands. -/
def Stands (s : State) (tid : Nat) (t : Team) (p : Split) : Prop := s.teams.at? tid = some t ∧ t.split? p.id = some p

/-- The oldest access of a path whose locations are performed and acknowledged completes (R188, R195): it leaves the team,
an atomic's lane takes its old value, a WAITP whose count is reached goes on. -/
def AccessesComplete : Prop :=
  ∀ (s : State) (tid : Nat) (t : Team) (f : Flight) (i : Instr),
    s.teams.at? tid = some t → t.flights.find? (fun g => g.path == f.path) = some f →
    (∀ g ∈ t.flights, g.id = f.id → g = f) → (∀ r ∈ f.runs, r.done = true ∧ r.wait = none ∧ r.req = none) →
    ((i = .loadComplete tid ∧ f.path = 0) ∨ (i = .storeAck tid ∧ f.path = 1) ∨ (i = .gatherComplete tid ∧ f.path = 2) ∨
     (i = .atomicComplete tid ∧ f.path = 3)) →
    ∃ t1, exec i s = .next (settleEnd (settleAcquire (s.setTeam tid t1) tid) tid) ∧
      t1.flights = t.flights.filter (fun g => g.id != f.id) ∧
      (∀ q ∈ t1.splits, ∀ n, q.park = some (.waitp f.path n) → n < (t1.flights.filter fun g => g.path == f.path).length) ∧
      (f.path = 1 → f.kind = .store → f.zero = [] →
        t1 = { t with flights := t1.flights, splits := t1.splits, hazards := t1.hazards } ∧
        ∀ h ∈ t.hazards, h.olds ≠ [] → h.ready ≠ 0 → h ∈ t1.hazards) ∧
      (∀ fn ty r a, f.kind = .atomic fn ty → f.zero = [] → f.runs = [r] → r.bytes = 4 → r.accs = [a] → a.live = true →
        a.cut = 0 → f.lvl = 0 → a.lane < 1024 → a.old < 2 ^ 32 →
        ∀ n l, l < 1024 → t1.rdV 0 n l = if n = a.reg ∧ l = a.lane then BitVec.ofNat 32 a.old else t.rdV 0 n l) ∧
      (∀ b r a, f.kind = .gather b → f.zero = [] → f.runs = [r] → r.accs = [a] → a.live = true → a.cut = 0 →
        f.lvl = 0 → a.lane < 1024 →
        (∀ n l, l < 1024 → t1.rdV 0 n l = if n = a.reg ∧ l = a.lane then BitVec.ofNat 32 (recLoad b a.old).1 else t.rdV 0 n l) ∧
        t1.flags = t.flags ||| BitVec.ofNat 64 (recLoad b a.old).2)

/-- What ends a wait of a split: its release fence (R185), its walk (R176), its spill or reload (R121), its watched word
(R202), of which no data are being read again (R61); a reservation that is 2 µs old goes (R200); and once the fairness timer has
reached 2,048 the front split goes to the back of the rotation as it releases its pipe, with a live reservation later (R104). -/
def WaitsEnd : Prop :=
  ∀ (s : State) (tid : Nat) (t : Team) (p : Split), Stands s tid t p →
    (∀ scope upTo, p.park = some (.release scope upTo) → fenceDone s t scope upTo = true →
      exec (.releaseFenceComplete tid p.id) s =
        .next (s.setTeam tid (t.modSplit p.id fun x => { x with park := none, stage := x.stage ||| 1 }))) ∧
    (∀ va l, p.park = some (.walk l) → (∃ x ∈ l, x / 65536 = va / 65536) → p ∈ t.splits → (tid, t) ∈ s.teams →
      ∃ s1, exec (.walkComplete t.core (s.ptbaseOf t) va) s = .next s1 ∧ s1.mem = s.mem ∧
        ∃ t1 q, (tid, t1) ∈ s1.teams ∧ q ∈ t1.splits ∧ q.id = p.id ∧ q.pc = p.pc ∧
          q.park = (if l.all (fun x => x / 65536 == va / 65536) then none
            else some (.walk (l.filter fun x => x / 65536 != va / 65536)))) ∧
    (p.grotto = true → ∀ i, i = .grottoSpillDone tid p.id ∨ i = .grottoReloadDone tid p.id →
      exec i s = .next (s.setTeam tid (t.modSplit p.id fun x => { x with grotto := false }))) ∧
    (∀ wg off n cond val len, p.park = some (.waitw (.scr wg off) n cond val len none) →
      rereadHeld s t.core [(.scr wg off, n)] = false →
      (holds cond (scrWord s wg off n) val →
        ∃ s1, exec (.monitorWake tid p.id) s = .next s1 ∧ s1.mem = s.mem ∧ Past s1 tid p len) ∧
      (¬holds cond (scrWord s wg off n) val → exec (.monitorWake tid p.id) s = .fault .notEnabled)) ∧
    (∀ q e, p.resv = some q → e ∈ q.clocks → e.2 + 2000 ≤ clockOf s e.1 →
      ∃ t1 x, exec (.reservationTimeout tid p.id) s = .next (s.setTeam tid t1) ∧ t1.split? p.id = some x ∧
        x = { p with resv := none }) ∧
    (∀ y rest, t.splits = p :: y :: rest → t.rotate = false →
      exec (.fairnessRotate tid) s = if 2048 ≤ t.timer then .next (s.setTeam tid { t with rotate := true }) else .fault .notEnabled) ∧
    (∀ (s0 : State) (t0 : Team) (y : Split) (rest : List Split), t.splits = p :: y :: rest → t.rotate = true ∨ 2048 ≤ t.timer →
      s0.teams.at? tid = some t0 → t0.splits.map (·.id) = t.splits.map (·.id) → t0.uframe.isSome = t.uframe.isSome →
      t0.kframe.isSome = t.kframe.isSome → holdsPipe t p = false →
      rotateAfter s0 tid p.id s = s.setTeam tid (if p.holds s = true then { t with rotate := true }
        else { t with splits := y :: rest ++ [p], rotate := false, timer := 0 }))

/-- A parked QPUSH moves its entries when there is room for them (R157). -/
def FifosServe : Prop :=
  ∀ (s : State) (tid : Nat) (t : Team) (p : Split) (b order len : Nat) (es : List Nat) (on : Mask),
    s.teamsOf t.wg = [(tid, t)] → t.splits = [p] → p.park = some (.fifo true b order es on 0 len none) →
    (s.wgs.at? t.wg).isSome → (fifoOf s t.wg b).length + (Machine.passes p.mask).length ≤ 256 →
    (∀ x ∈ s.dev.rereads, placeHit x [(.scr t.wg (b * 32768), 32768)] = false) →
    ∃ s1, exec (.fifoServe t.wg b) s = .next s1 ∧ fifoOf s1 t.wg b = fifoOf s t.wg b ++ es ∧ Past s1 tid p len

/-- A load that has waited 4 µs on a channel outside its partition's phase is performed in another partition's phase, a retry
event of that phase's owner (R21, R166). -/
def PhasesAreBorrowed : Prop :=
  ∀ (s : State) (tid : Nat) (t : Team) (f : Flight) (r : Run) (die channel pa sz : Nat),
    s.teams = [(tid, t)] → (∀ l ∈ t.eng, l = []) → t.flights = [f] → f.runs = [r] → f.kind = .load sz → f.path = 0 →
    r.done = false → r.loc = .mem pa → isLocal s pa = true → expanderDown s pa = false → channelOf s pa = some (die, channel) →
    thirdKind s (s.pidOf t) die (localOf pa % 0x0020_0000_0000) = true → atD f.since die 0 + 4000 ≤ clockOf s die →
    s.steals.at? (die * 64 + channel) = none → t.mat = [] → s.reqHost = [] → s.reqFab = [] →
    rereadHeld s t.core [(r.loc, r.bytes)] = false →
    let o := phaseOwner s die
    ∃ s1 t1 f1 r1 p1, exec (.phaseSteal die channel) s = .next s1 ∧ s1.teams.at? tid = some t1 ∧ t1.flights = [f1] ∧
      f1.runs = [r1] ∧ r1.done = true ∧ s1.steals.at? (die * 64 + channel) = some (clockOf s die) ∧
      s1.parts.at? o = some p1 ∧ p1.retry = (((s.parts.at? o).map (·.retry)).getD 0) + 1

/-- The operation at the head of a team's engine context, which may go on: no fault, no pre-emption, no trip (R15, R276, R279). -/
def EngineHead (s : State) (tid ctx : Nat) (t : Team) (o : EngOp) : Prop :=
  s.teams.at? tid = some t ∧ (t.ops ctx).head? = some o ∧ engineFree t ctx o = true ∧ s.dev.tripped = false

/-- A free copy engine of a core takes the operation issued first of those whose contexts have nothing in progress (R395); a context
that a fault or a PREEMPT has stopped holds none (R276, R279). -/
def CopyEnginesStart : Prop :=
  ∀ (s : State) (core : CoreId) (tid ctx : Nat) (t : Team) (o : EngOp),
    let l := (coreHeads s core).filter fun e => e.2.2.2.kind.copies
    s.dev.tripped = false → (l.filter fun e => e.2.2.2.started && engineFree e.2.2.1 e.2.1 e.2.2.2).length < 4 → (tid, ctx, t, o) ∈ l →
    engineFree t ctx o = true → o.started = false →
    (∀ e ∈ l, e.2.2.2.started = false → engineFree e.2.2.1 e.2.1 e.2.2.2 = true → e = (tid, ctx, t, o) ∨ o.seqNo < e.2.2.2.seqNo) →
    exec (.copyEngineStart core) s =
      .next (s.setHead tid ctx { o with started := true, since := s.clocks, pass1 := o.quant && o.expo.isNone })

/-- The bytes of a workgroup's scratchpad after a chunk: element i of the list is x i at b i, every other byte is as before. -/
def ChunkWritten (s s1 : State) (wg w : Nat) (is : List Nat) (b x : Nat → Nat) : Prop :=
  (∀ i ∈ is, scrWord s1 wg (b i) w = x i % 2 ^ (8 * w)) ∧
  ∀ a, (∀ i ∈ is, a < b i ∨ b i + w ≤ a) → scrWord s1 wg a 1 = scrWord s wg a 1

/-- The destination line that an operation makes next, whole and in the scratchpad: its elements lie at b i there, apart from each
other. -/
def NextChunk (s : State) (t : Team) (o : EngOp) (wg line : Nat) (is : List Nat) (b : Nat → Nat) : Prop :=
  let (h, l) := o.dst
  o.chunks[o.pick s t]? = some (line, is.map fun i => (0, i)) ∧ (s.wgs.at? wg).isSome ∧
  (∀ i ∈ is, ((locate h l i).lines l.width).length = 1 ∧
    enginePlace s t h 1 l.width (locate h l i) = .ok [(.scr wg (b i), l.width)]) ∧
  ∀ i ∈ is, ∀ j ∈ is, i = j ∨ b i + l.width ≤ b j ∨ b j + l.width ≤ b i

/-- The state after a chunk: memory is as before, the operation stands at the next chunk, or has made one above its index, which
it notes. -/
def ChunkDone (s s1 : State) (tid ctx : Nat) (t : Team) (o : EngOp) : Prop :=
  s1.mem = s.mem ∧ ∃ t1 o1, s1.teams.at? tid = some t1 ∧ (t1.ops ctx).head? = some o1 ∧ o1.num = o.num ∧
    if o.pick s t = o.chunk then o1.chunk = o.chunk + 1 ∧ o1.applied = [] else o1.chunk = o.chunk ∧ o1.applied = [o.pick s t]

/-- A copy engine moves one destination line of a COPY whose formats are equal, from memory to the scratchpad: each element's
bytes as they stand in memory (R207, R396). -/
def CopiesMove : Prop :=
  ∀ (s : State) (tid ctx : Nat) (t : Team) (o : EngOp) (wg line : Nat) (is : List Nat) (a b : Nat → Nat),
    EngineHead s tid ctx t o → o.kind = .copy → o.started = true → o.moves = true → o.applied = [] →
    NextChunk s t o wg line is b →
    (∀ i ∈ is, enginePlace s t o.src.1 0 o.src.2.width (locate o.src.1 o.src.2 i) = .ok [(.mem (a i), o.src.2.width)]) →
    ∃ s1, exec (.copyChunk tid ctx) s = .next s1 ∧ ChunkDone s s1 tid ctx t o ∧
      ChunkWritten s s1 wg o.dst.2.width is b fun i => leNat (s.rdMem (a i) o.src.2.width)

/-- The drain path writes one destination line of a DRAIN: each element of the captured tile, rounded to the destination's
format (R414). -/
def DrainsWrite : Prop :=
  ∀ (s : State) (tid ctx : Nat) (t : Team) (o : EngOp) (wg line : Nat) (is : List Nat) (b : Nat → Nat),
    EngineHead s tid ctx t o → o.kind = .drain false → drainTurn s t.core tid ctx = true → o.dst.2.scaled = false →
    o.expo = none → o.applied = [] → NextChunk s t o wg line is b →
    ∃ s1, exec (.drainChunk tid ctx) s = .next s1 ∧ ChunkDone s s1 tid ctx t o ∧
      ChunkWritten s s1 wg o.dst.2.width is b fun i =>
        (roundTo ((fmtOf o.dst.2.fmt).getD fmtF32) (scaleF (decodeF fmtF32 (o.tile.get i).toNat) 0) o.round o.sat).1

/-- An operation whose writes are made and acknowledged leaves its context, which counts it; a TLWAIT whose number it reaches goes
on (R196, R394 to R399). -/
def OperationsComplete : Prop :=
  ∀ (s : State) (tid ctx : Nat) (t : Team) (o : EngOp) (i : Instr),
    EngineHead s tid ctx t o → i = (if o.kind.copies then .copyComplete tid ctx else .drainOperationComplete tid ctx) →
    o.started = true → o.written = true → o.acked s t.core = true → ctx < 4 → t.tlc.length = 4 → t.eng.length = 5 →
    ∃ t1, exec i s = .next (settleEnd (l1Drop (s.setTeam tid t1) t.core fun l => o.lines.contains l.line) tid) ∧
      t1.ops ctx = (t.ops ctx).drop 1 ∧ atD t1.tlc ctx 0 = o.num ∧ (∀ k, k ≠ ctx → atD t1.tlc k 0 = atD t.tlc k 0) ∧
      ∀ q ∈ t1.splits, ∀ n, q.park = some (.tlwait ctx n) → o.num < n

/-- What a chunk's step does in general (R276, R396, R414): it advances the operation, or takes the fault that its accesses
meet. -/
def ChunksAdvance : Prop :=
  ∀ (s : State) (tid ctx : Nat) (t : Team) (o : EngOp), EngineHead s tid ctx t o → o.written = false →
    (o.kind.copies = true → o.started = true →
      (∀ s1 o1, o.advance s tid t = .ok (s1, o1) →
        exec (.copyChunk tid ctx) s = .next (s1.setHead tid ctx { o1 with since := s.clocks })) ∧
      (∀ e, o.advance s tid t = .error e → e.cause ≠ 0 → (ctx = 4 ∨ corrHeld s t = false) → exec (.copyChunk tid ctx) s = .next (engineFault s tid ctx t o e))) ∧
    (o.kind.copies = false → drainTurn s t.core tid ctx = true →
      (∀ s1 o1, ({ o with started := true } : EngOp).advance s tid t = .ok (s1, o1) →
        exec (.drainChunk tid ctx) s = .next (s1.setHead tid ctx { o1 with since := s.clocks })) ∧
      (∀ e, ({ o with started := true } : EngOp).advance s tid t = .error e → e.cause ≠ 0 → (ctx = 4 ∨ corrHeld s t = false) →
        exec (.drainChunk tid ctx) s = .next (engineFault s tid ctx t { o with started := true } e)))

/-- A BANKCFG's change finishes (R154, R401): the block has its new state, its contents are gone, the split goes on
past the instruction. -/
def BanksChange : Prop :=
  ∀ (s : State) (tid : Nat) (t : Team) (p : Split) (w : Wg) (b x n : Nat) (y : BState),
    Stands s tid t p → s.wgs.at? t.wg = some w → p.park = some (.bankcfg b x n) → w.blocks[b]? = some y →
    bankReady s w t.wg b = true → fifoParked s t.wg b = false → w.worn.contains b = false →
    (s.dev.retireBlock.at? (coreKey w.home)).getD 0 = 0 →
    ∃ s1 w1 t1 q, exec (.bankcfgChangeComplete tid p.id) s = .next s1 ∧ s1.mem = s.mem ∧ s1.wgs.at? t.wg = some w1 ∧
      w1.blocks[b]? = some (bankState x) ∧ (∀ k, k ≠ b → w1.blocks[k]? = w.blocks[k]?) ∧
      (∀ a, w1.scr.get a = if a / 32768 = b then 0 else w.scr.get a) ∧ w1.fifos.at? b = none ∧
      s1.teams.at? tid = some t1 ∧ t1.split? p.id = some q ∧ q.park = none ∧ q.pc = p.pc + n

end Sys2Proof.Stated

/-- The memory system's own steps (R104, R121, R157, R166, R176, R185, R188, R195, R200, R202).
Where the spec leaves a point open, it states the model's choice: log entries 4, 14, 26, 27 and 36. -/
def Obligations.MemoryStepsComplete : Prop := AccessesComplete ∧ WaitsEnd ∧ FifosServe ∧ PhasesAreBorrowed

/-- The engines' own steps (R154, R395, R396, R401, R414): each answers a next state.
Where the spec leaves a point open, it states the model's choice: log entries 4, 5 (the chunks of a COPY whose operands do not overlap
come in any order), 29, 30 and 31. -/
def Obligations.EngineStepsComplete : Prop :=
  CopyEnginesStart ∧ CopiesMove ∧ DrainsWrite ∧ OperationsComplete ∧ ChunksAdvance ∧ BanksChange

/-! Steps of the scheduler: traps and faults, the pool, queues and grids, placement. -/

namespace Sys2Proof.Stated

/-- PREEMPT is taken once the team stands at instruction boundaries with nothing in flight (R279), a split between a REPEAT and its
instruction at the REPEAT (R308): the privileged record and frame, a split of every live lane for the handler in front, the team stopped, its workgroup saving. -/
def PreemptsAreTaken : Prop :=
  ∀ (s : State) (tid : Nat) (t : Team) (g : Wg),
    s.teams.at? tid = some t → s.wgs.at? t.wg = some g → t.preempt = true → t.kframe = none → t.ended = false →
    t.dead = false → t.fused = none → t.xfer = none → t.flights = [] → t.mat = [] → privRoom s t = true → s.dev.tripped = false →
    (∀ p ∈ t.splits, p.park = none ∧ p.pend = []) → t.preEntry = none → corrFault s t = none → corrHeld s t = false →
    (∀ f ∈ s.faultReq, f.team ≠ tid) →
    ∃ s1 t1 h rest g1, exec (.preemptDelivery tid) s = .next s1 ∧ s1.teams.at? tid = some t1 ∧ t1.krec.cause = 0x70 ∧
      t1.kframe.isSome ∧ t1.stop = true ∧ t1.preempt = false ∧ t1.splits = h :: rest ∧ h.lvl = 2 ∧ h.mask = t.live ∧
      rest.map Split.pc = t.splits.map (fun p => if p.rep.isSome then p.pc - 1 else p.pc) ∧ (∀ p ∈ rest, p.resv = none) ∧
      s1.wgs.at? t.wg = some g1 ∧ g1.st = .saving

/-- A trap whose entry waited is entered as one that did not (R264, R269): a user-level one once the frame and Lodge room are
free and no older trap waits, a team-wide one once no access is in flight; TPC2 as the correspondence table now gives it. -/
def WaitingTrapsAreEntered : Prop :=
  ∀ (s : State) (tid : Nat) (t : Team) (p : Split) (r : TrapRec) (rest : List TrapRec), Stands s tid t p →
    p.pend = r :: rest → s.dev.tripped = false →
    (r.cause ∈ userLevel → t.kframe = none → t.preempt = false → t.stop = false → p.park = some .lodge →
      mayEnter s tid t r.order = true → t.thbase ≠ 0 → corrFault s t = none → corrHeld s t = false → ∀ h, handlerIndex s t = some h → targetOk s t h = .ok true →
      ∃ t1 q, exec (.trapEntry tid p.id) s = .next (s.setTeam tid t1) ∧ t1.urec = r.fresh s t ∧ t1.uframe.isSome ∧
        t1.split? p.id = some q ∧ q.pc = h ∧ q.lvl = 1 ∧ q.mask = p.mask ∧ q.park = none) ∧
    (r.cause ∈ [0x11, 0x13, 0x9F] → r.team = true → t.flights = [] → p.lvl = 0 → p.park = some .trap → corrFault s t = none →
      corrHeld s t = false →
      ∃ s1 t1, exec (.trapEntry tid p.id) s = .next s1 ∧ s1.teams.at? tid = some t1 ∧ t1.stop = true ∧
        t1.krec = { r.fresh s t with resume := 3 })

/-- Eight bytes of memory. -/
def quadAt (s : State) (pa : Nat) : Nat := leNat (s.mem.read (memKey s pa) 8)

/-- A fault gets its entry in the partition's fault queue when a slot is free (R81): its 64 bytes at the slot of FQTAIL, FQTAIL
counts up, the team, its path counters zero (R264), awaits RESUME; without a usable queue the grid fails with the fault's cause. -/
def FaultsAreQueued : Prop :=
  ∀ (s : State) (tid : Nat) (t : Team) (r : FaultReq),
    s.teams.at? tid = some t → s.faultReq.find? (fun f => f.team == tid) = some r → r.wg = none → t.pathsBusy = false →
    (∀ q, faultQueueOf s r.pid = some q → slotFree s q = true →
      let tail := quadAt s (q.ctl + 64)
      let pa := q.ring + 64 * (tail % 2 ^ q.log)
      let e := entryBytes s r (s.fseq.get r.pid).toNat
      tail + 1 < 2 ^ 64 → (memKey s pa + 64 ≤ memKey s (q.ctl + 64) ∨ memKey s (q.ctl + 64) + 8 ≤ memKey s pa) →
      ∃ s1 w, exec (.faultQueueWrite tid) s = .next s1 ∧ s1.mem.read (memKey s pa) 64 = e ∧
        s1.mem.read (memKey s (q.ctl + 64)) 8 = leBytes 8 (tail + 1) ∧ s1.faultReq = s.faultReq.erase r ∧
        s1.faultQ = s.faultQ ++ [w] ∧ w.team = tid ∧ w.slotPa = pa ∧ w.cause = r.cause ∧ w.grid = r.grid ∧ w.lanes = r.lanes ∧
        s1.fseq.get r.pid = s.fseq.get r.pid + 1) ∧
    (faultQueueOf s r.pid = none → ∀ g, s.gridOf r.grid = some g → g.fail = none →
      ∃ s1 g1, exec (.faultQueueWrite tid) s = .next s1 ∧ s1.gridOf r.grid = some g1 ∧
        g1.fail = some (failed r.cause (((s.wgs.at? t.wg).map (·.lin)).getD 0)))

/-- The host's RESUME (R81, R275): 1 lets the faulting lanes of the split execute again, any other value fails the grid with
the entry's cause. -/
def FaultsResume : Prop :=
  ∀ (s : State) (tid : Nat) (t : Team) (p : Split) (f : FaultWait), Stands s tid t p →
    s.faultQ = [f] → f.team = tid → f.split = p.id → f.engine = none → f.wg = none → p.park = some (.fault f.seq) → p.pend = [] →
    (quadAt s (f.slotPa + 56) = 1 → f.lanes ≠ 0 → t.kframe = none → t.dead = false → (∀ x ∈ t.splits, x = p ∨ x.park = none) →
      (∀ l ∈ t.eng, l = []) → t.mat = [] → s.faultReq = [] → (∀ w, s.wgs.at? t.wg = some w → w.ready = true) →
      ∃ t1 q, exec (.faultResume tid) s = .next ({ s with faultQ := [] }.setTeam tid t1) ∧ t1.stop = false ∧
        t1.split? p.id = some q ∧ q.pc = p.pc ∧ q.park = none ∧ q.redo = some f.lanes ∧ q.intl = p.clause.isSome) ∧
    (1 < quadAt s (f.slotPa + 56) → (∀ w, s.wgs.at? t.wg = some w → w.ready = true) → ∀ g, s.gridOf f.grid = some g → g.fail = none →
      ∃ s1 g1, exec (.faultResume tid) s = .next s1 ∧ s1.gridOf f.grid = some g1 ∧
        g1.fail = some (failed f.cause (((s.wgs.at? t.wg).map (·.lin)).getD 0)))

/-- The head of a core's claim queue is granted once its slabs are free (R95, R128): the registers grow by n, the new ones
zero, and the split goes past its RCLAIM. -/
def ClaimsAreGranted : Prop :=
  ∀ (s : State) (core : CoreId) (tid n len : Nat) (t : Team) (p : Split), Stands s tid t p →
    (s.coreOf core).claims = [(tid, p.id, n)] → p.park = some (.claim n len) →
    slabsOf (t.regs + n) t.moms t.width t.twlog - t.slabs ≤ freeSlabs s core →
    ∃ s1 t1, exec (.claimGrant core) s = .next s1 ∧ s1.teams.at? tid = some t1 ∧ (s1.coreOf core).claims = [] ∧
      t1.regs = t.regs + n ∧ Past s1 tid p len ∧
      ∀ r l, l < 1024 → t1.v.get (r * 1024 + l) = if t.regs ≤ r ∧ r < t.regs + n then 0 else t.v.get (r * 1024 + l)

/-- Migration (R96, R137, R142 to R144): the head of a cluster's queue whose target core has room starts its transfer; complete,
the team runs the target's body at its continuation point, each listed value in the register that body gives it. -/
def MigrationsAreServed : Prop :=
  ∀ (s : State) (tid : Nat) (t : Team),
    s.teams.at? tid = some t →
    (∀ (die cluster : Nat) (r : MigReq) (rest : List MigReq) (c : CoreId) (b : Body) (pc : Nat),
      s.migs.at? (die * 16 + cluster) = some (r :: rest) → r.team = tid → migTarget s t r.toL = some c →
      targetBody s t r.entry r.toL = some (b, pc) →
      ∃ s1 x, exec (.migrationServe die cluster) s = .next s1 ∧ s1.teams.at? tid = some { t with xfer := some x } ∧
        x.dest = c ∧ x.body = b ∧ x.entry = r.entry ∧ x.pred = r.pred ∧ s1.migs.at? (die * 16 + cluster) = some rest) ∧
    (∀ (x : Xfer) (pc : Nat), t.xfer = some x → contPoint s x.entry x.body = some pc → (s.coreOf t.core).claims = [] →
      ∃ s1 t1, exec (.migrationComplete tid) s = .next s1 ∧ s1.teams.at? tid = some t1 ∧ t1.core = x.dest ∧
        t1.slot = x.slot ∧ t1.xfer = none ∧
        EntersBody s x.entry { t with core := x.dest, slot := x.slot, xfer := none } t1 x.body pc x.pred ∧
        (x.entry.live = [] → t1.v = [] ∧ t1.s = [] ∧ t1.p = [] ∧ t1.acc = []))

/-- A LAUNCH parked for a full device-side queue executes again once it has room (R74). -/
def LaunchesRetry : Prop :=
  ∀ (s : State) (tid : Nat) (t : Team) (p : Split), Stands s tid t p → p.park = some .launch →
    ((s.dqueues.at? (s.pidOf t * 4 + t.core.die)).getD []).length < 4096 →
    exec (.launchRetry tid p.id) s = .next (s.setTeam tid (t.modSplit p.id fun x => { x with park := none }))

end Sys2Proof.Stated

/-- Traps and faults that waited for the device (R81, R264, R269, R275, R279).
Where the spec leaves a point open, it states the model's choice: log entries 4, 39 and 49. -/
def Obligations.TrapsAndFaultsAreServed : Prop :=
  PreemptsAreTaken ∧ WaitingTrapsAreEntered ∧ FaultsAreQueued ∧ FaultsResume

/-- Claims, migrations and launches that waited for the device (R74, R95, R96, R128, R144).
Where the spec leaves a point open, it states the model's choice: log entries 4 and 18. -/
def Obligations.RequestsAreServed : Prop := ClaimsAreGranted ∧ MigrationsAreServed ∧ LaunchesRetry

namespace Sys2Proof.Stated

/-- The descriptor of a queue is read and checked (R63 to R68): its fields as they stand in host memory; an enabled bad one
posts BADDESC. -/
def DescriptorsAreRead : Prop :=
  ∀ (s : State) (pid q d : Nat),
    let num := fun off n => leNat (s.mem.read (memKey s (d + off)) n)
    s.dev.bringup = 9 → s.dev.tripped = false → descOf s pid q = some d → s.queueOf pid q = none →
    ∃ s1 x, exec (.descriptorReread pid q) s = .next s1 ∧ s1.queueOf pid q = some x ∧ x.ring = num 0 8 ∧ x.ptbase = num 8 8 ∧
      x.logn = num 16 1 ∧ x.prio = num 17 1 ∧ x.en = (num 18 1 % 2 == 1) ∧ x.ovfl = false ∧
      x.bad = (num 18 1 % 2 == 1 && !descOk s (d - (256 + 256 * q)) d) ∧
      (x.bad = true → s1.dev.events.getLast? = some { type := 5, unit := pid, d1 := q % 2 ^ 32, d2 := 0 })

/-- The tail line's monitor wakes (R44, R66): the line is read again; more records than the ring holds stop the queue. -/
def TailsAreRead : Prop :=
  ∀ (s : State) (pid q d : Nat) (x : Queue),
    s.dev.bringup = 9 → s.dev.tripped = false → descOf s pid q = some d → s.queueOf pid q = some x → x.served = true →
    lineHeld s d = true → lineHeld s (d + 64) = false →
    ∃ s1 y, exec (.queueMonitorWake pid q) s = .next s1 ∧ lineHeld s1 (d + 64) = true ∧ s1.queueOf pid q = some y ∧
      y.ovfl = decide (2 ^ x.logn < queueLen s d) ∧ y.ring = x.ring

/-- A distributor takes the record at HEAD (R67, R70, R82, R84): HEAD counts up, the grid is owned by the die under its
GRIDID; a record that fails a check of its own fields makes a failed grid with the check's word. -/
def RecordsAreTaken : Prop :=
  ∀ (s : State) (die pid q d : Nat) (x : Queue),
    let head := quadAt s (d + 128)
    let gid := BitVec.ofNat 64 (pid * 2 ^ 60 + q * 2 ^ 51 + head % 2 ^ 51)
    let l := recordAt s (hostPa s (x.ring + 128 * (head % 2 ^ x.logn)))
    s.dev.bringup = 9 → s.dev.tripped = false → (s.pctl.get pid).getLsbD 3 = false → coresOf s pid die ≠ [] →
    descOf s pid q = some d → s.queueOf pid q = some x → x.served = true → lineHeld s d = true → lineHeld s (d + 64) = true →
    0 < queueLen s d → queueLen s d ≤ 2 ^ x.logn → s.gridOf gid = none →
    ∃ s1 g, exec (.takeRecord die pid q) s = .next s1 ∧ s1.gridOf gid = some g ∧ g.owner = die ∧ g.pid = pid ∧ g.lrec = l ∧
      g.prio = x.prio ∧ g.ptbase = x.ptbase ∧ g.depth = 0 ∧
      s1.mem.read (memKey s (d + 128)) 8 = leBytes 8 (head + 1) ∧
      ∀ k, recordDetail l pid = some k → g.st = .failed ∧ g.fail = some (BitVec.ofNat 64 (2 ^ 63 + 0x61 * 2 ^ 48 + k * 2 ^ 40))

/-- A queue that overflowed is served again once the host has written its descriptor's first line, and no sooner (R66): QSTAT then
reads 0. -/
def OverflowsEnd : Prop :=
  ∀ (s : State) (pid q d : Nat) (x : Queue),
    s.dev.bringup = 9 → s.dev.tripped = false → descOf s pid q = some d → s.queueOf pid q = some x → x.ovfl = true →
    (lineHeld s d = true → exec (.descriptorReread pid q) s = .fault .notEnabled) ∧
    (lineHeld s d = false → ∃ s1 y, exec (.descriptorReread pid q) s = .next s1 ∧ s1.queueOf pid q = some y ∧
      y.ovfl = !x.written ∧ (x.written = true → y.bad = false → s1.mem.read (memKey s (d + 136)) 4 = leBytes 4 0))

/-- The checks of a TAKEN grid wait while a read of its kernel object is held (R37), and settle once it is not: a failing one
makes a failed grid (R70, R84). -/
def ChecksWait : Prop :=
  ∀ (s : State) (g : Grid), s.gridOf g.gid = some g → g.st = .taken →
    (checkRecord s g.pid g.ptbase g.lrec = .error 0 → exec (.dependenceWake g.gid) s = .fault .notEnabled) ∧
    (∀ k, checkRecord s g.pid g.ptbase g.lrec = .error k → 0 < k → k < 256 →
      ∃ s1 g1, exec (.dependenceWake g.gid) s = .next s1 ∧ s1.gridOf g.gid = some g1 ∧ g1.st = .failed ∧
        g1.fail = some (BitVec.ofNat 64 (2 ^ 63 + 0x61 * 2 ^ 48 + k * 2 ^ 40)))

/-- A distributor takes a child record (R73, R74, R90): the child grid stands one level below its parent, and of a failing
parent it fails with the parent's word. -/
def ChildRecordsAreTaken : Prop :=
  ∀ (s : State) (die pid : Nat) (r : ChildRec) (rest : List ChildRec) (p : Grid),
    s.dev.bringup = 9 → s.dev.tripped = false → (s.pctl.get pid).getLsbD 3 = false →
    s.dqueues.at? (pid * 4 + die) = some (r :: rest) → s.gridOf r.parent = some p → s.gridOf r.gid = none →
    ∃ s1 g, exec (.takeChildRecord die pid) s = .next s1 ∧ s1.dqueues.at? (pid * 4 + die) = some rest ∧
      s1.gridOf r.gid = some g ∧ g.lrec = r.lrec ∧ g.owner = die ∧ g.depth = p.depth + 1 ∧ g.prio = p.prio ∧
      g.parent = some (r.parent, r.team) ∧ (p.st = .failing → g.st = .failed ∧ g.fail = p.fail)

/-- A grid's dependence words are met, or one is a failure word (R71, R84). -/
def DependencesSettle : Prop :=
  ∀ (s : State) (g : Grid), s.gridOf g.gid = some g → g.st = .waiting →
    (∀ w b, depState s g = (some w, b) → g.fail = none →
      ∃ s1 g1, exec (.dependenceWake g.gid) s = .next s1 ∧ s1.gridOf g.gid = some g1 ∧ g1.st = .failed ∧ g1.fail = some w) ∧
    (depState s g = (none, true) →
      ∃ s1 g1, exec (.dependenceWake g.gid) s = .next s1 ∧ s1.gridOf g.gid = some g1 ∧ g1.st = .eligible) ∧
    (depState s g = (none, false) → exec (.dependenceWake g.gid) s = .fault .notEnabled)

/-- A grid whose failure has reached its owner (R73): no workgroup of it holds a core or waits saved, its waiting children fail
with its word. -/
def GridsFail : Prop :=
  ∀ (s : State) (g : Grid) (w : Quad), s.gridOf g.gid = some g → g.fail = some w →
    (g.st = .eligible ∨ g.st = .dispatched ∨ g.st = .retiring) → (∀ e ∈ s.teams, e.2.waitsHost s = false) →
    ∃ s1 g1, exec (.gridFailure g.gid) s = .next s1 ∧ s1.gridOf g.gid = some g1 ∧ g1.st = .failing ∧
      (∀ k x, s1.wgs.at? k = some x → x.grid = g.gid → x.st = .ended ∨ x.st = .terminated) ∧
      ∀ c, s.gridOf c.gid = some c → c.gid ≠ g.gid → (∃ tm, c.parent = some (g.gid, tm)) → c.st = .waiting → c.fail = none →
        (∀ k x, s.wgs.at? k = some x → x.grid ≠ c.gid) →
        ∃ c1, s1.gridOf c.gid = some c1 ∧ c1.st = .failed ∧ c1.fail = some w

/-- A grid's retirement (R72, R84, R342): its completion word is stored, its vector signalled, it is counted to the team that
launched it, and it is gone. -/
def GridsRetire : Prop :=
  ∀ (s : State) (g : Grid) (pa : Nat), s.gridOf g.gid = some g → mayRetire s g = true → lrComp g.lrec ≠ 0 →
    lrComp g.lrec % 8 = 0 → devTranslate s g.pid g.ptbase (lrComp g.lrec) 1 = .ok pa → isLocal s pa = true →
    hostMayHold s pa 8 = false →
    ∃ s1, exec (.gridRetire g.gid) s = .next s1 ∧ s1.gridOf g.gid = none ∧
      s1.mem.read (memKey s pa) 8 = leBytes 8 (match g.fail with | some w => w | none => atD g.lrec 7 0).toNat ∧
      (lrF g.lrec 4 30 30 = 1 → s1.dev.vectors = s.dev.vectors ++ [lrF g.lrec 4 36 31]) ∧
      (lrF g.lrec 4 30 30 = 0 → s1.dev.vectors = s.dev.vectors) ∧
      ∀ gid tid t, g.parent = some (gid, tid) → s.teams.at? tid = some t →
        ∃ t1, s1.teams.at? tid = some t1 ∧ t1.children = t.children - 1 ∧ t1.failed = t.failed + (if g.fail.isSome then 1 else 0)

end Sys2Proof.Stated

/-- Launch queues and grids (R37, R63 to R74, R84, R342).
Where the spec leaves a point open, it states the model's choice: log entries 4, 20, 22, 37, 39 and 57. -/
def Obligations.GridsAreTakenAndRetire : Prop :=
  DescriptorsAreRead ∧ TailsAreRead ∧ OverflowsEnd ∧ RecordsAreTaken ∧ ChecksWait ∧ ChildRecordsAreTaken ∧ DependencesSettle ∧ GridsFail ∧ GridsRetire

namespace Sys2Proof.Stated

/-- Placement (R79, R85 to R89, R110, R111, R137): the workgroup of the grid's next index on the core chosen, its blocks, and
its teams, each one split of every lane at the first word of its body; then its tables are read, and the pool is tested. -/
def WorkgroupsArePlaced : Prop :=
  ∀ (s : State) (die : Nat) (g : Grid) (c : CoreId) (b : Body),
    let w := s.nextId
    s.gridOf g.gid = some g → mayPlace s g.pid die (.grid g.gid) = true → placementHeld s g = false → pickCore s g die = some c →
    pickBody s g (isL c) = some b → g.again = [] → lrTeams g.lrec ≤ 16 →
    ∃ s0 x g1, exec (.placeWorkgroup die g.gid) s = .next (poolTest (placementReads s0 w) c) ∧ s0.mem = s.mem ∧
      s0.wgs.at? w = some x ∧ x.grid = g.gid ∧ x.lin = g.next ∧ x.home = c ∧ x.st = .resident ∧ x.scr = [] ∧
      x.blocks = List.replicate (lrScrBlocks g.lrec) BState.scr ++ List.replicate (lrFifo g.lrec) BState.fifo ∧
      s0.gridOf g.gid = some g1 ∧ g1.next = g.next + 1 ∧
      ∀ i, i < lrTeams g.lrec → ∃ t p, s0.teams.at? (w + 1 + i) = some t ∧ t.wg = w ∧ t.idx = i ∧ t.core = c ∧
        t.width = 2 ^ lrTwlog g.lrec ∧ t.regs = lrRegs g.lrec ∧ t.moms = lrMoms g.lrec ∧ t.accs = lrAccs g.lrec ∧
        t.thbase = lrThbase g.lrec ∧ t.body = b ∧ t.v = [] ∧ t.splits = [p] ∧ p.pc = 0 ∧ p.mask = fullMask (2 ^ lrTwlog g.lrec)

/-- A saved workgroup is placed again (R93): resident, each of its teams in its privileged handler with every live lane, whose
routine loads what was saved (R284). -/
def WorkgroupsAreRestored : Prop :=
  ∀ (s s0 : State) (w : Nat) (x : Wg),
    s.wgs.at? w = some x → x.st = .saved → x.ready = true → mayPlace s x.pid x.home.die (.wg w) = true →
    restored s w = some s0 → (∀ e ∈ s.teams, e.2.wg ≠ w) →
    ∃ s1 y, exec (.restoreWorkgroup w) s = .next s1 ∧ s1.wgs.at? w = some y ∧ y.st = .resident ∧ s1.mem = s.mem ∧
      ∀ k t, s1.teams.at? k = some t → t.wg = w → t.fused = none → t.kframe.isSome ∧ t.stop = true ∧
        ∃ h img, t.splits = [h] ∧ h.lvl = 2 ∧ h.mask = img.live ∧ s1.savedTeams.at? k = some img ∧ img.wg = w

/-- The scheduler's own choices (R87, R91, R98, R100, R106): a grid becomes blocking; the youngest workgroup that waits for
children is requested to yield; so is, 50 µs after a grid of the highest level became blocking, the youngest that has stood 200 µs of
the lowest level below it; turns pass. -/
def SchedulersChoose : Prop :=
  ∀ (s : State) (die : Nat) (g : Grid),
    s.dev.bringup = 9 → s.dev.tripped = false → s.gridOf g.gid = some g →
    (firstInLevel s die g = true → (∀ b ∈ blockers s g.pid die, b.prio ≠ g.prio) →
      exec (.gridBlocking die g.gid) s = .next
        { s.modGrid g.gid (fun x => { x with blocked := x.blocked.insert die (clockOf s die) }) with
          blocking := s.blocking ++ [(die, g.gid)] }) ∧
    (∀ e, g.pid = 0 → g.parent.isSome → firstInLevel s die g = true →
      let l := (residents0 s die).filter fun x => waitsChildren s x.1
      e ∈ l → (∀ x ∈ l, x = e ∨ x.2.seq < e.2.seq) → exec (.childRescuePreempt die g.gid) s = .next (preemptWg s e.1)) ∧
    (∀ c, g.blocked.at? die = some c → clockOf s die < c + 50000 → exec (.priorityPreempt die g.gid) s = .fault .notEnabled) ∧
    (∀ e c, g.pid = 0 → g.prio = 7 → (die, g.gid) ∈ s.blocking → s.prioPre.at? die = none →
      g.blocked.at? die = some c → c + 50000 ≤ clockOf s die →
      let prio := fun x : Nat × Wg => ((s.gridOf x.2.grid).map (·.prio)).getD 7
      let fits := fun x : Nat × Wg => (g.ako.any fun a => runnable a (isL x.2.home)) &&
        coreFits (without s x.1) x.2.home (needOf g.lrec) && decide (fifosUsed (without s x.1) x.2.home + lrFifo g.lrec ≤ 8)
      let l := (residents0 s die).filter fun x => decide (prio x < 7) && decide (x.2.since + 200000 ≤ clockOf s die) && fits x
      e ∈ l → (∀ x ∈ l, prio e ≤ prio x ∧ (prio x = prio e → x = e ∨ x.2.seq < e.2.seq)) →
      exec (.priorityPreempt die g.gid) s = .next { preemptWg s e.1 with prioPre := s.prioPre.insert die e.1 }) ∧
    (die < 4 → exec (.partitionTurn die) s = .next { s with turns := setAt s.turns die ((atD s.turns die 0 + 1) % 16) })

/-- The translation service (R138, R139): a body built for the oldest request of a die, covering its kernel object, is installed, and the
grid that asked for it uses it; so does a later grid for which the digest is found again. -/
def BodiesAreInstalled : Prop :=
  ∀ (s : State),
    (∀ b rest r rs, s.reqTrans = b :: rest → s.transReq = r :: rs → (∀ q ∈ rs, q.die ≠ r.die) →
      r.builds { s with reqTrans := rest } b = true → transUsed s r.die + 4 * b.words.length ≤ 268435456 →
      exec .translatedBodyInstall s = .next { s.modGrid r.gid (fun g => g.uses b.kindL s.nextId) with
        reqTrans := rest, transReq := rs, nextId := s.nextId + 1,
        trans := s.trans.insert s.nextId { body := b, die := r.die, used := s.nextId } }) ∧
    (∀ g a bs n x kindL, s.gridOf g.gid = some g → g.ako = some a → g.pid = 0 → portableBytes s g.pid g.ptbase a = some bs →
      s.trans = [(n, x)] → x.body.ptbase = g.ptbase → x.body.ako = a.base → x.body.kindL = kindL →
      x.body.digest = sha384 bs → bodyFits (lrRegs g.lrec) (lrMoms g.lrec) x.body.words = true → transBody s g kindL = none →
      ∃ s1 g1, exec (.digestCheck g.gid kindL) s = .next s1 ∧ s1.gridOf g.gid = some g1 ∧
        (if kindL then g1.digestL else g1.digestD) = some n)

end Sys2Proof.Stated

/-- Scheduling and bodies (R79, R85 to R93, R98, R100, R106, R110, R111, R137 to R139).
Where the spec leaves a point open, it states the model's choice: log entries 4, 16, 19, 21, 38 and 55. -/
def Obligations.SchedulersPlace : Prop :=
  WorkgroupsArePlaced ∧ WorkgroupsAreRestored ∧ SchedulersChoose ∧ BodiesAreInstalled

/-! Steps of the device: the mailbox, the host and the fabric, bring-up, links, temperature and errors. -/

namespace Sys2Proof.Stated

/-- The mailbox serves the host's oldest command: the device is ready, no partition is being created (R50, R51). -/
def Serves (s : State) (op : Nat) (r : MboxReq) (rest : List MboxReq) : Prop :=
  s.reqMbox = r :: rest ∧ r.opcode.toNat = op ∧ r.bmc = false ∧ s.dev.bringup = 9 ∧ s.dev.recovery = false ∧ s.dev.creating = none

/-- The command is taken and answered with a status and a payload (R51, R52). -/
def answered (s : State) (status : Nat) (payload : List Byte) : State :=
  { s with dev := { s.dev with
      responses := s.dev.responses ++ [{ supported := true, status := status, payload := payload }] } }

/-- The commands with their opcodes and the lengths of their inputs (R51, R52). -/
def commands : List (Instr × Nat × Nat) :=
  [(.state, 0xC000, 0), (.capset, 0xC001, 4), (.pcreate, 0xC002, 16), (.premove, 0xC003, 4), (.preport, 0xC004, 4),
   (.linkst, 0xC005, 4), (.retrain, 0xC006, 4), (.routewr, 0xC007, 4), (.pkgnum, 0xC008, 4), (.measure, 0xC009, 32),
   (.fwload, 0xC00A, 4112), (.errcnt, 0xC00B, 16), (.event, 0xC00C, 0)]

/-- What every command meets first (R50 to R52): the board controller is denied all but STATE, MEASURE and ERRCNT; before
BRINGUP = 9 only some are accepted, in recovery three; an input of another length is BAD_FIELD; an opcode outside the range is
Unsupported. -/
def CommandsAreGuarded : Prop :=
  ∀ (s : State) (r : MboxReq) (rest : List MboxReq),
    let s1 := { s with reqMbox := rest }
    s.reqMbox = r :: rest → s.dev.creating = none →
    (∀ i op len, (i, op, len) ∈ commands → r.opcode.toNat = op →
      (r.bmc = true → op ∉ [0xC000, 0xC009, 0xC00B] → exec i s = .next (answered s1 8 [])) ∧
      (r.bmc = false → s.dev.recovery = true → op ∉ [0xC000, 0xC009, 0xC00A] → exec i s = .next (answered s1 7 [])) ∧
      (r.bmc = false → s.dev.recovery = false → 4 ≤ s.dev.bringup →
        (s.dev.bringup < 7 ∧ op ∉ [0xC000, 0xC009, 0xC00A] ∨
         s.dev.bringup < 9 ∧ op ∉ [0xC000, 0xC009, 0xC00A, 0xC005, 0xC007, 0xC008, 0xC00B]) →
        exec i s = .next (answered s1 7 [])) ∧
      (r.bmc = false → s.dev.recovery = false → s.dev.bringup = 9 → r.payload.length ≠ len →
        exec i s = .next (answered s1 1 []))) ∧
    (r.opcode.toNat < 0xC000 ∨ 0xC00C < r.opcode.toNat → (r.bmc = true ∨ 4 ≤ s.dev.bringup) →
      exec .mailboxUnsupported s = .next { s1 with dev := { s1.dev with
        responses := s.dev.responses ++ [{ supported := false, status := 0, payload := [] }] } })

/-- The commands that report (R41, R53, R54, R56 to R59, R62): STATE, PREPORT, LINKST, MEASURE, ERRCNT, EVENT. -/
def CommandsReport : Prop :=
  ∀ (s : State) (r : MboxReq) (rest : List MboxReq),
    let s1 := { s with reqMbox := rest }
    let n := leNat r.payload
    (s.reqMbox = r :: rest → r.opcode.toNat = 0xC000 → s.dev.creating = none → r.payload.length = 0 →
      (r.bmc = true ∨ 4 ≤ s.dev.bringup ∨ s.dev.recovery = true) →
      exec .state s = .next (answered s1 0 (leBytes 8 (s.dev.bringup + (if s.dev.recovery then 16 else 0) +
        (if s.dev.replica then 32 else 0) + (if s.dev.tripped then 64 else 0) + s.dev.pkgnum * 2 ^ 16 + s.dev.stepping.toNat * 2 ^ 32 + s.dev.cap * 2 ^ 48)))) ∧
    (Serves s 0xC004 r rest → r.payload.length = 4 →
      (15 < n → exec .preport s = .next (answered s1 1 [])) ∧
      (n ≤ 15 → s.parts.at? n = none → exec .preport s = .next (answered s1 0 (List.replicate 32 0))) ∧
      (n ≤ 15 → n ≠ 0 → ∀ p, s.parts.at? n = some p →
        ∃ out, exec .preport s = .next (answered s1 0 out) ∧ out.length = 32 ∧ (out[9]?) = some (BitVec.ofNat 8 p.opp) ∧
          (out[10]?) = some (BitVec.ofNat 8 p.lease) ∧ (out[11]?) = some (BitVec.ofNat 8 p.vcs.length) ∧
          leNat ((out.drop 16).take 8) = p.retry.toNat)) ∧
    (Serves s 0xC005 r rest → r.payload.length = 4 →
      let sel := n % 256
      let l := linkOf s sel
      let word := l.state + l.active * 2 ^ 8 + l.sparemod * 2 ^ 16 + l.sparelane * 2 ^ 24 + l.transient * 2 ^ 32 + l.lasting * 2 ^ 56
      (n < 512 → sel ≤ 5 ∨ (16 ≤ sel ∧ sel ≤ 51) ∨ (64 ≤ sel ∧ sel ≤ 71) →
        (n < 256 → exec .linkst s = .next (answered s1 0 (leBytes 8 word))) ∧
        (256 ≤ n → ∃ s2, exec .linkst s = .next (answered s2 0 (leBytes 8 word)) ∧ s2.dev.responses = s.dev.responses ∧
          linkOf s2 sel = { l with transient := 0 })) ∧
      (512 ≤ n ∨ ¬(sel ≤ 5 ∨ (16 ≤ sel ∧ sel ≤ 51) ∨ (64 ≤ sel ∧ sel ≤ 71)) → exec .linkst s = .next (answered s1 1 []))) ∧
    (Serves s 0xC009 r rest → r.payload.length = 32 →
      ∃ out, exec .measure s = .next (answered { s1 with dev := { s1.dev with signatures := s.dev.signatures + 1 } } 0 out) ∧
        out.length = 288 ∧
        out.take 192 = leBytes 4 0x4D454153 ++ leBytes 2 1 ++ leBytes 2 s.dev.stepping.toNat ++ r.payload ++
          fitBytes 48 s.dev.measurement ++ leBytes 4 s.dev.bootCount ++ leBytes 4 9 ++ sha384 publicKey ++
          fitBytes 48 (sha384 (imageOf s))) ∧
    (Serves s 0xC00B r rest → r.payload.length = 16 →
      let unit := n % 2 ^ 32
      (unit ≤ 4 → n / 2 ^ 32 % 2 ^ 32 = 0 →
        ∃ s2, exec .errcnt s = .next (answered s2 0 (leBytes 8 (errWord s unit))) ∧ s2.dev.responses = s.dev.responses ∧
          (errsOf s2 unit).corrected = (if (n / 2 ^ 64).testBit 0 then 0 else (errsOf s unit).corrected) ∧
          (errsOf s2 unit).transient = (if (n / 2 ^ 64).testBit 24 then 0 else (errsOf s unit).transient) ∧
          (errsOf s2 unit).lasting = (errsOf s unit).lasting) ∧
      (4 < unit → exec .errcnt s = .next (answered s1 1 []))) ∧
    (Serves s 0xC00C r rest → r.payload.length = 0 →
      (s.dev.events = [] → exec .event s = .next (answered s1 0 (List.replicate 16 0))) ∧
      (∀ e es, s.dev.events = e :: es →
        exec .event s = .next (answered { s1 with dev := { s1.dev with events := es, overrun := false } } 0
          (leBytes 2 e.type ++ leBytes 1 (if s.dev.overrun then 1 else 0) ++ leBytes 1 e.unit ++ leBytes 4 e.d1 ++ leBytes 8 e.d2))))

/-- The commands that change the device (R13, R16, R24 to R27, R34, R37, R55, R60): CAPSET, PCREATE, PREMOVE, RETRAIN, ROUTEWR,
PKGNUM, FWLOAD. -/
def CommandsChange : Prop :=
  ∀ (s : State) (r : MboxReq) (rest : List MboxReq),
    let s1 := { s with reqMbox := rest }
    let n := leNat r.payload
    (Serves s 0xC001 r rest → r.payload.length = 4 →
      (n < 1600 ∨ 2800 < n ∨ n % 10 ≠ 0 → exec .capset s = .next (answered s1 1 [])) ∧
      (1600 ≤ n → n ≤ 2800 → n % 10 = 0 →
        (n < powerSum s 3 + 560 → exec .capset s = .next (answered s1 6 [])) ∧
        (powerSum s 3 + 560 ≤ n → ∃ s2 k, exec .capset s = .next (answered s2 0 []) ∧ s2 = { s1 with dev :=
            { s.dev with cap := n / 10, opp := k, lowered := s2.dev.lowered } } ∧ k ≤ 3 ∧ powerSum s k + 560 ≤ n ∧ ∀ j, j < k → n < powerSum s j + 560))) ∧
    (Serves s 0xC002 r rest → r.payload.length = 16 →
      let d := PDesc.read n
      (createStatus s1 d ≠ 0 → exec .pcreate s = .next (answered s1 (createStatus s1 d) [])) ∧
      (createStatus s1 d = 0 → (∀ k x, (k, x) ∈ s.wgs → x.live = false) →
        ∃ s2 p, exec .pcreate s = .next s2 ∧ s2.parts.at? d.pid = some p ∧ p.clusters = BitVec.ofNat 64 d.clusters ∧
          p.opp = d.opp ∧ p.lease = d.lease ∧ p.near = d.near ∧ s2.dev.creating = none ∧
          s2.dev.responses = s.dev.responses ++ [{ supported := true, status := 0, payload := [] }] ∧
          ∀ k, d.clusters.testBit k = true → k < 64 → s2.dev.lowered.get k = 0)) ∧
    (Serves s 0xC003 r rest → r.payload.length = 4 →
      (n = 0 ∨ 15 < n ∨ s.parts.at? n = none → exec .premove s = .next (answered s1 1 [])) ∧
      (∀ p g, 1 ≤ n → n ≤ 15 → s.parts.at? n = some p → g ∈ s.grids → g.pid = n → exec .premove s = .next (answered s1 7 [])) ∧
      (∀ p, 1 ≤ n → n ≤ 15 → s.parts.at? n = some p → (∀ g ∈ s.grids, g.pid ≠ n) → s.dqueues = [] →
        ∃ s2, exec .premove s = .next (answered s2 0 []) ∧ s2.dev.responses = s.dev.responses ∧ s2.parts.at? n = none ∧
          s2.qtbase.get n = 0 ∧ s2.pctl.get n = 0 ∧ s2.ptarget.get n = 0 ∧ s2.dbgctl.get n = 0 ∧
          (∀ e ∈ s2.queues, e.1 / 256 ≠ n) ∧
          let lo := fun i => i * 0x0020_0000_0000 + atD p.nearBase i 0 * 1073741824
          let hi := fun i => lo i + atD p.near i 0 * 1073741824
          (∀ a i, i < 4 → lo i ≤ a → a < hi i → s2.mem.byte a = 0) ∧
          ∀ a, (∀ i, i < 4 → a < lo i ∨ hi i ≤ a) → s2.mem.byte a = s.mem.byte a)) ∧
    (Serves s 0xC006 r rest → r.payload.length = 4 →
      (35 < n → exec .retrain s = .next (answered s1 1 [])) ∧
      (n ≤ 35 → ∃ s2, exec .retrain s = .next (answered s2 0 []) ∧ s2.dev.responses = s.dev.responses ∧
        linkOf s2 (16 + n) = { linkOf s (16 + n) with state := 1 })) ∧
    (Serves s 0xC007 r rest → r.payload.length = 4 →
      let port := n / 2 ^ 16 % 64
      let alt := n / 2 ^ 24 % 64
      (n / 2 ^ 9 % 128 ≠ 0 ∨ n / 2 ^ 22 % 4 ≠ 0 ∨ n / 2 ^ 30 % 2 ≠ 0 → exec .routewr s = .next (answered s1 1 [])) ∧
      (n / 2 ^ 9 % 128 = 0 → n / 2 ^ 22 % 4 = 0 → n / 2 ^ 30 % 2 = 0 → (n / 2 ^ 31 % 2 = 1 ∨ (port ≤ 35 ∧ (alt ≤ 35 ∨ alt = 63))) →
        ∃ s2, exec .routewr s = .next (answered s2 0 []) ∧ s2.dev.responses = s.dev.responses ∧
          ∀ k, routeOf s2 k = if k = n % 512 then BitVec.ofNat 32 n else routeOf s k)) ∧
    (Serves s 0xC008 r rest → r.payload.length = 4 →
      (512 ≤ n → exec .pkgnum s = .next (answered s1 1 [])) ∧
      (n < 512 → ∃ s2, exec .pkgnum s = .next (answered s2 0 []) ∧ s2.dev.responses = s.dev.responses ∧ s2.dev.pkgnum = n ∧
        s2.mem = s.mem)) ∧
    (Serves s 0xC00A r rest → r.payload.length = 4112 →
      let word := fun i => leNat ((r.payload.drop i).take 4)
      let data := r.payload.drop 16
      word 12 = 0 → word 0 % 4096 = 0 → word 0 < 33554432 →
      (word 8 = 0 → word 4 = 0 → ∃ s2, exec .fwload s = .next (answered s2 0 []) ∧ s2.dev.responses = s.dev.responses ∧
        s2.dev.imageLen = none ∧ ∀ k, k < 4096 → s2.dev.flash.get (word 0 + k) ^^^ 0xFF#8 = data.getD k 0) ∧
      (word 8 = 1 → 4 ≤ word 4 → word 4 ≤ 33554432 → word 4 % 4 = 0 → word 0 < word 4 →
        ∃ s2, exec .fwload s = .next (answered s2 0 []) ∧ s2.dev.responses = s.dev.responses ∧
          s2.dev.imageLen = some (word 4) ∧ ∀ k, k < 4096 → s2.dev.flash.get (word 0 + k) ^^^ 0xFF#8 = data.getD k 0) ∧
      (1 < word 8 → exec .fwload s = .next (answered s1 1 [])))

end Sys2Proof.Stated

/-- The management mailbox: what every command meets, and the commands that report (R41, R50 to R54, R56 to R59, R62).
Where the spec leaves a point open, it states the model's choice: log entries 8 and 41. -/
def Obligations.CommandsAreAnswered : Prop := CommandsAreGuarded ∧ CommandsReport

/-- The management mailbox: the commands that change the device (R13, R16, R24 to R27, R34, R37, R55, R60).
Where the spec leaves a point open, it states the model's choice: log entries 40, 41 and 45. -/
def Obligations.CommandsChangeTheDevice : Prop := CommandsChange

namespace Sys2Proof.Stated

/-- Component registers (R63, R98, R99, R304): the oldest write that waits goes to its register of a partition that exists;
of one that does not, it is ignored. -/
def RegistersAreWritten : Prop :=
  ∀ (s : State) (off p : Nat) (v : Quad) (rest : List (Nat × Quad)), s.reqRegs = (off, v) :: rest → p < 16 →
    let s1 := { s with reqRegs := rest }
    let gone := s.parts.at? p = none
    (off = 0x1000 + 8 * p →
      (gone → exec .qtbaseWrite s = .next s1) ∧
      (¬gone → ∃ s2, exec .qtbaseWrite s = .next s2 ∧ s2.mem = s.mem ∧
        (∀ k, s2.qtbase.get k = if k = p then v &&& 0xFFFFFFFFFFFFF001#64 else s.qtbase.get k) ∧
        ∀ q, q < 256 → s2.queueOf p q = if bits v 63 12 ≠ bits (s.qtbase.get p) 63 12 then none else s.queueOf p q)) ∧
    (off = 0x1100 + 16 * p → v.getLsbD 0 = false →
      (gone ∨ (s.pctl.get p).getLsbD 0 = true → exec .pctlHold s = .next s1) ∧
      (¬gone → (s.pctl.get p).getLsbD 0 = false → ∃ s2, exec .pctlHold s = .next s2 ∧ s2 = { s1 with pctl := s2.pctl } ∧
        ∀ k, s2.pctl.get k = if k = p then (s.pctl.get p &&& ~~~0xFF0E#64) ||| (v &&& 0xFF0E#64) else s.pctl.get k)) ∧
    (off = 0x1100 + 16 * p → v.getLsbD 0 = true →
      (gone ∨ (s.pctl.get p).getLsbD 0 = true → exec .pctlGo s = .next s1) ∧
      (¬gone → (s.pctl.get p).getLsbD 0 = false → bits v 2 1 = 3 →
        ∃ s2, exec .pctlGo s = .next s2 ∧ (s2.pctl.get p).getLsbD 4 = true ∧ (s2.pctl.get p).getLsbD 0 = false ∧
          s2.dev.events.getLast? = some { type := 6, unit := p, d1 := 0, d2 := 0 }) ∧
      (¬gone → (s.pctl.get p).getLsbD 0 = false → bits v 2 1 = 0 → s.wgs = [] → s.preqs = [] →
        ∃ s2, exec .pctlGo s = .next s2 ∧ (s2.pctl.get p).getLsbD 4 = false ∧ (s2.pctl.get p).getLsbD 0 = false ∧
          bits (s2.pctl.get p) 47 16 = 0)) ∧
    (off = 0x1108 + 16 * p →
      exec .registerWrite s = .next (if s.parts.at? p = none then s1 else { s1 with ptarget := s.ptarget.set p v })) ∧
    (off = 0x1200 + 8 * p →
      exec .registerWrite s = .next (if s.parts.at? p = none then s1 else { s1 with dbgctl := s.dbgctl.set p (v &&& 1) }))

/-- A range of this package's near or far memory, open to others (R46, R49, R60). -/
def OpenRange (s : State) (pa n : Nat) : Prop :=
  7 ≤ s.dev.bringup ∧ s.dev.bringup ≤ 9 ∧ s.dev.recovery = false ∧ n ≠ 0 ∧ pa % 64 + n ≤ 64 ∧ pa + n ≤ 2 ^ 48 ∧
  (match spaceOf s pa with | .near _ => True | .far => True | _ => False) ∧
  expanderDown s (s.dev.pkgnum * 2 ^ 48 + pa) = false ∧ s.dev.pkgnum < 512

/-- CXL.mem, snoops and other packages (R33, R35, R46, R48, R177, R190, R197): a read returns memory's bytes, a write replaces them
and no other byte, an atomic returns what stood there; another package's request outside this package's memory is refused, one
behind an expander that is down fails; an invalidating snoop takes the line; a completion clears its request. -/
def BorderAccesses : Prop :=
  ∀ (s : State),
    (∀ pa n rest, s.reqHost = .read pa n :: rest → OpenRange s pa n →
      exec .hostMemRead s = .next { s with
        reqHost := rest, hostArr := s.hostArr.drop 1, hostReads := s.hostReads ++ [(s.mem.read pa n, false)]
        hostHeld := s.hostHeld ++ (hostLinesOf (ownPa s pa) n).filter (fun l => !s.hostHeld.contains l) }) ∧
    (∀ pa bs rest, s.reqHost = .write pa bs :: rest → OpenRange s pa bs.length →
      ∃ s1, exec .hostMemWrite s = .next s1 ∧ s1.reqHost = rest ∧
        ∀ a, s1.mem.byte a = if pa ≤ a ∧ a < pa + bs.length then bs.getD (a - pa) 0 else s.mem.byte a) ∧
    (∀ line inv rest, s.reqHost = .snoop line inv :: rest →
      let a := hostPa s line / 64 * 64
      ∃ s1, exec .hostSnoop s = .next s1 ∧ s1.mem = s.mem ∧ s1.hostLines = if inv then s.hostLines.filter (· != a) else s.hostLines) ∧
    (∀ r rest, s.reqFab = r :: rest → r.src < 512 → r.src ≠ s.dev.pkgnum → r.chan < 15 → 7 ≤ s.dev.bringup → s.dev.bringup ≤ 9 →
      s.dev.recovery = false →
      let n := accessBytes r.acc
      let answer := fun x => { s with reqFab := rest, fabArr := s.fabArr.drop 1, fabReads := s.fabReads ++ [(r.src, r.chan, x)] }
      let stays := fun (s1 : State) => ∀ a, a < r.pa ∨ r.pa + n ≤ a → s1.mem.byte a = s.mem.byte a
      (servable s r.pa n = false → exec .fabricRequest s = .next (answer .refused)) ∧
      (servable s r.pa n = true → expanderDown s (ownPa s r.pa) = true → exec .fabricRequest s = .next (answer .failed)) ∧
      (servable s r.pa n = true → OpenRange s r.pa n → (∀ p ∈ s.dev.rereads, placeHit p [(.mem (ownPa s r.pa), n)] = false) →
        (r.acc = .read n → exec .fabricRequest s = .next (answer (.data (s.mem.read r.pa n)))) ∧
        (∀ bs, r.acc = .write bs → hostMayHold s (ownPa s r.pa) n = false →
          ∃ s1, exec .fabricRequest s = .next s1 ∧ s1.reqFab = rest ∧ stays s1 ∧ s1.mem.read r.pa n = bs) ∧
        (∀ fn ty x cmp, r.acc = .atomic fn ty x cmp → hostMayHold s (ownPa s r.pa) n = false → r.pa % n = 0 →
          siteTakes s r.pa fn ty = true →
          ∃ s1, exec .fabricRequest s = .next s1 ∧ s1.reqFab = rest ∧ stays s1 ∧
            s1.fabReads = s.fabReads ++ [(r.src, r.chan, .data (s.mem.read r.pa n))] ∧
            s1.mem.read r.pa n = leBytes n (atomNew fn ty (leNat (s.mem.read r.pa n)) x cmp)))) ∧
    (∀ id x, s.fabReqs.at? id = some x → exec (.fabricCompletion id) s = .next { s with fabReqs := s.fabReqs.erase id }) ∧
    (∀ id d w chan, s.fabReqs.at? id = none → s.remote.at? id = some (d, w, chan) →
      if clockOf s d ≤ w then exec (.fabricCompletion id) s = .fault .notEnabled
      else exec (.fabricCompletion id) s = .next { s with remote := s.remote.erase id, fabDone := s.fabDone ++ [(id, chan)] })

end Sys2Proof.Stated

/-- What the host and other packages do (R33, R35, R46, R63, R98, R99, R177, R190, R304).
Where the spec leaves a point open, it states the model's choice: log entries 4, 39 and 42. -/
def Obligations.OutsideAccessesAreServed : Prop := RegistersAreWritten ∧ BorderAccesses

namespace Sys2Proof.Stated

/-- Bring-up (R39, R48, R49, R58, R60): power-on leaves the package as at reset, flash and host memory as they were; each step
leads to the next; a step at its limit fails as the table says; step 4 and recovery try the host link again. -/
def BringUpProceeds : Prop :=
  ∀ (s : State),
    (∃ s1, exec .powerOn s = .next s1 ∧ s1.dev.bringup = 1 ∧ s1.dev.recovery = false ∧ s1.dev.replica = true ∧
      s1.dev.cap = 280 ∧ s1.dev.pkgnum = 0 ∧ s1.dev.events = [] ∧ s1.parts = [] ∧ s1.grids = [] ∧ s1.teams = [] ∧ s1.wgs = [] ∧
      s1.dev.flash = s.dev.flash ∧ s1.dev.imageLen = s.dev.imageLen ∧
      ∀ a, s1.mem.byte a = if a < 0x8000_0000_0000 then 0 else s.mem.byte a) ∧
    (s.dev.recovery = false →
      (s.dev.bringup = 1 → s.dev.powerFault = false →
        ∃ s1, exec .bringupStepDone s = .next s1 ∧ s1.dev.bringup = 2 ∧ s1.dev.recovery = s.dev.imageLen.isNone) ∧
      (s.dev.bringup = 2 → ∃ s1, exec .bringupStepDone s = .next s1 ∧ s1.dev.bringup = 3 ∧
        s1.dev.bootCount = s.dev.bootCount + 1 ∧ s1.dev.measurement = fitBytes 48 (sha384 (imageOf s))) ∧
      (s.dev.bringup = 3 → ∃ s1, exec .bringupStepDone s = .next s1 ∧ s1.dev.bringup = 4) ∧
      (s.dev.bringup = 4 → ∃ s1, exec .bringupStepDone s = .next s1 ∧ s1.dev.bringup = 5 ∧
        ∀ b, b < 6 → (linkOf s1 b).state = 1) ∧
      (∀ f rest, s.dev.bringup = 5 → s.findings = f :: rest → (∀ b, b < 6 → f.boundaries.getD b 0 ≠ 0) →
        ∃ s1, exec .bringupStepDone s = .next s1 ∧ s1.dev.bringup = 6 ∧ s1.findings = rest ∧
          ∀ b, b < 6 → (linkOf s1 b).active = min (f.boundaries.getD b 0) (if b < 4 then 56 else 8)) ∧
      (∀ f rest, s.dev.bringup = 6 → s.findings = f :: rest → finding6Ok f = true →
        ∀ i, i = .bringupStepDone ∨ i = .bringupStepTimeout →
        ∃ s1, exec i s = .next s1 ∧ s1.dev.bringup = 7 ∧ s1.dev.lpddrGB = f.lpddrGB ∧ ∀ p, p < 36 → (linkOf s1 (16 + p)).state = 1) ∧
      (∀ f rest, s.dev.bringup = 7 → s.findings = f :: rest → (∀ w ∈ f.ports, w ∈ [0, 1, 2, 4]) →
        ∃ s1, exec .bringupStepDone s = .next s1 ∧ s1.dev.bringup = 8 ∧
          ∀ p, p < 36 → (linkOf s (16 + p)).state = 1 → (linkOf s1 (16 + p)).active = f.ports.getD p 0 ∧
            (linkOf s1 (16 + p)).state = if f.ports.getD p 0 = 0 then 0 else 2) ∧
      (s.dev.bringup = 8 → ∃ s1, exec .bringupStepDone s = .next s1 ∧ s1.dev.bringup = 9 ∧ (s1.parts.at? 0).isSome ∧
        (s1.dev.replica = true ↔ ∃ b, b < 6 ∧ (linkOf s b).active < if b < 4 then 56 else 8)) ∧
      (s.dev.bringup = 1 → exec .bringupStepTimeout s = .next { s with dev := { s.dev with powerFault := true } }) ∧
      (s.dev.bringup = 2 ∨ s.dev.bringup = 3 →
        exec .bringupStepTimeout s = .next { s with dev := { s.dev with recovery := true } }) ∧
      (s.dev.bringup = 4 → exec .bringupStepTimeout s = .next s) ∧
      (s.dev.bringup = 5 → ∃ s1, exec .bringupStepTimeout s = .next s1 ∧ s1.dev.bringup = 15) ∧
      (s.dev.bringup = 7 → ∃ s1, exec .bringupStepTimeout s = .next s1 ∧ s1.dev.bringup = 8 ∧
        ∀ p, p < 36 → (linkOf s (16 + p)).state = 1 → (linkOf s1 (16 + p)).state = 0)) ∧
    (s.dev.bringup = 4 ∨ s.dev.recovery = true → exec .hostLinkRetry s = .next s)

/-- Links (R36 to R40, R48): a flit that fails its CRC is replayed; intact, the error is transient; else it is lasting, and a
boundary's module takes a redundant lane, a port half its lanes. A port's training ends with a width or with DOWN; an expander
that stops responding is DOWN. -/
def LinksRepair : Prop :=
  ∀ (s : State) (sel : Nat),
    let l := linkOf s sel
    (isLink sel = true → l.replay = false → (l.state = 2 ∨ l.state = 3) →
      ∃ s1, exec (.flitCrcFail sel) s = .next s1 ∧ linkOf s1 sel = { l with replay := true }) ∧
    (l.replay = true → ∀ fix, ∃ s1, exec (.flitReplayResult sel true fix) s = .next s1 ∧
      linkOf s1 sel = { l with replay := false, transient := min 0xFFFFFF (l.transient + 1) }) ∧
    (∀ fix k, l.replay = true → sel < 6 → fix.module < (if sel < 4 then 56 else 8) → fix.module ∉ l.out → fix.lane < 68 →
      k = (l.used.at? fix.module).getD 0 → k < 4 →
      ∃ s1 l1, exec (.flitReplayResult sel false fix) s = .next s1 ∧ linkOf s1 sel = l1 ∧ l1.replay = false ∧
        l1.lasting = min 0xFF (l.lasting + 1) ∧ l1.sparelane = l.sparelane - 1 ∧ l1.paused = true ∧ l1.state = l.state ∧
        l1.used.at? fix.module = some (k + 1)) ∧
    (∀ fix, l.replay = true → 16 ≤ sel → sel ≤ 51 → fix.lane < 4 → fix.lane ∉ l.out → 2 ≤ l.active →
      ∃ s1 l1, exec (.flitReplayResult sel false fix) s = .next s1 ∧ linkOf s1 sel = l1 ∧ l1.active = l.active / 2 ∧
        l1.lasting = min 0xFF (l.lasting + 1) ∧ l1.out = l.out ++ [fix.lane]) ∧
    (l.paused = true → ∃ s1, exec (.modulePauseEnd sel) s = .next s1 ∧ linkOf s1 sel = { l with paused := false }) ∧
    (∀ port lanes, sel = 16 + port → port < 36 → s.dev.bringup = 9 → l.state = 1 → l.out = [] → lanes ∈ [0, 1, 2, 4] →
      ∃ s1, exec (.retrainComplete port lanes) s = .next s1 ∧
        linkOf s1 sel = { l with active := lanes, state := if lanes = 0 then 0 else 2 }) ∧
    (∀ port, sel = 16 + port → port < 36 → l.state = 1 →
      (∃ s1, exec (.portNoPartner port) s = .next s1 ∧ linkOf s1 sel = { l with active := 0, state := 0 }) ∧
      ∀ p, p ∈ packagesUsed s → (routeOf s p).getLsbD 31 = false →
        let held := fun e => namesPort port e && !entryCarries s e
        (∀ e ∈ s.teams, ∀ q, teamLost s q held true e = true → q = p) → (∃ e ∈ s.teams, teamLost s p held true e = true) →
        (∀ g ∈ s.grids, ∀ q, gridHeld s q g = false) →
        ∃ s1, exec (.portHoldTimeout port) s = .next s1 ∧ (routeOf s1 p).getLsbD 31 = true) ∧
    (∀ port, sel = 64 + port → port < 8 → l.state ≠ 0 →
      ∃ s1, exec (.expanderFail port) s = .next s1 ∧ linkOf s1 sel = { l with active := 0, state := 0 })

/-- Temperature and data errors (R15, R16, R61, R62, R164): 105 °C lowers the islands of the general partition on the die one
point; 110 °C trips the device; an error is read again, and counted as transient or lasting; an Orangery's counters halve. -/
def HeatAndErrors : Prop :=
  ∀ (s : State),
    (∀ die, die < 4 → s.dev.bringup = 9 → s.dev.tripped = false → s.dev.opp ≤ 3 →
      ∃ s1, exec (.tempHigh die) s = .next s1 ∧
        ((∀ c, c / 16 = die → partOf s c = 0 → loweredBy s c = 0) →
          s1.dev.events.getLast? = some { type := 4, unit := die, d1 := 0, d2 := 105 }) ∧
        ∀ c, loweredBy s1 c = if c / 16 = die ∧ partOf s c = 0 then min (loweredBy s c + 1) (3 - s.dev.opp) else loweredBy s c) ∧
    (∀ c, loweredBy s c ≠ 0 → s.dev.tripped = false →
      ∃ s1, exec (.islandRaise c) s = .next s1 ∧ ∀ k, loweredBy s1 k = if k = c then loweredBy s c - 1 else loweredBy s k) ∧
    (∀ die temp, die < 4 → 110 ≤ temp → temp < 2 ^ 64 → s.dev.tripped = false →
      ∃ s1, exec (.thermalTrip die temp) s = .next s1 ∧ s1.dev.tripped = true ∧
        s1.dev.events.getLast? = some { type := 4, unit := die, d1 := 1, d2 := temp } ∧
        ∀ g, s.gridOf g.gid = some g → g.st = .dispatched → g.fail = none →
          ∃ g1, s1.gridOf g.gid = some g1 ∧ g1.fail = some (failed 0x9F 0)) ∧
    (∀ place, eccPlaceOk s place = true → place ∉ s.dev.rereads → s.dev.tripped = false →
      ∃ s1, exec (.eccUncorrectable place) s = .next s1 ∧ s1.dev.rereads = s.dev.rereads ++ [place] ∧ s1.mem = s.mem) ∧
    (∀ place rest, s.dev.rereads = place :: rest →
      let unit := eccUnit s place
      (∃ s1, exec (.eccRereadResult true) s = .next s1 ∧ s1.dev.rereads = rest ∧ s1.mem = s.mem ∧
        (errsOf s1 unit).transient = min 0xFFFFF ((errsOf s unit).transient + 1)) ∧
      (∃ s1, exec (.eccRereadResult false) s = .next s1 ∧ s1.dev.rereads = rest ∧
        (errsOf s1 unit).lasting = min 0xFF ((errsOf s unit).lasting + 1))) ∧
    (∀ die pid o, s.orangery.at? (die * 16 + pid) = some o →
      ∃ s1 o1, exec (.orangeryDecay die pid) s = .next s1 ∧ s1.orangery.at? (die * 16 + pid) = some o1 ∧
        ∀ k, o1.counters.get k = o.counters.get k >>> 1)

end Sys2Proof.Stated

/-- Bring-up (R39, R48, R49, R58, R60).
Where the spec leaves a point open, it states the model's choice: log entries 1, 2 and 46. -/
def Obligations.BringUpProceeds : Prop := Sys2Proof.Stated.BringUpProceeds

/-- Links (R36 to R40, R48).
Where the spec leaves a point open, it states the model's choice: log entries 43 and 44. -/
def Obligations.LinksRepair : Prop := Sys2Proof.Stated.LinksRepair

/-- Temperature and data errors (R15, R16, R61, R62, R164).
Where the spec leaves a point open, it states the model's choice: log entries 5, 11, 47, 48 and 58. -/
def Obligations.HeatAndErrors : Prop := Sys2Proof.Stated.HeatAndErrors
end

