-- ==== Sys2Proof/Laws/Store.lean ====
section
/-! SUPPORT. Laws of maps and stores: a read after a write, a write leaves other keys alone, and every operation keeps
the canonical form; memory is one of them. -/

namespace Sys2Proof.Laws

open Machine

/-! Maps. -/

theorem amap_at_insert {α : Type} (m : AMap α) (n k : Nat) (a : α) :
    (m.insert n a).at? k = if k = n then some a else m.at? k := by
  induction m with
  | nil => simp [AMap.insert, AMap.at?, eq_comm]
  | cons e r ih =>
    obtain ⟨j, b⟩ := e
    simp only [AMap.insert]
    split
    · subst j; simp only [AMap.at?]; by_cases h : n = k <;> simp [h, eq_comm]
    · split
      · simp only [AMap.at?]; by_cases h : n = k <;> simp [h, eq_comm]
      · simp only [AMap.at?, ih]; by_cases h : j = k <;> grind
@[simp] theorem amap_at_insert_self {α : Type} (m : AMap α) (n : Nat) (a : α) : (m.insert n a).at? n = some a := by
  simp [amap_at_insert]
@[simp] theorem amap_at_insert_ne {α : Type} (m : AMap α) {n k : Nat} (a : α) (h : k ≠ n) :
    (m.insert n a).at? k = m.at? k := by simp [amap_at_insert, h]
theorem amap_at_erase_ne {α : Type} (m : AMap α) {n k : Nat} (h : k ≠ n) : (m.erase n).at? k = m.at? k := by
  induction m with
  | nil => rfl
  | cons e r ih => obtain ⟨j, b⟩ := e; simp only [AMap.erase]; split <;> simp only [AMap.at?] <;> grind
theorem amap_at_modify {α : Type} (m : AMap α) (n k : Nat) (f : α → α) :
    (m.modify n f).at? k = if k = n then (m.at? n).map f else m.at? k := by
  unfold AMap.modify
  cases h : m.at? n with
  | none => by_cases hk : k = n <;> simp [hk, h]
  | some a => simp [amap_at_insert]

/-! Stores. -/

theorem store_get_clear {w : Nat} (m : Store w) (n k : Nat) :
    Store.get (m.clear n) k = if k = n then 0 else Store.get m k := by
  induction m with
  | nil => simp [Store.clear, Store.get]
  | cons e r ih =>
    obtain ⟨j, b⟩ := e
    simp only [Store.clear]
    split <;> simp only [Store.get, ih] <;> grind
theorem store_get_put {w : Nat} (m : Store w) (n k : Nat) (a : BitVec w) :
    Store.get (m.put n a) k = if k = n then a else Store.get m k := by
  induction m with
  | nil => simp only [Store.put, Store.get]; grind
  | cons e r ih =>
    obtain ⟨j, b⟩ := e
    simp only [Store.put]
    split
    · simp only [Store.get]; grind
    · split <;> simp only [Store.get, ih] <;> grind
/-- A read after a write: the value at the key written, every other key as before. -/
theorem store_get_set_if {w : Nat} (m : Store w) (n k : Nat) (a : BitVec w) :
    Store.get (m.set n a) k = if k = n then a else Store.get m k := by
  unfold Store.set
  split
  · next h => rw [store_get_clear, h]
  · rw [store_get_put]
/-- A write leaves every other key alone. -/
theorem store_get_set_ne {w : Nat} (m : Store w) {n k : Nat} (a : BitVec w) (h : k ≠ n) :
    Store.get (m.set n a) k = Store.get m k := by rw [store_get_set_if, if_neg h]
/-- A read after a write gives the value written. -/
@[simp] theorem store_get_set {w : Nat} (m : Store w) (n : Nat) (a : BitVec w) : Store.get (m.set n a) n = a := by
  rw [store_get_set_if, if_pos rfl]

/-- The canonical form above a bound is the canonical form above a lower one. -/
theorem store_wf_mono {w : Nat} {m : Store w} {lo hi : Nat} (h : lo ≤ hi) (hm : Store.wfFrom hi m = true) :
    Store.wfFrom lo m = true := by
  cases m with
  | nil => rfl
  | cons e r =>
    obtain ⟨k, a⟩ := e
    simp only [Store.wfFrom, Bool.and_eq_true, decide_eq_true_eq] at hm ⊢
    exact ⟨⟨by omega, hm.1.2⟩, hm.2⟩

theorem store_wf_clear {w : Nat} {m : Store w} {lo : Nat} (n : Nat) (hm : Store.wfFrom lo m = true) :
    Store.wfFrom lo (m.clear n) = true := by
  induction m generalizing lo with
  | nil => rfl
  | cons e r ih =>
    obtain ⟨j, b⟩ := e
    simp only [Store.wfFrom, Bool.and_eq_true, decide_eq_true_eq] at hm
    simp only [Store.clear]
    split
    · exact store_wf_mono (by omega) (ih hm.2)
    · simp only [Store.wfFrom, Bool.and_eq_true, decide_eq_true_eq]; exact ⟨hm.1, ih hm.2⟩
theorem store_wf_put {w : Nat} {m : Store w} {lo n : Nat} (hm : Store.wfFrom lo m = true) (h : lo ≤ n) {a : BitVec w}
    (ha : a ≠ 0) : Store.wfFrom lo (m.put n a) = true := by
  induction m generalizing lo with
  | nil => simp_all [Store.put, Store.wfFrom]
  | cons e r ih =>
    obtain ⟨j, b⟩ := e
    simp only [Store.wfFrom, Bool.and_eq_true, decide_eq_true_eq] at hm
    simp only [Store.put]
    split
    · simp_all [Store.wfFrom]
    · split
      · simp_all [Store.wfFrom]
      · simp only [Store.wfFrom, Bool.and_eq_true, decide_eq_true_eq]; exact ⟨hm.1, ih hm.2 (by omega)⟩
/-- A write keeps the canonical form. -/
theorem store_wf_set {w : Nat} {m : Store w} {lo n : Nat} (hm : Store.wfFrom lo m = true) (h : lo ≤ n) (a : BitVec w) :
    Store.wfFrom lo (m.set n a) = true := by
  unfold Store.set
  split
  · exact store_wf_clear n hm
  · next ha => exact store_wf_put hm h ha

theorem store_wf_write {w : Nat} {lo : Nat} (bs : List (BitVec w)) {m : Store w} {n : Nat}
    (hm : Store.wfFrom lo m = true) (h : lo ≤ n) : Store.wfFrom lo (Store.write m n bs) = true := by
  induction bs generalizing m n with
  | nil => exact hm
  | cons b r ih => exact ih (store_wf_set hm h b) (by omega)

/-- Removing entries keeps the canonical form. -/
theorem store_wf_filter {w : Nat} {lo : Nat} {m : Store w} (f : Nat × BitVec w → Bool)
    (hm : Store.wfFrom lo m = true) : Store.wfFrom lo (m.filter f) = true := by
  induction m generalizing lo with
  | nil => rfl
  | cons e r ih =>
    obtain ⟨k, a⟩ := e
    simp only [Store.wfFrom, Bool.and_eq_true, decide_eq_true_eq] at hm
    simp only [List.filter_cons]
    split
    · simp only [Store.wfFrom, Bool.and_eq_true, decide_eq_true_eq]; exact ⟨hm.1, ih hm.2⟩
    · exact store_wf_mono (by omega) (ih hm.2)

/-- A write of consecutive keys leaves every other key alone. -/
theorem store_get_write_out {w : Nat} (bs : List (BitVec w)) (m : Store w) (n k : Nat)
    (h : k < n ∨ n + bs.length ≤ k) : Store.get (Store.write m n bs) k = Store.get m k := by
  induction bs generalizing m n with
  | nil => rfl
  | cons b r ih =>
    simp only [Store.write]
    simp only [List.length_cons] at h
    rw [ih _ _ (by omega), store_get_set_ne _ _ (by omega)]

/-- A read after a write of consecutive keys gives the values written. -/
theorem store_read_write {w : Nat} (bs : List (BitVec w)) (m : Store w) (n : Nat) :
    Store.read (Store.write m n bs) n bs.length = bs := by
  induction bs generalizing m n with
  | nil => rfl
  | cons b r ih =>
    simp only [Store.write, List.length_cons, Store.read]
    rw [ih, store_get_write_out _ _ _ _ (by omega), store_get_set]

/-! Memory. -/

/-- A write of bytes keeps memory's canonical form. -/
theorem memory_wf_write {m : Memory} (a : Nat) (bs : List Byte) (h : m.wf = true) : (m.write a bs).wf = true :=
  store_wf_write (w := 8) (lo := 0) bs h (by omega)
theorem memory_wf_setByte {m : Memory} (a : Nat) (b : Byte) (h : m.wf = true) : (m.setByte a b).wf = true :=
  store_wf_set (w := 8) (lo := 0) h (by omega) b
/-- Discarding bytes keeps memory's canonical form. -/
theorem memory_wf_filter {m : Memory} (f : Host.Cell → Bool) (h : m.wf = true) : Memory.wf (m.filter f) = true :=
  store_wf_filter (w := 8) (lo := 0) f h
/-- A byte outside the bytes written reads as before. -/
theorem memory_byte_write_out (m : Memory) (a : Nat) (bs : List Byte) (k : Nat) (h : k < a ∨ a + bs.length ≤ k) :
    (m.write a bs).byte k = m.byte k := store_get_write_out (w := 8) bs m a k h
/-- The bytes written read back. -/
theorem memory_read_write (m : Memory) (a : Nat) (bs : List Byte) : (m.write a bs).read a bs.length = bs :=
  store_read_write (w := 8) bs m a

/-- A write at its home (R160, R177) keeps memory's canonical form. -/
theorem wrMem_wf {s : State} (pa : Nat) (bs : List Byte) (h : s.mem.wf = true) : (s.wrMem pa bs).mem.wf = true := by
  unfold State.wrMem dropTlb
  split <;> exact memory_wf_write _ _ h
/-- What a write at its home does to memory. -/
@[simp] theorem wrMem_mem (s : State) (pa : Nat) (bs : List Byte) :
    (s.wrMem pa bs).mem = s.mem.write (memKey s pa) bs := by
  unfold State.wrMem dropTlb
  split <;> rfl

end Sys2Proof.Laws
end

