-- ==== Sys2Proof/Laws/Memory.lean ====
section
/-! SUPPORT. The other operations on memory keep its canonical form: power-on, the removal of a partition, and the load
that withFetchWord stands for. Every write goes through State.wrMem (Laws/Store.lean). -/

namespace Sys2Proof.Laws

open Machine

/-- Power-on keeps memory's canonical form (R49). -/
theorem powerOn_wf {s s' : State} (h : s.mem.wf = true) (e : execPowerOn s = .next s') : s'.mem.wf = true := by
  unfold execPowerOn at e
  cases e
  exact memory_wf_filter _ h

/-- Writing zero to a partition's range keeps memory's canonical form (R27). -/
theorem zeroNear_wf {s : State} (die base n : Nat) (h : s.mem.wf = true) : (zeroNear s die base n).mem.wf = true :=
  memory_wf_filter _ h

/-- The load of a word keeps memory's canonical form. -/
theorem withFetchWord_wf {s : State} (nbits w : Nat) (h : s.mem.wf = true) : (s.withFetchWord nbits w).mem.wf = true :=
  memory_wf_write _ _ h

end Sys2Proof.Laws
end

