-- ==== Sys2Proof/Laws/PerInstr.lean ====
section
/-! SUPPORT. Statements made of every instruction, one lemma per constructor (LAWS.json). -/

namespace Sys2Proof.Laws

open Machine

/-- A well-formed instruction stands in the decoder's tables where its form says (R311, R312): the opcode and function of the form, read
with the form's operands, give the instruction back; a device step is no word. -/
def InTables.Statement (i : Instr) : Prop :=
  i.wf = true → match form i with
  | .a op fn w _ => fnA op w fn = some i ∧ op ≤ 25 ∧ fn < 128
  | .m op fn w _ => fnM op w fn = some i ∧ (op = 16 ∨ op = 17 ∨ op = 18) ∧ fn < 128
  | .i7 op w _ _ => ∀ w0, opOf w0 = op → readI7 w0 = w → decodeShort w0 = some i
  | .i30 op w _ _ => ∀ w0 e, opOf w0 = op → readI30 w0 e = w → decodeLong w0 e = some i
  | .b op w => ∀ w0, opOf w0 = op → readB w0 = w → decodeShort w0 = some i
  | .brc w => ∀ w0 e, opOf w0 = 1 → readBRC w0 e = w → decodeLong w0 e = some i
  | .p w => ∀ w0, opOf w0 = 5 → readP w0 = w → decodeShort w0 = some i
  | .dev => encode i = []

theorem InTables.retrainComplete : ∀ port lanes, InTables.Statement (.retrainComplete port lanes) := fun _ _ => fun _ => rfl
theorem InTables.orangeryDecay : ∀ die pid, InTables.Statement (.orangeryDecay die pid) := fun _ _ => fun _ => rfl
theorem InTables.tempHigh : ∀ die, InTables.Statement (.tempHigh die) := fun _ => fun _ => rfl
theorem InTables.islandRaise : ∀ island, InTables.Statement (.islandRaise island) := fun _ => fun _ => rfl
theorem InTables.thermalTrip : ∀ die temp, InTables.Statement (.thermalTrip die temp) := fun _ _ => fun _ => rfl
theorem InTables.flitCrcFail : ∀ link, InTables.Statement (.flitCrcFail link) := fun _ => fun _ => rfl
theorem InTables.flitReplayResult : ∀ link intact fix, InTables.Statement (.flitReplayResult link intact fix) := fun _ _ _ => fun _ => rfl
theorem InTables.modulePauseEnd : ∀ link, InTables.Statement (.modulePauseEnd link) := fun _ => fun _ => rfl
theorem InTables.portNoPartner : ∀ port, InTables.Statement (.portNoPartner port) := fun _ => fun _ => rfl
theorem InTables.portHoldTimeout : ∀ port, InTables.Statement (.portHoldTimeout port) := fun _ => fun _ => rfl
theorem InTables.fabricCompletion : ∀ id, InTables.Statement (.fabricCompletion id) := fun _ => fun _ => rfl
theorem InTables.expanderFail : ∀ port, InTables.Statement (.expanderFail port) := fun _ => fun _ => rfl
theorem InTables.eccUncorrectable : ∀ place, InTables.Statement (.eccUncorrectable place) := fun _ => fun _ => rfl
theorem InTables.eccRereadResult : ∀ intact, InTables.Statement (.eccRereadResult intact) := fun _ => fun _ => rfl
theorem InTables.queueMonitorWake : ∀ pid q, InTables.Statement (.queueMonitorWake pid q) := fun _ _ => fun _ => rfl
theorem InTables.takeRecord : ∀ die pid q, InTables.Statement (.takeRecord die pid q) := fun _ _ _ => fun _ => rfl
theorem InTables.descriptorReread : ∀ pid q, InTables.Statement (.descriptorReread pid q) := fun _ _ => fun _ => rfl
theorem InTables.dependenceWake : ∀ grid, InTables.Statement (.dependenceWake grid) := fun _ => fun _ => rfl
theorem InTables.takeChildRecord : ∀ die pid, InTables.Statement (.takeChildRecord die pid) := fun _ _ => fun _ => rfl
theorem InTables.launchRetry : ∀ team split, InTables.Statement (.launchRetry team split) := fun _ _ => fun _ => rfl
theorem InTables.placeWorkgroup : ∀ die grid, InTables.Statement (.placeWorkgroup die grid) := fun _ _ => fun _ => rfl
theorem InTables.restoreWorkgroup : ∀ wg, InTables.Statement (.restoreWorkgroup wg) := fun _ => fun _ => rfl
theorem InTables.gridBlocking : ∀ die grid, InTables.Statement (.gridBlocking die grid) := fun _ _ => fun _ => rfl
theorem InTables.childRescuePreempt : ∀ die grid, InTables.Statement (.childRescuePreempt die grid) := fun _ _ => fun _ => rfl
theorem InTables.priorityPreempt : ∀ die grid, InTables.Statement (.priorityPreempt die grid) := fun _ _ => fun _ => rfl
theorem InTables.partitionTurn : ∀ die, InTables.Statement (.partitionTurn die) := fun _ => fun _ => rfl
theorem InTables.gridFailure : ∀ grid, InTables.Statement (.gridFailure grid) := fun _ => fun _ => rfl
theorem InTables.gridRetire : ∀ grid, InTables.Statement (.gridRetire grid) := fun _ => fun _ => rfl
theorem InTables.claimGrant : ∀ core, InTables.Statement (.claimGrant core) := fun _ => fun _ => rfl
theorem InTables.migrationServe : ∀ die cluster, InTables.Statement (.migrationServe die cluster) := fun _ _ => fun _ => rfl
theorem InTables.migrationComplete : ∀ team, InTables.Statement (.migrationComplete team) := fun _ => fun _ => rfl
theorem InTables.digestCheck : ∀ grid kindL, InTables.Statement (.digestCheck grid kindL) := fun _ _ => fun _ => rfl
theorem InTables.preemptDelivery : ∀ team, InTables.Statement (.preemptDelivery team) := fun _ => fun _ => rfl
theorem InTables.trapEntry : ∀ team split, InTables.Statement (.trapEntry team split) := fun _ _ => fun _ => rfl
theorem InTables.faultQueueWrite : ∀ team, InTables.Statement (.faultQueueWrite team) := fun _ => fun _ => rfl
theorem InTables.faultResume : ∀ team, InTables.Statement (.faultResume team) := fun _ => fun _ => rfl
theorem InTables.monitorWake : ∀ team split, InTables.Statement (.monitorWake team split) := fun _ _ => fun _ => rfl
theorem InTables.fifoServe : ∀ wg block, InTables.Statement (.fifoServe wg block) := fun _ _ => fun _ => rfl
theorem InTables.homeWrite : ∀ team flight run, InTables.Statement (.homeWrite team flight run) := fun _ _ _ => fun _ => rfl
theorem InTables.loadComplete : ∀ team, InTables.Statement (.loadComplete team) := fun _ => fun _ => rfl
theorem InTables.storeAck : ∀ team, InTables.Statement (.storeAck team) := fun _ => fun _ => rfl
theorem InTables.atomicComplete : ∀ team, InTables.Statement (.atomicComplete team) := fun _ => fun _ => rfl
theorem InTables.gatherComplete : ∀ team, InTables.Statement (.gatherComplete team) := fun _ => fun _ => rfl
theorem InTables.releaseFenceComplete : ∀ team split, InTables.Statement (.releaseFenceComplete team split) := fun _ _ => fun _ => rfl
theorem InTables.walkComplete : ∀ core ptbase va, InTables.Statement (.walkComplete core ptbase va) := fun _ _ _ => fun _ => rfl
theorem InTables.reservationTimeout : ∀ team split, InTables.Statement (.reservationTimeout team split) := fun _ _ => fun _ => rfl
theorem InTables.fairnessRotate : ∀ team, InTables.Statement (.fairnessRotate team) := fun _ => fun _ => rfl
theorem InTables.grottoSpillDone : ∀ team split, InTables.Statement (.grottoSpillDone team split) := fun _ _ => fun _ => rfl
theorem InTables.grottoReloadDone : ∀ team split, InTables.Statement (.grottoReloadDone team split) := fun _ _ => fun _ => rfl
theorem InTables.phaseSteal : ∀ die channel, InTables.Statement (.phaseSteal die channel) := fun _ _ => fun _ => rfl
theorem InTables.copyEngineStart : ∀ core, InTables.Statement (.copyEngineStart core) := fun _ => fun _ => rfl
theorem InTables.copyChunk : ∀ team ctx, InTables.Statement (.copyChunk team ctx) := fun _ _ => fun _ => rfl
theorem InTables.copyComplete : ∀ team ctx, InTables.Statement (.copyComplete team ctx) := fun _ _ => fun _ => rfl
theorem InTables.drainOperationComplete : ∀ team ctx, InTables.Statement (.drainOperationComplete team ctx) := fun _ _ => fun _ => rfl
theorem InTables.matrixStart : ∀ team, InTables.Statement (.matrixStart team) := fun _ => fun _ => rfl
theorem InTables.matrixComplete : ∀ team, InTables.Statement (.matrixComplete team) := fun _ => fun _ => rfl
theorem InTables.bra : ∀ w, InTables.Statement (.bra w) := fun _ => fun _ => by intro w0 h r; simp only [decodeShort, h, r]
theorem InTables.brc : ∀ w, InTables.Statement (.brc w) := fun _ => fun _ => by intro w0 e h r; simp only [decodeLong, h, r]
theorem InTables.bru : ∀ w, InTables.Statement (.bru w) := fun _ => fun _ => by intro w0 h r; simp only [decodeShort, h, r]
theorem InTables.call : ∀ w, InTables.Statement (.call w) := fun _ => fun _ => by intro w0 h r; simp only [decodeShort, h, r]
theorem InTables.jmpi : ∀ w, InTables.Statement (.jmpi w) := fun _ => fun _ => ⟨rfl, by decide, by decide⟩
theorem InTables.calli : ∀ w, InTables.Statement (.calli w) := fun _ => fun _ => ⟨rfl, by decide, by decide⟩
theorem InTables.ret : ∀ w, InTables.Statement (.ret w) := fun _ => fun _ => ⟨rfl, by decide, by decide⟩
theorem InTables.join : ∀ w, InTables.Statement (.join w) := fun _ => fun _ => ⟨rfl, by decide, by decide⟩
theorem InTables.yield : ∀ w, InTables.Statement (.yield w) := fun _ => fun _ => ⟨rfl, by decide, by decide⟩
theorem InTables.exit : ∀ w, InTables.Statement (.exit w) := fun _ => fun _ => ⟨rfl, by decide, by decide⟩
theorem InTables.nop : ∀ w, InTables.Statement (.nop w) := fun _ => fun _ => ⟨rfl, by decide, by decide⟩
theorem InTables.eqpt : ∀ w, InTables.Statement (.eqpt w) := fun _ => fun _ => ⟨rfl, by decide, by decide⟩
theorem InTables.migrate : ∀ w, InTables.Statement (.migrate w) := fun _ => fun _ => ⟨rfl, by decide, by decide⟩
theorem InTables.launch : ∀ w, InTables.Statement (.launch w) := fun _ => fun _ => ⟨rfl, by decide, by decide⟩
theorem InTables.waitchild : ∀ w, InTables.Statement (.waitchild w) := fun _ => fun _ => ⟨rfl, by decide, by decide⟩
theorem InTables.repeatN : ∀ w, InTables.Statement (.repeatN w) := fun _ => fun _ => by intro w0 h r; simp only [decodeShort, h, r]
theorem InTables.smov : ∀ w, InTables.Statement (.smov w) := fun _ => fun _ => ⟨rfl, by decide, by decide⟩
theorem InTables.sadd : ∀ w, InTables.Statement (.sadd w) := fun _ => fun _ => ⟨rfl, by decide, by decide⟩
theorem InTables.ssub : ∀ w, InTables.Statement (.ssub w) := fun _ => fun _ => ⟨rfl, by decide, by decide⟩
theorem InTables.smul : ∀ w, InTables.Statement (.smul w) := fun _ => fun _ => ⟨rfl, by decide, by decide⟩
theorem InTables.smad : ∀ w, InTables.Statement (.smad w) := fun _ => fun _ => ⟨rfl, by decide, by decide⟩
theorem InTables.sand : ∀ w, InTables.Statement (.sand w) := fun _ => fun _ => ⟨rfl, by decide, by decide⟩
theorem InTables.sor : ∀ w, InTables.Statement (.sor w) := fun _ => fun _ => ⟨rfl, by decide, by decide⟩
theorem InTables.sxor : ∀ w, InTables.Statement (.sxor w) := fun _ => fun _ => ⟨rfl, by decide, by decide⟩
theorem InTables.sshl : ∀ w, InTables.Statement (.sshl w) := fun _ => fun _ => ⟨rfl, by decide, by decide⟩
theorem InTables.sshr : ∀ w, InTables.Statement (.sshr w) := fun _ => fun _ => ⟨rfl, by decide, by decide⟩
theorem InTables.ssar : ∀ w, InTables.Statement (.ssar w) := fun _ => fun _ => ⟨rfl, by decide, by decide⟩
theorem InTables.smin : ∀ w, InTables.Statement (.smin w) := fun _ => fun _ => ⟨rfl, by decide, by decide⟩
theorem InTables.smax : ∀ w, InTables.Statement (.smax w) := fun _ => fun _ => ⟨rfl, by decide, by decide⟩
theorem InTables.scmp : ∀ w, InTables.Statement (.scmp w) := fun _ => fun _ => ⟨rfl, by decide, by decide⟩
theorem InTables.ssel : ∀ w, InTables.Statement (.ssel w) := fun _ => fun _ => ⟨rfl, by decide, by decide⟩
theorem InTables.smovi : ∀ w, InTables.Statement (.smovi w) := fun _ => fun _ => by intro w0 h r; simp only [decodeShort, h, r]
theorem InTables.smoviImm30 : ∀ w, InTables.Statement (.smoviImm30 w) := fun _ => fun _ => by intro w0 e h r; simp only [decodeLong, h, r]
theorem InTables.saddi : ∀ w, InTables.Statement (.saddi w) := fun _ => fun _ => by intro w0 h r; simp only [decodeShort, h, r]
theorem InTables.saddiImm30 : ∀ w, InTables.Statement (.saddiImm30 w) := fun _ => fun _ => by intro w0 e h r; simp only [decodeLong, h, r]
theorem InTables.gets : ∀ w, InTables.Statement (.gets w) := fun _ => fun _ => ⟨rfl, by decide, by decide⟩
theorem InTables.sets : ∀ w, InTables.Statement (.sets w) := fun _ => fun _ => ⟨rfl, by decide, by decide⟩
theorem InTables.vote : ∀ w, InTables.Statement (.vote w) := fun _ => fun _ => ⟨rfl, by decide, by decide⟩
theorem InTables.red : ∀ w, InTables.Statement (.red w) := fun _ => fun _ => ⟨rfl, by decide, by decide⟩
theorem InTables.sldp : ∀ w, InTables.Statement (.sldp w) := fun _ => fun _ => ⟨rfl, by decide, by decide⟩
theorem InTables.qop : ∀ w, InTables.Statement (.qop w) := fun _ => fun _ => ⟨rfl, by decide, by decide⟩
theorem InTables.iadd : ∀ w, InTables.Statement (.iadd w) := fun _ => fun _ => ⟨rfl, by decide, by decide⟩
theorem InTables.isub : ∀ w, InTables.Statement (.isub w) := fun _ => fun _ => ⟨rfl, by decide, by decide⟩
theorem InTables.imul : ∀ w, InTables.Statement (.imul w) := fun _ => fun _ => ⟨rfl, by decide, by decide⟩
theorem InTables.imulh : ∀ w, InTables.Statement (.imulh w) := fun _ => fun _ => ⟨rfl, by decide, by decide⟩
theorem InTables.imad : ∀ w, InTables.Statement (.imad w) := fun _ => fun _ => ⟨rfl, by decide, by decide⟩
theorem InTables.imin : ∀ w, InTables.Statement (.imin w) := fun _ => fun _ => ⟨rfl, by decide, by decide⟩
theorem InTables.imax : ∀ w, InTables.Statement (.imax w) := fun _ => fun _ => ⟨rfl, by decide, by decide⟩
theorem InTables.iabs : ∀ w, InTables.Statement (.iabs w) := fun _ => fun _ => ⟨rfl, by decide, by decide⟩
theorem InTables.vand : ∀ w, InTables.Statement (.vand w) := fun _ => fun _ => ⟨rfl, by decide, by decide⟩
theorem InTables.vor : ∀ w, InTables.Statement (.vor w) := fun _ => fun _ => ⟨rfl, by decide, by decide⟩
theorem InTables.vxor : ∀ w, InTables.Statement (.vxor w) := fun _ => fun _ => ⟨rfl, by decide, by decide⟩
theorem InTables.vnot : ∀ w, InTables.Statement (.vnot w) := fun _ => fun _ => ⟨rfl, by decide, by decide⟩
theorem InTables.shl : ∀ w, InTables.Statement (.shl w) := fun _ => fun _ => ⟨rfl, by decide, by decide⟩
theorem InTables.shr : ∀ w, InTables.Statement (.shr w) := fun _ => fun _ => ⟨rfl, by decide, by decide⟩
theorem InTables.sar : ∀ w, InTables.Statement (.sar w) := fun _ => fun _ => ⟨rfl, by decide, by decide⟩
theorem InTables.rot : ∀ w, InTables.Statement (.rot w) := fun _ => fun _ => ⟨rfl, by decide, by decide⟩
theorem InTables.popc : ∀ w, InTables.Statement (.popc w) := fun _ => fun _ => ⟨rfl, by decide, by decide⟩
theorem InTables.clz : ∀ w, InTables.Statement (.clz w) := fun _ => fun _ => ⟨rfl, by decide, by decide⟩
theorem InTables.brev : ∀ w, InTables.Statement (.brev w) := fun _ => fun _ => ⟨rfl, by decide, by decide⟩
theorem InTables.bfe : ∀ w, InTables.Statement (.bfe w) := fun _ => fun _ => ⟨rfl, by decide, by decide⟩
theorem InTables.bfi : ∀ w, InTables.Statement (.bfi w) := fun _ => fun _ => ⟨rfl, by decide, by decide⟩
theorem InTables.sel : ∀ w, InTables.Statement (.sel w) := fun _ => fun _ => ⟨rfl, by decide, by decide⟩
theorem InTables.mov : ∀ w, InTables.Statement (.mov w) := fun _ => fun _ => ⟨rfl, by decide, by decide⟩
theorem InTables.lane : ∀ w, InTables.Statement (.lane w) := fun _ => fun _ => ⟨rfl, by decide, by decide⟩
theorem InTables.icmp : ∀ w, InTables.Statement (.icmp w) := fun _ => fun _ => ⟨rfl, by decide, by decide⟩
theorem InTables.iaddi : ∀ w, InTables.Statement (.iaddi w) := fun _ => fun _ => by intro w0 h r; simp only [decodeShort, h, r]
theorem InTables.iaddiImm30 : ∀ w, InTables.Statement (.iaddiImm30 w) := fun _ => fun _ => by intro w0 e h r; simp only [decodeLong, h, r]
theorem InTables.movi : ∀ w, InTables.Statement (.movi w) := fun _ => fun _ => by intro w0 h r; simp only [decodeShort, h, r]
theorem InTables.moviImm30 : ∀ w, InTables.Statement (.moviImm30 w) := fun _ => fun _ => by intro w0 e h r; simp only [decodeLong, h, r]
theorem InTables.fadd : ∀ w, InTables.Statement (.fadd w) := fun _ => fun _ => ⟨rfl, by decide, by decide⟩
theorem InTables.fsub : ∀ w, InTables.Statement (.fsub w) := fun _ => fun _ => ⟨rfl, by decide, by decide⟩
theorem InTables.fmul : ∀ w, InTables.Statement (.fmul w) := fun _ => fun _ => ⟨rfl, by decide, by decide⟩
theorem InTables.ffma : ∀ w, InTables.Statement (.ffma w) := fun _ => fun _ => ⟨rfl, by decide, by decide⟩
theorem InTables.fmin : ∀ w, InTables.Statement (.fmin w) := fun _ => fun _ => ⟨rfl, by decide, by decide⟩
theorem InTables.fmax : ∀ w, InTables.Statement (.fmax w) := fun _ => fun _ => ⟨rfl, by decide, by decide⟩
theorem InTables.fabs : ∀ w, InTables.Statement (.fabs w) := fun _ => fun _ => ⟨rfl, by decide, by decide⟩
theorem InTables.fcmp : ∀ w, InTables.Statement (.fcmp w) := fun _ => fun _ => ⟨rfl, by decide, by decide⟩
theorem InTables.fclass : ∀ w, InTables.Statement (.fclass w) := fun _ => fun _ => ⟨rfl, by decide, by decide⟩
theorem InTables.frnd : ∀ w, InTables.Statement (.frnd w) := fun _ => fun _ => ⟨rfl, by decide, by decide⟩
theorem InTables.cvt : ∀ w, InTables.Statement (.cvt w) := fun _ => fun _ => ⟨rfl, by decide, by decide⟩
theorem InTables.i2f : ∀ w, InTables.Statement (.i2f w) := fun _ => fun _ => ⟨rfl, by decide, by decide⟩
theorem InTables.f2i : ∀ w, InTables.Statement (.f2i w) := fun _ => fun _ => ⟨rfl, by decide, by decide⟩
theorem InTables.rcp : ∀ w, InTables.Statement (.rcp w) := fun _ => fun _ => ⟨rfl, by decide, by decide⟩
theorem InTables.rsq : ∀ w, InTables.Statement (.rsq w) := fun _ => fun _ => ⟨rfl, by decide, by decide⟩
theorem InTables.sqrt : ∀ w, InTables.Statement (.sqrt w) := fun _ => fun _ => ⟨rfl, by decide, by decide⟩
theorem InTables.exp2 : ∀ w, InTables.Statement (.exp2 w) := fun _ => fun _ => ⟨rfl, by decide, by decide⟩
theorem InTables.log2 : ∀ w, InTables.Statement (.log2 w) := fun _ => fun _ => ⟨rfl, by decide, by decide⟩
theorem InTables.sinpi : ∀ w, InTables.Statement (.sinpi w) := fun _ => fun _ => ⟨rfl, by decide, by decide⟩
theorem InTables.cospi : ∀ w, InTables.Statement (.cospi w) := fun _ => fun _ => ⟨rfl, by decide, by decide⟩
theorem InTables.shfl : ∀ w, InTables.Statement (.shfl w) := fun _ => fun _ => ⟨rfl, by decide, by decide⟩
theorem InTables.scan : ∀ w, InTables.Statement (.scan w) := fun _ => fun _ => ⟨rfl, by decide, by decide⟩
theorem InTables.topk : ∀ w, InTables.Statement (.topk w) := fun _ => fun _ => ⟨rfl, by decide, by decide⟩
theorem InTables.rand : ∀ w, InTables.Statement (.rand w) := fun _ => fun _ => ⟨rfl, by decide, by decide⟩
theorem InTables.pand : ∀ w, InTables.Statement (.pand w) := fun _ => fun _ => ⟨rfl, by decide, by decide⟩
theorem InTables.por : ∀ w, InTables.Statement (.por w) := fun _ => fun _ => ⟨rfl, by decide, by decide⟩
theorem InTables.pxor : ∀ w, InTables.Statement (.pxor w) := fun _ => fun _ => ⟨rfl, by decide, by decide⟩
theorem InTables.pnot : ∀ w, InTables.Statement (.pnot w) := fun _ => fun _ => ⟨rfl, by decide, by decide⟩
theorem InTables.pmov : ∀ w, InTables.Statement (.pmov w) := fun _ => fun _ => ⟨rfl, by decide, by decide⟩
theorem InTables.pset : ∀ w, InTables.Statement (.pset w) := fun _ => fun _ => ⟨rfl, by decide, by decide⟩
theorem InTables.ld : ∀ w, InTables.Statement (.ld w) := fun _ => fun _ => ⟨rfl, by decide, by decide⟩
theorem InTables.lds : ∀ w, InTables.Statement (.lds w) := fun _ => fun _ => ⟨rfl, by decide, by decide⟩
theorem InTables.ldb : ∀ w, InTables.Statement (.ldb w) := fun _ => fun _ => ⟨rfl, by decide, by decide⟩
theorem InTables.ldres : ∀ w, InTables.Statement (.ldres w) := fun _ => fun _ => ⟨rfl, by decide, by decide⟩
theorem InTables.pref : ∀ w, InTables.Statement (.pref w) := fun _ => fun _ => ⟨rfl, by decide, by decide⟩
theorem InTables.probe : ∀ w, InTables.Statement (.probe w) := fun _ => fun _ => ⟨rfl, by decide, by decide⟩
theorem InTables.ldt : ∀ w, InTables.Statement (.ldt w) := fun _ => fun _ => ⟨rfl, by decide, by decide⟩
theorem InTables.st : ∀ w, InTables.Statement (.st w) := fun _ => fun _ => ⟨rfl, by decide, by decide⟩
theorem InTables.sts : ∀ w, InTables.Statement (.sts w) := fun _ => fun _ => ⟨rfl, by decide, by decide⟩
theorem InTables.stb : ∀ w, InTables.Statement (.stb w) := fun _ => fun _ => ⟨rfl, by decide, by decide⟩
theorem InTables.stcond : ∀ w, InTables.Statement (.stcond w) := fun _ => fun _ => ⟨rfl, by decide, by decide⟩
theorem InTables.stt : ∀ w, InTables.Statement (.stt w) := fun _ => fun _ => ⟨rfl, by decide, by decide⟩
theorem InTables.atomAdd : ∀ w, InTables.Statement (.atomAdd w) := fun _ => fun _ => ⟨rfl, by decide, by decide⟩
theorem InTables.atomMin : ∀ w, InTables.Statement (.atomMin w) := fun _ => fun _ => ⟨rfl, by decide, by decide⟩
theorem InTables.atomMax : ∀ w, InTables.Statement (.atomMax w) := fun _ => fun _ => ⟨rfl, by decide, by decide⟩
theorem InTables.atomAnd : ∀ w, InTables.Statement (.atomAnd w) := fun _ => fun _ => ⟨rfl, by decide, by decide⟩
theorem InTables.atomOr : ∀ w, InTables.Statement (.atomOr w) := fun _ => fun _ => ⟨rfl, by decide, by decide⟩
theorem InTables.atomXor : ∀ w, InTables.Statement (.atomXor w) := fun _ => fun _ => ⟨rfl, by decide, by decide⟩
theorem InTables.atomXchg : ∀ w, InTables.Statement (.atomXchg w) := fun _ => fun _ => ⟨rfl, by decide, by decide⟩
theorem InTables.atomCas : ∀ w, InTables.Statement (.atomCas w) := fun _ => fun _ => ⟨rfl, by decide, by decide⟩
theorem InTables.atomFadd : ∀ w, InTables.Statement (.atomFadd w) := fun _ => fun _ => ⟨rfl, by decide, by decide⟩
theorem InTables.fence : ∀ w, InTables.Statement (.fence w) := fun _ => fun _ => ⟨rfl, by decide, by decide⟩
theorem InTables.waitp : ∀ w, InTables.Statement (.waitp w) := fun _ => fun _ => ⟨rfl, by decide, by decide⟩
theorem InTables.barinit : ∀ w, InTables.Statement (.barinit w) := fun _ => fun _ => ⟨rfl, by decide, by decide⟩
theorem InTables.bararr : ∀ w, InTables.Statement (.bararr w) := fun _ => fun _ => ⟨rfl, by decide, by decide⟩
theorem InTables.barwait : ∀ w, InTables.Statement (.barwait w) := fun _ => fun _ => ⟨rfl, by decide, by decide⟩
theorem InTables.barsync : ∀ w, InTables.Statement (.barsync w) := fun _ => fun _ => ⟨rfl, by decide, by decide⟩
theorem InTables.waitw : ∀ w, InTables.Statement (.waitw w) := fun _ => fun _ => ⟨rfl, by decide, by decide⟩
theorem InTables.qpush : ∀ w, InTables.Statement (.qpush w) := fun _ => fun _ => ⟨rfl, by decide, by decide⟩
theorem InTables.qpop : ∀ w, InTables.Statement (.qpop w) := fun _ => fun _ => ⟨rfl, by decide, by decide⟩
theorem InTables.lset : ∀ w, InTables.Statement (.lset w) := fun _ => fun _ => ⟨rfl, by decide, by decide⟩
theorem InTables.lget : ∀ w, InTables.Statement (.lget w) := fun _ => fun _ => ⟨rfl, by decide, by decide⟩
theorem InTables.lchain : ∀ w, InTables.Statement (.lchain w) := fun _ => fun _ => ⟨rfl, by decide, by decide⟩
theorem InTables.lpart : ∀ w, InTables.Statement (.lpart w) := fun _ => fun _ => ⟨rfl, by decide, by decide⟩
theorem InTables.ltrans : ∀ w, InTables.Statement (.ltrans w) := fun _ => fun _ => ⟨rfl, by decide, by decide⟩
theorem InTables.lflat : ∀ w, InTables.Statement (.lflat w) := fun _ => fun _ => ⟨rfl, by decide, by decide⟩
theorem InTables.lslice : ∀ w, InTables.Statement (.lslice w) := fun _ => fun _ => ⟨rfl, by decide, by decide⟩
theorem InTables.lcheck : ∀ w, InTables.Statement (.lcheck w) := fun _ => fun _ => ⟨rfl, by decide, by decide⟩
theorem InTables.hset : ∀ w, InTables.Statement (.hset w) := fun _ => fun _ => ⟨rfl, by decide, by decide⟩
theorem InTables.hget : ∀ w, InTables.Statement (.hget w) := fun _ => fun _ => ⟨rfl, by decide, by decide⟩
theorem InTables.copy : ∀ w, InTables.Statement (.copy w) := fun _ => fun _ => ⟨rfl, by decide, by decide⟩
theorem InTables.tlwait : ∀ w, InTables.Statement (.tlwait w) := fun _ => fun _ => ⟨rfl, by decide, by decide⟩
theorem InTables.tlread : ∀ w, InTables.Statement (.tlread w) := fun _ => fun _ => ⟨rfl, by decide, by decide⟩
theorem InTables.bankcfg : ∀ w, InTables.Statement (.bankcfg w) := fun _ => fun _ => ⟨rfl, by decide, by decide⟩
theorem InTables.mma : ∀ w, InTables.Statement (.mma w) := fun _ => fun _ => ⟨rfl, by decide, by decide⟩
theorem InTables.mma2 : ∀ w, InTables.Statement (.mma2 w) := fun _ => fun _ => ⟨rfl, by decide, by decide⟩
theorem InTables.accz : ∀ w, InTables.Statement (.accz w) := fun _ => fun _ => ⟨rfl, by decide, by decide⟩
theorem InTables.accld : ∀ w, InTables.Statement (.accld w) := fun _ => fun _ => ⟨rfl, by decide, by decide⟩
theorem InTables.drain : ∀ w, InTables.Statement (.drain w) := fun _ => fun _ => ⟨rfl, by decide, by decide⟩
theorem InTables.fmtset : ∀ w, InTables.Statement (.fmtset w) := fun _ => fun _ => ⟨rfl, by decide, by decide⟩
theorem InTables.fmtget : ∀ w, InTables.Statement (.fmtget w) := fun _ => fun _ => ⟨rfl, by decide, by decide⟩
theorem InTables.mset : ∀ w, InTables.Statement (.mset w) := fun _ => fun _ => ⟨rfl, by decide, by decide⟩
theorem InTables.mcoll : ∀ w, InTables.Statement (.mcoll w) := fun _ => fun _ => ⟨rfl, by decide, by decide⟩
theorem InTables.madd : ∀ w, InTables.Statement (.madd w) := fun _ => fun _ => ⟨rfl, by decide, by decide⟩
theorem InTables.msub : ∀ w, InTables.Statement (.msub w) := fun _ => fun _ => ⟨rfl, by decide, by decide⟩
theorem InTables.mmul : ∀ w, InTables.Statement (.mmul w) := fun _ => fun _ => ⟨rfl, by decide, by decide⟩
theorem InTables.mfma : ∀ w, InTables.Statement (.mfma w) := fun _ => fun _ => ⟨rfl, by decide, by decide⟩
theorem InTables.mscale : ∀ w, InTables.Statement (.mscale w) := fun _ => fun _ => ⟨rfl, by decide, by decide⟩
theorem InTables.mrelu : ∀ w, InTables.Statement (.mrelu w) := fun _ => fun _ => ⟨rfl, by decide, by decide⟩
theorem InTables.msigm : ∀ w, InTables.Statement (.msigm w) := fun _ => fun _ => ⟨rfl, by decide, by decide⟩
theorem InTables.mexp : ∀ w, InTables.Statement (.mexp w) := fun _ => fun _ => ⟨rfl, by decide, by decide⟩
theorem InTables.mmov : ∀ w, InTables.Statement (.mmov w) := fun _ => fun _ => ⟨rfl, by decide, by decide⟩
theorem InTables.mmma : ∀ w, InTables.Statement (.mmma w) := fun _ => fun _ => ⟨rfl, by decide, by decide⟩
theorem InTables.mdrain : ∀ w, InTables.Statement (.mdrain w) := fun _ => fun _ => ⟨rfl, by decide, by decide⟩
theorem InTables.expand : ∀ w, InTables.Statement (.expand w) := fun _ => fun _ => ⟨rfl, by decide, by decide⟩
theorem InTables.exnext : ∀ w, InTables.Statement (.exnext w) := fun _ => fun _ => ⟨rfl, by decide, by decide⟩
theorem InTables.segred : ∀ w, InTables.Statement (.segred w) := fun _ => fun _ => ⟨rfl, by decide, by decide⟩
theorem InTables.exdone : ∀ w, InTables.Statement (.exdone w) := fun _ => fun _ => ⟨rfl, by decide, by decide⟩
theorem InTables.exsave : ∀ w, InTables.Statement (.exsave w) := fun _ => fun _ => ⟨rfl, by decide, by decide⟩
theorem InTables.exrstr : ∀ w, InTables.Statement (.exrstr w) := fun _ => fun _ => ⟨rfl, by decide, by decide⟩
theorem InTables.hins : ∀ w, InTables.Statement (.hins w) := fun _ => fun _ => ⟨rfl, by decide, by decide⟩
theorem InTables.hprobe : ∀ w, InTables.Statement (.hprobe w) := fun _ => fun _ => ⟨rfl, by decide, by decide⟩
theorem InTables.fetch : ∀ w, InTables.Statement (.fetch w) := fun _ => fun _ => ⟨rfl, by decide, by decide⟩
theorem InTables.trap : ∀ w, InTables.Statement (.trap w) := fun _ => fun _ => ⟨rfl, by decide, by decide⟩
theorem InTables.tret : ∀ w, InTables.Statement (.tret w) := fun w h => by
  have m : w.modN = 0 := by
    simp only [Instr.wf, form, Form.stage5, Sig.stage5, sigNone, Bool.and_eq_true, beq_iff_eq] at h
    exact h.1.1.1.1.1
  exact ⟨by simp [fnA, fnA25, m], by decide, by decide⟩
theorem InTables.tretTo : ∀ w, InTables.Statement (.tretTo w) := fun w h => by
  have m : w.modN = 1 := by
    simp only [Instr.wf, form, Form.stage5, Sig.stage5, sigTretTo, Bool.and_eq_true, beq_iff_eq] at h
    exact h.1.1.1.1.1
  exact ⟨by simp [fnA, fnA25, m], by decide, by decide⟩
theorem InTables.bkpt : ∀ w, InTables.Statement (.bkpt w) := fun _ => fun _ => ⟨rfl, by decide, by decide⟩
theorem InTables.movuser : ∀ w, InTables.Statement (.movuser w) := fun _ => fun _ => ⟨rfl, by decide, by decide⟩
theorem InTables.splitsv : ∀ w, InTables.Statement (.splitsv w) := fun _ => fun _ => ⟨rfl, by decide, by decide⟩
theorem InTables.splitld : ∀ w, InTables.Statement (.splitld w) := fun _ => fun _ => ⟨rfl, by decide, by decide⟩
theorem InTables.tsaved : ∀ w, InTables.Statement (.tsaved w) := fun _ => fun _ => ⟨rfl, by decide, by decide⟩
theorem InTables.rclaim : ∀ w, InTables.Statement (.rclaim w) := fun _ => fun _ => ⟨rfl, by decide, by decide⟩
theorem InTables.rrel : ∀ w, InTables.Statement (.rrel w) := fun _ => fun _ => ⟨rfl, by decide, by decide⟩
theorem InTables.rquery : ∀ w, InTables.Statement (.rquery w) := fun _ => fun _ => ⟨rfl, by decide, by decide⟩
theorem InTables.treshape : ∀ w, InTables.Statement (.treshape w) := fun _ => fun _ => ⟨rfl, by decide, by decide⟩
theorem InTables.leaseclk : ∀ w, InTables.Statement (.leaseclk w) := fun _ => fun _ => ⟨rfl, by decide, by decide⟩
theorem InTables.drainChunk : ∀ team ctx, InTables.Statement (.drainChunk team ctx) := fun _ _ => fun _ => rfl
theorem InTables.bankcfgChangeComplete : ∀ team split, InTables.Statement (.bankcfgChangeComplete team split) := fun _ _ => fun _ => rfl
theorem InTables.powerOn : InTables.Statement .powerOn := fun _ => rfl
theorem InTables.bringupStepTimeout : InTables.Statement .bringupStepTimeout := fun _ => rfl
theorem InTables.hostLinkRetry : InTables.Statement .hostLinkRetry := fun _ => rfl
theorem InTables.bringupStepDone : InTables.Statement .bringupStepDone := fun _ => rfl
theorem InTables.state : InTables.Statement .state := fun _ => rfl
theorem InTables.capset : InTables.Statement .capset := fun _ => rfl
theorem InTables.pcreate : InTables.Statement .pcreate := fun _ => rfl
theorem InTables.premove : InTables.Statement .premove := fun _ => rfl
theorem InTables.preport : InTables.Statement .preport := fun _ => rfl
theorem InTables.linkst : InTables.Statement .linkst := fun _ => rfl
theorem InTables.retrain : InTables.Statement .retrain := fun _ => rfl
theorem InTables.routewr : InTables.Statement .routewr := fun _ => rfl
theorem InTables.pkgnum : InTables.Statement .pkgnum := fun _ => rfl
theorem InTables.measure : InTables.Statement .measure := fun _ => rfl
theorem InTables.fwload : InTables.Statement .fwload := fun _ => rfl
theorem InTables.errcnt : InTables.Statement .errcnt := fun _ => rfl
theorem InTables.event : InTables.Statement .event := fun _ => rfl
theorem InTables.mailboxUnsupported : InTables.Statement .mailboxUnsupported := fun _ => rfl
theorem InTables.qtbaseWrite : InTables.Statement .qtbaseWrite := fun _ => rfl
theorem InTables.pctlGo : InTables.Statement .pctlGo := fun _ => rfl
theorem InTables.pctlHold : InTables.Statement .pctlHold := fun _ => rfl
theorem InTables.registerWrite : InTables.Statement .registerWrite := fun _ => rfl
theorem InTables.hostMemWrite : InTables.Statement .hostMemWrite := fun _ => rfl
theorem InTables.hostMemRead : InTables.Statement .hostMemRead := fun _ => rfl
theorem InTables.hostSnoop : InTables.Statement .hostSnoop := fun _ => rfl
theorem InTables.fabricRequest : InTables.Statement .fabricRequest := fun _ => rfl
theorem InTables.translatedBodyInstall : InTables.Statement .translatedBodyInstall := fun _ => rfl

end Sys2Proof.Laws
end

