-- ==== Sys2Proof/Laws/Registers.lean ====
section
/-! SUPPORT. Laws of the register operations: what a read of any register gives after a write of one; and what an issued
instruction can do before its own effect. -/

namespace Sys2Proof.Laws

open Machine

/-! Uniform registers, in the team or in the Lodge frame (R114, R268). -/

/-- A uniform register after a write of one. -/
theorem rdS_wrS (t : Team) (lvl d r : Nat) (x : Quad) :
    (t.wrS lvl d x).rdS lvl r = if r = d then x else t.rdS lvl r := by
  unfold Team.wrS
  split
  · next f h =>
    split at h <;> [skip; cases h]
    next hd =>
    unfold Team.frame at h
    split at h
    · next h1 =>
      unfold Team.setFrame Team.rdS Team.frame
      simp only [h1, if_true, h]
      by_cases hr : 56 ≤ r
      · simp only [hr, if_true, store_get_set_if]
        exact ite_congr (by simp; omega) (fun _ => rfl) (fun _ => rfl)
      · simp only [hr, if_false, show r ≠ d by omega]
    · next h1 =>
      split at h <;> [skip; cases h]
      next h2 =>
      have h1 : (lvl == 1) = false := by simpa using h1
      unfold Team.setFrame Team.rdS Team.frame
      simp only [h1, h2, if_true, if_false, h, Bool.false_eq_true]
      by_cases hr : 56 ≤ r
      · simp only [hr, if_true, store_get_set_if]
        exact ite_congr (by simp; omega) (fun _ => rfl) (fun _ => rfl)
      · simp only [hr, if_false, show r ≠ d by omega]
  · next h =>
    unfold Team.rdS Team.frame at *
    by_cases hr : r = d
    · subst r; simp only [h, if_true, store_get_set]
    · simp only [hr, if_false]; split <;> simp [store_get_set_if, hr]

/-- A vector register in a lane after a write of one. -/
theorem rdV_wrV (t : Team) (lvl d k r l : Nat) (x : Word) (hk : k < 1024) (hl : l < 1024) :
    (t.wrV lvl d k x).rdV lvl r l = if r = d ∧ l = k then x else t.rdV lvl r l := by
  have e : ∀ a b : Nat, (a * 1024 + l = b * 1024 + k) ↔ (a = b ∧ l = k) := by omega
  unfold Team.wrV
  split
  · next f h =>
    split at h <;> [skip; cases h]
    next hd =>
    unfold Team.frame at h
    split at h
    · next h1 =>
      unfold Team.setFrame Team.rdV Team.frame
      simp only [h1, if_true, h]
      by_cases hr : 240 ≤ r
      · simp only [hr, if_true, store_get_set_if, e]
        exact ite_congr (by simp; omega) (fun _ => rfl) (fun _ => rfl)
      · simp only [hr, if_false, show ¬(r = d ∧ l = k) by omega]
    · next h1 =>
      split at h <;> [skip; cases h]
      next h2 =>
      have h1 : (lvl == 1) = false := by simpa using h1
      unfold Team.setFrame Team.rdV Team.frame
      simp only [h1, h2, if_true, if_false, h, Bool.false_eq_true]
      by_cases hr : 240 ≤ r
      · simp only [hr, if_true, store_get_set_if, e]
        exact ite_congr (by simp; omega) (fun _ => rfl) (fun _ => rfl)
      · simp only [hr, if_false, show ¬(r = d ∧ l = k) by omega]
  · next h =>
    unfold Team.rdV Team.frame at *
    by_cases hr : r = d
    · subst r; simp only [h, true_and, store_get_set_if, e]
    · simp only [hr, false_and, if_false]; split <;> simp [store_get_set_if, e, hr]

/-- A write of a uniform register leaves the vector registers alone. -/
theorem rdV_wrS (t : Team) (lvl d r l : Nat) (x : Quad) : (t.wrS lvl d x).rdV lvl r l = t.rdV lvl r l := by
  unfold Team.wrS
  split
  · next f h =>
    split at h <;> [skip; cases h]
    unfold Team.frame at h
    split at h
    · next h1 =>
      unfold Team.setFrame Team.rdV Team.frame
      simp only [h1, if_true, h]; by_cases hr : 240 ≤ r <;> simp [hr]
    · next h1 =>
      split at h <;> [skip; cases h]
      next h2 =>
      have h1 : (lvl == 1) = false := by simpa using h1
      unfold Team.setFrame Team.rdV Team.frame
      simp only [h1, h2, if_true, if_false, h, Bool.false_eq_true]; by_cases hr : 240 ≤ r <;> simp [hr]
  · rfl

/-- A write of a vector register leaves the uniform registers alone. -/
theorem rdS_wrV (t : Team) (lvl d k r : Nat) (x : Word) : (t.wrV lvl d k x).rdS lvl r = t.rdS lvl r := by
  unfold Team.wrV
  split
  · next f h =>
    split at h <;> [skip; cases h]
    unfold Team.frame at h
    split at h
    · next h1 =>
      unfold Team.setFrame Team.rdS Team.frame
      simp only [h1, if_true, h]; by_cases hr : 56 ≤ r <;> simp [hr]
    · next h1 =>
      split at h <;> [skip; cases h]
      next h2 =>
      have h1 : (lvl == 1) = false := by simpa using h1
      unfold Team.setFrame Team.rdS Team.frame
      simp only [h1, h2, if_true, if_false, h, Bool.false_eq_true]; by_cases hr : 56 ≤ r <;> simp [hr]
  · rfl

/-- A write of a uniform register changes only the uniform registers and the frames. -/
theorem wrS_frame (t : Team) (lvl d : Nat) (x : Quad) :
    t.wrS lvl d x = { t with s := (t.wrS lvl d x).s, uframe := (t.wrS lvl d x).uframe, kframe := (t.wrS lvl d x).kframe } := by
  unfold Team.wrS Team.setFrame
  split <;> [split; skip] <;> rfl

/-- A write of a vector register changes only the vector registers and the frames. -/
theorem wrV_frame (t : Team) (lvl d k : Nat) (x : Word) :
    t.wrV lvl d k x = { t with v := (t.wrV lvl d k x).v, uframe := (t.wrV lvl d k x).uframe, kframe := (t.wrV lvl d k x).kframe } := by
  unfold Team.wrV Team.setFrame
  split <;> [split; skip] <;> rfl

/-- A vector register after a write in several lanes. -/
theorem rdV_wrVs (l : List (Nat × Word)) (t : Team) (lvl d r k : Nat) (hk : k < 1024) (h : ∀ e ∈ l, e.1 < 1024) :
    (t.wrVs lvl d l).rdV lvl r k =
      if r = d then ((l.reverse.find? fun e => e.1 == k).map (·.2)).getD (t.rdV lvl r k) else t.rdV lvl r k := by
  unfold Team.wrVs
  induction l generalizing t with
  | nil => simp
  | cons e l ih =>
    obtain ⟨j, x⟩ := e
    have hj : j < 1024 := h (j, x) (by simp)
    simp only [List.foldl_cons, List.reverse_cons, List.find?_append]
    rw [ih _ (fun e he => h e (by simp [he])), rdV_wrV _ _ _ _ _ _ _ hj hk]
    by_cases hr : r = d
    · subst r
      simp only [if_true, true_and]
      cases l.reverse.find? fun e => e.1 == k with
      | some y => rfl
      | none =>
        by_cases hjk : k = j
        · subst k; simp
        · simp [hjk, Ne.symm hjk]
    · simp [hr]

/-! Predicates and moments. -/

/-- A predicate after a write of one (R353: p0 discards writes). -/
theorem rdP_wrP (t : Team) (n k : Nat) (sel bits : Mask) :
    (t.wrP n sel bits).rdP k = if k = n ∧ n ≠ 0 then (t.p.get n &&& ~~~sel) ||| (bits &&& sel) else t.rdP k := by
  unfold Team.wrP Team.rdP
  by_cases hn : n = 0
  · simp [hn]
  · by_cases hk : k = 0
    · simp [hn, hk, Ne.symm hn]
    · simp [hn, hk, store_get_set_if]

/-- A moment register in a lane after a write of one. -/
theorem rdM_wrM (t : Team) (d k r l : Nat) (x : Quad) (hk : k < 1024) (hl : l < 1024) :
    (t.wrM d k x).rdM r l = if r = d ∧ l = k then x else t.rdM r l := by
  unfold Team.wrM Team.rdM
  simp only [store_get_set_if, show (r * 1024 + l = d * 1024 + k) ↔ (r = d ∧ l = k) by omega]

/-! Issuing. -/

/-- The issuing split is found, or the step is a stop of the agenda. -/
theorem withCtx_cases (s : State) (k : Ctx → Out) :
    withCtx s k = .fault .noSplit ∨
    ∃ tid t sp, s.cur = some (tid, sp.id) ∧ s.teams.at? tid = some t ∧ t.split? sp.id = some sp ∧
      withCtx s k = k { s := s, tid := tid, t := t, sp := sp } := by
  unfold withCtx
  split
  · exact .inl rfl
  · next tid sid hc =>
    split
    · exact .inl rfl
    · next t ht =>
      split
      · exact .inl rfl
      · next sp hp =>
        have e : sp.id = sid := by simpa using List.find?_some hp
        subst e
        exact .inr ⟨tid, t, sp, hc, ht, hp, rfl⟩

/-- A format-A instruction that no prefix repeats: PRIVILEGED, REGISTER_RANGE (its own entry's check among it), STALL, or its own
effect (R315). -/
theorem issueKR_cases (pre more : Ctx → Option Nat) (op fn : Nat) (g : Sig) (w : OpA) (s : State) (k : Ctx → Out) :
    issueKR pre more op fn g w s k = .fault .noSplit ∨
    ∃ tid t sp, s.cur = some (tid, sp.id) ∧ s.teams.at? tid = some t ∧ t.split? sp.id = some sp ∧
      let c := Ctx.window { s := s, tid := tid, t := t, sp := sp }
      let out := (g.range c.t.regs c.t.moms c.t.accs (c.sp.lvl != 0) w).or (more c)
      (∃ x, pre c = some x ∧ issueKR pre more op fn g w s k = c.trap cPriv [x] (lenA w)) ∨
      (pre c = none ∧ ∃ r, out = some r ∧ issueKR pre more op fn g w s k = c.trap cRange [r] (lenA w)) ∨
      (pre c = none ∧ out = none ∧
        ∃ r, c.tooEarly (.a op fn w g) = some r ∧ issueKR pre more op fn g w s k = c.trap cStall [r] (lenA w)) ∨
      (pre c = none ∧ out = none ∧ c.tooEarly (.a op fn w g) = none ∧
        issueKR pre more op fn g w s k = k (c.early (.a op fn w g))) := by
  unfold issueKR
  obtain h | ⟨tid, t, sp, h1, h2, h3, h4⟩ := withCtx_cases s _
  · exact .inl h
  · refine .inr ⟨tid, t, sp, h1, h2, h3, ?_⟩
    simp only [h4]
    split
    · next x hx => exact .inl ⟨x, hx, rfl⟩
    · next hx =>
      split
      · next r hr => exact .inr (.inl ⟨hx, r, hr, rfl⟩)
      · next hr =>
        split
        · next r he => exact .inr (.inr (.inl ⟨hx, hr, r, he, rfl⟩))
        · next he => exact .inr (.inr (.inr ⟨hx, hr, he, rfl⟩))

/-- The same where the instruction's entry adds nothing to stage 7. -/
theorem issueK_cases (pre : Ctx → Option Nat) (op fn : Nat) (g : Sig) (w : OpA) (s : State) (k : Ctx → Out) :
    issueK pre op fn g w s k = .fault .noSplit ∨
    ∃ tid t sp, s.cur = some (tid, sp.id) ∧ s.teams.at? tid = some t ∧ t.split? sp.id = some sp ∧
      let c := Ctx.window { s := s, tid := tid, t := t, sp := sp }
      (∃ x, pre c = some x ∧ issueK pre op fn g w s k = c.trap cPriv [x] (lenA w)) ∨
      (pre c = none ∧ ∃ r, g.range c.t.regs c.t.moms c.t.accs (c.sp.lvl != 0) w = some r ∧
        issueK pre op fn g w s k = c.trap cRange [r] (lenA w)) ∨
      (pre c = none ∧ g.range c.t.regs c.t.moms c.t.accs (c.sp.lvl != 0) w = none ∧
        ∃ r, c.tooEarly (.a op fn w g) = some r ∧ issueK pre op fn g w s k = c.trap cStall [r] (lenA w)) ∨
      (pre c = none ∧ g.range c.t.regs c.t.moms c.t.accs (c.sp.lvl != 0) w = none ∧ c.tooEarly (.a op fn w g) = none ∧
        issueK pre op fn g w s k = k (c.early (.a op fn w g))) := by
  simpa only [issueK, Option.or_none] using issueKR_cases pre (fun _ => none) op fn g w s k

/-- A team put back: its own entry, every other team as before. -/
theorem put_teams (c : Ctx) (t : Team) (k : Nat) :
    (c.put t).teams.at? k = if k = c.tid then some t else c.s.teams.at? k := by
  simp [Ctx.put, State.setTeam, amap_at_insert]
/-- A completed instruction changes nothing outside its team. -/
theorem done_next (c : Ctx) (t : Team) (n : Nat) : c.done t n = .next { c.s with teams := c.s.teams.insert c.tid (c.doneTeam t n) } := rfl

end Sys2Proof.Laws
end

