-- ==== Sys2Proof/Laws/State.lean ====
section
/-! SUPPORT. What each update of the state, of a team and of a split does to every field: one rewriting lemma per field
per update, so that no proof unfolds a record update. -/

namespace Sys2Proof.Laws

open Machine

/-! The state (R3): a team, a workgroup, a grid or a core replaced. -/

@[simp] theorem state_setTeam_dev (s : State) (k : Nat) (t : Team) : (s.setTeam k t).dev = s.dev := rfl
@[simp] theorem state_setTeam_parts (s : State) (k : Nat) (t : Team) : (s.setTeam k t).parts = s.parts := rfl
@[simp] theorem state_setTeam_qtbase (s : State) (k : Nat) (t : Team) : (s.setTeam k t).qtbase = s.qtbase := rfl
@[simp] theorem state_setTeam_pctl (s : State) (k : Nat) (t : Team) : (s.setTeam k t).pctl = s.pctl := rfl
@[simp] theorem state_setTeam_ptarget (s : State) (k : Nat) (t : Team) : (s.setTeam k t).ptarget = s.ptarget := rfl
@[simp] theorem state_setTeam_dbgctl (s : State) (k : Nat) (t : Team) : (s.setTeam k t).dbgctl = s.dbgctl := rfl
@[simp] theorem state_setTeam_preqs (s : State) (k : Nat) (t : Team) : (s.setTeam k t).preqs = s.preqs := rfl
@[simp] theorem state_setTeam_mem (s : State) (k : Nat) (t : Team) : (s.setTeam k t).mem = s.mem := rfl
@[simp] theorem state_setTeam_leases (s : State) (k : Nat) (t : Team) : (s.setTeam k t).leases = s.leases := rfl
@[simp] theorem state_setTeam_sliceExp (s : State) (k : Nat) (t : Team) : (s.setTeam k t).sliceExp = s.sliceExp := rfl
@[simp] theorem state_setTeam_hostLines (s : State) (k : Nat) (t : Team) : (s.setTeam k t).hostLines = s.hostLines := rfl
@[simp] theorem state_setTeam_watched (s : State) (k : Nat) (t : Team) : (s.setTeam k t).watched = s.watched := rfl
@[simp] theorem state_setTeam_hostHeld (s : State) (k : Nat) (t : Team) : (s.setTeam k t).hostHeld = s.hostHeld := rfl
@[simp] theorem state_setTeam_l1 (s : State) (k : Nat) (t : Team) : (s.setTeam k t).l1 = s.l1 := rfl
@[simp] theorem state_setTeam_tlb (s : State) (k : Nat) (t : Team) : (s.setTeam k t).tlb = s.tlb := rfl
@[simp] theorem state_setTeam_orangery (s : State) (k : Nat) (t : Team) : (s.setTeam k t).orangery = s.orangery := rfl
@[simp] theorem state_setTeam_clocks (s : State) (k : Nat) (t : Team) : (s.setTeam k t).clocks = s.clocks := rfl
@[simp] theorem state_setTeam_turns (s : State) (k : Nat) (t : Team) : (s.setTeam k t).turns = s.turns := rfl
@[simp] theorem state_setTeam_queues (s : State) (k : Nat) (t : Team) : (s.setTeam k t).queues = s.queues := rfl
@[simp] theorem state_setTeam_dqueues (s : State) (k : Nat) (t : Team) : (s.setTeam k t).dqueues = s.dqueues := rfl
@[simp] theorem state_setTeam_dcount (s : State) (k : Nat) (t : Team) : (s.setTeam k t).dcount = s.dcount := rfl
@[simp] theorem state_setTeam_blocking (s : State) (k : Nat) (t : Team) : (s.setTeam k t).blocking = s.blocking := rfl
@[simp] theorem state_setTeam_ageNext (s : State) (k : Nat) (t : Team) : (s.setTeam k t).ageNext = s.ageNext := rfl
@[simp] theorem state_setTeam_grids (s : State) (k : Nat) (t : Team) : (s.setTeam k t).grids = s.grids := rfl
@[simp] theorem state_setTeam_wgs (s : State) (k : Nat) (t : Team) : (s.setTeam k t).wgs = s.wgs := rfl
@[simp] theorem state_setTeam_teams (s : State) (k : Nat) (t : Team) : (s.setTeam k t).teams = s.teams.insert k t := rfl
@[simp] theorem state_setTeam_savedTeams (s : State) (k : Nat) (t : Team) : (s.setTeam k t).savedTeams = s.savedTeams := rfl
@[simp] theorem state_setTeam_cores (s : State) (k : Nat) (t : Team) : (s.setTeam k t).cores = s.cores := rfl
@[simp] theorem state_setTeam_migs (s : State) (k : Nat) (t : Team) : (s.setTeam k t).migs = s.migs := rfl
@[simp] theorem state_setTeam_faultQ (s : State) (k : Nat) (t : Team) : (s.setTeam k t).faultQ = s.faultQ := rfl
@[simp] theorem state_setTeam_faultReq (s : State) (k : Nat) (t : Team) : (s.setTeam k t).faultReq = s.faultReq := rfl
@[simp] theorem state_setTeam_fseq (s : State) (k : Nat) (t : Team) : (s.setTeam k t).fseq = s.fseq := rfl
@[simp] theorem state_setTeam_transReq (s : State) (k : Nat) (t : Team) : (s.setTeam k t).transReq = s.transReq := rfl
@[simp] theorem state_setTeam_prioPre (s : State) (k : Nat) (t : Team) : (s.setTeam k t).prioPre = s.prioPre := rfl
@[simp] theorem state_setTeam_trans (s : State) (k : Nat) (t : Team) : (s.setTeam k t).trans = s.trans := rfl
@[simp] theorem state_setTeam_steals (s : State) (k : Nat) (t : Team) : (s.setTeam k t).steals = s.steals := rfl
@[simp] theorem state_setTeam_fabReqs (s : State) (k : Nat) (t : Team) : (s.setTeam k t).fabReqs = s.fabReqs := rfl
@[simp] theorem state_setTeam_remote (s : State) (k : Nat) (t : Team) : (s.setTeam k t).remote = s.remote := rfl
@[simp] theorem state_setTeam_fabDone (s : State) (k : Nat) (t : Team) : (s.setTeam k t).fabDone = s.fabDone := rfl
@[simp] theorem state_setTeam_fabReads (s : State) (k : Nat) (t : Team) : (s.setTeam k t).fabReads = s.fabReads := rfl
@[simp] theorem state_setTeam_hostReads (s : State) (k : Nat) (t : Team) : (s.setTeam k t).hostReads = s.hostReads := rfl
@[simp] theorem state_setTeam_hostAcks (s : State) (k : Nat) (t : Team) : (s.setTeam k t).hostAcks = s.hostAcks := rfl
@[simp] theorem state_setTeam_hostDone (s : State) (k : Nat) (t : Team) : (s.setTeam k t).hostDone = s.hostDone := rfl
@[simp] theorem state_setTeam_reqMbox (s : State) (k : Nat) (t : Team) : (s.setTeam k t).reqMbox = s.reqMbox := rfl
@[simp] theorem state_setTeam_reqRegs (s : State) (k : Nat) (t : Team) : (s.setTeam k t).reqRegs = s.reqRegs := rfl
@[simp] theorem state_setTeam_reqHost (s : State) (k : Nat) (t : Team) : (s.setTeam k t).reqHost = s.reqHost := rfl
@[simp] theorem state_setTeam_reqFab (s : State) (k : Nat) (t : Team) : (s.setTeam k t).reqFab = s.reqFab := rfl
@[simp] theorem state_setTeam_hostArr (s : State) (k : Nat) (t : Team) : (s.setTeam k t).hostArr = s.hostArr := rfl
@[simp] theorem state_setTeam_fabArr (s : State) (k : Nat) (t : Team) : (s.setTeam k t).fabArr = s.fabArr := rfl
@[simp] theorem state_setTeam_reqTrans (s : State) (k : Nat) (t : Team) : (s.setTeam k t).reqTrans = s.reqTrans := rfl
@[simp] theorem state_setTeam_findings (s : State) (k : Nat) (t : Team) : (s.setTeam k t).findings = s.findings := rfl
@[simp] theorem state_setTeam_agenda (s : State) (k : Nat) (t : Team) : (s.setTeam k t).agenda = s.agenda := rfl
@[simp] theorem state_setTeam_cur (s : State) (k : Nat) (t : Team) : (s.setTeam k t).cur = s.cur := rfl
@[simp] theorem state_setTeam_fresh (s : State) (k : Nat) (t : Team) : (s.setTeam k t).fresh = s.fresh := rfl
@[simp] theorem state_setTeam_nextId (s : State) (k : Nat) (t : Team) : (s.setTeam k t).nextId = s.nextId := rfl

@[simp] theorem state_modWg_dev (s : State) (k : Nat) (f : Wg → Wg) : (s.modWg k f).dev = s.dev := rfl
@[simp] theorem state_modWg_parts (s : State) (k : Nat) (f : Wg → Wg) : (s.modWg k f).parts = s.parts := rfl
@[simp] theorem state_modWg_qtbase (s : State) (k : Nat) (f : Wg → Wg) : (s.modWg k f).qtbase = s.qtbase := rfl
@[simp] theorem state_modWg_pctl (s : State) (k : Nat) (f : Wg → Wg) : (s.modWg k f).pctl = s.pctl := rfl
@[simp] theorem state_modWg_ptarget (s : State) (k : Nat) (f : Wg → Wg) : (s.modWg k f).ptarget = s.ptarget := rfl
@[simp] theorem state_modWg_dbgctl (s : State) (k : Nat) (f : Wg → Wg) : (s.modWg k f).dbgctl = s.dbgctl := rfl
@[simp] theorem state_modWg_preqs (s : State) (k : Nat) (f : Wg → Wg) : (s.modWg k f).preqs = s.preqs := rfl
@[simp] theorem state_modWg_mem (s : State) (k : Nat) (f : Wg → Wg) : (s.modWg k f).mem = s.mem := rfl
@[simp] theorem state_modWg_leases (s : State) (k : Nat) (f : Wg → Wg) : (s.modWg k f).leases = s.leases := rfl
@[simp] theorem state_modWg_sliceExp (s : State) (k : Nat) (f : Wg → Wg) : (s.modWg k f).sliceExp = s.sliceExp := rfl
@[simp] theorem state_modWg_hostLines (s : State) (k : Nat) (f : Wg → Wg) : (s.modWg k f).hostLines = s.hostLines := rfl
@[simp] theorem state_modWg_watched (s : State) (k : Nat) (f : Wg → Wg) : (s.modWg k f).watched = s.watched := rfl
@[simp] theorem state_modWg_hostHeld (s : State) (k : Nat) (f : Wg → Wg) : (s.modWg k f).hostHeld = s.hostHeld := rfl
@[simp] theorem state_modWg_l1 (s : State) (k : Nat) (f : Wg → Wg) : (s.modWg k f).l1 = s.l1 := rfl
@[simp] theorem state_modWg_tlb (s : State) (k : Nat) (f : Wg → Wg) : (s.modWg k f).tlb = s.tlb := rfl
@[simp] theorem state_modWg_orangery (s : State) (k : Nat) (f : Wg → Wg) : (s.modWg k f).orangery = s.orangery := rfl
@[simp] theorem state_modWg_clocks (s : State) (k : Nat) (f : Wg → Wg) : (s.modWg k f).clocks = s.clocks := rfl
@[simp] theorem state_modWg_turns (s : State) (k : Nat) (f : Wg → Wg) : (s.modWg k f).turns = s.turns := rfl
@[simp] theorem state_modWg_queues (s : State) (k : Nat) (f : Wg → Wg) : (s.modWg k f).queues = s.queues := rfl
@[simp] theorem state_modWg_dqueues (s : State) (k : Nat) (f : Wg → Wg) : (s.modWg k f).dqueues = s.dqueues := rfl
@[simp] theorem state_modWg_dcount (s : State) (k : Nat) (f : Wg → Wg) : (s.modWg k f).dcount = s.dcount := rfl
@[simp] theorem state_modWg_blocking (s : State) (k : Nat) (f : Wg → Wg) : (s.modWg k f).blocking = s.blocking := rfl
@[simp] theorem state_modWg_ageNext (s : State) (k : Nat) (f : Wg → Wg) : (s.modWg k f).ageNext = s.ageNext := rfl
@[simp] theorem state_modWg_grids (s : State) (k : Nat) (f : Wg → Wg) : (s.modWg k f).grids = s.grids := rfl
@[simp] theorem state_modWg_wgs (s : State) (k : Nat) (f : Wg → Wg) : (s.modWg k f).wgs = s.wgs.modify k f := rfl
@[simp] theorem state_modWg_teams (s : State) (k : Nat) (f : Wg → Wg) : (s.modWg k f).teams = s.teams := rfl
@[simp] theorem state_modWg_savedTeams (s : State) (k : Nat) (f : Wg → Wg) : (s.modWg k f).savedTeams = s.savedTeams := rfl
@[simp] theorem state_modWg_cores (s : State) (k : Nat) (f : Wg → Wg) : (s.modWg k f).cores = s.cores := rfl
@[simp] theorem state_modWg_migs (s : State) (k : Nat) (f : Wg → Wg) : (s.modWg k f).migs = s.migs := rfl
@[simp] theorem state_modWg_faultQ (s : State) (k : Nat) (f : Wg → Wg) : (s.modWg k f).faultQ = s.faultQ := rfl
@[simp] theorem state_modWg_faultReq (s : State) (k : Nat) (f : Wg → Wg) : (s.modWg k f).faultReq = s.faultReq := rfl
@[simp] theorem state_modWg_fseq (s : State) (k : Nat) (f : Wg → Wg) : (s.modWg k f).fseq = s.fseq := rfl
@[simp] theorem state_modWg_transReq (s : State) (k : Nat) (f : Wg → Wg) : (s.modWg k f).transReq = s.transReq := rfl
@[simp] theorem state_modWg_prioPre (s : State) (k : Nat) (f : Wg → Wg) : (s.modWg k f).prioPre = s.prioPre := rfl
@[simp] theorem state_modWg_trans (s : State) (k : Nat) (f : Wg → Wg) : (s.modWg k f).trans = s.trans := rfl
@[simp] theorem state_modWg_steals (s : State) (k : Nat) (f : Wg → Wg) : (s.modWg k f).steals = s.steals := rfl
@[simp] theorem state_modWg_fabReqs (s : State) (k : Nat) (f : Wg → Wg) : (s.modWg k f).fabReqs = s.fabReqs := rfl
@[simp] theorem state_modWg_remote (s : State) (k : Nat) (f : Wg → Wg) : (s.modWg k f).remote = s.remote := rfl
@[simp] theorem state_modWg_fabDone (s : State) (k : Nat) (f : Wg → Wg) : (s.modWg k f).fabDone = s.fabDone := rfl
@[simp] theorem state_modWg_fabReads (s : State) (k : Nat) (f : Wg → Wg) : (s.modWg k f).fabReads = s.fabReads := rfl
@[simp] theorem state_modWg_hostReads (s : State) (k : Nat) (f : Wg → Wg) : (s.modWg k f).hostReads = s.hostReads := rfl
@[simp] theorem state_modWg_hostAcks (s : State) (k : Nat) (f : Wg → Wg) : (s.modWg k f).hostAcks = s.hostAcks := rfl
@[simp] theorem state_modWg_hostDone (s : State) (k : Nat) (f : Wg → Wg) : (s.modWg k f).hostDone = s.hostDone := rfl
@[simp] theorem state_modWg_reqMbox (s : State) (k : Nat) (f : Wg → Wg) : (s.modWg k f).reqMbox = s.reqMbox := rfl
@[simp] theorem state_modWg_reqRegs (s : State) (k : Nat) (f : Wg → Wg) : (s.modWg k f).reqRegs = s.reqRegs := rfl
@[simp] theorem state_modWg_reqHost (s : State) (k : Nat) (f : Wg → Wg) : (s.modWg k f).reqHost = s.reqHost := rfl
@[simp] theorem state_modWg_reqFab (s : State) (k : Nat) (f : Wg → Wg) : (s.modWg k f).reqFab = s.reqFab := rfl
@[simp] theorem state_modWg_hostArr (s : State) (k : Nat) (f : Wg → Wg) : (s.modWg k f).hostArr = s.hostArr := rfl
@[simp] theorem state_modWg_fabArr (s : State) (k : Nat) (f : Wg → Wg) : (s.modWg k f).fabArr = s.fabArr := rfl
@[simp] theorem state_modWg_reqTrans (s : State) (k : Nat) (f : Wg → Wg) : (s.modWg k f).reqTrans = s.reqTrans := rfl
@[simp] theorem state_modWg_findings (s : State) (k : Nat) (f : Wg → Wg) : (s.modWg k f).findings = s.findings := rfl
@[simp] theorem state_modWg_agenda (s : State) (k : Nat) (f : Wg → Wg) : (s.modWg k f).agenda = s.agenda := rfl
@[simp] theorem state_modWg_cur (s : State) (k : Nat) (f : Wg → Wg) : (s.modWg k f).cur = s.cur := rfl
@[simp] theorem state_modWg_fresh (s : State) (k : Nat) (f : Wg → Wg) : (s.modWg k f).fresh = s.fresh := rfl
@[simp] theorem state_modWg_nextId (s : State) (k : Nat) (f : Wg → Wg) : (s.modWg k f).nextId = s.nextId := rfl

@[simp] theorem state_modGrid_dev (s : State) (g : Quad) (f : Grid → Grid) : (s.modGrid g f).dev = s.dev := rfl
@[simp] theorem state_modGrid_parts (s : State) (g : Quad) (f : Grid → Grid) : (s.modGrid g f).parts = s.parts := rfl
@[simp] theorem state_modGrid_qtbase (s : State) (g : Quad) (f : Grid → Grid) : (s.modGrid g f).qtbase = s.qtbase := rfl
@[simp] theorem state_modGrid_pctl (s : State) (g : Quad) (f : Grid → Grid) : (s.modGrid g f).pctl = s.pctl := rfl
@[simp] theorem state_modGrid_ptarget (s : State) (g : Quad) (f : Grid → Grid) : (s.modGrid g f).ptarget = s.ptarget := rfl
@[simp] theorem state_modGrid_dbgctl (s : State) (g : Quad) (f : Grid → Grid) : (s.modGrid g f).dbgctl = s.dbgctl := rfl
@[simp] theorem state_modGrid_preqs (s : State) (g : Quad) (f : Grid → Grid) : (s.modGrid g f).preqs = s.preqs := rfl
@[simp] theorem state_modGrid_mem (s : State) (g : Quad) (f : Grid → Grid) : (s.modGrid g f).mem = s.mem := rfl
@[simp] theorem state_modGrid_leases (s : State) (g : Quad) (f : Grid → Grid) : (s.modGrid g f).leases = s.leases := rfl
@[simp] theorem state_modGrid_sliceExp (s : State) (g : Quad) (f : Grid → Grid) : (s.modGrid g f).sliceExp = s.sliceExp := rfl
@[simp] theorem state_modGrid_hostLines (s : State) (g : Quad) (f : Grid → Grid) : (s.modGrid g f).hostLines = s.hostLines := rfl
@[simp] theorem state_modGrid_watched (s : State) (g : Quad) (f : Grid → Grid) : (s.modGrid g f).watched = s.watched := rfl
@[simp] theorem state_modGrid_hostHeld (s : State) (g : Quad) (f : Grid → Grid) : (s.modGrid g f).hostHeld = s.hostHeld := rfl
@[simp] theorem state_modGrid_l1 (s : State) (g : Quad) (f : Grid → Grid) : (s.modGrid g f).l1 = s.l1 := rfl
@[simp] theorem state_modGrid_tlb (s : State) (g : Quad) (f : Grid → Grid) : (s.modGrid g f).tlb = s.tlb := rfl
@[simp] theorem state_modGrid_orangery (s : State) (g : Quad) (f : Grid → Grid) : (s.modGrid g f).orangery = s.orangery := rfl
@[simp] theorem state_modGrid_clocks (s : State) (g : Quad) (f : Grid → Grid) : (s.modGrid g f).clocks = s.clocks := rfl
@[simp] theorem state_modGrid_turns (s : State) (g : Quad) (f : Grid → Grid) : (s.modGrid g f).turns = s.turns := rfl
@[simp] theorem state_modGrid_queues (s : State) (g : Quad) (f : Grid → Grid) : (s.modGrid g f).queues = s.queues := rfl
@[simp] theorem state_modGrid_dqueues (s : State) (g : Quad) (f : Grid → Grid) : (s.modGrid g f).dqueues = s.dqueues := rfl
@[simp] theorem state_modGrid_dcount (s : State) (g : Quad) (f : Grid → Grid) : (s.modGrid g f).dcount = s.dcount := rfl
@[simp] theorem state_modGrid_blocking (s : State) (g : Quad) (f : Grid → Grid) : (s.modGrid g f).blocking = s.blocking := rfl
@[simp] theorem state_modGrid_ageNext (s : State) (g : Quad) (f : Grid → Grid) : (s.modGrid g f).ageNext = s.ageNext := rfl
@[simp] theorem state_modGrid_grids (s : State) (g : Quad) (f : Grid → Grid) : (s.modGrid g f).grids = s.grids.map fun x => if x.gid == g then f x else x := rfl
@[simp] theorem state_modGrid_wgs (s : State) (g : Quad) (f : Grid → Grid) : (s.modGrid g f).wgs = s.wgs := rfl
@[simp] theorem state_modGrid_teams (s : State) (g : Quad) (f : Grid → Grid) : (s.modGrid g f).teams = s.teams := rfl
@[simp] theorem state_modGrid_savedTeams (s : State) (g : Quad) (f : Grid → Grid) : (s.modGrid g f).savedTeams = s.savedTeams := rfl
@[simp] theorem state_modGrid_cores (s : State) (g : Quad) (f : Grid → Grid) : (s.modGrid g f).cores = s.cores := rfl
@[simp] theorem state_modGrid_migs (s : State) (g : Quad) (f : Grid → Grid) : (s.modGrid g f).migs = s.migs := rfl
@[simp] theorem state_modGrid_faultQ (s : State) (g : Quad) (f : Grid → Grid) : (s.modGrid g f).faultQ = s.faultQ := rfl
@[simp] theorem state_modGrid_faultReq (s : State) (g : Quad) (f : Grid → Grid) : (s.modGrid g f).faultReq = s.faultReq := rfl
@[simp] theorem state_modGrid_fseq (s : State) (g : Quad) (f : Grid → Grid) : (s.modGrid g f).fseq = s.fseq := rfl
@[simp] theorem state_modGrid_transReq (s : State) (g : Quad) (f : Grid → Grid) : (s.modGrid g f).transReq = s.transReq := rfl
@[simp] theorem state_modGrid_prioPre (s : State) (g : Quad) (f : Grid → Grid) : (s.modGrid g f).prioPre = s.prioPre := rfl
@[simp] theorem state_modGrid_trans (s : State) (g : Quad) (f : Grid → Grid) : (s.modGrid g f).trans = s.trans := rfl
@[simp] theorem state_modGrid_steals (s : State) (g : Quad) (f : Grid → Grid) : (s.modGrid g f).steals = s.steals := rfl
@[simp] theorem state_modGrid_fabReqs (s : State) (g : Quad) (f : Grid → Grid) : (s.modGrid g f).fabReqs = s.fabReqs := rfl
@[simp] theorem state_modGrid_remote (s : State) (g : Quad) (f : Grid → Grid) : (s.modGrid g f).remote = s.remote := rfl
@[simp] theorem state_modGrid_fabDone (s : State) (g : Quad) (f : Grid → Grid) : (s.modGrid g f).fabDone = s.fabDone := rfl
@[simp] theorem state_modGrid_fabReads (s : State) (g : Quad) (f : Grid → Grid) : (s.modGrid g f).fabReads = s.fabReads := rfl
@[simp] theorem state_modGrid_hostReads (s : State) (g : Quad) (f : Grid → Grid) : (s.modGrid g f).hostReads = s.hostReads := rfl
@[simp] theorem state_modGrid_hostAcks (s : State) (g : Quad) (f : Grid → Grid) : (s.modGrid g f).hostAcks = s.hostAcks := rfl
@[simp] theorem state_modGrid_hostDone (s : State) (g : Quad) (f : Grid → Grid) : (s.modGrid g f).hostDone = s.hostDone := rfl
@[simp] theorem state_modGrid_reqMbox (s : State) (g : Quad) (f : Grid → Grid) : (s.modGrid g f).reqMbox = s.reqMbox := rfl
@[simp] theorem state_modGrid_reqRegs (s : State) (g : Quad) (f : Grid → Grid) : (s.modGrid g f).reqRegs = s.reqRegs := rfl
@[simp] theorem state_modGrid_reqHost (s : State) (g : Quad) (f : Grid → Grid) : (s.modGrid g f).reqHost = s.reqHost := rfl
@[simp] theorem state_modGrid_reqFab (s : State) (g : Quad) (f : Grid → Grid) : (s.modGrid g f).reqFab = s.reqFab := rfl
@[simp] theorem state_modGrid_hostArr (s : State) (g : Quad) (f : Grid → Grid) : (s.modGrid g f).hostArr = s.hostArr := rfl
@[simp] theorem state_modGrid_fabArr (s : State) (g : Quad) (f : Grid → Grid) : (s.modGrid g f).fabArr = s.fabArr := rfl
@[simp] theorem state_modGrid_reqTrans (s : State) (g : Quad) (f : Grid → Grid) : (s.modGrid g f).reqTrans = s.reqTrans := rfl
@[simp] theorem state_modGrid_findings (s : State) (g : Quad) (f : Grid → Grid) : (s.modGrid g f).findings = s.findings := rfl
@[simp] theorem state_modGrid_agenda (s : State) (g : Quad) (f : Grid → Grid) : (s.modGrid g f).agenda = s.agenda := rfl
@[simp] theorem state_modGrid_cur (s : State) (g : Quad) (f : Grid → Grid) : (s.modGrid g f).cur = s.cur := rfl
@[simp] theorem state_modGrid_fresh (s : State) (g : Quad) (f : Grid → Grid) : (s.modGrid g f).fresh = s.fresh := rfl
@[simp] theorem state_modGrid_nextId (s : State) (g : Quad) (f : Grid → Grid) : (s.modGrid g f).nextId = s.nextId := rfl

@[simp] theorem state_setCore_dev (s : State) (c : CoreId) (x : Core) : (s.setCore c x).dev = s.dev := rfl
@[simp] theorem state_setCore_parts (s : State) (c : CoreId) (x : Core) : (s.setCore c x).parts = s.parts := rfl
@[simp] theorem state_setCore_qtbase (s : State) (c : CoreId) (x : Core) : (s.setCore c x).qtbase = s.qtbase := rfl
@[simp] theorem state_setCore_pctl (s : State) (c : CoreId) (x : Core) : (s.setCore c x).pctl = s.pctl := rfl
@[simp] theorem state_setCore_ptarget (s : State) (c : CoreId) (x : Core) : (s.setCore c x).ptarget = s.ptarget := rfl
@[simp] theorem state_setCore_dbgctl (s : State) (c : CoreId) (x : Core) : (s.setCore c x).dbgctl = s.dbgctl := rfl
@[simp] theorem state_setCore_preqs (s : State) (c : CoreId) (x : Core) : (s.setCore c x).preqs = s.preqs := rfl
@[simp] theorem state_setCore_mem (s : State) (c : CoreId) (x : Core) : (s.setCore c x).mem = s.mem := rfl
@[simp] theorem state_setCore_leases (s : State) (c : CoreId) (x : Core) : (s.setCore c x).leases = s.leases := rfl
@[simp] theorem state_setCore_sliceExp (s : State) (c : CoreId) (x : Core) : (s.setCore c x).sliceExp = s.sliceExp := rfl
@[simp] theorem state_setCore_hostLines (s : State) (c : CoreId) (x : Core) : (s.setCore c x).hostLines = s.hostLines := rfl
@[simp] theorem state_setCore_watched (s : State) (c : CoreId) (x : Core) : (s.setCore c x).watched = s.watched := rfl
@[simp] theorem state_setCore_hostHeld (s : State) (c : CoreId) (x : Core) : (s.setCore c x).hostHeld = s.hostHeld := rfl
@[simp] theorem state_setCore_l1 (s : State) (c : CoreId) (x : Core) : (s.setCore c x).l1 = s.l1 := rfl
@[simp] theorem state_setCore_tlb (s : State) (c : CoreId) (x : Core) : (s.setCore c x).tlb = s.tlb := rfl
@[simp] theorem state_setCore_orangery (s : State) (c : CoreId) (x : Core) : (s.setCore c x).orangery = s.orangery := rfl
@[simp] theorem state_setCore_clocks (s : State) (c : CoreId) (x : Core) : (s.setCore c x).clocks = s.clocks := rfl
@[simp] theorem state_setCore_turns (s : State) (c : CoreId) (x : Core) : (s.setCore c x).turns = s.turns := rfl
@[simp] theorem state_setCore_queues (s : State) (c : CoreId) (x : Core) : (s.setCore c x).queues = s.queues := rfl
@[simp] theorem state_setCore_dqueues (s : State) (c : CoreId) (x : Core) : (s.setCore c x).dqueues = s.dqueues := rfl
@[simp] theorem state_setCore_dcount (s : State) (c : CoreId) (x : Core) : (s.setCore c x).dcount = s.dcount := rfl
@[simp] theorem state_setCore_blocking (s : State) (c : CoreId) (x : Core) : (s.setCore c x).blocking = s.blocking := rfl
@[simp] theorem state_setCore_ageNext (s : State) (c : CoreId) (x : Core) : (s.setCore c x).ageNext = s.ageNext := rfl
@[simp] theorem state_setCore_grids (s : State) (c : CoreId) (x : Core) : (s.setCore c x).grids = s.grids := rfl
@[simp] theorem state_setCore_wgs (s : State) (c : CoreId) (x : Core) : (s.setCore c x).wgs = s.wgs := rfl
@[simp] theorem state_setCore_teams (s : State) (c : CoreId) (x : Core) : (s.setCore c x).teams = s.teams := rfl
@[simp] theorem state_setCore_savedTeams (s : State) (c : CoreId) (x : Core) : (s.setCore c x).savedTeams = s.savedTeams := rfl
@[simp] theorem state_setCore_cores (s : State) (c : CoreId) (x : Core) : (s.setCore c x).cores = s.cores.insert (coreKey c) x := rfl
@[simp] theorem state_setCore_migs (s : State) (c : CoreId) (x : Core) : (s.setCore c x).migs = s.migs := rfl
@[simp] theorem state_setCore_faultQ (s : State) (c : CoreId) (x : Core) : (s.setCore c x).faultQ = s.faultQ := rfl
@[simp] theorem state_setCore_faultReq (s : State) (c : CoreId) (x : Core) : (s.setCore c x).faultReq = s.faultReq := rfl
@[simp] theorem state_setCore_fseq (s : State) (c : CoreId) (x : Core) : (s.setCore c x).fseq = s.fseq := rfl
@[simp] theorem state_setCore_transReq (s : State) (c : CoreId) (x : Core) : (s.setCore c x).transReq = s.transReq := rfl
@[simp] theorem state_setCore_prioPre (s : State) (c : CoreId) (x : Core) : (s.setCore c x).prioPre = s.prioPre := rfl
@[simp] theorem state_setCore_trans (s : State) (c : CoreId) (x : Core) : (s.setCore c x).trans = s.trans := rfl
@[simp] theorem state_setCore_steals (s : State) (c : CoreId) (x : Core) : (s.setCore c x).steals = s.steals := rfl
@[simp] theorem state_setCore_fabReqs (s : State) (c : CoreId) (x : Core) : (s.setCore c x).fabReqs = s.fabReqs := rfl
@[simp] theorem state_setCore_remote (s : State) (c : CoreId) (x : Core) : (s.setCore c x).remote = s.remote := rfl
@[simp] theorem state_setCore_fabDone (s : State) (c : CoreId) (x : Core) : (s.setCore c x).fabDone = s.fabDone := rfl
@[simp] theorem state_setCore_fabReads (s : State) (c : CoreId) (x : Core) : (s.setCore c x).fabReads = s.fabReads := rfl
@[simp] theorem state_setCore_hostReads (s : State) (c : CoreId) (x : Core) : (s.setCore c x).hostReads = s.hostReads := rfl
@[simp] theorem state_setCore_hostAcks (s : State) (c : CoreId) (x : Core) : (s.setCore c x).hostAcks = s.hostAcks := rfl
@[simp] theorem state_setCore_hostDone (s : State) (c : CoreId) (x : Core) : (s.setCore c x).hostDone = s.hostDone := rfl
@[simp] theorem state_setCore_reqMbox (s : State) (c : CoreId) (x : Core) : (s.setCore c x).reqMbox = s.reqMbox := rfl
@[simp] theorem state_setCore_reqRegs (s : State) (c : CoreId) (x : Core) : (s.setCore c x).reqRegs = s.reqRegs := rfl
@[simp] theorem state_setCore_reqHost (s : State) (c : CoreId) (x : Core) : (s.setCore c x).reqHost = s.reqHost := rfl
@[simp] theorem state_setCore_reqFab (s : State) (c : CoreId) (x : Core) : (s.setCore c x).reqFab = s.reqFab := rfl
@[simp] theorem state_setCore_hostArr (s : State) (c : CoreId) (x : Core) : (s.setCore c x).hostArr = s.hostArr := rfl
@[simp] theorem state_setCore_fabArr (s : State) (c : CoreId) (x : Core) : (s.setCore c x).fabArr = s.fabArr := rfl
@[simp] theorem state_setCore_reqTrans (s : State) (c : CoreId) (x : Core) : (s.setCore c x).reqTrans = s.reqTrans := rfl
@[simp] theorem state_setCore_findings (s : State) (c : CoreId) (x : Core) : (s.setCore c x).findings = s.findings := rfl
@[simp] theorem state_setCore_agenda (s : State) (c : CoreId) (x : Core) : (s.setCore c x).agenda = s.agenda := rfl
@[simp] theorem state_setCore_cur (s : State) (c : CoreId) (x : Core) : (s.setCore c x).cur = s.cur := rfl
@[simp] theorem state_setCore_fresh (s : State) (c : CoreId) (x : Core) : (s.setCore c x).fresh = s.fresh := rfl
@[simp] theorem state_setCore_nextId (s : State) (c : CoreId) (x : Core) : (s.setCore c x).nextId = s.nextId := rfl

/-! A team (R114): its splits, join records and registers. -/

@[simp] theorem team_modSplit_wg (t : Team) (k : Nat) (f : Split → Split) : (t.modSplit k f).wg = t.wg := rfl
@[simp] theorem team_modSplit_idx (t : Team) (k : Nat) (f : Split → Split) : (t.modSplit k f).idx = t.idx := rfl
@[simp] theorem team_modSplit_core (t : Team) (k : Nat) (f : Split → Split) : (t.modSplit k f).core = t.core := rfl
@[simp] theorem team_modSplit_slot (t : Team) (k : Nat) (f : Split → Split) : (t.modSplit k f).slot = t.slot := rfl
@[simp] theorem team_modSplit_twlog (t : Team) (k : Nat) (f : Split → Split) : (t.modSplit k f).twlog = t.twlog := rfl
@[simp] theorem team_modSplit_width (t : Team) (k : Nat) (f : Split → Split) : (t.modSplit k f).width = t.width := rfl
@[simp] theorem team_modSplit_regs (t : Team) (k : Nat) (f : Split → Split) : (t.modSplit k f).regs = t.regs := rfl
@[simp] theorem team_modSplit_moms (t : Team) (k : Nat) (f : Split → Split) : (t.modSplit k f).moms = t.moms := rfl
@[simp] theorem team_modSplit_accs (t : Team) (k : Nat) (f : Split → Split) : (t.modSplit k f).accs = t.accs := rfl
@[simp] theorem team_modSplit_v (t : Team) (k : Nat) (f : Split → Split) : (t.modSplit k f).v = t.v := rfl
@[simp] theorem team_modSplit_p (t : Team) (k : Nat) (f : Split → Split) : (t.modSplit k f).p = t.p := rfl
@[simp] theorem team_modSplit_m (t : Team) (k : Nat) (f : Split → Split) : (t.modSplit k f).m = t.m := rfl
@[simp] theorem team_modSplit_s (t : Team) (k : Nat) (f : Split → Split) : (t.modSplit k f).s = t.s := rfl
@[simp] theorem team_modSplit_q (t : Team) (k : Nat) (f : Split → Split) : (t.modSplit k f).q = t.q := rfl
@[simp] theorem team_modSplit_ly (t : Team) (k : Nat) (f : Split → Split) : (t.modSplit k f).ly = t.ly := rfl
@[simp] theorem team_modSplit_h (t : Team) (k : Nat) (f : Split → Split) : (t.modSplit k f).h = t.h := rfl
@[simp] theorem team_modSplit_acc (t : Team) (k : Nat) (f : Split → Split) : (t.modSplit k f).acc = t.acc := rfl
@[simp] theorem team_modSplit_flags (t : Team) (k : Nat) (f : Split → Split) : (t.modSplit k f).flags = t.flags := rfl
@[simp] theorem team_modSplit_lstat (t : Team) (k : Nat) (f : Split → Split) : (t.modSplit k f).lstat = t.lstat := rfl
@[simp] theorem team_modSplit_wct (t : Team) (k : Nat) (f : Split → Split) : (t.modSplit k f).wct = t.wct := rfl
@[simp] theorem team_modSplit_acks (t : Team) (k : Nat) (f : Split → Split) : (t.modSplit k f).acks = t.acks := rfl
@[simp] theorem team_modSplit_prefs (t : Team) (k : Nat) (f : Split → Split) : (t.modSplit k f).prefs = t.prefs := rfl
@[simp] theorem team_modSplit_tlc (t : Team) (k : Nat) (f : Split → Split) : (t.modSplit k f).tlc = t.tlc := rfl
@[simp] theorem team_modSplit_tliss (t : Team) (k : Nat) (f : Split → Split) : (t.modSplit k f).tliss = t.tliss := rfl
@[simp] theorem team_modSplit_mode (t : Team) (k : Nat) (f : Split → Split) : (t.modSplit k f).mode = t.mode := rfl
@[simp] theorem team_modSplit_thbase (t : Team) (k : Nat) (f : Split → Split) : (t.modSplit k f).thbase = t.thbase := rfl
@[simp] theorem team_modSplit_teq (t : Team) (k : Nat) (f : Split → Split) : (t.modSplit k f).teq = t.teq := rfl
@[simp] theorem team_modSplit_urec (t : Team) (k : Nat) (f : Split → Split) : (t.modSplit k f).urec = t.urec := rfl
@[simp] theorem team_modSplit_krec (t : Team) (k : Nat) (f : Split → Split) : (t.modSplit k f).krec = t.krec := rfl
@[simp] theorem team_modSplit_uframe (t : Team) (k : Nat) (f : Split → Split) : (t.modSplit k f).uframe = t.uframe := rfl
@[simp] theorem team_modSplit_kframe (t : Team) (k : Nat) (f : Split → Split) : (t.modSplit k f).kframe = t.kframe := rfl
@[simp] theorem team_modSplit_splits (t : Team) (k : Nat) (f : Split → Split) : (t.modSplit k f).splits = t.splits.map fun x => if x.id == k then f x else x := rfl
@[simp] theorem team_modSplit_joins (t : Team) (k : Nat) (f : Split → Split) : (t.modSplit k f).joins = t.joins := rfl
@[simp] theorem team_modSplit_body (t : Team) (k : Nat) (f : Split → Split) : (t.modSplit k f).body = t.body := rfl
@[simp] theorem team_modSplit_exp (t : Team) (k : Nat) (f : Split → Split) : (t.modSplit k f).exp = t.exp := rfl
@[simp] theorem team_modSplit_eng (t : Team) (k : Nat) (f : Split → Split) : (t.modSplit k f).eng = t.eng := rfl
@[simp] theorem team_modSplit_mat (t : Team) (k : Nat) (f : Split → Split) : (t.modSplit k f).mat = t.mat := rfl
@[simp] theorem team_modSplit_flights (t : Team) (k : Nat) (f : Split → Split) : (t.modSplit k f).flights = t.flights := rfl
@[simp] theorem team_modSplit_hazards (t : Team) (k : Nat) (f : Split → Split) : (t.modSplit k f).hazards = t.hazards := rfl
@[simp] theorem team_modSplit_fused (t : Team) (k : Nat) (f : Split → Split) : (t.modSplit k f).fused = t.fused := rfl
@[simp] theorem team_modSplit_rotate (t : Team) (k : Nat) (f : Split → Split) : (t.modSplit k f).rotate = t.rotate := rfl
@[simp] theorem team_modSplit_timer (t : Team) (k : Nat) (f : Split → Split) : (t.modSplit k f).timer = t.timer := rfl
@[simp] theorem team_modSplit_counted (t : Team) (k : Nat) (f : Split → Split) : (t.modSplit k f).counted = t.counted := rfl
@[simp] theorem team_modSplit_preempt (t : Team) (k : Nat) (f : Split → Split) : (t.modSplit k f).preempt = t.preempt := rfl
@[simp] theorem team_modSplit_stop (t : Team) (k : Nat) (f : Split → Split) : (t.modSplit k f).stop = t.stop := rfl
@[simp] theorem team_modSplit_xfer (t : Team) (k : Nat) (f : Split → Split) : (t.modSplit k f).xfer = t.xfer := rfl
@[simp] theorem team_modSplit_forced (t : Team) (k : Nat) (f : Split → Split) : (t.modSplit k f).forced = t.forced := rfl
@[simp] theorem team_modSplit_children (t : Team) (k : Nat) (f : Split → Split) : (t.modSplit k f).children = t.children := rfl
@[simp] theorem team_modSplit_failed (t : Team) (k : Nat) (f : Split → Split) : (t.modSplit k f).failed = t.failed := rfl
@[simp] theorem team_modSplit_preEntry (t : Team) (k : Nat) (f : Split → Split) : (t.modSplit k f).preEntry = t.preEntry := rfl
@[simp] theorem team_modSplit_willRelease (t : Team) (k : Nat) (f : Split → Split) : (t.modSplit k f).willRelease = t.willRelease := rfl
@[simp] theorem team_modSplit_ended (t : Team) (k : Nat) (f : Split → Split) : (t.modSplit k f).ended = t.ended := rfl

@[simp] theorem team_dropSplit_wg (t : Team) (k : Nat) : (t.dropSplit k).wg = t.wg := rfl
@[simp] theorem team_dropSplit_idx (t : Team) (k : Nat) : (t.dropSplit k).idx = t.idx := rfl
@[simp] theorem team_dropSplit_core (t : Team) (k : Nat) : (t.dropSplit k).core = t.core := rfl
@[simp] theorem team_dropSplit_slot (t : Team) (k : Nat) : (t.dropSplit k).slot = t.slot := rfl
@[simp] theorem team_dropSplit_twlog (t : Team) (k : Nat) : (t.dropSplit k).twlog = t.twlog := rfl
@[simp] theorem team_dropSplit_width (t : Team) (k : Nat) : (t.dropSplit k).width = t.width := rfl
@[simp] theorem team_dropSplit_regs (t : Team) (k : Nat) : (t.dropSplit k).regs = t.regs := rfl
@[simp] theorem team_dropSplit_moms (t : Team) (k : Nat) : (t.dropSplit k).moms = t.moms := rfl
@[simp] theorem team_dropSplit_accs (t : Team) (k : Nat) : (t.dropSplit k).accs = t.accs := rfl
@[simp] theorem team_dropSplit_v (t : Team) (k : Nat) : (t.dropSplit k).v = t.v := rfl
@[simp] theorem team_dropSplit_p (t : Team) (k : Nat) : (t.dropSplit k).p = t.p := rfl
@[simp] theorem team_dropSplit_m (t : Team) (k : Nat) : (t.dropSplit k).m = t.m := rfl
@[simp] theorem team_dropSplit_s (t : Team) (k : Nat) : (t.dropSplit k).s = t.s := rfl
@[simp] theorem team_dropSplit_q (t : Team) (k : Nat) : (t.dropSplit k).q = t.q := rfl
@[simp] theorem team_dropSplit_ly (t : Team) (k : Nat) : (t.dropSplit k).ly = t.ly := rfl
@[simp] theorem team_dropSplit_h (t : Team) (k : Nat) : (t.dropSplit k).h = t.h := rfl
@[simp] theorem team_dropSplit_acc (t : Team) (k : Nat) : (t.dropSplit k).acc = t.acc := rfl
@[simp] theorem team_dropSplit_flags (t : Team) (k : Nat) : (t.dropSplit k).flags = t.flags := rfl
@[simp] theorem team_dropSplit_lstat (t : Team) (k : Nat) : (t.dropSplit k).lstat = t.lstat := rfl
@[simp] theorem team_dropSplit_wct (t : Team) (k : Nat) : (t.dropSplit k).wct = t.wct := rfl
@[simp] theorem team_dropSplit_acks (t : Team) (k : Nat) : (t.dropSplit k).acks = t.acks := rfl
@[simp] theorem team_dropSplit_prefs (t : Team) (k : Nat) : (t.dropSplit k).prefs = t.prefs := rfl
@[simp] theorem team_dropSplit_tlc (t : Team) (k : Nat) : (t.dropSplit k).tlc = t.tlc := rfl
@[simp] theorem team_dropSplit_tliss (t : Team) (k : Nat) : (t.dropSplit k).tliss = t.tliss := rfl
@[simp] theorem team_dropSplit_mode (t : Team) (k : Nat) : (t.dropSplit k).mode = t.mode := rfl
@[simp] theorem team_dropSplit_thbase (t : Team) (k : Nat) : (t.dropSplit k).thbase = t.thbase := rfl
@[simp] theorem team_dropSplit_teq (t : Team) (k : Nat) : (t.dropSplit k).teq = t.teq := rfl
@[simp] theorem team_dropSplit_urec (t : Team) (k : Nat) : (t.dropSplit k).urec = t.urec := rfl
@[simp] theorem team_dropSplit_krec (t : Team) (k : Nat) : (t.dropSplit k).krec = t.krec := rfl
@[simp] theorem team_dropSplit_uframe (t : Team) (k : Nat) : (t.dropSplit k).uframe = t.uframe := rfl
@[simp] theorem team_dropSplit_kframe (t : Team) (k : Nat) : (t.dropSplit k).kframe = t.kframe := rfl
@[simp] theorem team_dropSplit_splits (t : Team) (k : Nat) : (t.dropSplit k).splits = t.splits.filter fun x => x.id != k := rfl
@[simp] theorem team_dropSplit_joins (t : Team) (k : Nat) : (t.dropSplit k).joins = t.joins := rfl
@[simp] theorem team_dropSplit_body (t : Team) (k : Nat) : (t.dropSplit k).body = t.body := rfl
@[simp] theorem team_dropSplit_exp (t : Team) (k : Nat) : (t.dropSplit k).exp = t.exp := rfl
@[simp] theorem team_dropSplit_eng (t : Team) (k : Nat) : (t.dropSplit k).eng = t.eng := rfl
@[simp] theorem team_dropSplit_mat (t : Team) (k : Nat) : (t.dropSplit k).mat = t.mat := rfl
@[simp] theorem team_dropSplit_flights (t : Team) (k : Nat) : (t.dropSplit k).flights = t.flights := rfl
@[simp] theorem team_dropSplit_hazards (t : Team) (k : Nat) : (t.dropSplit k).hazards = t.hazards := rfl
@[simp] theorem team_dropSplit_fused (t : Team) (k : Nat) : (t.dropSplit k).fused = t.fused := rfl
@[simp] theorem team_dropSplit_rotate (t : Team) (k : Nat) : (t.dropSplit k).rotate = t.rotate := rfl
@[simp] theorem team_dropSplit_timer (t : Team) (k : Nat) : (t.dropSplit k).timer = t.timer := rfl
@[simp] theorem team_dropSplit_counted (t : Team) (k : Nat) : (t.dropSplit k).counted = t.counted := rfl
@[simp] theorem team_dropSplit_preempt (t : Team) (k : Nat) : (t.dropSplit k).preempt = t.preempt := rfl
@[simp] theorem team_dropSplit_stop (t : Team) (k : Nat) : (t.dropSplit k).stop = t.stop := rfl
@[simp] theorem team_dropSplit_xfer (t : Team) (k : Nat) : (t.dropSplit k).xfer = t.xfer := rfl
@[simp] theorem team_dropSplit_forced (t : Team) (k : Nat) : (t.dropSplit k).forced = t.forced := rfl
@[simp] theorem team_dropSplit_children (t : Team) (k : Nat) : (t.dropSplit k).children = t.children := rfl
@[simp] theorem team_dropSplit_failed (t : Team) (k : Nat) : (t.dropSplit k).failed = t.failed := rfl
@[simp] theorem team_dropSplit_preEntry (t : Team) (k : Nat) : (t.dropSplit k).preEntry = t.preEntry := rfl
@[simp] theorem team_dropSplit_willRelease (t : Team) (k : Nat) : (t.dropSplit k).willRelease = t.willRelease := rfl
@[simp] theorem team_dropSplit_ended (t : Team) (k : Nat) : (t.dropSplit k).ended = t.ended := rfl

@[simp] theorem team_modJoin_wg (t : Team) (k : Nat) (f : Join → Join) : (t.modJoin k f).wg = t.wg := rfl
@[simp] theorem team_modJoin_idx (t : Team) (k : Nat) (f : Join → Join) : (t.modJoin k f).idx = t.idx := rfl
@[simp] theorem team_modJoin_core (t : Team) (k : Nat) (f : Join → Join) : (t.modJoin k f).core = t.core := rfl
@[simp] theorem team_modJoin_slot (t : Team) (k : Nat) (f : Join → Join) : (t.modJoin k f).slot = t.slot := rfl
@[simp] theorem team_modJoin_twlog (t : Team) (k : Nat) (f : Join → Join) : (t.modJoin k f).twlog = t.twlog := rfl
@[simp] theorem team_modJoin_width (t : Team) (k : Nat) (f : Join → Join) : (t.modJoin k f).width = t.width := rfl
@[simp] theorem team_modJoin_regs (t : Team) (k : Nat) (f : Join → Join) : (t.modJoin k f).regs = t.regs := rfl
@[simp] theorem team_modJoin_moms (t : Team) (k : Nat) (f : Join → Join) : (t.modJoin k f).moms = t.moms := rfl
@[simp] theorem team_modJoin_accs (t : Team) (k : Nat) (f : Join → Join) : (t.modJoin k f).accs = t.accs := rfl
@[simp] theorem team_modJoin_v (t : Team) (k : Nat) (f : Join → Join) : (t.modJoin k f).v = t.v := rfl
@[simp] theorem team_modJoin_p (t : Team) (k : Nat) (f : Join → Join) : (t.modJoin k f).p = t.p := rfl
@[simp] theorem team_modJoin_m (t : Team) (k : Nat) (f : Join → Join) : (t.modJoin k f).m = t.m := rfl
@[simp] theorem team_modJoin_s (t : Team) (k : Nat) (f : Join → Join) : (t.modJoin k f).s = t.s := rfl
@[simp] theorem team_modJoin_q (t : Team) (k : Nat) (f : Join → Join) : (t.modJoin k f).q = t.q := rfl
@[simp] theorem team_modJoin_ly (t : Team) (k : Nat) (f : Join → Join) : (t.modJoin k f).ly = t.ly := rfl
@[simp] theorem team_modJoin_h (t : Team) (k : Nat) (f : Join → Join) : (t.modJoin k f).h = t.h := rfl
@[simp] theorem team_modJoin_acc (t : Team) (k : Nat) (f : Join → Join) : (t.modJoin k f).acc = t.acc := rfl
@[simp] theorem team_modJoin_flags (t : Team) (k : Nat) (f : Join → Join) : (t.modJoin k f).flags = t.flags := rfl
@[simp] theorem team_modJoin_lstat (t : Team) (k : Nat) (f : Join → Join) : (t.modJoin k f).lstat = t.lstat := rfl
@[simp] theorem team_modJoin_wct (t : Team) (k : Nat) (f : Join → Join) : (t.modJoin k f).wct = t.wct := rfl
@[simp] theorem team_modJoin_acks (t : Team) (k : Nat) (f : Join → Join) : (t.modJoin k f).acks = t.acks := rfl
@[simp] theorem team_modJoin_prefs (t : Team) (k : Nat) (f : Join → Join) : (t.modJoin k f).prefs = t.prefs := rfl
@[simp] theorem team_modJoin_tlc (t : Team) (k : Nat) (f : Join → Join) : (t.modJoin k f).tlc = t.tlc := rfl
@[simp] theorem team_modJoin_tliss (t : Team) (k : Nat) (f : Join → Join) : (t.modJoin k f).tliss = t.tliss := rfl
@[simp] theorem team_modJoin_mode (t : Team) (k : Nat) (f : Join → Join) : (t.modJoin k f).mode = t.mode := rfl
@[simp] theorem team_modJoin_thbase (t : Team) (k : Nat) (f : Join → Join) : (t.modJoin k f).thbase = t.thbase := rfl
@[simp] theorem team_modJoin_teq (t : Team) (k : Nat) (f : Join → Join) : (t.modJoin k f).teq = t.teq := rfl
@[simp] theorem team_modJoin_urec (t : Team) (k : Nat) (f : Join → Join) : (t.modJoin k f).urec = t.urec := rfl
@[simp] theorem team_modJoin_krec (t : Team) (k : Nat) (f : Join → Join) : (t.modJoin k f).krec = t.krec := rfl
@[simp] theorem team_modJoin_uframe (t : Team) (k : Nat) (f : Join → Join) : (t.modJoin k f).uframe = t.uframe := rfl
@[simp] theorem team_modJoin_kframe (t : Team) (k : Nat) (f : Join → Join) : (t.modJoin k f).kframe = t.kframe := rfl
@[simp] theorem team_modJoin_splits (t : Team) (k : Nat) (f : Join → Join) : (t.modJoin k f).splits = t.splits := rfl
@[simp] theorem team_modJoin_joins (t : Team) (k : Nat) (f : Join → Join) : (t.modJoin k f).joins = t.joins.map fun x => if x.id == k then f x else x := rfl
@[simp] theorem team_modJoin_body (t : Team) (k : Nat) (f : Join → Join) : (t.modJoin k f).body = t.body := rfl
@[simp] theorem team_modJoin_exp (t : Team) (k : Nat) (f : Join → Join) : (t.modJoin k f).exp = t.exp := rfl
@[simp] theorem team_modJoin_eng (t : Team) (k : Nat) (f : Join → Join) : (t.modJoin k f).eng = t.eng := rfl
@[simp] theorem team_modJoin_mat (t : Team) (k : Nat) (f : Join → Join) : (t.modJoin k f).mat = t.mat := rfl
@[simp] theorem team_modJoin_flights (t : Team) (k : Nat) (f : Join → Join) : (t.modJoin k f).flights = t.flights := rfl
@[simp] theorem team_modJoin_hazards (t : Team) (k : Nat) (f : Join → Join) : (t.modJoin k f).hazards = t.hazards := rfl
@[simp] theorem team_modJoin_fused (t : Team) (k : Nat) (f : Join → Join) : (t.modJoin k f).fused = t.fused := rfl
@[simp] theorem team_modJoin_rotate (t : Team) (k : Nat) (f : Join → Join) : (t.modJoin k f).rotate = t.rotate := rfl
@[simp] theorem team_modJoin_timer (t : Team) (k : Nat) (f : Join → Join) : (t.modJoin k f).timer = t.timer := rfl
@[simp] theorem team_modJoin_counted (t : Team) (k : Nat) (f : Join → Join) : (t.modJoin k f).counted = t.counted := rfl
@[simp] theorem team_modJoin_preempt (t : Team) (k : Nat) (f : Join → Join) : (t.modJoin k f).preempt = t.preempt := rfl
@[simp] theorem team_modJoin_stop (t : Team) (k : Nat) (f : Join → Join) : (t.modJoin k f).stop = t.stop := rfl
@[simp] theorem team_modJoin_xfer (t : Team) (k : Nat) (f : Join → Join) : (t.modJoin k f).xfer = t.xfer := rfl
@[simp] theorem team_modJoin_forced (t : Team) (k : Nat) (f : Join → Join) : (t.modJoin k f).forced = t.forced := rfl
@[simp] theorem team_modJoin_children (t : Team) (k : Nat) (f : Join → Join) : (t.modJoin k f).children = t.children := rfl
@[simp] theorem team_modJoin_failed (t : Team) (k : Nat) (f : Join → Join) : (t.modJoin k f).failed = t.failed := rfl
@[simp] theorem team_modJoin_preEntry (t : Team) (k : Nat) (f : Join → Join) : (t.modJoin k f).preEntry = t.preEntry := rfl
@[simp] theorem team_modJoin_willRelease (t : Team) (k : Nat) (f : Join → Join) : (t.modJoin k f).willRelease = t.willRelease := rfl
@[simp] theorem team_modJoin_ended (t : Team) (k : Nat) (f : Join → Join) : (t.modJoin k f).ended = t.ended := rfl

@[simp] theorem team_wrQ_wg (t : Team) (n : Nat) (b : Bool) : (t.wrQ n b).wg = t.wg := rfl
@[simp] theorem team_wrQ_idx (t : Team) (n : Nat) (b : Bool) : (t.wrQ n b).idx = t.idx := rfl
@[simp] theorem team_wrQ_core (t : Team) (n : Nat) (b : Bool) : (t.wrQ n b).core = t.core := rfl
@[simp] theorem team_wrQ_slot (t : Team) (n : Nat) (b : Bool) : (t.wrQ n b).slot = t.slot := rfl
@[simp] theorem team_wrQ_twlog (t : Team) (n : Nat) (b : Bool) : (t.wrQ n b).twlog = t.twlog := rfl
@[simp] theorem team_wrQ_width (t : Team) (n : Nat) (b : Bool) : (t.wrQ n b).width = t.width := rfl
@[simp] theorem team_wrQ_regs (t : Team) (n : Nat) (b : Bool) : (t.wrQ n b).regs = t.regs := rfl
@[simp] theorem team_wrQ_moms (t : Team) (n : Nat) (b : Bool) : (t.wrQ n b).moms = t.moms := rfl
@[simp] theorem team_wrQ_accs (t : Team) (n : Nat) (b : Bool) : (t.wrQ n b).accs = t.accs := rfl
@[simp] theorem team_wrQ_v (t : Team) (n : Nat) (b : Bool) : (t.wrQ n b).v = t.v := rfl
@[simp] theorem team_wrQ_p (t : Team) (n : Nat) (b : Bool) : (t.wrQ n b).p = t.p := rfl
@[simp] theorem team_wrQ_m (t : Team) (n : Nat) (b : Bool) : (t.wrQ n b).m = t.m := rfl
@[simp] theorem team_wrQ_s (t : Team) (n : Nat) (b : Bool) : (t.wrQ n b).s = t.s := rfl
@[simp] theorem team_wrQ_q (t : Team) (n : Nat) (b : Bool) : (t.wrQ n b).q = (t.q &&& ~~~(1#4 <<< n)) ||| (if b then 1#4 <<< n else 0#4) := rfl
@[simp] theorem team_wrQ_ly (t : Team) (n : Nat) (b : Bool) : (t.wrQ n b).ly = t.ly := rfl
@[simp] theorem team_wrQ_h (t : Team) (n : Nat) (b : Bool) : (t.wrQ n b).h = t.h := rfl
@[simp] theorem team_wrQ_acc (t : Team) (n : Nat) (b : Bool) : (t.wrQ n b).acc = t.acc := rfl
@[simp] theorem team_wrQ_flags (t : Team) (n : Nat) (b : Bool) : (t.wrQ n b).flags = t.flags := rfl
@[simp] theorem team_wrQ_lstat (t : Team) (n : Nat) (b : Bool) : (t.wrQ n b).lstat = t.lstat := rfl
@[simp] theorem team_wrQ_wct (t : Team) (n : Nat) (b : Bool) : (t.wrQ n b).wct = t.wct := rfl
@[simp] theorem team_wrQ_acks (t : Team) (n : Nat) (b : Bool) : (t.wrQ n b).acks = t.acks := rfl
@[simp] theorem team_wrQ_prefs (t : Team) (n : Nat) (b : Bool) : (t.wrQ n b).prefs = t.prefs := rfl
@[simp] theorem team_wrQ_tlc (t : Team) (n : Nat) (b : Bool) : (t.wrQ n b).tlc = t.tlc := rfl
@[simp] theorem team_wrQ_tliss (t : Team) (n : Nat) (b : Bool) : (t.wrQ n b).tliss = t.tliss := rfl
@[simp] theorem team_wrQ_mode (t : Team) (n : Nat) (b : Bool) : (t.wrQ n b).mode = t.mode := rfl
@[simp] theorem team_wrQ_thbase (t : Team) (n : Nat) (b : Bool) : (t.wrQ n b).thbase = t.thbase := rfl
@[simp] theorem team_wrQ_teq (t : Team) (n : Nat) (b : Bool) : (t.wrQ n b).teq = t.teq := rfl
@[simp] theorem team_wrQ_urec (t : Team) (n : Nat) (b : Bool) : (t.wrQ n b).urec = t.urec := rfl
@[simp] theorem team_wrQ_krec (t : Team) (n : Nat) (b : Bool) : (t.wrQ n b).krec = t.krec := rfl
@[simp] theorem team_wrQ_uframe (t : Team) (n : Nat) (b : Bool) : (t.wrQ n b).uframe = t.uframe := rfl
@[simp] theorem team_wrQ_kframe (t : Team) (n : Nat) (b : Bool) : (t.wrQ n b).kframe = t.kframe := rfl
@[simp] theorem team_wrQ_splits (t : Team) (n : Nat) (b : Bool) : (t.wrQ n b).splits = t.splits := rfl
@[simp] theorem team_wrQ_joins (t : Team) (n : Nat) (b : Bool) : (t.wrQ n b).joins = t.joins := rfl
@[simp] theorem team_wrQ_body (t : Team) (n : Nat) (b : Bool) : (t.wrQ n b).body = t.body := rfl
@[simp] theorem team_wrQ_exp (t : Team) (n : Nat) (b : Bool) : (t.wrQ n b).exp = t.exp := rfl
@[simp] theorem team_wrQ_eng (t : Team) (n : Nat) (b : Bool) : (t.wrQ n b).eng = t.eng := rfl
@[simp] theorem team_wrQ_mat (t : Team) (n : Nat) (b : Bool) : (t.wrQ n b).mat = t.mat := rfl
@[simp] theorem team_wrQ_flights (t : Team) (n : Nat) (b : Bool) : (t.wrQ n b).flights = t.flights := rfl
@[simp] theorem team_wrQ_hazards (t : Team) (n : Nat) (b : Bool) : (t.wrQ n b).hazards = t.hazards := rfl
@[simp] theorem team_wrQ_fused (t : Team) (n : Nat) (b : Bool) : (t.wrQ n b).fused = t.fused := rfl
@[simp] theorem team_wrQ_rotate (t : Team) (n : Nat) (b : Bool) : (t.wrQ n b).rotate = t.rotate := rfl
@[simp] theorem team_wrQ_timer (t : Team) (n : Nat) (b : Bool) : (t.wrQ n b).timer = t.timer := rfl
@[simp] theorem team_wrQ_counted (t : Team) (n : Nat) (b : Bool) : (t.wrQ n b).counted = t.counted := rfl
@[simp] theorem team_wrQ_preempt (t : Team) (n : Nat) (b : Bool) : (t.wrQ n b).preempt = t.preempt := rfl
@[simp] theorem team_wrQ_stop (t : Team) (n : Nat) (b : Bool) : (t.wrQ n b).stop = t.stop := rfl
@[simp] theorem team_wrQ_xfer (t : Team) (n : Nat) (b : Bool) : (t.wrQ n b).xfer = t.xfer := rfl
@[simp] theorem team_wrQ_forced (t : Team) (n : Nat) (b : Bool) : (t.wrQ n b).forced = t.forced := rfl
@[simp] theorem team_wrQ_children (t : Team) (n : Nat) (b : Bool) : (t.wrQ n b).children = t.children := rfl
@[simp] theorem team_wrQ_failed (t : Team) (n : Nat) (b : Bool) : (t.wrQ n b).failed = t.failed := rfl
@[simp] theorem team_wrQ_preEntry (t : Team) (n : Nat) (b : Bool) : (t.wrQ n b).preEntry = t.preEntry := rfl
@[simp] theorem team_wrQ_willRelease (t : Team) (n : Nat) (b : Bool) : (t.wrQ n b).willRelease = t.willRelease := rfl
@[simp] theorem team_wrQ_ended (t : Team) (n : Nat) (b : Bool) : (t.wrQ n b).ended = t.ended := rfl

@[simp] theorem team_wrM_wg (t : Team) (r l : Nat) (x : Quad) : (t.wrM r l x).wg = t.wg := rfl
@[simp] theorem team_wrM_idx (t : Team) (r l : Nat) (x : Quad) : (t.wrM r l x).idx = t.idx := rfl
@[simp] theorem team_wrM_core (t : Team) (r l : Nat) (x : Quad) : (t.wrM r l x).core = t.core := rfl
@[simp] theorem team_wrM_slot (t : Team) (r l : Nat) (x : Quad) : (t.wrM r l x).slot = t.slot := rfl
@[simp] theorem team_wrM_twlog (t : Team) (r l : Nat) (x : Quad) : (t.wrM r l x).twlog = t.twlog := rfl
@[simp] theorem team_wrM_width (t : Team) (r l : Nat) (x : Quad) : (t.wrM r l x).width = t.width := rfl
@[simp] theorem team_wrM_regs (t : Team) (r l : Nat) (x : Quad) : (t.wrM r l x).regs = t.regs := rfl
@[simp] theorem team_wrM_moms (t : Team) (r l : Nat) (x : Quad) : (t.wrM r l x).moms = t.moms := rfl
@[simp] theorem team_wrM_accs (t : Team) (r l : Nat) (x : Quad) : (t.wrM r l x).accs = t.accs := rfl
@[simp] theorem team_wrM_v (t : Team) (r l : Nat) (x : Quad) : (t.wrM r l x).v = t.v := rfl
@[simp] theorem team_wrM_p (t : Team) (r l : Nat) (x : Quad) : (t.wrM r l x).p = t.p := rfl
@[simp] theorem team_wrM_m (t : Team) (r l : Nat) (x : Quad) : (t.wrM r l x).m = t.m.set (r * 1024 + l) x := rfl
@[simp] theorem team_wrM_s (t : Team) (r l : Nat) (x : Quad) : (t.wrM r l x).s = t.s := rfl
@[simp] theorem team_wrM_q (t : Team) (r l : Nat) (x : Quad) : (t.wrM r l x).q = t.q := rfl
@[simp] theorem team_wrM_ly (t : Team) (r l : Nat) (x : Quad) : (t.wrM r l x).ly = t.ly := rfl
@[simp] theorem team_wrM_h (t : Team) (r l : Nat) (x : Quad) : (t.wrM r l x).h = t.h := rfl
@[simp] theorem team_wrM_acc (t : Team) (r l : Nat) (x : Quad) : (t.wrM r l x).acc = t.acc := rfl
@[simp] theorem team_wrM_flags (t : Team) (r l : Nat) (x : Quad) : (t.wrM r l x).flags = t.flags := rfl
@[simp] theorem team_wrM_lstat (t : Team) (r l : Nat) (x : Quad) : (t.wrM r l x).lstat = t.lstat := rfl
@[simp] theorem team_wrM_wct (t : Team) (r l : Nat) (x : Quad) : (t.wrM r l x).wct = t.wct := rfl
@[simp] theorem team_wrM_acks (t : Team) (r l : Nat) (x : Quad) : (t.wrM r l x).acks = t.acks := rfl
@[simp] theorem team_wrM_prefs (t : Team) (r l : Nat) (x : Quad) : (t.wrM r l x).prefs = t.prefs := rfl
@[simp] theorem team_wrM_tlc (t : Team) (r l : Nat) (x : Quad) : (t.wrM r l x).tlc = t.tlc := rfl
@[simp] theorem team_wrM_tliss (t : Team) (r l : Nat) (x : Quad) : (t.wrM r l x).tliss = t.tliss := rfl
@[simp] theorem team_wrM_mode (t : Team) (r l : Nat) (x : Quad) : (t.wrM r l x).mode = t.mode := rfl
@[simp] theorem team_wrM_thbase (t : Team) (r l : Nat) (x : Quad) : (t.wrM r l x).thbase = t.thbase := rfl
@[simp] theorem team_wrM_teq (t : Team) (r l : Nat) (x : Quad) : (t.wrM r l x).teq = t.teq := rfl
@[simp] theorem team_wrM_urec (t : Team) (r l : Nat) (x : Quad) : (t.wrM r l x).urec = t.urec := rfl
@[simp] theorem team_wrM_krec (t : Team) (r l : Nat) (x : Quad) : (t.wrM r l x).krec = t.krec := rfl
@[simp] theorem team_wrM_uframe (t : Team) (r l : Nat) (x : Quad) : (t.wrM r l x).uframe = t.uframe := rfl
@[simp] theorem team_wrM_kframe (t : Team) (r l : Nat) (x : Quad) : (t.wrM r l x).kframe = t.kframe := rfl
@[simp] theorem team_wrM_splits (t : Team) (r l : Nat) (x : Quad) : (t.wrM r l x).splits = t.splits := rfl
@[simp] theorem team_wrM_joins (t : Team) (r l : Nat) (x : Quad) : (t.wrM r l x).joins = t.joins := rfl
@[simp] theorem team_wrM_body (t : Team) (r l : Nat) (x : Quad) : (t.wrM r l x).body = t.body := rfl
@[simp] theorem team_wrM_exp (t : Team) (r l : Nat) (x : Quad) : (t.wrM r l x).exp = t.exp := rfl
@[simp] theorem team_wrM_eng (t : Team) (r l : Nat) (x : Quad) : (t.wrM r l x).eng = t.eng := rfl
@[simp] theorem team_wrM_mat (t : Team) (r l : Nat) (x : Quad) : (t.wrM r l x).mat = t.mat := rfl
@[simp] theorem team_wrM_flights (t : Team) (r l : Nat) (x : Quad) : (t.wrM r l x).flights = t.flights := rfl
@[simp] theorem team_wrM_hazards (t : Team) (r l : Nat) (x : Quad) : (t.wrM r l x).hazards = t.hazards := rfl
@[simp] theorem team_wrM_fused (t : Team) (r l : Nat) (x : Quad) : (t.wrM r l x).fused = t.fused := rfl
@[simp] theorem team_wrM_rotate (t : Team) (r l : Nat) (x : Quad) : (t.wrM r l x).rotate = t.rotate := rfl
@[simp] theorem team_wrM_timer (t : Team) (r l : Nat) (x : Quad) : (t.wrM r l x).timer = t.timer := rfl
@[simp] theorem team_wrM_counted (t : Team) (r l : Nat) (x : Quad) : (t.wrM r l x).counted = t.counted := rfl
@[simp] theorem team_wrM_preempt (t : Team) (r l : Nat) (x : Quad) : (t.wrM r l x).preempt = t.preempt := rfl
@[simp] theorem team_wrM_stop (t : Team) (r l : Nat) (x : Quad) : (t.wrM r l x).stop = t.stop := rfl
@[simp] theorem team_wrM_xfer (t : Team) (r l : Nat) (x : Quad) : (t.wrM r l x).xfer = t.xfer := rfl
@[simp] theorem team_wrM_forced (t : Team) (r l : Nat) (x : Quad) : (t.wrM r l x).forced = t.forced := rfl
@[simp] theorem team_wrM_children (t : Team) (r l : Nat) (x : Quad) : (t.wrM r l x).children = t.children := rfl
@[simp] theorem team_wrM_failed (t : Team) (r l : Nat) (x : Quad) : (t.wrM r l x).failed = t.failed := rfl
@[simp] theorem team_wrM_preEntry (t : Team) (r l : Nat) (x : Quad) : (t.wrM r l x).preEntry = t.preEntry := rfl
@[simp] theorem team_wrM_willRelease (t : Team) (r l : Nat) (x : Quad) : (t.wrM r l x).willRelease = t.willRelease := rfl
@[simp] theorem team_wrM_ended (t : Team) (r l : Nat) (x : Quad) : (t.wrM r l x).ended = t.ended := rfl

@[simp] theorem team_orFlags_wg (t : Team) (n : Nat) : (t.orFlags n).wg = t.wg := rfl
@[simp] theorem team_orFlags_idx (t : Team) (n : Nat) : (t.orFlags n).idx = t.idx := rfl
@[simp] theorem team_orFlags_core (t : Team) (n : Nat) : (t.orFlags n).core = t.core := rfl
@[simp] theorem team_orFlags_slot (t : Team) (n : Nat) : (t.orFlags n).slot = t.slot := rfl
@[simp] theorem team_orFlags_twlog (t : Team) (n : Nat) : (t.orFlags n).twlog = t.twlog := rfl
@[simp] theorem team_orFlags_width (t : Team) (n : Nat) : (t.orFlags n).width = t.width := rfl
@[simp] theorem team_orFlags_regs (t : Team) (n : Nat) : (t.orFlags n).regs = t.regs := rfl
@[simp] theorem team_orFlags_moms (t : Team) (n : Nat) : (t.orFlags n).moms = t.moms := rfl
@[simp] theorem team_orFlags_accs (t : Team) (n : Nat) : (t.orFlags n).accs = t.accs := rfl
@[simp] theorem team_orFlags_v (t : Team) (n : Nat) : (t.orFlags n).v = t.v := rfl
@[simp] theorem team_orFlags_p (t : Team) (n : Nat) : (t.orFlags n).p = t.p := rfl
@[simp] theorem team_orFlags_m (t : Team) (n : Nat) : (t.orFlags n).m = t.m := rfl
@[simp] theorem team_orFlags_s (t : Team) (n : Nat) : (t.orFlags n).s = t.s := rfl
@[simp] theorem team_orFlags_q (t : Team) (n : Nat) : (t.orFlags n).q = t.q := rfl
@[simp] theorem team_orFlags_ly (t : Team) (n : Nat) : (t.orFlags n).ly = t.ly := rfl
@[simp] theorem team_orFlags_h (t : Team) (n : Nat) : (t.orFlags n).h = t.h := rfl
@[simp] theorem team_orFlags_acc (t : Team) (n : Nat) : (t.orFlags n).acc = t.acc := rfl
@[simp] theorem team_orFlags_flags (t : Team) (n : Nat) : (t.orFlags n).flags = t.flags ||| BitVec.ofNat 64 n := rfl
@[simp] theorem team_orFlags_lstat (t : Team) (n : Nat) : (t.orFlags n).lstat = t.lstat := rfl
@[simp] theorem team_orFlags_wct (t : Team) (n : Nat) : (t.orFlags n).wct = t.wct := rfl
@[simp] theorem team_orFlags_acks (t : Team) (n : Nat) : (t.orFlags n).acks = t.acks := rfl
@[simp] theorem team_orFlags_prefs (t : Team) (n : Nat) : (t.orFlags n).prefs = t.prefs := rfl
@[simp] theorem team_orFlags_tlc (t : Team) (n : Nat) : (t.orFlags n).tlc = t.tlc := rfl
@[simp] theorem team_orFlags_tliss (t : Team) (n : Nat) : (t.orFlags n).tliss = t.tliss := rfl
@[simp] theorem team_orFlags_mode (t : Team) (n : Nat) : (t.orFlags n).mode = t.mode := rfl
@[simp] theorem team_orFlags_thbase (t : Team) (n : Nat) : (t.orFlags n).thbase = t.thbase := rfl
@[simp] theorem team_orFlags_teq (t : Team) (n : Nat) : (t.orFlags n).teq = t.teq := rfl
@[simp] theorem team_orFlags_urec (t : Team) (n : Nat) : (t.orFlags n).urec = t.urec := rfl
@[simp] theorem team_orFlags_krec (t : Team) (n : Nat) : (t.orFlags n).krec = t.krec := rfl
@[simp] theorem team_orFlags_uframe (t : Team) (n : Nat) : (t.orFlags n).uframe = t.uframe := rfl
@[simp] theorem team_orFlags_kframe (t : Team) (n : Nat) : (t.orFlags n).kframe = t.kframe := rfl
@[simp] theorem team_orFlags_splits (t : Team) (n : Nat) : (t.orFlags n).splits = t.splits := rfl
@[simp] theorem team_orFlags_joins (t : Team) (n : Nat) : (t.orFlags n).joins = t.joins := rfl
@[simp] theorem team_orFlags_body (t : Team) (n : Nat) : (t.orFlags n).body = t.body := rfl
@[simp] theorem team_orFlags_exp (t : Team) (n : Nat) : (t.orFlags n).exp = t.exp := rfl
@[simp] theorem team_orFlags_eng (t : Team) (n : Nat) : (t.orFlags n).eng = t.eng := rfl
@[simp] theorem team_orFlags_mat (t : Team) (n : Nat) : (t.orFlags n).mat = t.mat := rfl
@[simp] theorem team_orFlags_flights (t : Team) (n : Nat) : (t.orFlags n).flights = t.flights := rfl
@[simp] theorem team_orFlags_hazards (t : Team) (n : Nat) : (t.orFlags n).hazards = t.hazards := rfl
@[simp] theorem team_orFlags_fused (t : Team) (n : Nat) : (t.orFlags n).fused = t.fused := rfl
@[simp] theorem team_orFlags_rotate (t : Team) (n : Nat) : (t.orFlags n).rotate = t.rotate := rfl
@[simp] theorem team_orFlags_timer (t : Team) (n : Nat) : (t.orFlags n).timer = t.timer := rfl
@[simp] theorem team_orFlags_counted (t : Team) (n : Nat) : (t.orFlags n).counted = t.counted := rfl
@[simp] theorem team_orFlags_preempt (t : Team) (n : Nat) : (t.orFlags n).preempt = t.preempt := rfl
@[simp] theorem team_orFlags_stop (t : Team) (n : Nat) : (t.orFlags n).stop = t.stop := rfl
@[simp] theorem team_orFlags_xfer (t : Team) (n : Nat) : (t.orFlags n).xfer = t.xfer := rfl
@[simp] theorem team_orFlags_forced (t : Team) (n : Nat) : (t.orFlags n).forced = t.forced := rfl
@[simp] theorem team_orFlags_children (t : Team) (n : Nat) : (t.orFlags n).children = t.children := rfl
@[simp] theorem team_orFlags_failed (t : Team) (n : Nat) : (t.orFlags n).failed = t.failed := rfl
@[simp] theorem team_orFlags_preEntry (t : Team) (n : Nat) : (t.orFlags n).preEntry = t.preEntry := rfl
@[simp] theorem team_orFlags_willRelease (t : Team) (n : Nat) : (t.orFlags n).willRelease = t.willRelease := rfl
@[simp] theorem team_orFlags_ended (t : Team) (n : Nat) : (t.orFlags n).ended = t.ended := rfl

@[simp] theorem team_setK_wg (t : Team) (r : TrapRec) : (t.setK r).wg = t.wg := rfl
@[simp] theorem team_setK_idx (t : Team) (r : TrapRec) : (t.setK r).idx = t.idx := rfl
@[simp] theorem team_setK_core (t : Team) (r : TrapRec) : (t.setK r).core = t.core := rfl
@[simp] theorem team_setK_slot (t : Team) (r : TrapRec) : (t.setK r).slot = t.slot := rfl
@[simp] theorem team_setK_twlog (t : Team) (r : TrapRec) : (t.setK r).twlog = t.twlog := rfl
@[simp] theorem team_setK_width (t : Team) (r : TrapRec) : (t.setK r).width = t.width := rfl
@[simp] theorem team_setK_regs (t : Team) (r : TrapRec) : (t.setK r).regs = t.regs := rfl
@[simp] theorem team_setK_moms (t : Team) (r : TrapRec) : (t.setK r).moms = t.moms := rfl
@[simp] theorem team_setK_accs (t : Team) (r : TrapRec) : (t.setK r).accs = t.accs := rfl
@[simp] theorem team_setK_v (t : Team) (r : TrapRec) : (t.setK r).v = t.v := rfl
@[simp] theorem team_setK_p (t : Team) (r : TrapRec) : (t.setK r).p = t.p := rfl
@[simp] theorem team_setK_m (t : Team) (r : TrapRec) : (t.setK r).m = t.m := rfl
@[simp] theorem team_setK_s (t : Team) (r : TrapRec) : (t.setK r).s = t.s := rfl
@[simp] theorem team_setK_q (t : Team) (r : TrapRec) : (t.setK r).q = t.q := rfl
@[simp] theorem team_setK_ly (t : Team) (r : TrapRec) : (t.setK r).ly = t.ly := rfl
@[simp] theorem team_setK_h (t : Team) (r : TrapRec) : (t.setK r).h = t.h := rfl
@[simp] theorem team_setK_acc (t : Team) (r : TrapRec) : (t.setK r).acc = t.acc := rfl
@[simp] theorem team_setK_flags (t : Team) (r : TrapRec) : (t.setK r).flags = t.flags := rfl
@[simp] theorem team_setK_lstat (t : Team) (r : TrapRec) : (t.setK r).lstat = t.lstat := rfl
@[simp] theorem team_setK_wct (t : Team) (r : TrapRec) : (t.setK r).wct = t.wct := rfl
@[simp] theorem team_setK_acks (t : Team) (r : TrapRec) : (t.setK r).acks = t.acks := rfl
@[simp] theorem team_setK_prefs (t : Team) (r : TrapRec) : (t.setK r).prefs = t.prefs := rfl
@[simp] theorem team_setK_tlc (t : Team) (r : TrapRec) : (t.setK r).tlc = t.tlc := rfl
@[simp] theorem team_setK_tliss (t : Team) (r : TrapRec) : (t.setK r).tliss = t.tliss := rfl
@[simp] theorem team_setK_mode (t : Team) (r : TrapRec) : (t.setK r).mode = t.mode := rfl
@[simp] theorem team_setK_thbase (t : Team) (r : TrapRec) : (t.setK r).thbase = t.thbase := rfl
@[simp] theorem team_setK_teq (t : Team) (r : TrapRec) : (t.setK r).teq = t.teq := rfl
@[simp] theorem team_setK_urec (t : Team) (r : TrapRec) : (t.setK r).urec = t.urec := rfl
@[simp] theorem team_setK_krec (t : Team) (r : TrapRec) : (t.setK r).krec = r := rfl
@[simp] theorem team_setK_uframe (t : Team) (r : TrapRec) : (t.setK r).uframe = t.uframe := rfl
@[simp] theorem team_setK_kframe (t : Team) (r : TrapRec) : (t.setK r).kframe = t.kframe := rfl
@[simp] theorem team_setK_splits (t : Team) (r : TrapRec) : (t.setK r).splits = t.splits := rfl
@[simp] theorem team_setK_joins (t : Team) (r : TrapRec) : (t.setK r).joins = t.joins := rfl
@[simp] theorem team_setK_body (t : Team) (r : TrapRec) : (t.setK r).body = t.body := rfl
@[simp] theorem team_setK_exp (t : Team) (r : TrapRec) : (t.setK r).exp = t.exp := rfl
@[simp] theorem team_setK_eng (t : Team) (r : TrapRec) : (t.setK r).eng = t.eng := rfl
@[simp] theorem team_setK_mat (t : Team) (r : TrapRec) : (t.setK r).mat = t.mat := rfl
@[simp] theorem team_setK_flights (t : Team) (r : TrapRec) : (t.setK r).flights = t.flights := rfl
@[simp] theorem team_setK_hazards (t : Team) (r : TrapRec) : (t.setK r).hazards = t.hazards := rfl
@[simp] theorem team_setK_fused (t : Team) (r : TrapRec) : (t.setK r).fused = t.fused := rfl
@[simp] theorem team_setK_rotate (t : Team) (r : TrapRec) : (t.setK r).rotate = t.rotate := rfl
@[simp] theorem team_setK_timer (t : Team) (r : TrapRec) : (t.setK r).timer = t.timer := rfl
@[simp] theorem team_setK_counted (t : Team) (r : TrapRec) : (t.setK r).counted = t.counted := rfl
@[simp] theorem team_setK_preempt (t : Team) (r : TrapRec) : (t.setK r).preempt = t.preempt := rfl
@[simp] theorem team_setK_stop (t : Team) (r : TrapRec) : (t.setK r).stop = t.stop := rfl
@[simp] theorem team_setK_xfer (t : Team) (r : TrapRec) : (t.setK r).xfer = t.xfer := rfl
@[simp] theorem team_setK_forced (t : Team) (r : TrapRec) : (t.setK r).forced = t.forced := rfl
@[simp] theorem team_setK_children (t : Team) (r : TrapRec) : (t.setK r).children = t.children := rfl
@[simp] theorem team_setK_failed (t : Team) (r : TrapRec) : (t.setK r).failed = t.failed := rfl
@[simp] theorem team_setK_preEntry (t : Team) (r : TrapRec) : (t.setK r).preEntry = t.preEntry := rfl
@[simp] theorem team_setK_willRelease (t : Team) (r : TrapRec) : (t.setK r).willRelease = t.willRelease := rfl
@[simp] theorem team_setK_ended (t : Team) (r : TrapRec) : (t.setK r).ended = t.ended := rfl

/-! Registers whose home may be a Lodge frame (R268), and the predicates (R353). -/

@[simp] theorem team_setFrame_wg (t : Team) (n : Nat) (x : Frame) : (t.setFrame n x).wg = t.wg := by
  unfold Team.setFrame; split <;> rfl
@[simp] theorem team_setFrame_idx (t : Team) (n : Nat) (x : Frame) : (t.setFrame n x).idx = t.idx := by
  unfold Team.setFrame; split <;> rfl
@[simp] theorem team_setFrame_core (t : Team) (n : Nat) (x : Frame) : (t.setFrame n x).core = t.core := by
  unfold Team.setFrame; split <;> rfl
@[simp] theorem team_setFrame_slot (t : Team) (n : Nat) (x : Frame) : (t.setFrame n x).slot = t.slot := by
  unfold Team.setFrame; split <;> rfl
@[simp] theorem team_setFrame_twlog (t : Team) (n : Nat) (x : Frame) : (t.setFrame n x).twlog = t.twlog := by
  unfold Team.setFrame; split <;> rfl
@[simp] theorem team_setFrame_width (t : Team) (n : Nat) (x : Frame) : (t.setFrame n x).width = t.width := by
  unfold Team.setFrame; split <;> rfl
@[simp] theorem team_setFrame_regs (t : Team) (n : Nat) (x : Frame) : (t.setFrame n x).regs = t.regs := by
  unfold Team.setFrame; split <;> rfl
@[simp] theorem team_setFrame_moms (t : Team) (n : Nat) (x : Frame) : (t.setFrame n x).moms = t.moms := by
  unfold Team.setFrame; split <;> rfl
@[simp] theorem team_setFrame_accs (t : Team) (n : Nat) (x : Frame) : (t.setFrame n x).accs = t.accs := by
  unfold Team.setFrame; split <;> rfl
@[simp] theorem team_setFrame_v (t : Team) (n : Nat) (x : Frame) : (t.setFrame n x).v = t.v := by
  unfold Team.setFrame; split <;> rfl
@[simp] theorem team_setFrame_p (t : Team) (n : Nat) (x : Frame) : (t.setFrame n x).p = t.p := by
  unfold Team.setFrame; split <;> rfl
@[simp] theorem team_setFrame_m (t : Team) (n : Nat) (x : Frame) : (t.setFrame n x).m = t.m := by
  unfold Team.setFrame; split <;> rfl
@[simp] theorem team_setFrame_s (t : Team) (n : Nat) (x : Frame) : (t.setFrame n x).s = t.s := by
  unfold Team.setFrame; split <;> rfl
@[simp] theorem team_setFrame_q (t : Team) (n : Nat) (x : Frame) : (t.setFrame n x).q = t.q := by
  unfold Team.setFrame; split <;> rfl
@[simp] theorem team_setFrame_ly (t : Team) (n : Nat) (x : Frame) : (t.setFrame n x).ly = t.ly := by
  unfold Team.setFrame; split <;> rfl
@[simp] theorem team_setFrame_h (t : Team) (n : Nat) (x : Frame) : (t.setFrame n x).h = t.h := by
  unfold Team.setFrame; split <;> rfl
@[simp] theorem team_setFrame_acc (t : Team) (n : Nat) (x : Frame) : (t.setFrame n x).acc = t.acc := by
  unfold Team.setFrame; split <;> rfl
@[simp] theorem team_setFrame_flags (t : Team) (n : Nat) (x : Frame) : (t.setFrame n x).flags = t.flags := by
  unfold Team.setFrame; split <;> rfl
@[simp] theorem team_setFrame_lstat (t : Team) (n : Nat) (x : Frame) : (t.setFrame n x).lstat = t.lstat := by
  unfold Team.setFrame; split <;> rfl
@[simp] theorem team_setFrame_wct (t : Team) (n : Nat) (x : Frame) : (t.setFrame n x).wct = t.wct := by
  unfold Team.setFrame; split <;> rfl
@[simp] theorem team_setFrame_acks (t : Team) (n : Nat) (x : Frame) : (t.setFrame n x).acks = t.acks := by
  unfold Team.setFrame; split <;> rfl
@[simp] theorem team_setFrame_prefs (t : Team) (n : Nat) (x : Frame) : (t.setFrame n x).prefs = t.prefs := by
  unfold Team.setFrame; split <;> rfl
@[simp] theorem team_setFrame_tlc (t : Team) (n : Nat) (x : Frame) : (t.setFrame n x).tlc = t.tlc := by
  unfold Team.setFrame; split <;> rfl
@[simp] theorem team_setFrame_tliss (t : Team) (n : Nat) (x : Frame) : (t.setFrame n x).tliss = t.tliss := by
  unfold Team.setFrame; split <;> rfl
@[simp] theorem team_setFrame_mode (t : Team) (n : Nat) (x : Frame) : (t.setFrame n x).mode = t.mode := by
  unfold Team.setFrame; split <;> rfl
@[simp] theorem team_setFrame_thbase (t : Team) (n : Nat) (x : Frame) : (t.setFrame n x).thbase = t.thbase := by
  unfold Team.setFrame; split <;> rfl
@[simp] theorem team_setFrame_teq (t : Team) (n : Nat) (x : Frame) : (t.setFrame n x).teq = t.teq := by
  unfold Team.setFrame; split <;> rfl
@[simp] theorem team_setFrame_urec (t : Team) (n : Nat) (x : Frame) : (t.setFrame n x).urec = t.urec := by
  unfold Team.setFrame; split <;> rfl
@[simp] theorem team_setFrame_krec (t : Team) (n : Nat) (x : Frame) : (t.setFrame n x).krec = t.krec := by
  unfold Team.setFrame; split <;> rfl
@[simp] theorem team_setFrame_splits (t : Team) (n : Nat) (x : Frame) : (t.setFrame n x).splits = t.splits := by
  unfold Team.setFrame; split <;> rfl
@[simp] theorem team_setFrame_joins (t : Team) (n : Nat) (x : Frame) : (t.setFrame n x).joins = t.joins := by
  unfold Team.setFrame; split <;> rfl
@[simp] theorem team_setFrame_body (t : Team) (n : Nat) (x : Frame) : (t.setFrame n x).body = t.body := by
  unfold Team.setFrame; split <;> rfl
@[simp] theorem team_setFrame_exp (t : Team) (n : Nat) (x : Frame) : (t.setFrame n x).exp = t.exp := by
  unfold Team.setFrame; split <;> rfl
@[simp] theorem team_setFrame_eng (t : Team) (n : Nat) (x : Frame) : (t.setFrame n x).eng = t.eng := by
  unfold Team.setFrame; split <;> rfl
@[simp] theorem team_setFrame_mat (t : Team) (n : Nat) (x : Frame) : (t.setFrame n x).mat = t.mat := by
  unfold Team.setFrame; split <;> rfl
@[simp] theorem team_setFrame_flights (t : Team) (n : Nat) (x : Frame) : (t.setFrame n x).flights = t.flights := by
  unfold Team.setFrame; split <;> rfl
@[simp] theorem team_setFrame_hazards (t : Team) (n : Nat) (x : Frame) : (t.setFrame n x).hazards = t.hazards := by
  unfold Team.setFrame; split <;> rfl
@[simp] theorem team_setFrame_fused (t : Team) (n : Nat) (x : Frame) : (t.setFrame n x).fused = t.fused := by
  unfold Team.setFrame; split <;> rfl
@[simp] theorem team_setFrame_rotate (t : Team) (n : Nat) (x : Frame) : (t.setFrame n x).rotate = t.rotate := by
  unfold Team.setFrame; split <;> rfl
@[simp] theorem team_setFrame_timer (t : Team) (n : Nat) (x : Frame) : (t.setFrame n x).timer = t.timer := by
  unfold Team.setFrame; split <;> rfl
@[simp] theorem team_setFrame_counted (t : Team) (n : Nat) (x : Frame) : (t.setFrame n x).counted = t.counted := by
  unfold Team.setFrame; split <;> rfl
@[simp] theorem team_setFrame_preempt (t : Team) (n : Nat) (x : Frame) : (t.setFrame n x).preempt = t.preempt := by
  unfold Team.setFrame; split <;> rfl
@[simp] theorem team_setFrame_stop (t : Team) (n : Nat) (x : Frame) : (t.setFrame n x).stop = t.stop := by
  unfold Team.setFrame; split <;> rfl
@[simp] theorem team_setFrame_xfer (t : Team) (n : Nat) (x : Frame) : (t.setFrame n x).xfer = t.xfer := by
  unfold Team.setFrame; split <;> rfl
@[simp] theorem team_setFrame_forced (t : Team) (n : Nat) (x : Frame) : (t.setFrame n x).forced = t.forced := by
  unfold Team.setFrame; split <;> rfl
@[simp] theorem team_setFrame_children (t : Team) (n : Nat) (x : Frame) : (t.setFrame n x).children = t.children := by
  unfold Team.setFrame; split <;> rfl
@[simp] theorem team_setFrame_failed (t : Team) (n : Nat) (x : Frame) : (t.setFrame n x).failed = t.failed := by
  unfold Team.setFrame; split <;> rfl
@[simp] theorem team_setFrame_preEntry (t : Team) (n : Nat) (x : Frame) : (t.setFrame n x).preEntry = t.preEntry := by
  unfold Team.setFrame; split <;> rfl
@[simp] theorem team_setFrame_willRelease (t : Team) (n : Nat) (x : Frame) : (t.setFrame n x).willRelease = t.willRelease := by
  unfold Team.setFrame; split <;> rfl
@[simp] theorem team_setFrame_ended (t : Team) (n : Nat) (x : Frame) : (t.setFrame n x).ended = t.ended := by
  unfold Team.setFrame; split <;> rfl
@[simp] theorem team_wrV_wg (t : Team) (n r l : Nat) (x : Word) : (t.wrV n r l x).wg = t.wg := by
  unfold Team.wrV; split <;> simp
@[simp] theorem team_wrV_idx (t : Team) (n r l : Nat) (x : Word) : (t.wrV n r l x).idx = t.idx := by
  unfold Team.wrV; split <;> simp
@[simp] theorem team_wrV_core (t : Team) (n r l : Nat) (x : Word) : (t.wrV n r l x).core = t.core := by
  unfold Team.wrV; split <;> simp
@[simp] theorem team_wrV_slot (t : Team) (n r l : Nat) (x : Word) : (t.wrV n r l x).slot = t.slot := by
  unfold Team.wrV; split <;> simp
@[simp] theorem team_wrV_twlog (t : Team) (n r l : Nat) (x : Word) : (t.wrV n r l x).twlog = t.twlog := by
  unfold Team.wrV; split <;> simp
@[simp] theorem team_wrV_width (t : Team) (n r l : Nat) (x : Word) : (t.wrV n r l x).width = t.width := by
  unfold Team.wrV; split <;> simp
@[simp] theorem team_wrV_regs (t : Team) (n r l : Nat) (x : Word) : (t.wrV n r l x).regs = t.regs := by
  unfold Team.wrV; split <;> simp
@[simp] theorem team_wrV_moms (t : Team) (n r l : Nat) (x : Word) : (t.wrV n r l x).moms = t.moms := by
  unfold Team.wrV; split <;> simp
@[simp] theorem team_wrV_accs (t : Team) (n r l : Nat) (x : Word) : (t.wrV n r l x).accs = t.accs := by
  unfold Team.wrV; split <;> simp
@[simp] theorem team_wrV_p (t : Team) (n r l : Nat) (x : Word) : (t.wrV n r l x).p = t.p := by
  unfold Team.wrV; split <;> simp
@[simp] theorem team_wrV_m (t : Team) (n r l : Nat) (x : Word) : (t.wrV n r l x).m = t.m := by
  unfold Team.wrV; split <;> simp
@[simp] theorem team_wrV_s (t : Team) (n r l : Nat) (x : Word) : (t.wrV n r l x).s = t.s := by
  unfold Team.wrV; split <;> simp
@[simp] theorem team_wrV_q (t : Team) (n r l : Nat) (x : Word) : (t.wrV n r l x).q = t.q := by
  unfold Team.wrV; split <;> simp
@[simp] theorem team_wrV_ly (t : Team) (n r l : Nat) (x : Word) : (t.wrV n r l x).ly = t.ly := by
  unfold Team.wrV; split <;> simp
@[simp] theorem team_wrV_h (t : Team) (n r l : Nat) (x : Word) : (t.wrV n r l x).h = t.h := by
  unfold Team.wrV; split <;> simp
@[simp] theorem team_wrV_acc (t : Team) (n r l : Nat) (x : Word) : (t.wrV n r l x).acc = t.acc := by
  unfold Team.wrV; split <;> simp
@[simp] theorem team_wrV_flags (t : Team) (n r l : Nat) (x : Word) : (t.wrV n r l x).flags = t.flags := by
  unfold Team.wrV; split <;> simp
@[simp] theorem team_wrV_lstat (t : Team) (n r l : Nat) (x : Word) : (t.wrV n r l x).lstat = t.lstat := by
  unfold Team.wrV; split <;> simp
@[simp] theorem team_wrV_wct (t : Team) (n r l : Nat) (x : Word) : (t.wrV n r l x).wct = t.wct := by
  unfold Team.wrV; split <;> simp
@[simp] theorem team_wrV_acks (t : Team) (n r l : Nat) (x : Word) : (t.wrV n r l x).acks = t.acks := by
  unfold Team.wrV; split <;> simp
@[simp] theorem team_wrV_prefs (t : Team) (n r l : Nat) (x : Word) : (t.wrV n r l x).prefs = t.prefs := by
  unfold Team.wrV; split <;> simp
@[simp] theorem team_wrV_tlc (t : Team) (n r l : Nat) (x : Word) : (t.wrV n r l x).tlc = t.tlc := by
  unfold Team.wrV; split <;> simp
@[simp] theorem team_wrV_tliss (t : Team) (n r l : Nat) (x : Word) : (t.wrV n r l x).tliss = t.tliss := by
  unfold Team.wrV; split <;> simp
@[simp] theorem team_wrV_mode (t : Team) (n r l : Nat) (x : Word) : (t.wrV n r l x).mode = t.mode := by
  unfold Team.wrV; split <;> simp
@[simp] theorem team_wrV_thbase (t : Team) (n r l : Nat) (x : Word) : (t.wrV n r l x).thbase = t.thbase := by
  unfold Team.wrV; split <;> simp
@[simp] theorem team_wrV_teq (t : Team) (n r l : Nat) (x : Word) : (t.wrV n r l x).teq = t.teq := by
  unfold Team.wrV; split <;> simp
@[simp] theorem team_wrV_urec (t : Team) (n r l : Nat) (x : Word) : (t.wrV n r l x).urec = t.urec := by
  unfold Team.wrV; split <;> simp
@[simp] theorem team_wrV_krec (t : Team) (n r l : Nat) (x : Word) : (t.wrV n r l x).krec = t.krec := by
  unfold Team.wrV; split <;> simp
@[simp] theorem team_wrV_splits (t : Team) (n r l : Nat) (x : Word) : (t.wrV n r l x).splits = t.splits := by
  unfold Team.wrV; split <;> simp
@[simp] theorem team_wrV_joins (t : Team) (n r l : Nat) (x : Word) : (t.wrV n r l x).joins = t.joins := by
  unfold Team.wrV; split <;> simp
@[simp] theorem team_wrV_body (t : Team) (n r l : Nat) (x : Word) : (t.wrV n r l x).body = t.body := by
  unfold Team.wrV; split <;> simp
@[simp] theorem team_wrV_exp (t : Team) (n r l : Nat) (x : Word) : (t.wrV n r l x).exp = t.exp := by
  unfold Team.wrV; split <;> simp
@[simp] theorem team_wrV_eng (t : Team) (n r l : Nat) (x : Word) : (t.wrV n r l x).eng = t.eng := by
  unfold Team.wrV; split <;> simp
@[simp] theorem team_wrV_mat (t : Team) (n r l : Nat) (x : Word) : (t.wrV n r l x).mat = t.mat := by
  unfold Team.wrV; split <;> simp
@[simp] theorem team_wrV_flights (t : Team) (n r l : Nat) (x : Word) : (t.wrV n r l x).flights = t.flights := by
  unfold Team.wrV; split <;> simp
@[simp] theorem team_wrV_hazards (t : Team) (n r l : Nat) (x : Word) : (t.wrV n r l x).hazards = t.hazards := by
  unfold Team.wrV; split <;> simp
@[simp] theorem team_wrV_fused (t : Team) (n r l : Nat) (x : Word) : (t.wrV n r l x).fused = t.fused := by
  unfold Team.wrV; split <;> simp
@[simp] theorem team_wrV_rotate (t : Team) (n r l : Nat) (x : Word) : (t.wrV n r l x).rotate = t.rotate := by
  unfold Team.wrV; split <;> simp
@[simp] theorem team_wrV_timer (t : Team) (n r l : Nat) (x : Word) : (t.wrV n r l x).timer = t.timer := by
  unfold Team.wrV; split <;> simp
@[simp] theorem team_wrV_counted (t : Team) (n r l : Nat) (x : Word) : (t.wrV n r l x).counted = t.counted := by
  unfold Team.wrV; split <;> simp
@[simp] theorem team_wrV_preempt (t : Team) (n r l : Nat) (x : Word) : (t.wrV n r l x).preempt = t.preempt := by
  unfold Team.wrV; split <;> simp
@[simp] theorem team_wrV_stop (t : Team) (n r l : Nat) (x : Word) : (t.wrV n r l x).stop = t.stop := by
  unfold Team.wrV; split <;> simp
@[simp] theorem team_wrV_xfer (t : Team) (n r l : Nat) (x : Word) : (t.wrV n r l x).xfer = t.xfer := by
  unfold Team.wrV; split <;> simp
@[simp] theorem team_wrV_forced (t : Team) (n r l : Nat) (x : Word) : (t.wrV n r l x).forced = t.forced := by
  unfold Team.wrV; split <;> simp
@[simp] theorem team_wrV_children (t : Team) (n r l : Nat) (x : Word) : (t.wrV n r l x).children = t.children := by
  unfold Team.wrV; split <;> simp
@[simp] theorem team_wrV_failed (t : Team) (n r l : Nat) (x : Word) : (t.wrV n r l x).failed = t.failed := by
  unfold Team.wrV; split <;> simp
@[simp] theorem team_wrV_preEntry (t : Team) (n r l : Nat) (x : Word) : (t.wrV n r l x).preEntry = t.preEntry := by
  unfold Team.wrV; split <;> simp
@[simp] theorem team_wrV_willRelease (t : Team) (n r l : Nat) (x : Word) : (t.wrV n r l x).willRelease = t.willRelease := by
  unfold Team.wrV; split <;> simp
@[simp] theorem team_wrV_ended (t : Team) (n r l : Nat) (x : Word) : (t.wrV n r l x).ended = t.ended := by
  unfold Team.wrV; split <;> simp
@[simp] theorem team_wrS_wg (t : Team) (n r : Nat) (x : Quad) : (t.wrS n r x).wg = t.wg := by
  unfold Team.wrS; split <;> simp
@[simp] theorem team_wrS_idx (t : Team) (n r : Nat) (x : Quad) : (t.wrS n r x).idx = t.idx := by
  unfold Team.wrS; split <;> simp
@[simp] theorem team_wrS_core (t : Team) (n r : Nat) (x : Quad) : (t.wrS n r x).core = t.core := by
  unfold Team.wrS; split <;> simp
@[simp] theorem team_wrS_slot (t : Team) (n r : Nat) (x : Quad) : (t.wrS n r x).slot = t.slot := by
  unfold Team.wrS; split <;> simp
@[simp] theorem team_wrS_twlog (t : Team) (n r : Nat) (x : Quad) : (t.wrS n r x).twlog = t.twlog := by
  unfold Team.wrS; split <;> simp
@[simp] theorem team_wrS_width (t : Team) (n r : Nat) (x : Quad) : (t.wrS n r x).width = t.width := by
  unfold Team.wrS; split <;> simp
@[simp] theorem team_wrS_regs (t : Team) (n r : Nat) (x : Quad) : (t.wrS n r x).regs = t.regs := by
  unfold Team.wrS; split <;> simp
@[simp] theorem team_wrS_moms (t : Team) (n r : Nat) (x : Quad) : (t.wrS n r x).moms = t.moms := by
  unfold Team.wrS; split <;> simp
@[simp] theorem team_wrS_accs (t : Team) (n r : Nat) (x : Quad) : (t.wrS n r x).accs = t.accs := by
  unfold Team.wrS; split <;> simp
@[simp] theorem team_wrS_v (t : Team) (n r : Nat) (x : Quad) : (t.wrS n r x).v = t.v := by
  unfold Team.wrS; split <;> simp
@[simp] theorem team_wrS_p (t : Team) (n r : Nat) (x : Quad) : (t.wrS n r x).p = t.p := by
  unfold Team.wrS; split <;> simp
@[simp] theorem team_wrS_m (t : Team) (n r : Nat) (x : Quad) : (t.wrS n r x).m = t.m := by
  unfold Team.wrS; split <;> simp
@[simp] theorem team_wrS_q (t : Team) (n r : Nat) (x : Quad) : (t.wrS n r x).q = t.q := by
  unfold Team.wrS; split <;> simp
@[simp] theorem team_wrS_ly (t : Team) (n r : Nat) (x : Quad) : (t.wrS n r x).ly = t.ly := by
  unfold Team.wrS; split <;> simp
@[simp] theorem team_wrS_h (t : Team) (n r : Nat) (x : Quad) : (t.wrS n r x).h = t.h := by
  unfold Team.wrS; split <;> simp
@[simp] theorem team_wrS_acc (t : Team) (n r : Nat) (x : Quad) : (t.wrS n r x).acc = t.acc := by
  unfold Team.wrS; split <;> simp
@[simp] theorem team_wrS_flags (t : Team) (n r : Nat) (x : Quad) : (t.wrS n r x).flags = t.flags := by
  unfold Team.wrS; split <;> simp
@[simp] theorem team_wrS_lstat (t : Team) (n r : Nat) (x : Quad) : (t.wrS n r x).lstat = t.lstat := by
  unfold Team.wrS; split <;> simp
@[simp] theorem team_wrS_wct (t : Team) (n r : Nat) (x : Quad) : (t.wrS n r x).wct = t.wct := by
  unfold Team.wrS; split <;> simp
@[simp] theorem team_wrS_acks (t : Team) (n r : Nat) (x : Quad) : (t.wrS n r x).acks = t.acks := by
  unfold Team.wrS; split <;> simp
@[simp] theorem team_wrS_prefs (t : Team) (n r : Nat) (x : Quad) : (t.wrS n r x).prefs = t.prefs := by
  unfold Team.wrS; split <;> simp
@[simp] theorem team_wrS_tlc (t : Team) (n r : Nat) (x : Quad) : (t.wrS n r x).tlc = t.tlc := by
  unfold Team.wrS; split <;> simp
@[simp] theorem team_wrS_tliss (t : Team) (n r : Nat) (x : Quad) : (t.wrS n r x).tliss = t.tliss := by
  unfold Team.wrS; split <;> simp
@[simp] theorem team_wrS_mode (t : Team) (n r : Nat) (x : Quad) : (t.wrS n r x).mode = t.mode := by
  unfold Team.wrS; split <;> simp
@[simp] theorem team_wrS_thbase (t : Team) (n r : Nat) (x : Quad) : (t.wrS n r x).thbase = t.thbase := by
  unfold Team.wrS; split <;> simp
@[simp] theorem team_wrS_teq (t : Team) (n r : Nat) (x : Quad) : (t.wrS n r x).teq = t.teq := by
  unfold Team.wrS; split <;> simp
@[simp] theorem team_wrS_urec (t : Team) (n r : Nat) (x : Quad) : (t.wrS n r x).urec = t.urec := by
  unfold Team.wrS; split <;> simp
@[simp] theorem team_wrS_krec (t : Team) (n r : Nat) (x : Quad) : (t.wrS n r x).krec = t.krec := by
  unfold Team.wrS; split <;> simp
@[simp] theorem team_wrS_splits (t : Team) (n r : Nat) (x : Quad) : (t.wrS n r x).splits = t.splits := by
  unfold Team.wrS; split <;> simp
@[simp] theorem team_wrS_joins (t : Team) (n r : Nat) (x : Quad) : (t.wrS n r x).joins = t.joins := by
  unfold Team.wrS; split <;> simp
@[simp] theorem team_wrS_body (t : Team) (n r : Nat) (x : Quad) : (t.wrS n r x).body = t.body := by
  unfold Team.wrS; split <;> simp
@[simp] theorem team_wrS_exp (t : Team) (n r : Nat) (x : Quad) : (t.wrS n r x).exp = t.exp := by
  unfold Team.wrS; split <;> simp
@[simp] theorem team_wrS_eng (t : Team) (n r : Nat) (x : Quad) : (t.wrS n r x).eng = t.eng := by
  unfold Team.wrS; split <;> simp
@[simp] theorem team_wrS_mat (t : Team) (n r : Nat) (x : Quad) : (t.wrS n r x).mat = t.mat := by
  unfold Team.wrS; split <;> simp
@[simp] theorem team_wrS_flights (t : Team) (n r : Nat) (x : Quad) : (t.wrS n r x).flights = t.flights := by
  unfold Team.wrS; split <;> simp
@[simp] theorem team_wrS_hazards (t : Team) (n r : Nat) (x : Quad) : (t.wrS n r x).hazards = t.hazards := by
  unfold Team.wrS; split <;> simp
@[simp] theorem team_wrS_fused (t : Team) (n r : Nat) (x : Quad) : (t.wrS n r x).fused = t.fused := by
  unfold Team.wrS; split <;> simp
@[simp] theorem team_wrS_rotate (t : Team) (n r : Nat) (x : Quad) : (t.wrS n r x).rotate = t.rotate := by
  unfold Team.wrS; split <;> simp
@[simp] theorem team_wrS_timer (t : Team) (n r : Nat) (x : Quad) : (t.wrS n r x).timer = t.timer := by
  unfold Team.wrS; split <;> simp
@[simp] theorem team_wrS_counted (t : Team) (n r : Nat) (x : Quad) : (t.wrS n r x).counted = t.counted := by
  unfold Team.wrS; split <;> simp
@[simp] theorem team_wrS_preempt (t : Team) (n r : Nat) (x : Quad) : (t.wrS n r x).preempt = t.preempt := by
  unfold Team.wrS; split <;> simp
@[simp] theorem team_wrS_stop (t : Team) (n r : Nat) (x : Quad) : (t.wrS n r x).stop = t.stop := by
  unfold Team.wrS; split <;> simp
@[simp] theorem team_wrS_xfer (t : Team) (n r : Nat) (x : Quad) : (t.wrS n r x).xfer = t.xfer := by
  unfold Team.wrS; split <;> simp
@[simp] theorem team_wrS_forced (t : Team) (n r : Nat) (x : Quad) : (t.wrS n r x).forced = t.forced := by
  unfold Team.wrS; split <;> simp
@[simp] theorem team_wrS_children (t : Team) (n r : Nat) (x : Quad) : (t.wrS n r x).children = t.children := by
  unfold Team.wrS; split <;> simp
@[simp] theorem team_wrS_failed (t : Team) (n r : Nat) (x : Quad) : (t.wrS n r x).failed = t.failed := by
  unfold Team.wrS; split <;> simp
@[simp] theorem team_wrS_preEntry (t : Team) (n r : Nat) (x : Quad) : (t.wrS n r x).preEntry = t.preEntry := by
  unfold Team.wrS; split <;> simp
@[simp] theorem team_wrS_willRelease (t : Team) (n r : Nat) (x : Quad) : (t.wrS n r x).willRelease = t.willRelease := by
  unfold Team.wrS; split <;> simp
@[simp] theorem team_wrS_ended (t : Team) (n r : Nat) (x : Quad) : (t.wrS n r x).ended = t.ended := by
  unfold Team.wrS; split <;> simp
@[simp] theorem team_wrP_wg (t : Team) (n : Nat) (a b : Mask) : (t.wrP n a b).wg = t.wg := by
  unfold Team.wrP; split <;> rfl
@[simp] theorem team_wrP_idx (t : Team) (n : Nat) (a b : Mask) : (t.wrP n a b).idx = t.idx := by
  unfold Team.wrP; split <;> rfl
@[simp] theorem team_wrP_core (t : Team) (n : Nat) (a b : Mask) : (t.wrP n a b).core = t.core := by
  unfold Team.wrP; split <;> rfl
@[simp] theorem team_wrP_slot (t : Team) (n : Nat) (a b : Mask) : (t.wrP n a b).slot = t.slot := by
  unfold Team.wrP; split <;> rfl
@[simp] theorem team_wrP_twlog (t : Team) (n : Nat) (a b : Mask) : (t.wrP n a b).twlog = t.twlog := by
  unfold Team.wrP; split <;> rfl
@[simp] theorem team_wrP_width (t : Team) (n : Nat) (a b : Mask) : (t.wrP n a b).width = t.width := by
  unfold Team.wrP; split <;> rfl
@[simp] theorem team_wrP_regs (t : Team) (n : Nat) (a b : Mask) : (t.wrP n a b).regs = t.regs := by
  unfold Team.wrP; split <;> rfl
@[simp] theorem team_wrP_moms (t : Team) (n : Nat) (a b : Mask) : (t.wrP n a b).moms = t.moms := by
  unfold Team.wrP; split <;> rfl
@[simp] theorem team_wrP_accs (t : Team) (n : Nat) (a b : Mask) : (t.wrP n a b).accs = t.accs := by
  unfold Team.wrP; split <;> rfl
@[simp] theorem team_wrP_v (t : Team) (n : Nat) (a b : Mask) : (t.wrP n a b).v = t.v := by
  unfold Team.wrP; split <;> rfl
@[simp] theorem team_wrP_m (t : Team) (n : Nat) (a b : Mask) : (t.wrP n a b).m = t.m := by
  unfold Team.wrP; split <;> rfl
@[simp] theorem team_wrP_s (t : Team) (n : Nat) (a b : Mask) : (t.wrP n a b).s = t.s := by
  unfold Team.wrP; split <;> rfl
@[simp] theorem team_wrP_q (t : Team) (n : Nat) (a b : Mask) : (t.wrP n a b).q = t.q := by
  unfold Team.wrP; split <;> rfl
@[simp] theorem team_wrP_ly (t : Team) (n : Nat) (a b : Mask) : (t.wrP n a b).ly = t.ly := by
  unfold Team.wrP; split <;> rfl
@[simp] theorem team_wrP_h (t : Team) (n : Nat) (a b : Mask) : (t.wrP n a b).h = t.h := by
  unfold Team.wrP; split <;> rfl
@[simp] theorem team_wrP_acc (t : Team) (n : Nat) (a b : Mask) : (t.wrP n a b).acc = t.acc := by
  unfold Team.wrP; split <;> rfl
@[simp] theorem team_wrP_flags (t : Team) (n : Nat) (a b : Mask) : (t.wrP n a b).flags = t.flags := by
  unfold Team.wrP; split <;> rfl
@[simp] theorem team_wrP_lstat (t : Team) (n : Nat) (a b : Mask) : (t.wrP n a b).lstat = t.lstat := by
  unfold Team.wrP; split <;> rfl
@[simp] theorem team_wrP_wct (t : Team) (n : Nat) (a b : Mask) : (t.wrP n a b).wct = t.wct := by
  unfold Team.wrP; split <;> rfl
@[simp] theorem team_wrP_acks (t : Team) (n : Nat) (a b : Mask) : (t.wrP n a b).acks = t.acks := by
  unfold Team.wrP; split <;> rfl
@[simp] theorem team_wrP_prefs (t : Team) (n : Nat) (a b : Mask) : (t.wrP n a b).prefs = t.prefs := by
  unfold Team.wrP; split <;> rfl
@[simp] theorem team_wrP_tlc (t : Team) (n : Nat) (a b : Mask) : (t.wrP n a b).tlc = t.tlc := by
  unfold Team.wrP; split <;> rfl
@[simp] theorem team_wrP_tliss (t : Team) (n : Nat) (a b : Mask) : (t.wrP n a b).tliss = t.tliss := by
  unfold Team.wrP; split <;> rfl
@[simp] theorem team_wrP_mode (t : Team) (n : Nat) (a b : Mask) : (t.wrP n a b).mode = t.mode := by
  unfold Team.wrP; split <;> rfl
@[simp] theorem team_wrP_thbase (t : Team) (n : Nat) (a b : Mask) : (t.wrP n a b).thbase = t.thbase := by
  unfold Team.wrP; split <;> rfl
@[simp] theorem team_wrP_teq (t : Team) (n : Nat) (a b : Mask) : (t.wrP n a b).teq = t.teq := by
  unfold Team.wrP; split <;> rfl
@[simp] theorem team_wrP_urec (t : Team) (n : Nat) (a b : Mask) : (t.wrP n a b).urec = t.urec := by
  unfold Team.wrP; split <;> rfl
@[simp] theorem team_wrP_krec (t : Team) (n : Nat) (a b : Mask) : (t.wrP n a b).krec = t.krec := by
  unfold Team.wrP; split <;> rfl
@[simp] theorem team_wrP_uframe (t : Team) (n : Nat) (a b : Mask) : (t.wrP n a b).uframe = t.uframe := by
  unfold Team.wrP; split <;> rfl
@[simp] theorem team_wrP_kframe (t : Team) (n : Nat) (a b : Mask) : (t.wrP n a b).kframe = t.kframe := by
  unfold Team.wrP; split <;> rfl
@[simp] theorem team_wrP_splits (t : Team) (n : Nat) (a b : Mask) : (t.wrP n a b).splits = t.splits := by
  unfold Team.wrP; split <;> rfl
@[simp] theorem team_wrP_joins (t : Team) (n : Nat) (a b : Mask) : (t.wrP n a b).joins = t.joins := by
  unfold Team.wrP; split <;> rfl
@[simp] theorem team_wrP_body (t : Team) (n : Nat) (a b : Mask) : (t.wrP n a b).body = t.body := by
  unfold Team.wrP; split <;> rfl
@[simp] theorem team_wrP_exp (t : Team) (n : Nat) (a b : Mask) : (t.wrP n a b).exp = t.exp := by
  unfold Team.wrP; split <;> rfl
@[simp] theorem team_wrP_eng (t : Team) (n : Nat) (a b : Mask) : (t.wrP n a b).eng = t.eng := by
  unfold Team.wrP; split <;> rfl
@[simp] theorem team_wrP_mat (t : Team) (n : Nat) (a b : Mask) : (t.wrP n a b).mat = t.mat := by
  unfold Team.wrP; split <;> rfl
@[simp] theorem team_wrP_flights (t : Team) (n : Nat) (a b : Mask) : (t.wrP n a b).flights = t.flights := by
  unfold Team.wrP; split <;> rfl
@[simp] theorem team_wrP_hazards (t : Team) (n : Nat) (a b : Mask) : (t.wrP n a b).hazards = t.hazards := by
  unfold Team.wrP; split <;> rfl
@[simp] theorem team_wrP_fused (t : Team) (n : Nat) (a b : Mask) : (t.wrP n a b).fused = t.fused := by
  unfold Team.wrP; split <;> rfl
@[simp] theorem team_wrP_rotate (t : Team) (n : Nat) (a b : Mask) : (t.wrP n a b).rotate = t.rotate := by
  unfold Team.wrP; split <;> rfl
@[simp] theorem team_wrP_timer (t : Team) (n : Nat) (a b : Mask) : (t.wrP n a b).timer = t.timer := by
  unfold Team.wrP; split <;> rfl
@[simp] theorem team_wrP_counted (t : Team) (n : Nat) (a b : Mask) : (t.wrP n a b).counted = t.counted := by
  unfold Team.wrP; split <;> rfl
@[simp] theorem team_wrP_preempt (t : Team) (n : Nat) (a b : Mask) : (t.wrP n a b).preempt = t.preempt := by
  unfold Team.wrP; split <;> rfl
@[simp] theorem team_wrP_stop (t : Team) (n : Nat) (a b : Mask) : (t.wrP n a b).stop = t.stop := by
  unfold Team.wrP; split <;> rfl
@[simp] theorem team_wrP_xfer (t : Team) (n : Nat) (a b : Mask) : (t.wrP n a b).xfer = t.xfer := by
  unfold Team.wrP; split <;> rfl
@[simp] theorem team_wrP_forced (t : Team) (n : Nat) (a b : Mask) : (t.wrP n a b).forced = t.forced := by
  unfold Team.wrP; split <;> rfl
@[simp] theorem team_wrP_children (t : Team) (n : Nat) (a b : Mask) : (t.wrP n a b).children = t.children := by
  unfold Team.wrP; split <;> rfl
@[simp] theorem team_wrP_failed (t : Team) (n : Nat) (a b : Mask) : (t.wrP n a b).failed = t.failed := by
  unfold Team.wrP; split <;> rfl
@[simp] theorem team_wrP_preEntry (t : Team) (n : Nat) (a b : Mask) : (t.wrP n a b).preEntry = t.preEntry := by
  unfold Team.wrP; split <;> rfl
@[simp] theorem team_wrP_willRelease (t : Team) (n : Nat) (a b : Mask) : (t.wrP n a b).willRelease = t.willRelease := by
  unfold Team.wrP; split <;> rfl
@[simp] theorem team_wrP_ended (t : Team) (n : Nat) (a b : Mask) : (t.wrP n a b).ended = t.ended := by
  unfold Team.wrP; split <;> rfl

/-! A split moved past an instruction, or to a target (R272, R290). -/

@[simp] theorem split_next_id (p : Split) (n : Nat) : (nextSplit n p).id = p.id := by
  unfold nextSplit; dsimp only; split
  · rfl
  · split <;> rfl
@[simp] theorem split_next_parent (p : Split) (n : Nat) : (nextSplit n p).parent = p.parent := by
  unfold nextSplit; dsimp only; split
  · rfl
  · split <;> rfl
@[simp] theorem split_next_pc (p : Split) (n : Nat) : (nextSplit n p).pc = p.pc + n := by
  unfold nextSplit; dsimp only; split
  · rfl
  · split <;> rfl
@[simp] theorem split_next_mask (p : Split) (n : Nat) : (nextSplit n p).mask = p.mask := by
  unfold nextSplit; dsimp only; split
  · rfl
  · split <;> rfl
@[simp] theorem split_next_lnk (p : Split) (n : Nat) : (nextSplit n p).lnk = p.lnk := by
  unfold nextSplit; dsimp only; split
  · rfl
  · split <;> rfl
@[simp] theorem split_next_fmt (p : Split) (n : Nat) : (nextSplit n p).fmt = p.fmt := by
  unfold nextSplit; dsimp only; split
  · rfl
  · split <;> rfl
@[simp] theorem split_next_park (p : Split) (n : Nat) : (nextSplit n p).park = p.park := by
  unfold nextSplit; dsimp only; split
  · rfl
  · split <;> rfl
@[simp] theorem split_next_pend (p : Split) (n : Nat) : (nextSplit n p).pend = p.pend := by
  unfold nextSplit; dsimp only; split
  · rfl
  · split <;> rfl
@[simp] theorem split_next_resv (p : Split) (n : Nat) : (nextSplit n p).resv = p.resv := by
  unfold nextSplit; dsimp only; split
  · rfl
  · split <;> rfl
@[simp] theorem split_next_goal (p : Split) (n : Nat) : (nextSplit n p).goal = none := by
  unfold nextSplit; dsimp only; split
  · rfl
  · split <;> rfl
@[simp] theorem split_next_rep (p : Split) (n : Nat) : (nextSplit n p).rep = none := by
  unfold nextSplit; dsimp only; split
  · rfl
  · split <;> rfl
@[simp] theorem split_next_redo (p : Split) (n : Nat) : (nextSplit n p).redo = none := by
  unfold nextSplit; dsimp only; split
  · rfl
  · split <;> rfl
@[simp] theorem split_next_stage (p : Split) (n : Nat) : (nextSplit n p).stage = 0 := by
  unfold nextSplit; dsimp only; split
  · rfl
  · split <;> rfl
@[simp] theorem split_next_image (p : Split) (n : Nat) : (nextSplit n p).image = none := by
  unfold nextSplit; dsimp only; split
  · rfl
  · split <;> rfl
@[simp] theorem split_next_bpSkip (p : Split) (n : Nat) : (nextSplit n p).bpSkip = false := by
  unfold nextSplit; dsimp only; split
  · rfl
  · split <;> rfl
@[simp] theorem split_next_spilled (p : Split) (n : Nat) : (nextSplit n p).spilled = p.spilled := by
  unfold nextSplit; dsimp only; split
  · rfl
  · split <;> rfl
@[simp] theorem split_next_grotto (p : Split) (n : Nat) : (nextSplit n p).grotto = p.grotto := by
  unfold nextSplit; dsimp only; split
  · rfl
  · split <;> rfl
@[simp] theorem split_next_anc (p : Split) (n : Nat) : (nextSplit n p).anc = p.anc := by
  unfold nextSplit; dsimp only; split
  · rfl
  · split <;> rfl
@[simp] theorem split_next_cycle (p : Split) (n : Nat) : (nextSplit n p).cycle = p.cycle := by
  unfold nextSplit; dsimp only; split
  · rfl
  · split <;> rfl
@[simp] theorem split_next_pipe (p : Split) (n : Nat) : (nextSplit n p).pipe = p.pipe := by
  unfold nextSplit; dsimp only; split
  · rfl
  · split <;> rfl
@[simp] theorem split_next_waited (p : Split) (n : Nat) : (nextSplit n p).waited = p.waited := by
  unfold nextSplit; dsimp only; split
  · rfl
  · split <;> rfl
@[simp] theorem split_next_lvl (p : Split) (n : Nat) : (nextSplit n p).lvl = p.lvl := by
  unfold nextSplit; dsimp only; split
  · rfl
  · split <;> rfl
@[simp] theorem split_next_ready (p : Split) (n : Nat) : (nextSplit n p).ready = p.ready := by
  unfold nextSplit; dsimp only; split
  · rfl
  · split <;> rfl
@[simp] theorem split_jump_id (p : Split) (n : Nat) : (jumpSplit n p).id = p.id := rfl
@[simp] theorem split_jump_parent (p : Split) (n : Nat) : (jumpSplit n p).parent = p.parent := rfl
@[simp] theorem split_jump_pc (p : Split) (n : Nat) : (jumpSplit n p).pc = n := rfl
@[simp] theorem split_jump_clause (p : Split) (n : Nat) : (jumpSplit n p).clause = none := rfl
@[simp] theorem split_jump_mask (p : Split) (n : Nat) : (jumpSplit n p).mask = p.mask := rfl
@[simp] theorem split_jump_lnk (p : Split) (n : Nat) : (jumpSplit n p).lnk = p.lnk := rfl
@[simp] theorem split_jump_fmt (p : Split) (n : Nat) : (jumpSplit n p).fmt = p.fmt := rfl
@[simp] theorem split_jump_park (p : Split) (n : Nat) : (jumpSplit n p).park = p.park := rfl
@[simp] theorem split_jump_pend (p : Split) (n : Nat) : (jumpSplit n p).pend = p.pend := rfl
@[simp] theorem split_jump_resv (p : Split) (n : Nat) : (jumpSplit n p).resv = p.resv := rfl
@[simp] theorem split_jump_goal (p : Split) (n : Nat) : (jumpSplit n p).goal = none := rfl
@[simp] theorem split_jump_rep (p : Split) (n : Nat) : (jumpSplit n p).rep = none := rfl
@[simp] theorem split_jump_redo (p : Split) (n : Nat) : (jumpSplit n p).redo = none := rfl
@[simp] theorem split_jump_stage (p : Split) (n : Nat) : (jumpSplit n p).stage = 0 := rfl
@[simp] theorem split_jump_intl (p : Split) (n : Nat) : (jumpSplit n p).intl = false := rfl
@[simp] theorem split_jump_image (p : Split) (n : Nat) : (jumpSplit n p).image = none := rfl
@[simp] theorem split_jump_bpSkip (p : Split) (n : Nat) : (jumpSplit n p).bpSkip = false := rfl
@[simp] theorem split_jump_spilled (p : Split) (n : Nat) : (jumpSplit n p).spilled = p.spilled := rfl
@[simp] theorem split_jump_grotto (p : Split) (n : Nat) : (jumpSplit n p).grotto = p.grotto := rfl
@[simp] theorem split_jump_anc (p : Split) (n : Nat) : (jumpSplit n p).anc = p.anc := rfl
@[simp] theorem split_jump_cycle (p : Split) (n : Nat) : (jumpSplit n p).cycle = p.cycle := rfl
@[simp] theorem split_jump_pipe (p : Split) (n : Nat) : (jumpSplit n p).pipe = p.pipe := rfl
@[simp] theorem split_jump_waited (p : Split) (n : Nat) : (jumpSplit n p).waited = p.waited := rfl
@[simp] theorem split_jump_lvl (p : Split) (n : Nat) : (jumpSplit n p).lvl = p.lvl := rfl
@[simp] theorem split_jump_ready (p : Split) (n : Nat) : (jumpSplit n p).ready = p.ready := rfl
@[simp] theorem split_count_id (p : Split) (n : Nat) : (countIssue n p).id = p.id := rfl
@[simp] theorem split_count_parent (p : Split) (n : Nat) : (countIssue n p).parent = p.parent := rfl
@[simp] theorem split_count_pc (p : Split) (n : Nat) : (countIssue n p).pc = p.pc := rfl
@[simp] theorem split_count_clause (p : Split) (n : Nat) : (countIssue n p).clause = p.clause := rfl
@[simp] theorem split_count_mask (p : Split) (n : Nat) : (countIssue n p).mask = p.mask := rfl
@[simp] theorem split_count_lnk (p : Split) (n : Nat) : (countIssue n p).lnk = p.lnk := rfl
@[simp] theorem split_count_fmt (p : Split) (n : Nat) : (countIssue n p).fmt = p.fmt := rfl
@[simp] theorem split_count_park (p : Split) (n : Nat) : (countIssue n p).park = p.park := rfl
@[simp] theorem split_count_pend (p : Split) (n : Nat) : (countIssue n p).pend = p.pend := rfl
@[simp] theorem split_count_goal (p : Split) (n : Nat) : (countIssue n p).goal = p.goal := rfl
@[simp] theorem split_count_rep (p : Split) (n : Nat) : (countIssue n p).rep = p.rep := rfl
@[simp] theorem split_count_redo (p : Split) (n : Nat) : (countIssue n p).redo = p.redo := rfl
@[simp] theorem split_count_stage (p : Split) (n : Nat) : (countIssue n p).stage = p.stage := rfl
@[simp] theorem split_count_intl (p : Split) (n : Nat) : (countIssue n p).intl = p.intl := rfl
@[simp] theorem split_count_image (p : Split) (n : Nat) : (countIssue n p).image = p.image := rfl
@[simp] theorem split_count_bpSkip (p : Split) (n : Nat) : (countIssue n p).bpSkip = p.bpSkip := rfl
@[simp] theorem split_count_spilled (p : Split) (n : Nat) : (countIssue n p).spilled = p.spilled := rfl
@[simp] theorem split_count_grotto (p : Split) (n : Nat) : (countIssue n p).grotto = p.grotto := rfl
@[simp] theorem split_count_anc (p : Split) (n : Nat) : (countIssue n p).anc = p.anc := rfl
@[simp] theorem split_count_cycle (p : Split) (n : Nat) : (countIssue n p).cycle = p.cycle := rfl
@[simp] theorem split_count_pipe (p : Split) (n : Nat) : (countIssue n p).pipe = p.pipe := rfl
@[simp] theorem split_count_waited (p : Split) (n : Nat) : (countIssue n p).waited = p.waited := rfl
@[simp] theorem split_count_lvl (p : Split) (n : Nat) : (countIssue n p).lvl = p.lvl := rfl
@[simp] theorem split_count_ready (p : Split) (n : Nat) : (countIssue n p).ready = p.ready := rfl

end Sys2Proof.Laws
end

