-- ==== Sys2Proof/Tests/Slice0.lean ====
section
/-! SUPPORT. The model's own tests: ill-formed terms, words written out from the spec's encodings, one instruction or device
step on a small state, and for each statement states that meet its hypotheses. -/

set_option Elab.async false

namespace Sys2Proof.Tests

open Machine Stated

/-- A short form. -/
def sh (d a : Nat) : OpA := { stall := 0, d := BitVec.ofNat 8 d, a := BitVec.ofNat 8 a, ext := none }
/-- A full form. -/
def fu (d a b c mod : Nat) : OpA :=
  { sh d a with ext := some { b := BitVec.ofNat 8 b, c := BitVec.ofNat 8 c, g := 0, gn := false, mod := BitVec.ofNat 10 mod } }
/-- A full form under a guard. -/
def gu (w : OpA) (g : Nat) : OpA := { w with ext := w.ext.map fun e => { e with g := BitVec.ofNat 3 g } }
/-- A format-M word. -/
def mw (d a sb imm mod : Nat) : OpM :=
  { stall := 0, d := BitVec.ofNat 8 d, a := BitVec.ofNat 8 a, sb := BitVec.ofNat 6 sb, imm := BitVec.ofNat 10 imm, g := 0,
    gn := false, mod := BitVec.ofNat 10 mod }

/-! Ill-formed terms are refused, one for each check of stage 5 (R295, R299 to R301 and the field tables). -/

def ill (l : List Instr) : Bool := l.all fun i => !i.wf

theorem test_wf_unused_fields : ill [.nop (sh 1 0), .nop (sh 0 1), .nop (fu 0 0 1 0 0), .smov (fu 0 0 1 0 0),
    .iabs (fu 0 0 0 1 0), .accz (sh 0 1), .lget (fu 0 0 1 0 0)] = true := by decide
theorem test_wf_registers : ill [.sadd (sh 64 0), .iadd (fu 1 0 0 0 64), .fadd (fu 0 0 64 0 256), .pand (sh 0 0), .pand (sh 8 0),
    .scmp (sh 4 0), .mma (sh 8 0), .mma2 (sh 1 0), .mmov (sh 32 0), .lflat (sh 16 0), .hset (sh 16 0), .hset (sh 0 63),
    .lset (sh 0 57), .tlread (sh 63 0), .tlread (sh 0 4), .waitp (sh 4 0)] = true := by decide
theorem test_wf_uniform_mod : ill [.sadd (fu 0 0 0 0 512), .sadd (fu 0 0 0 0 256), .sadd (fu 0 0 0 0 8), .sand (fu 0 0 0 0 4),
    .sadd (fu 0 0 0 0 128), .scmp (fu 0 0 0 0 12), .smov (fu 0 0 0 0 1), .gets (fu 0 0 0 0 7), .sets (fu 0 0 0 0 0x60),
    .vote (fu 0 0 0 0 4), .vote (fu 0 8 0 0 0), .vote (fu 0 0 16 0 2), .red (fu 0 0 0 0 6), .red (fu 0 0 0 0 24),
    .red (fu 0 0 0 0 19), .sldp (fu 0 0 0 0 1), .qop (fu 0 0 0 0 6), .qop (fu 0 0 0 0 8)] = true := by decide
theorem test_wf_vector_mod : ill [.iadd (fu 0 0 0 0 8), .iadd (fu 0 0 0 0 128), .vand (fu 0 0 0 0 2), .iabs (fu 0 0 0 0 32),
    .lane (fu 0 0 0 0 1), .sel (fu 0 0 0 8 0), .icmp (fu 1 0 0 0 12), .fadd (fu 0 0 0 0 96), .fmin (fu 0 0 0 0 8),
    .fabs (fu 0 0 0 0 2), .cvt (fu 0 0 64 0 0), .cvt (fu 0 0 0 64 0), .i2f (fu 0 0 0 4 0), .rcp (fu 0 0 0 0 32),
    .shfl (fu 0 0 0 0 44), .scan (fu 0 0 0 0 64), .topk (fu 0 0 0 0 3), .topk (fu 255 0 0 0 0), .rand (fu 0 0 0 0 1), .pand (fu 1 0 0 0 4),
    .pset (fu 1 0 0 0 32)] = true := by decide
theorem test_wf_memory_mod : ill [.ld (mw 0 0 0 0 (16 + 6 * 128)), .ld (mw 0 0 0 0 (16 + 64)), .ld (mw 0 0 0 0 28), .ld (mw 1 0 0 0 20),
    .ld (mw 2 0 0 0 24), .lds (mw 0 1 0 0 16), .lds (mw 0 0 0 0 24), .ldres (mw 0 0 0 0 8), .pref (mw 1 0 0 0 16),
    .pref (mw 0 0 0 0 48), .st (mw 0 0 0 0 48), .stcond (mw 0 0 0 0 16), .ldt (mw 0 0 16 0 16), .stt (mw 0 0 0 1 16),
    .atomAdd (mw 0 0 0 0 18), .atomAdd (mw 0 0 0 0 12), .atomMin (mw 0 0 0 0 4), .atomCas (mw 2 0 0 0 24),
    .atomFadd (mw 0 0 0 0 8)] = true := by decide
theorem test_wf_sync_mod : ill [.fence (fu 0 0 0 0 768), .fence (fu 0 0 0 0 4), .barinit (fu 0 0 0 0 32), .bararr (fu 0 0 0 0 32),
    .barwait (fu 0 0 0 0 64), .barsync (fu 0 0 0 0 32), .waitw (fu 0 0 0 6 16), .waitw (fu 0 0 0 0 0), .qpush (fu 0 0 0 0 48),
    .qpop (fu 0 0 0 0 80)] = true := by decide
theorem test_wf_tile_mod : ill [.lset (fu 0 0 0 0 2), .lset (fu 0 64 0 0 1), .lpart (fu 0 0 0 0 40), .lcheck (fu 0 0 0 0 6),
    .copy (fu 0 0 0 0 32), .tlwait (fu 0 0 0 0 64), .bankcfg (fu 0 0 0 0 3), .drain (fu 0 0 0 0 4), .drain (fu 0 0 0 0 9),
    .mdrain (fu 0 1 0 0 0), .fmtset (fu 0 0 0 0 1), .fmtset (fu 0 0 0 0 0x320), .mset (fu 0 0 0 0 1), .mcoll (fu 0 0 0 0 4),
    .mscale (fu 0 0 0 0 1)] = true := by decide
theorem test_wf_irregular_and_system_mod : ill [.expand (fu 0 0 0 0 2), .expand (fu 0 0 0 0 24), .exnext (fu 0 0 0 0 0), .exnext (fu 255 0 0 1 0),
    .hins (fu 0 0 0 1 0), .hins (fu 0 0 0 1 19), .hprobe (fu 0 0 0 1 33), .tretTo (sh 0 0),
    .movuser (fu 0 0 0 0 0), .movuser (fu 0 55 0 0 1), .movuser (fu 0 240 0 0 8), .rclaim (fu 0 64 0 0 1),
    .treshape (fu 0 0 0 0 2), .exsave (sh 4 0)] = true := by decide
theorem test_wf_branches : ill [.bra { stall := 0, psel := 1, pn := false, h := false, off := 0 },
    .bru { stall := 0, psel := 4, pn := false, h := false, off := 0 }] = true := by decide
theorem test_wf_devices : ill [.retrainComplete 36 0, .retrainComplete 0 3, .orangeryDecay 4 0, .islandRaise 64,
    .flitCrcFail 6, .modulePauseEnd 6, .expanderFail 8, .takeRecord 0 16 0, .takeRecord 0 0 256, .claimGrant ⟨0, 0, 7⟩,
    .phaseSteal 0 64, .copyChunk 0 5, .drainChunk 0 4] = true := by decide
theorem test_wf_accepts : [Instr.nop (sh 0 0), .sadd (fu 1 2 3 0 4), .iadd (fu 1 2 3 0 5), .ld (mw 8 9 6 1 16),
    .mma (fu 0 0x21 0x31 0 0), .drain (fu 0x12 0 0 0 16), .tretTo (fu 0 3 0 0 1), .retrainComplete 35 4].all Instr.wf = true := by
  decide

/-! Words written out from the spec's encodings decode to the instructions they stand for: for each family, the words of its
chapter (R331 to R445), by the field places of R293 to R298. -/

theorem test_decode_control : [
    decodeList [0x06140005#32, 0x40008000#32] ==
      some (.brc { stall := 0, psel := 1, pn := false, h := true, off := 5, join := 8, rest := 0 }),
    decodeList [0x00000003#32] == some (.bra { stall := 0, psel := 0, pn := false, h := false, off := 3 }),
    decodeList [0x08280004#32] == some (.bru { stall := 0, psel := 2, pn := true, h := false, off := 4 }),
    decodeList [0x0C03FFFF#32] == some (.call { stall := 0, psel := 0, pn := false, h := false, off := 0x3FFFF }),
    decodeList [0x10000100#32] == some (.jmpi (sh 0 2)), decodeList [0x10000101#32] == some (.calli (sh 0 2)),
    decodeList [0x10000002#32] == some (.ret (sh 0 0)), decodeList [0x10000003#32] == some (.join (sh 0 0)),
    decodeList [0x10000004#32] == some (.yield (sh 0 0)), decodeList [0x10000005#32] == some (.exit (sh 0 0)),
    decodeList [0x10000006#32] == some (.nop (sh 0 0)), decodeList [0x10000187#32] == some (.eqpt (sh 0 3)),
    decodeList [0x10008188#32] == some (.migrate (sh 1 3)), decodeList [0x10020289#32] == some (.launch (sh 4 5)),
    decodeList [0x1002000A#32] == some (.waitchild (sh 4 0)),
    decodeList [0x14024900#32] == some (.repeatN { stall := 0, cntm1 := 1, dd := 1, da := 1, db := 1, dc := 0, rest := 0 })].all
    id = true := by decide
theorem test_decode_uniform : [
    decodeList [0x1A018101#32, 0x41000004#32] == some (.sadd (fu 3 2 4 0 4)),
    decodeList [0x1C018003#32] == some (.smovi { stall := 0, d := 3, a := 0, imm := 3 }),
    decodeList [0x20018182#32] == some (.saddi { stall := 0, d := 3, a := 3, imm := 2 }),
    decodeList [0x1E018000#32, 0x7FFFFFFF#32] == some (.smoviImm30 { stall := 0, d := 3, a := 0, imm7 := 0, imm := 0x3FFFFFFF }),
    decodeList [0x261C0000#32, 0x40000042#32] == some (.gets (fu 56 0 0 0 0x42)),
    decodeList [0x26000281#32, 0x40000011#32] == some (.sets (fu 0 5 0 0 0x11)),
    decodeList [0x24018103#32] == some (.red (sh 3 2)), decodeList [0x24000282#32] == some (.vote (sh 0 5)),
    decodeList [0x24010184#32] == some (.sldp (sh 2 3)), decodeList [0x24008105#32] == some (.qop (sh 1 2))].all id = true := by decide
theorem test_decode_vector : [
    decodeList [0x2C010085#32] == some (.iaddi { stall := 0, d := 2, a := 1, imm := 5 }),
    decodeList [0x3000807F#32] == some (.movi { stall := 0, d := 1, a := 0, imm := 0x7F }),
    decodeList [0x37820103#32, 0x41C10000#32] == some (.ffma { fu 4 2 7 4 0 with stall := 3 }),
    decodeList [0x36040202#32, 0x42400000#32] == some (.fmul (fu 8 4 9 0 0)),
    decodeList [0x36018100#32, 0x40800000#32] == some (.fadd (fu 3 2 2 0 0)),
    decodeList [0x3A030281#32, 0x40000810#32] == some (.scan (gu (fu 6 5 0 0 0x10) 1)),
    decodeList [0x3C008101#32] == some (.por (sh 1 2))].all id = true := by decide
theorem test_decode_memory : [
    decodeList [0x42010000#32, 0x44000010#32] == some (.ld (mw 2 0 4 0 0x10)),
    decodeList [0x46018000#32, 0x45000010#32] == some (.st (mw 3 0 5 0 0x10)),
    decodeList [0x461C0001#32, 0x54000014#32] == some (.sts (mw 56 0 20 0 0x14)),
    decodeList [0x42040906#32, 0x43000010#32] == some (.ldt (mw 8 0x12 3 0 0x10)),
    decodeList [0x4A008000#32, 0x42000010#32] == some (.atomAdd (mw 1 0 2 0 0x10)),
    decodeList [0x4A020387#32, 0x42000010#32] == some (.atomCas (mw 4 7 2 0 0x10)),
    decodeList [0x4E000182#32, 0x41400000#32] == some (.barinit (fu 0 3 5 0 0)),
    decodeList [0x4C018481#32] == some (.waitp (sh 3 9))].all id = true := by decide
theorem test_decode_tiles_and_engines : [
    decodeList [0x52000003#32, 0x41000019#32] == some (.lpart (fu 0 0 4 0 0x19)),
    decodeList [0x52008080#32, 0x40000001#32] == some (.lset (fu 1 1 0 0 1)),
    decodeList [0x50010082#32] == some (.lchain (sh 2 1)),
    decodeList [0x52000005#32, 0x40000001#32] == some (.lflat (fu 0 0 0 0 1)),
    decodeList [0x560A9A00#32, 0x400001C0#32] == some (.copy (fu 0x15 0x34 0 0 0x1C0)),
    decodeList [0x56000301#32, 0x400001A0#32] == some (.tlwait (fu 0 6 0 0 0x1A0)),
    decodeList [0x54000301#32] == some (.tlwait (sh 0 6))].all id = true := by decide
theorem test_decode_matrix : [
    decodeList [0x58000002#32] == some (.accz (sh 0 0)),
    decodeList [0x5A001080#32, 0x4C400000#32] == some (.mma (fu 0 0x21 0x31 0 0)),
    decodeList [0x5A090004#32, 0x40000010#32] == some (.drain (fu 0x12 0 0 0 0x10)),
    decodeList [0x5C00000B#32] == some (.mmma (sh 0 0))].all id = true := by decide
theorem test_decode_irregular_and_system : [
    decodeList [0x62000100#32, 0x40C10023#32] == some (.expand (fu 0 2 3 4 0x23)),
    decodeList [0x62030001#32, 0x40004000#32] == some (.exnext (fu 6 0 0 1 0)),
    decodeList [0x62000302#32, 0x42400800#32] == some (.segred (gu (fu 0 6 9 0 0) 1)),
    decodeList [0x60050003#32] == some (.exdone (sh 10 0)), decodeList [0x64008100#32] == some (.trap (sh 1 2)),
    decodeList [0x64000001#32] == some (.tret (sh 0 0))].all id = true := by decide
/-- Reserved opcodes, functions beyond a list, a missing extension word (R311, R312, R316). -/
theorem test_decode_refused : [[0x68000000#32], [0x5C00000D#32], [0x10000080#32 + 11], [0x42010000#32], [0x42010000#32, 0x04000010#32],
    [0x40000000#32], [0xB2E00000#32]].all (fun l => decodeList l == none) = true := by decide

/-! States that meet the statements' hypotheses: a team of 8 lanes of the placement of withFetchWord issues in word 0. -/

/-- A placement of a team as team 0, its front split issuing. -/
def place (t : Team) : State :=
  { probe State.reset 64 0 with
    dev := { State.reset.dev with stepping := 0 }, clocks := [9, 9, 9, 9], teams := [(0, t)], cur := some (0, (t.splits.map (·.id)).headD 0), agenda := [] }
/-- The front split. -/
def front (t : Team) : Split := t.splits.headD { id := 0 }
/-- The issuing split as the statements take it. -/
def cx (t : Team) (i : Instr) : Ctx := src (place t) 0 t (front t) i
/-- `Ready` as a Bool. -/
def rdIn (s : State) (t : Team) (i : Instr) : Bool :=
  decide (s.cur = some (0, (front t).id)) && decide (s.teams.at? 0 = some t) && decide (t.split? (front t).id = some (front t)) &&
  i.wf && Stated.passes (start s 0 t (front t)) (form i) && (layoutRange (start s 0 t (front t)) i).isNone
def rd (t : Team) (i : Instr) : Bool := rdIn (place t) t i
theorem ready_of_rdIn {s : State} {t : Team} {i : Instr} (h : rdIn s t i = true) : Ready s 0 t (front t) i := by
  simp only [rdIn, Bool.and_eq_true, decide_eq_true_eq] at h
  exact ⟨⟨h.1.1.1.1.1, h.1.1.1.1.2, h.1.1.1.2⟩, h.1.1.2, h.1.2, Option.isNone_iff_eq_none.mp h.2⟩
/-- The meaning answers a next state. -/
def goesIn (s : State) (i : Instr) : Bool := match exec i s with | .next _ => true | _ => false
def go (t : Team) (i : Instr) : Bool := rd t i && goesIn (place t) i
/-- The event cannot occur. -/
def stopsIn (s : State) (i : Instr) : Bool := match exec i s with | .fault .notEnabled => true | _ => false
/-- The next state, or the state itself. -/
def after (s : State) (i : Instr) : State := match exec i s with | .next x => x | _ => s
def t0 : Team := probeTeam
/-- Team 0 of a state. -/
def teamOfState (s : State) : Team := (s.teams.at? 0).getD t0

theorem witness_words : [Instr.nop (sh 0 0), .sadd (fu 1 2 3 0 4)].all (fun i => i.wf && form i != .dev) = true := by decide +kernel
theorem witness_reserved : 26 ≤ opOf 0x68000000#32 ∧ isHeader 0xB2E00000#32 = true ∧
    ((opOf 0x5C00000D#32, 13) ∈ functionsOf ∧ 13 ≤ fnOf 0x5C00000D#32) := by decide +kernel

/-- Uniform arithmetic: every function, its guard true or false in every lane. -/
theorem witness_uniform : ([(0, 0), (0, 1), (1, 0), (0, 2), (3, 3)].flatMap fun x => [Instr.smov (gu (fu 1 2 0 0 0) x.1),
    .sadd (gu (fu 1 2 3 0 x.2) x.1), .ssub (gu (fu 63 62 61 0 x.2) x.1), .smul (gu (fu 1 2 3 0 x.2) x.1),
    .smad (gu (fu 1 2 3 4 x.2) x.1), .sand (gu (fu 1 2 3 0 0) x.1), .sor (gu (fu 1 2 3 0 0) x.1), .sxor (gu (fu 1 2 3 0 0) x.1),
    .sshl (gu (fu 1 2 3 0 0) x.1), .sshr (gu (fu 1 2 3 0 0) x.1), .ssar (gu (fu 1 2 3 0 0) x.1), .smin (gu (fu 1 2 3 0 0) x.1),
    .smax (gu (fu 1 2 3 0 0) x.1)]).all (fun i => go t0 i && (match form i with
      | .a 6 _ w _ => (uniResult i (mod300 w) ((cx t0 i).rdS w.aN) 1 2).isSome | _ => false)) = true := by decide +kernel
theorem witness_uniform_selects : ([0, 1].flatMap fun g => [Instr.scmp (gu (fu 1 2 3 0 0) g), .ssel (gu (fu 1 2 3 1 0) g),
    .qop (gu (fu 1 2 3 0 0) g), .smovi ⟨0, 3, 0, 0x7F⟩, .smoviImm30 ⟨0, 3, 0, 0, 5⟩, .saddi ⟨0, 3, 4, 1⟩,
    .saddiImm30 ⟨0, 3, 4, 0, 5⟩, .movi ⟨0, 3, 0, 0x7F⟩, .moviImm30 ⟨0, 3, 0, 0, 5⟩, .iaddi ⟨0, 63, 4, 1⟩,
    .iaddiImm30 ⟨0, 3, 4, 0, 5⟩, .vote (fu 1 0 0 0 g), .vote (fu 1 0 15 0 2), .red (fu 1 63 0 0 g), .red (fu 1 2 0 0 9),
    .sldp (gu (fu 1 2 0 0 0) g)]).all (go t0) = true := by decide +kernel
theorem witness_state_registers :
    ([0x010, 0x011, 0x016, 0x050].all fun k => go t0 (.sets (fu 0 5 0 0 k)) && go t0 (.gets (fu 5 0 0 0 k))) = true ∧
    fmtBad 0x82 = none ∧ (fmtBad 0x3F).isSome = true ∧
    (go { t0 with splits := [{ front t0 with lvl := 2 }], kframe := some { trap := {}, split := none } } (.sets (fu 0 5 0 0 0x108)) = true) ∧
    (rd t0 (.gets (fu 1 0 0 0 0x100)) = true ∧ (front t0).lvl ≠ 2) ∧
    ([0x000, 0x001, 0x002, 0x003, 0x004, 0x005, 0x006, 0x012, 0x013, 0x014, 0x015, 0x018, 0x01F, 0x020, 0x023, 0x030, 0x033, 0x047].all fun k =>
      go t0 (.gets (fu 5 0 0 0 k))) = true ∧
    ([0x040, 0x049, 0x108, 0x110, 0x120, 0x123, 0x140, 0x149].all fun k =>
      go { t0 with splits := [{ front t0 with lvl := 2 }], kframe := some { trap := {}, split := none } } (.gets (fu 5 0 0 0 k))) = true ∧
    ((place t0).wgs.at? t0.wg).isSome = true ∧ ((place t0).teamGrid t0).isSome = true ∧ t0.forced = false := by decide +kernel
theorem witness_registers_trap :
    (form (.iadd (fu 1 64 3 0 0)) = .a 10 0 (fu 1 64 3 0 0) (sigI3 true (fu 1 64 3 0 0)) ∧
      (sigI3 true (fu 1 64 3 0 0)).range 64 4 2 false (fu 1 64 3 0 0) = some 64) ∧
    interlocked (start (place t0) 0 t0 (front t0)).t (front t0) = true := by decide +kernel
/-- A read in the third cycle of a fixed latency, by stall counts with MODE.SBCHK on. -/
def tEarly : Team :=
  { t0 with mode := 2, hazards := [{ split := 0, kind := 0, reg := 2, olds := [(0, 0)], ready := 4 }] }
theorem witness_stall_trap : (start (place tEarly) 0 tEarly (front tEarly)).tooEarly (form (.iadd (fu 1 2 3 0 0))) = some 2 := by
  decide +kernel

/-- Vector integer: every function in a 32-bit and a 64-bit TYPE. -/
theorem witness_lanes : ([0, 1, 2, 3].flatMap fun ty => [Instr.iadd (fu 2 4 6 0 (32 * ty)), .isub (fu 2 4 6 0 (32 * ty)), .imul (fu 2 4 6 0 (32 * ty)),
    .imulh (fu 2 4 6 0 (32 * ty)), .imad (fu 2 4 6 8 (32 * ty)), .imin (fu 2 4 6 0 (32 * ty)), .imax (fu 2 4 6 0 (32 * ty)), .iabs (fu 2 4 0 0 (64 * (ty / 2))),
    .vnot (fu 2 4 0 0 (32 * ty)), .shl (fu 2 4 6 0 (32 * ty)), .shr (fu 2 4 6 0 (32 * ty)), .sar (fu 2 4 6 0 (32 * ty)), .rot (fu 2 4 6 0 (32 * ty)),
    .brev (fu 2 4 0 0 (32 * ty)), .bfe (fu 2 4 6 0 (32 * ty)), .bfi (fu 2 4 6 8 (32 * ty)), .mov (fu 62 4 0 0 (32 * ty)), .popc (fu 2 4 0 0 (32 * ty)),
    .clz (fu 2 4 0 0 (32 * ty)), .sel (fu 2 4 6 1 (32 * ty)), .icmp (fu 1 4 6 0 (32 * ty))]).all (go t0) = true := by decide +kernel
theorem witness_lanes_more : [Instr.vand (fu 2 4 6 0 0), .vor (fu 2 4 6 0 0), .vxor (fu 2 4 6 0 0), .lane (fu 2 0 0 0 0),
    .pand (fu 1 2 3 0 0), .por (fu 1 2 3 0 3), .pxor (fu 1 2 0 0 0), .pnot (fu 1 2 0 0 0), .pmov (fu 7 0 0 0 0),
    .pset (fu 1 2 0 0 31), .pset (fu 1 2 0 0 512), .shfl (fu 2 3 4 0 0), .shfl (fu 2 3 4 0 0x17), .scan (fu 2 3 0 0 0x20),
    .topk (fu 2 3 4 0 0), .rand (fu 2 3 4 0 0)].all (go t0) = true := by decide +kernel
theorem witness_topk : let t := { t0 with s := [(4, 1#64)], v := [(3 * 1024 + 5, 9#32)] }
    go t (.topk (fu 2 3 4 0 1)) = true ∧ ((cx t (.topk (fu 2 3 4 0 1))).rdS 4).toNat % 2 ^ 32 = 1 ∧
    (cx t (.topk (fu 2 3 4 0 1))).active.getLsbD 0 = true ∧
    (List.range 8).all (fun k => k == 5 || ranksBefore 1 9 5 0 k) = true := by decide +kernel
theorem witness_repeat : let r : OpP := ⟨0, 1, 1, 1, 0, 0, 0⟩
    let t := { t0 with splits := [{ front t0 with rep := some r, pc := 1 }] }
    let w := fu 2 1 3 0 0
    go t (.iadd w) = true ∧ r.cntm1 = 1 ∧ (mod300 w).type ≤ 1 ∧ w.modN / 256 = 0 ∧ w.modN % 8 = 0 ∧
    (sigI3 true w).stepped r 0 w = some (fu 2 1 3 0 0) ∧ (sigI3 true w).stepped r 1 w = some (fu 3 2 3 0 0) ∧
    (∀ x ∈ [fu 2 1 3 0 0, fu 3 2 3 0 0], (sigI3 true x).range 64 4 2 false x = none) := by decide +kernel

/-- Floating point: no flag enabled, and INEXACT enabled with a lane that raises it. -/
theorem witness_floats : [Instr.fadd (fu 1 2 3 0 0), .fsub (fu 1 2 3 0 0), .fmul (fu 1 2 3 0 0), .ffma (fu 1 2 3 4 0),
    .fmin (fu 1 2 3 0 0), .fmax (fu 1 2 3 0 0), .fabs (fu 1 2 0 0 0), .fclass (fu 1 2 0 0 0), .frnd (fu 1 2 0 0 0),
    .rcp (fu 1 2 0 0 0), .rsq (fu 1 2 0 0 0), .sqrt (fu 1 2 0 0 0), .exp2 (fu 1 2 0 0 0), .log2 (fu 1 2 0 0 0),
    .sinpi (fu 1 2 0 0 0), .cospi (fu 1 2 0 0 0)].all (fun i => go t0 i && (match form i with
      | .a 13 _ w g => (laneFloat i ((cx t0 i).fops g w 0)).isSome && (List.range 8).all fun l =>
          enabledFlags t0 (((laneFloat i ((cx t0 i).fops g w l)).getD (0, 0)).2) == 0
      | _ => false)) = true := by decide +kernel
/-- FLAGS enables the flag that 1 ÷ 0 raises. -/
theorem witness_float_trap : let t := { t0 with flags := 0x1F00#64 }
    let i := Instr.rcp (fu 1 2 0 0 0)
    go t i = true ∧ enabledFlags t (((laneFloat i ((cx t i).fops (sigTrans (fu 1 2 0 0 0)) (fu 1 2 0 0 0) 0)).getD (0, 0)).2) ≠ 0 := by decide +kernel
theorem witness_conversions : [Instr.fcmp (fu 1 2 3 0 0), .cvt (fu 1 2 0 1 0), .i2f (fu 1 2 0 1 0), .i2f (fu 1 2 0 3 0),
    .f2i (fu 1 2 0 1 0), .f2i (fu 2 2 0 3 0), .cvt (fu 1 2 0x3F 0 0)].all (go t0) = true ∧
    (fmtOf (cvtCodes (fu 1 2 0x3F 0 0)).1).isNone = true ∧
    [(0, 0x3F), (0x3F, 0)].all (fun x => [0, 1].all fun g => go t0 (.cvt (gu (fu 1 2 x.1 x.2 0) g))) = true ∧
    (fmtOf (cvtCodes (fu 1 2 0 0x3F 0)).1).isSome = true ∧ (fmtOf (cvtCodes (fu 1 2 0 0x3F 0)).2).isNone = true ∧ intTypeC (fu 1 2 0 3 0) = 3 := by decide +kernel

/-! Control. -/

/-- Words after the first two: a header at word 2 of the body of four words. -/
def tHdr : Team := { t0 with splits := [{ front t0 with pc := 1, clause := some ⟨0, 1, 7, false, 0⟩ }] }
/-- The placed state with memory holding a header at word 2. -/
def hdrState (t : Team) : State := { place t with mem := (place t).mem.write (probeBase + 8) (leBytes 4 0xB1E00000) }
theorem witness_branches : let s := hdrState tHdr
    let w : OpB := ⟨0, 0, false, false, 1⟩
    [Instr.bra w, .call w, .bru { w with psel := 1, pn := true }, .bru { w with psel := 1 }].all (fun i => rdIn s tHdr i && goesIn s i) = true ∧
    (1 : Int) + w.off.toInt = (2 : Nat) ∧ targetOk s tHdr 2 = .ok true ∧ targetOk s tHdr 4 = .ok false ∧ tHdr.rdQ 1 = false := by
  decide +kernel
/-- p1 true in lanes 0 to 3. -/
def tDiv : Team := { tHdr with p := [(1, 0xF#1024)] }
theorem witness_divergence : let s := hdrState tDiv
    let w : OpBRC := ⟨0, 1, false, true, 1, 1, 0⟩
    rdIn s tDiv (.brc w) = true ∧ goesIn s (.brc w) = true ∧
    (let tk := (front tDiv).mask &&& (src s 0 tDiv (front tDiv) (.brc w)).rdP 1
     tk ≠ 0 ∧ (front tDiv).mask &&& ~~~tk ≠ 0) ∧ tDiv.entries + 2 ≤ 32 ∧
    (front tHdr).mask &&& tHdr.rdP 1 = 0 ∧ (front tHdr).mask &&& ~~~tHdr.rdP 0 = 0 := by decide +kernel
/-- v2 names word 2 in every lane, or in lane 0 alone. -/
def tJump (n : Nat) : Team := { tHdr with v := (List.range n).map fun l => (2 * 1024 + l, 2#32) }
theorem witness_lane_jumps : [8, 1].all (fun n => [Instr.jmpi (sh 0 2), .calli (sh 0 2), .jmpi (gu (fu 0 2 0 0 0) 1)].all fun i =>
      rdIn (hdrState (tJump n)) (tJump n) i && goesIn (hdrState (tJump n)) i) = true ∧
    (place t0).transOf t0 = none ∧ (cx (tJump 8) (.jmpi (sh 0 2))).lanes (fullMask 8) ≠ [] ∧
    ((cx (tJump 8) (.jmpi (sh 0 2))).laneTargets 2).length = 1 ∧ ((cx (tJump 1) (.jmpi (sh 0 2))).laneTargets 2).length = 2 ∧
    (front (tJump 1)).parent = none := by decide +kernel
/-- The same under a record that awaits it. -/
def tJumpIn : Team :=
  { tJump 1 with
    splits := [{ front tHdr with parent := some 9 }]
    joins := [{ id := 9, parent := none, addr := 1, call := false, mask := 0xFF, arrived := 0, lnk := 0, fmt := 0x82, pending := 1, next := 2 }] }
theorem witness_jumps_under_a_record : rdIn (hdrState tJumpIn) tJumpIn (.jmpi (sh 0 2)) = true ∧
    goesIn (hdrState tJumpIn) (.jmpi (sh 0 2)) = true ∧ ((cx tJumpIn (.jmpi (sh 0 2))).laneTargets 2).length = 2 ∧
    ((teamOfState (after (hdrState tJumpIn) (.jmpi (sh 0 2)))).joins.map (·.pending)) = [2] ∧
    ((teamOfState (after (hdrState tJumpIn) (.jmpi (sh 0 2)))).splits.map (·.parent)) = [some 9, some 9] := by decide +kernel
/-- A split with lanes 0 to 3 under a record at its own word, the other lanes pending or arrived. -/
def tJoin (pending : Nat) (call : Bool) : Team :=
  { tHdr with
    splits := [{ front tHdr with mask := 0xF, parent := some 9, lnk := BitVec.ofNat 64 (probeBase + 8) }]
    joins := [{ id := 9, parent := none, addr := if call then 2 else 1, call := call, mask := 0xFF,
                arrived := if pending = 1 then 0xF0 else 0, lnk := 0, fmt := 0x82, pending := pending, next := 2 }] }
theorem witness_joins : ([1, 2].all fun n => [(Instr.join (sh 0 0), false), (.ret (sh 0 0), true)].all fun x =>
      rdIn (hdrState (tJoin n x.2)) (tJoin n x.2) x.1 && goesIn (hdrState (tJoin n x.2)) x.1) = true ∧
    (tJoin 1 true).indexOf (front (tJoin 1 true)).lnk = some 2 ∧
    go tHdr (.join (sh 0 0)) = true ∧ rd tHdr (.ret (sh 0 0)) = true ∧ (front tHdr).lnk = 0 ∧
    go (tJoin 2 true) (.join (sh 0 0)) = true := by decide +kernel
/-- Two splits, lanes 0 to 3 in front. -/
def tTwo : Team :=
  { t0 with splits := [{ front t0 with mask := 0xF }, { front t0 with id := 5, mask := 0xF0 }] }
theorem witness_ends : [Instr.nop (sh 0 0), .yield (sh 0 0), .exit (sh 0 0), .repeatN ⟨0, 1, 1, 1, 1, 0, 0⟩].all (go tTwo) = true ∧
    (front tTwo).resv = none ∧ (∀ e ∈ (place tTwo).teams, e.2.wg = tTwo.wg → e = (0, tTwo)) ∧
    (∀ q ∈ others (cx tTwo (.exit (sh 0 0))), q.pend = [] ∧ q.spilled = false ∧ q.park = none) ∧
    others (cx tTwo (.exit (sh 0 0))) ≠ [] := by decide +kernel
/-- Words 1 to 3 of the body: EQPT 3, a header, MIGRATE; the state-mapping table's one entry for 3; bodies for both core kinds. -/
def mapState (t : Team) : State :=
  { place t with
    grids := [{ probeGrid with ako := probeGrid.ako.map fun a => { a with neq := 1, smap := 0x10100, dOff := probeBase, dLen := 4 } }]
    tlb := [0, 15].flatMap fun c => (place t).tlb.map fun e => { e with cluster := c }
    mem := ((place t).mem.write (probeBase + 4) (leBytes 4 0x10000187 ++ leBytes 4 0xB1E00000 ++ leBytes 4 0x10000008)).write
      (probeBase + 0x100) (leBytes 4 3) }
/-- At the MIGRATE, on the L-core of cluster 0 or a D-core of cluster 15, which has no L-core for teams. -/
def tMig (d : Bool) (lvl : Nat) : Team :=
  let t := { t0 with splits := [{ front t0 with pc := 3, lvl := lvl, clause := some ⟨0, 1, 7, false, 0⟩ }] }
  if d then { t with core := ⟨0, 15, 0⟩, body := { t.body with kind := .nativeD } } else t
def quiet (t : Team) (i : Instr) (toL : Bool) : Option Nat :=
  match (src (mapState t) 0 t (front t) i).quiesce toL with | .ok (.ok m) => some m.eq | .ok (.error x) => some (x + 1000) | .error _ => none
theorem witness_equivalence : (smapEntry (place t0) t0 3 = .ok none ∧ go t0 (.eqpt (sh 0 3)) = true) ∧
    (match smapEntry (mapState t0) t0 3 with
      | .ok (some m) => ((src (mapState t0) 0 t0 (front t0) (.eqpt (sh 0 3))).better m).isNone
      | _ => false) = true ∧
    rdIn (mapState t0) t0 (.eqpt (sh 0 3)) = true ∧ goesIn (mapState t0) (.eqpt (sh 0 3)) = true := by decide +kernel
theorem witness_migration : [(false, 0), (false, 1), (true, 0)].all (fun x => [0, 2].all fun a =>
      rdIn (mapState (tMig x.1 x.2)) (tMig x.1 x.2) (.migrate (sh (a / 2) a)) && goesIn (mapState (tMig x.1 x.2)) (.migrate (sh (a / 2) a))) = true ∧
    (quiet (tMig false 0) (.migrate (sh 0 0)) true = some 3 ∧ kindCores (tMig false 0).core true ≠ [] ∧ isL (tMig false 0).core = true) ∧
    (quiet (tMig true 0) (.migrate (sh 1 2)) true = some 3 ∧ kindCores (tMig true 0).core true = []) ∧
    quiet { tMig false 0 with exp := { stat := 1 } } (.migrate (sh 0 0)) true = some 1004 := by decide +kernel
/-- Page tables that map the first GiB as it is: level 4 in host memory, level 3 in near memory; a kernel object at
0x30000, a launch record at 0x31000. -/
def kernelMem (s : State) : State :=
  { s with mem := (((s.mem.write 0x20000 (leBytes 8 0x1F)).write 0x30000 (leBytes 4 0x4F4B4131 ++ leBytes 4 1 ++ leBytes 4 0x200 ++
      leBytes 4 0 ++ leBytes 8 0 ++ leBytes 4 128 ++ leBytes 4 4 ++ leBytes 4 192 ++ leBytes 4 4)).write 0x31000
      (leBytes 8 0x30000 ++ leBytes 16 0 ++ leBytes 8 (1 + 2 ^ 24 + 2 ^ 44) ++ leBytes 8 (1 + 3 * 32))).write 0x8000_0000_0000 (leBytes 8 0x20001) }
/-- s5 names the record. -/
def tLaunch (a : Nat) : Team := { t0 with s := [(5, BitVec.ofNat 64 a)] }
def launchState (t : Team) (depth : Nat) : State :=
  kernelMem { place t with grids := [{ probeGrid with depth := depth }], tlb := [] }
theorem witness_launch : let t := tLaunch 0x31000
    (∀ d ∈ [0, 10], rdIn (launchState t d) t (.launch (sh 4 5)) = true ∧ goesIn (launchState t d) (.launch (sh 4 5)) = true) ∧
    (let s := launchState t 0
     fenceDone s t 4 s.nextId = true ∧ vaOk 0x31000 = true ∧ 0x31000 % 8 = 0 ∧
     (match rdRecord s t 0x31000 16 with
      | .ok l => (match checkRecord s 0 0 l with | .ok _ => true | .error _ => false)
      | .error _ => false) = true) ∧
    (∀ k ∈ [0, 1], go { t0 with children := k } (.waitchild (sh 4 0)) = true) := by decide +kernel

/-! Memory and synchronization. -/

/-- s4 names the mapped page at 0x10400, s5 the scratchpad's start through the window. -/
def tMem : Team := { t0 with s := [(4, 0x10400#64), (5, 0xFFFFFE0000000000#64)] }
/-- Where lane l's element lies. -/
def memTr (size l : Nat) : Tran := { loc := .mem (0x10400 + size * l), strm := false }
/-- `Reaches` for elements of a size from 0x10400 (index 0 alone where v0 is the same in every lane). -/
def reachesB (c : Ctx) (size access : Nat) (pairs : List (Nat × Nat)) (tr : Nat → Tran) : Bool :=
  (c.misses pairs).isEmpty && pairs.all fun e => match c.checkVa size access (fun _ => true) e.2 with | .ok x => x == tr e.1 | _ => false
theorem reaches_of {c : Ctx} {size access : Nat} {pairs : List (Nat × Nat)} {tr : Nat → Tran}
    (h : reachesB c size access pairs tr = true) : Reaches c size access pairs tr := by
  simp only [reachesB, Bool.and_eq_true, List.isEmpty_iff, List.all_eq_true] at h
  refine ⟨h.1, fun e he => ?_⟩
  have := h.2 e he
  split at this
  · rw [beq_iff_eq] at this; simp_all
  · simp at this
theorem witness_loads_and_stores : [Instr.ld (mw 8 0 4 0 0x10), .lds (mw 8 0 4 0 0x14), .ldb (mw 8 0 4 0 0x10), .st (mw 8 0 4 0 0x10),
      .sts (mw 8 0 4 0 0x14), .stb (mw 8 0 4 0 0x10), .ldres (mw 8 0 4 0 0x10), .stcond (mw 8 0 4 0x80 0x10), .pref (mw 0 0 4 0 0x10),
      .probe (mw 0 0 4 0 0x10), .atomAdd (mw 8 0 4 0 0x10), .atomMin (mw 8 0 4 0 0x12), .atomMax (mw 8 0 4 0 0x10),
      .atomAnd (mw 8 0 4 0 0x10), .atomOr (mw 8 0 4 0 0x10), .atomXor (mw 8 0 4 0 0x10), .atomXchg (mw 8 0 4 0 0x10),
      .atomCas (mw 8 0 4 0 0x10), .atomFadd (mw 8 0 4 0 0x10)].all (go tMem) = true ∧
    (let c := cx tMem (.ld (mw 8 0 4 0 0x10))
     let ls := c.lanes (c.writingM (mw 8 0 4 0 0x10))
     reachesB c 4 0 (lanesAt ls (laneAddr c (mw 8 0 4 0 0x10) 0 4)) (fun _ => memTr 0 0) = true ∧
     reachesB c 4 1 (lanesAt ls (blockAddr c (mw 8 0 4 0 0x10) 4)) (memTr 4) = true ∧
     reachesB c 8 2 (lanesAt (ls.take 1) (fun _ => blockAddr c (mw 8 0 4 0 0x14) 8 0)) (memTr 0) = true ∧
     released c 0 0 = true ∧ reservable c.s (memTr 0 0).loc = true ∧
     atomAccepts (c.rowOf (memTr 0 0).loc) (nearLoc (memTr 0 0).loc) 0 4 = true) := by decide +kernel
/-- The page of s4 in far memory, which takes no MIN. -/
def farState : State :=
  { place tMem with dev := { (place tMem).dev with lpddrGB := 1 },
                    tlb := (place tMem).tlb.map fun e => { e with leaf := 0x10000000001F#64 } }
theorem witness_atomic_trap : let i := Instr.atomMin (mw 8 0 4 0 0x10)
    let c := src farState 0 tMem (front tMem) i
    rdIn farState tMem i = true ∧ goesIn farState i = true ∧
    reachesB c 4 2 (lanesAt (c.lanes (c.writingM (mw 8 0 4 0 0x10))) (laneAddr c (mw 8 0 4 0 0x10) 0 4))
      (fun _ => ⟨.mem 0x100000000400, false⟩) = true ∧
    atomAccepts (c.rowOf (.mem 0x100000000400)) (nearLoc (.mem 0x100000000400)) 1 4 = false := by decide +kernel
/-- A buffer record: base 0x10400, 4 elements, i32, read and write. -/
def rec0 : BRec := BitVec.ofNat 320 (0x10400 + 4 * 2 ^ 64 + (5 * 2 ^ 6 + 7 * 2 ^ 25 + 2 ^ 28) * 2 ^ 128)
def recState (t : Team) : State := { place t with wgs := (place t).wgs.map fun e => (e.1, { e.2 with brecs := [rec0] }) }
theorem witness_records : let t := { tMem with v := [(2 * 1024 + 1, 4#32)] }
    [0, 1].all (fun k => let i := Instr.ld (mw 8 2 k 0 1)
      rdIn (recState { t with s := [(1, 1#64)] }) { t with s := [(1, 1#64)] } i && goesIn (recState { t with s := [(1, 1#64)] }) i) = true ∧
    recFault [rec0] 0 1 = none ∧ 0 < BRec.nf rec0 ∧ BRec.elem rec0 = 4 ∧ BRec.extent rec0 = 4 := by decide +kernel

/-- One access of the team in flight, its location not yet performed, or performed. -/
def flight0 (kind : FKind) (path : Nat) (done : Bool) (loc : Loc) : Flight :=
  { id := 1, split := 0, path := path, kind := kind,
    runs := [{ loc := loc, bytes := 4, accs := [{ lane := 3, reg := 9, data := 7, old := 5 }], done := done }] }
def tFly (f : Flight) : Team := { t0 with flights := [f] }
theorem witness_performs : ([(FKind.store, 1), (.atomic 0 4, 3), (.atomic 7 4, 3)].all fun x =>
      let f := flight0 x.1 x.2 false (.mem 0x10400)
      let s := { place (tFly f) with nextId := 2 }
      let r := f.runs.headD { loc := .mem 0, bytes := 0, accs := [] }
      goesIn s (.homeWrite 0 1 0) && runFree (tFly f) f 0 r && !heldRun s x.1.writes r && !deadRun s r && runsAt s f 0 == [0]) = true ∧
    0x10400 % 128 + 4 ≤ 128 := by decide +kernel
theorem witness_completions : ([(FKind.load 4, 0, Instr.loadComplete 0), (.load 1, 0, .loadComplete 0), (.store, 1, .storeAck 0),
      (.gather rec0, 2, .gatherComplete 0), (.atomic 0 4, 3, .atomicComplete 0)].all fun x =>
      goesIn (place (tFly (flight0 x.1 x.2.1 true (.mem 0x10400)))) x.2.2) = true := by decide +kernel

/-- Fences with nothing in flight; path counts at and above a WAITP's count. -/
theorem witness_fences : ([0, 1, 2, 3].all fun o => go t0 (.fence (fu 0 0 0 0 (32 * o + 512)))) = true ∧
    fenceDone (place t0) t0 4 1 = true ∧
    (go t0 (.waitp (sh 1 9)) = true ∧ go (tFly (flight0 .store 1 false (.mem 0))) (.waitp (sh 1 9)) = true) := by decide +kernel
/-- A barrier at the scratchpad's start: EXPECT, ARRIVED, GEN. -/
def barState (t : Team) (e a g : Nat) : State :=
  { place t with wgs := (place t).wgs.map fun x => (x.1, { x.2 with scr := Store.write [] 0 (leBytes 8 (barrier e a g)) }) }
theorem witness_barriers : let t := { tMem with s := tMem.s ++ [(6, 9#64)] }
    let c := src (barState t 2 1 7) 0 t (front t) (.barsync (fu 0 5 6 0 0))
    ([Instr.barinit (fu 0 5 6 0 0), .bararr (fu 1 5 0 0 0), .barwait (fu 0 5 6 0 0), .barsync (fu 0 5 0 0 0)].all fun i =>
      rdIn (barState t 2 1 7) t i && goesIn (barState t 2 1 7) i) = true ∧
    scrWord (barState t 2 1 7) 0 0 8 = barrier 2 1 7 ∧ scrWord (barState t 65535 65534 65535) 0 0 8 = barrier 65535 65534 65535 ∧
    c.guarded (fu 0 5 6 0 0) = true ∧ vaOk 0xFFFFFE0000000000 = true ∧ inWindow 0xFFFFFE0000000000 = true ∧
    windowLoc c.s c.t.core 0 0xFFFFFE0000000000 = some (.scr 0 0) ∧ fenceDone c.s c.t (c.scopeOf 0) c.s.nextId = true ∧
    (c.rdS 6).toNat % 65536 ≠ 7 := by decide +kernel
theorem witness_word_waits : ([0, 9].all fun v => let t := { tMem with s := tMem.s ++ [(6, BitVec.ofNat 64 v)] }
      let i := Instr.waitw (fu 0 5 6 0 0x10)
      let c := src (barState t 9 0 0) 0 t (front t) i
      rdIn (barState t 9 0 0) t i && goesIn (barState t 9 0 0) i && (c.lanes (c.writing 0 false)).head? == some 0 &&
        (c.misses [(0, 0xFFFFFE0000000000)]).isEmpty &&
        (match c.checkVa 4 0 (fun _ => true) 0xFFFFFE0000000000 with | .ok x => x.loc == .scr 0 0 | _ => false)) = true := by decide +kernel
/-- Block 0 a FIFO with one entry, named by s5. -/
def fifoState (t : Team) : State :=
  { place t with wgs := (place t).wgs.map fun x => (x.1, { x.2 with blocks := [.fifo], fifos := [(0, [5])] }) }
theorem witness_fifos : let t := { tMem with s := [(5, 0#64)] }
    ([Instr.qpush (fu 0 5 3 0 0x10), .qpop (fu 3 5 0 0 0x10)].all fun i => rdIn (fifoState t) t i && goesIn (fifoState t) i &&
      (src (fifoState t) 0 t (front t) i).fifoBlock 0 == some 0) = true ∧ (fifoOf (fifoState t) 0 0).length = 1 ∧
    (Machine.passes (fullMask 8)).length = 1 ∧ fifoAhead (fifoState t) 0 0 1 true = false ∧
    fifoAhead (fifoState t) 0 0 1 false = false := by decide +kernel

/-! Layouts, tiles, engines. -/

/-- A layout image of a format from its modes: extent, step, space. -/
def img (fmt : Nat) (l : List (Nat × Int × Nat)) : BitVec 512 :=
  Lay.image { fmt := fmt, col := false, scaled := false, swz := [], origin := 0, modes := l.map fun m => ⟨m.1, m.2.1, m.2.2, false⟩ }
/-- A handle of a kind at a base. -/
def hnd (kind base : Nat) : BitVec 128 := BitVec.ofNat 128 (base + kind * 2 ^ 64)
/-- l1: 8 in memory; l2: 8 in lanes; l3: 4 × 2; l4: 32 × 2; l5: 64 × 64 bf16; l6, l7: 64 × 16, 16 × 64 f16; l8: 64 × 64
f32; l9: 8 lanes × 8 registers; l10: 128 × 64 bf16. h1, h2 near memory; h3 TREG; h4 scratchpad; s8 up: l1's image, h1's. -/
def tLay : Team :=
  { t0 with
    moms := 8
    ly := [(1, img 0 [(8, 1, 0)]), (2, img 0 [(8, 1, 1)]), (3, img 0 [(4, 1, 0), (2, 4, 0)]), (4, img 0 [(32, 1, 0), (2, 32, 0)]),
           (5, img 2 [(64, 1, 0), (64, 64, 0)]), (6, img 1 [(16, 1, 0), (64, 16, 0)]), (7, img 1 [(64, 1, 0), (16, 64, 0)]),
           (8, img 0 [(64, 1, 0), (64, 64, 0)]), (9, img 0 [(8, 1, 1), (8, 1, 2)]), (10, img 2 [(64, 1, 0), (128, 64, 0)])]
    h := [(1, hnd 3 0x10400), (2, hnd 3 0x10800), (3, hnd 0 0), (4, hnd 1 0xFFFFFE0000000000)]
    s := (List.range 8).map (fun k => (8 + k, (img 0 [(8, 1, 0)]).extractLsb' (64 * k) 64)) ++
         [(16, 0x10400#64), (17, 3#64), (18, 2#64), (19, 0x10#64)] }
theorem witness_layout_registers : let s := { place tLay with wgs := (place tLay).wgs.map fun e => (e.1, { e.2 with lconsts := [img 0 [(8, 1, 0)]] }) }
    [Instr.lset (fu 1 8 0 0 0), .lset (fu 1 0 0 0 1), .lset (fu 15 63 0 0 1), .lset (fu 1 9 0 0 0), .lget (fu 56 1 0 0 0), .hset (fu 15 16 0 0 0),
      .hset (fu 1 17 0 0 0), .hget (fu 62 1 0 0 0)].all (fun i => rdIn s tLay i && goesIn s i) = true ∧
    (∀ j, j < 8 → (img 0 [(8, 1, 0)]).extractLsb' (64 * j) 64 = (cx tLay (.lset (fu 1 8 0 0 0))).rdS (8 + j)) ∧
    imageOk (img 0 [(8, 1, 0)]) = true ∧ imageOk (img 63 [(8, 1, 0)]) = false ∧
    handleOk (hnd 3 0x10400) = true ∧ handleOk (hnd 7 0) = false := by decide +kernel
theorem witness_layout_operations : ([Instr.lchain (fu 1 3 1 0 0), .lpart (fu 1 1 18 0 0), .ltrans (fu 1 3 19 0 0), .lflat (fu 1 3 0 0 0),
      .lslice (fu 1 3 18 0 0)].all fun i => go tLay i && (match layoutOp i (cx tLay i) with
      | some (.ok l) => imageOk l.image | _ => false)) = true ∧
    ([Instr.lchain (fu 1 1 2 0 0), .lpart (fu 1 1 20 0 0), .lflat (fu 1 1 0 0 0), .lslice (fu 1 1 16 0 0)].all fun i =>
      go tLay i && (match layoutOp i (cx tLay i) with | some (.error _) => true | _ => false)) = true ∧
    (match lflatOf (Lay.read (img 0 [(4, 1, 0), (2, 4, 0)])) 0 with | .ok _ => true | _ => false) = true ∧
    (match lpartOf (Lay.read (img 0 [(8, 1, 0)])) 0 2 0 with | .ok _ => true | _ => false) = true := by decide +kernel
/-- Elements of h1 under l1 with their places. -/
def tileTr (e : TElem) : Tran := { loc := match e.place with | .va a => .mem a | _ => .mem 0, strm := false }
theorem witness_tiles : let w := mw 8 0x11 2 0 0x10
    ([Instr.ldt w, .stt w, .lcheck (fu 0 0x11 0 0 0)].all (go tLay)) = true ∧
    (let c := cx tLay (.ldt w)
     let x := tileSides c w
     let c1 : Ctx := { c with t := Team.setLstat c.t (c.tileDegree (c.writingM w) x.1 x.2.1 x.2.2) 0 false }
     let es := tileElems (c.writingM w) w.dN x.1 x.2.1 x.2.2
     c.unreach 1 = false ∧ c1.tileCheck w x.1 x.2.1 x.2.2 = none ∧ es.length = 8 ∧ released c1 0 0 = true ∧
     c1.misses (es.filterMap fun e => match e.place with | .va a => some (e.lane, a) | _ => none) = [] ∧
     (es.all fun e => [0, 1].all fun k => match c1.checkElem x.2.1.width k x.1 e with | .ok y => y == tileTr e | _ => false) = true) ∧
    (let t := { tLay with core := ⟨0, 0, 0⟩ }
     let i := Instr.lcheck (fu 0 0x31 0 0 0)
     rd t i = true ∧ (cx t i).unreach 3 = true) := by decide +kernel
/-- An engine operation of context 0. -/
def op0 (k : EngKind) : EngOp := { num := 1, kind := k, split := 0, mask := fullMask 8, fmt := 0x82 }
theorem witness_engines : [Instr.copy (fu 0x24 0x14 0 0 0), .tlwait (fu 0 20 0 0 0), .tlwait (fu 3 17 0 0 0), .tlread (fu 8 3 0 0 0), .bankcfg (fu 0 20 0 0 0),
      .bankcfg (fu 0 20 0 0 1), .bankcfg (fu 0 20 0 0 2)].all (go tLay) = true ∧
    (let c := cx tLay (.copy (fu 0x24 0x14 0 0 0))
     c.unreach 1 = false ∧ (copyReject (c.t.hdl 1) (c.t.lay 4) (c.t.hdl 2) (c.t.lay 4)).1.cls ≠ 2 ∧
     (copyReject (c.t.hdl 1) (c.t.lay 2) (c.t.hdl 2) (c.t.lay 4)).1.cls = 2) ∧
    (let t := { tLay with eng := setAt t0.eng 0 (List.replicate 16 (op0 .copy)) }
     go t (.copy (fu 0x24 0x14 0 0 0)) = true ∧ 16 ≤ (t.ops 0).length) ∧
    rd tLay (.copy (fu 0x24 0x12 0 0 0)) = true ∧
    (let t := { tLay with core := ⟨0, 0, 0⟩ }
     rd t (.copy (fu 0x24 0x34 0 0 0)) = true ∧ (cx t (.copy (fu 0x24 0x34 0 0 0))).unreach 3 = true) ∧
    (let g : Wg := { grid := 0, lin := 0, pid := 0, home := ⟨0, 0, 6⟩, slot := 0, blocks := [.scr] }
     [0, 1, 2].all (fun x => !(BState.scr == bankState x) || x == 0) = true ∧
     (∃ x ∈ [0, 1, 2], bankRefused (place tLay) g 0 0 x = false ∧ bankState x ≠ .scr)) := by decide +kernel

/-! Matrix and moments. -/

theorem witness_matrix : [Instr.mma (fu 0 0x35 0x35 0 0), .mma2 (fu 0 0x3A 0x35 0 0), .accz (fu 0 0 0 0 0), .accld (fu 0 0x35 0 0 0),
      .mma (fu 0 0x31 0x35 0 0)].all (go tLay) = true ∧
    (let t := { tLay with splits := [{ front tLay with fmt := 0x41 }] }
     go t (.mmma (fu 0 0x36 0x37 0 0)) = true ∧
     ((cx t (.mmma (fu 0 0x36 0x37 0 0))).tileOps (mmmaOps 0x41 (fu 0 0x36 0x37 0 0) 0x37) false).2 = none) ∧
    ((cx tLay (.mma (fu 0 0x35 0x35 0 0))).tileOps (mmaOps 0x82 (fu 0 0x35 0x35 0 0) 0x35 64) false).2 = none ∧
    ((cx tLay (.mma2 (fu 0 0x3A 0x35 0 0))).tileOps (mmaOps 0x82 (fu 0 0x3A 0x35 0 0) 0x35 128) false).2 = none ∧
    ((cx tLay (.mma (fu 0 0x31 0x35 0 0))).tileOps (mmaOps 0x82 (fu 0 0x31 0x35 0 0) 0x35 64) false).2.isSome = true := by
  decide +kernel
/-- The register layout l9 as a DRAIN checks it. -/
def regOp (f : List Nat) : TileOp := ⟨3, 4, 9, none, 0, none, some f, .regs 0, false⟩
theorem witness_drains : [Instr.drain (fu 8 0 9 0 8), .drain (fu 0x48 0 0 0 0), .drain (fu 0x48 0 0 0 16), .mdrain (fu 0 0 9 0 8),
      .mdrain (fu 0x48 0 0 0 0)].all (go tLay) = true ∧
    (let c := cx tLay (.drain (fu 8 0 9 0 8))
     [[0, 1, 2], [0]].all (fun f => (c.tileOps [regOp f] false).2.isNone) = true ∧
     (8 : Int) + ((c.t.lay 9).bounds 2).1 ≥ 0 ∧ c.regOutside 8 (c.t.lay 9) = none ∧ ((c.t.lay 9).bounds 2).2 < c.t.moms ∧
     [false, true].all (fun m => (c.tileOps (drainOps (fu 0x48 0 0 0 0) m) (spans (c.t.hdl 4) (c.t.lay 8) m)).2.isNone) = true ∧
     (c.t.hdl 4).kind < 5 ∧ released c 0 0 = true) := by decide +kernel
/-- An ACCZ at the head of the queue, and one that has started. -/
def accz0 (started : Bool) : MatOp :=
  { fn := (22, 2), split := 0, mask := fullMask 8, wmask := fullMask 8, fmt := 0x82, d := 0, a := 0, b := 0, mod := 0, started := started,
    range := if started then (0, 4096) else (0, 0) }
theorem witness_matrix_unit : goesIn (place { t0 with mat := [accz0 false] }) (.matrixStart 0) = true ∧
    arrayBusy (place { t0 with mat := [accz0 false] }) t0.core = false ∧ tregWait { t0 with mat := [accz0 false] } (accz0 false) = false ∧
    goesIn (place { t0 with mat := [accz0 true] }) (.matrixComplete 0) = true ∧ enabledFlags t0 0 = 0 := by decide +kernel
theorem witness_formats : [Instr.fmtset (fu 0 20 0 0 0), .fmtset (fu 0 18 0 0 0x102), .fmtset (fu 0 18 0 0 0x202), .fmtset (fu 0 0 0 0 0x301),
    .fmtset (fu 0 0 0 0 0x13F), .fmtget (fu 3 0 0 0 0)].all (go tLay) = true ∧ fmtBad 0 = none ∧ (fmtOf 2).isSome = true ∧
    (fmtOf 0x3F).isNone = true := by decide +kernel
/-- v3 holds −1.0, a negative variance. -/
def tMom : Team := { t0 with v := (List.range 8).map fun l => (3 * 1024 + l, 0xBF800000#32) }
theorem witness_moments : ([Instr.mset (fu 1 2 4 0 0), .madd (fu 1 2 3 0 0), .msub (fu 1 2 3 0 0), .mmul (fu 1 2 3 0 0), .mfma (fu 1 2 3 0 0),
      .mscale (fu 1 2 4 0 0), .mrelu (fu 1 2 0 0 0), .msigm (fu 1 2 0 0 0), .mexp (fu 1 2 0 0 0), .mmov (fu 1 2 0 0 0)].all fun i =>
      go tMom i && (List.range 8).all fun l => match laneMoment i (cx tMom i) l with
        | some r => r.bad.isNone && enabledFlags tMom r.flags == 0 | none => false) = true ∧
    ([0, 1, 2, 3].all fun k => go tMom (.mcoll (fu 5 2 (k / 3 * 4) 0 k))) = true ∧
    (go tMom (.mset (fu 1 2 3 0 0)) = true ∧
     (match laneMoment (.mset (fu 1 2 3 0 0)) (cx tMom (.mset (fu 1 2 3 0 0))) 0 with | some r => r.bad.isSome | none => false) = true) := by
  decide +kernel

/-! Traps and system instructions. -/

theorem witness_traps : ([0, 1].all fun g => [Instr.trap (gu (fu 1 2 0 0 0) g), .bkpt (gu (fu 0 0 0 0 0) g)].all (go t0)) = true := by
  decide +kernel
/-- THBASE names word 2, where a header stands. -/
def tHand : Team := { tHdr with thbase := BitVec.ofNat 64 (probeBase + 8) }
theorem witness_user_handler : let s := { hdrState tHand with nextId := 2 }
    (0x80 ∈ userLevel ∧ 0x01 ∈ userLevel ∧ 0x50 ∈ userLevel) ∧ tHand.thbase ≠ 0 ∧ handlerIndex s tHand = some 2 ∧
    targetOk s tHand 2 = .ok true ∧ userRoom s tHand = true ∧ tHand.uframe = none := by decide +kernel
/-- The split at a handler's level. -/
def tLvl (lvl : Nat) : Team :=
  { t0 with
    splits := [{ front t0 with lvl := lvl, pc := 1, clause := some ⟨0, 1, 7, false, 0⟩ }]
    uframe := if lvl = 1 then some { trap := { len := 1 }, split := some { front t0 with pc := 1 } } else none
    kframe := if lvl = 2 then some { trap := {}, split := none } else none
    s := [(5, BitVec.ofNat 64 (probeBase + 8))] }
theorem witness_no_handler : ([0, 1, 2].all fun l => (raise (place (tLvl l)) 0 (tLvl l) (front (tLvl l)) 0x11 [1] 1 1).teams.length < 2) = true ∧
    (raise (place (tLvl 2)) 0 (tLvl 2) (front (tLvl 2)) 0x11 [1] 1 1).dev.events.getLast?.map (·.type) = some 7 ∧
    (place t0).gridOf 0 = some probeGrid ∧ probeGrid.fail = none ∧ t0.thbase = 0 ∧ t0.flights = [] := by decide +kernel
/-- A second split beside the privileged handler's. -/
def tPriv : Team :=
  { tLvl 2 with splits := (tLvl 2).splits ++ [{ id := 5, mask := fullMask 8, fmt := 0x82, pc := 1 }], krec := { cause := 0x70, resume := 3 } }
theorem witness_returns : [tLvl 1, tPriv].all (fun t => [Instr.tret (sh 0 0), .tretTo (fu 0 5 0 0 1)].all fun i =>
      rdIn (hdrState t) t i && goesIn (hdrState t) i) = true ∧
    targetOk (hdrState tPriv) tPriv 2 = .ok true ∧ tPriv.indexOf 0x10008 = some 2 ∧
    ((∀ x ∈ tPriv.splits, x.lvl = 2 → x.id = 0) ∧ (∀ r ∈ tPriv.joins, r.lvl ≠ 2)) ∧
    ((∀ x ∈ tPriv.splits, x.pend = [] ∧ x.spilled = false) ∧ (∀ r ∈ tPriv.joins, r.spilled = false) ∧ tPriv.ended = false) ∧
    (let t := { tLvl 1 with splits := (tLvl 1).splits ++ [{ front (tLvl 1) with id := 5 }] }
     go t (.tret (sh 0 0)) = true ∧ ∃ y ∈ t.splits, y.id ≠ 0 ∧ y.lvl = 1) ∧
    [0, 1, 2, 3].all (fun k =>
      let t := { tLvl 1 with uframe := some { trap := { len := 1, resume := k, lanes := 3 }, split := some { front t0 with pc := 1 } } }
      rdIn (hdrState t) t (.tret (sh 0 0)) && goesIn (hdrState t) (.tret (sh 0 0))) = true := by decide +kernel
theorem witness_privileged : ([Instr.tret (sh 0 0), .tretTo (fu 0 5 0 0 1), .movuser (fu 1 240 0 0 0), .splitsv (sh 0 5), .splitld (sh 0 5),
      .tsaved (sh 0 0)].all fun i => go t0 i) = true ∧ rd (tLvl 1) (.movuser (fu 1 240 0 0 4)) = true := by decide +kernel
theorem witness_movuser : ([0, 1, 2, 3].all fun d => go (tLvl 2) (.movuser (fu 57 (if d % 2 = 0 then 240 else 57) 0 0 d)) &&
      go { tLvl 2 with uframe := some { trap := {}, split := none } } (.movuser (fu 57 (if d % 2 = 0 then 255 else 63) 0 0 d))) = true ∧
    (tLvl 2).regs ≤ 240 := by decide +kernel
/-- The handler alone, its record at 0x10400 as SPLITSV writes it for a team of one split. -/
def recTeam (a : Nat) : Team := { tLvl 2 with s := [(5, BitVec.ofNat 64 a)], krec := { cause := 0x70, resume := 3 } }
def savedRec : List Nat := splitRecord (place tPriv) tPriv
/-- The same where the record lies in another package whose route trains, so that its read is held. -/
def farRec (a : Nat) : State :=
  { place (recTeam a) with
    dev := { (place t0).dev with links := [(16, { state := 1 })], routes := [(3, 0x80000000#32)] }
    tlb := (place t0).tlb.map fun e => { e with leaf := BitVec.ofNat 64 (3 * 2 ^ 48 + 0x1F) } }
def splitState : State := { place (recTeam 0x10400) with mem := (place t0).mem.write 0x10400 (savedRec.flatMap (leBytes 8)) }
theorem witness_saving : [0x10400, 0x10408].all (fun a => [Instr.splitsv (sh 0 5), .splitld (sh 0 5)].all (go (recTeam a))) = true ∧
    go { recTeam 0x10400 with splits := [{ front (tLvl 2) with stage := 2 }] } (.splitsv (sh 0 5)) = true ∧
    (let t := recTeam 0x10400
     rdIn splitState t (.splitld (sh 0 5)) = true ∧ goesIn splitState (.splitld (sh 0 5)) = true ∧
     rdQuads splitState t 0x10400 16 = .ok (savedRec.take 16) ∧ rdQuads splitState t 0x10480 44 = .ok (savedRec.drop 16) ∧
     savedRec.getD 0 0 % 2 ^ 32 = 1 ∧ savedRec.getD 1 0 % 2 ^ 16 = 8 ∧ entZero (savedRec.drop 16) = true ∧
     entsOk [SplitEnt.ofQuads (savedRec.drop 16)] 8 = true ∧ (savedRec.getD 1 0) / 2 ^ 16 % 2 ^ 16 = 0xFFFF) ∧
    rd tPriv (.splitld (sh 0 5)) = true ∧
    ([(farRec 0x10400, 0x10400, 0), (place (recTeam 0x50000), 0x50000, 0x10)].all fun x =>
      rdIn x.1 (recTeam x.2.1) (.splitld (sh 0 5)) && goesIn x.1 (.splitld (sh 0 5)) &&
      (match rdQuads x.1 (recTeam x.2.1) x.2.1 16 with | .error e => e.1.cause == x.2.2 | .ok _ => false)) = true ∧
    [0x70, 0x81].all (fun k => go { recTeam 0x10400 with krec := { cause := k } } (.tsaved (sh 0 0))) = true ∧
    go { recTeam 0x10400 with flights := [flight0 .store 1 false (.mem 0x10400)] } (.tsaved (sh 0 0)) = true := by decide +kernel
theorem witness_pool : [Instr.rquery (sh 1 0), .leaseclk (sh 1 0), .rclaim (fu 0 8 0 0 0), .rclaim (fu 0 7 0 0 0), .rclaim (fu 0 248 0 0 0),
      .rrel (fu 0 8 0 0 0), .rrel (fu 0 64 0 0 0), .rrel (fu 0 56 0 0 0)].all (go t0) = true ∧
    [Instr.rclaim (fu 0 8 0 0 0), .rrel (fu 0 8 0 0 0)].all (fun i => go (tLvl 1) i && go tTwo i) = true ∧
    t0.converged = true ∧ tTwo.converged = false ∧ ((place t0).coreOf t0.core).claims = [] := by decide +kernel
/-- The buddy of team 0, parked in its own FUSE; and the kept half of a fused team of 16 lanes. -/
def tFuse : Team := { t0 with idx := 1, splits := [{ front t0 with park := some (.fuse 1) }] }
def tWide : Team := { t0 with width := 16, splits := [{ front t0 with mask := fullMask 16 }] }
def tKept : Team := { t0 with idx := 1, splits := [], fused := some 0 }
def two (t b : Team) : State := { place t with teams := [(0, t), (3, b)] }
theorem witness_reshape : (rdIn (two t0 tFuse) t0 (.treshape (sh 0 0)) = true ∧ goesIn (two t0 tFuse) (.treshape (sh 0 0)) = true) ∧
    (rdIn (two tWide tKept) tWide (.treshape (fu 0 0 0 0 1)) = true ∧ goesIn (two tWide tKept) (.treshape (fu 0 0 0 0 1)) = true) ∧
    buddy (two t0 tFuse) t0 = some (3, tFuse) ∧ quietCode (two t0 tFuse) t0 = none ∧ quietCode (two tWide tKept) tWide = none ∧
    ((two tWide tKept).teamsOf 0).find? (fun e => e.2.fused == some 0 && e.2.idx == 1) = some (3, tKept) ∧
    go (tLvl 1) (.treshape (sh 0 0)) = true := by decide +kernel

/-! Irregular work. -/

/-- s3 the region at the window's start, s5 0x10400; an expansion of the team alone, batch 0. -/
def tExp (stat total : Nat) : Team :=
  { t0 with s := [(3, 0xFFFFFE0000000000#64), (5, 0x10400#64), (6, 0x10410#64), (7, 0x10404#64)]
            v := (List.range 8).map fun l => (3 * 1024 + l, 2#32)
            exp := { stat := BitVec.ofNat 64 stat, region := if stat = 0 then 0 else 0xFFFFFE0000000000#64, total := BitVec.ofNat 64 total } }
def wholeB (t : Team) : Bool := (front t).lvl == 0 && t.converged && (front t).mask == t.all && t.flights.isEmpty
theorem witness_expand : ([0, 8, 16].all fun m => go (tExp 0 0) (.expand (fu 0 2 3 3 m)) && go (tExp 0 0) (.expand (fu 0 2 3 3 (m + 32)))) = true ∧
    wholeB (tExp 0 0) = true ∧ regionFault (place (tExp 0 0)) (tExp 0 0) 0xFFFFFE0000000000 (regionBytes 1 8) = none := by
  decide +kernel
theorem witness_batches : [tExp 1 16, tExp 1 0, tExp 65 16].all (fun t => rd t (.exnext (fu 6 0 0 1 0)) && wholeB t) = true ∧
    goesIn (place (tExp 1 0)) (.exnext (fu 6 0 0 1 0)) = true := by decide +kernel
theorem witness_segments : go (tExp 1 16) (.segred (fu 0 2 3 0 0)) = true ∧
    go { tExp 1 16 with v := (List.range 8).map fun l => (2 * 1024 + l, 0xFFFFFFFF#32) } (.segred (fu 0 2 3 0 0)) = true ∧
    (let f := flight0 (.segred 0 1) 4 false (.scr 0 72)
     goesIn { place (tFly f) with nextId := 2 } (.homeWrite 0 1 0) = true) := by decide +kernel
theorem witness_expansion_ends : go (tExp 65 16) (.exdone (sh 10 0)) = true ∧
    [5, 6, 7].all (fun a => go (tExp 1 16) (.exsave (sh 0 a)) && go (tExp 0 0) (.exrstr (sh 0 a))) = true ∧
    go { tExp 1 16 with eng := setAt t0.eng 0 (List.replicate 16 (op0 .copy)) } (.exsave (sh 0 5)) = true ∧
    go (tExp 1 16) (.exrstr (sh 0 5)) = true ∧ (tExp 0 0).tliss.length = 4 ∧
    (let t := tExp 0 0
     let s := { place t with mem := (place t).mem.write 0x10400 (leBytes 32 0 ++ leBytes 4 8) }
     ∃ q ∈ [[0, 0, 0, 0, 8, 0, 0, 0]], readQuads (s.setTeam 0 t) t 0x10400 8 = .ok q ∧ exRecordOk t q = true ∧
       readQuads (s.setTeam 0 t) t 0x10440 0 = .ok []) := by decide +kernel
/-- A hash table of two words at the window's start. -/
theorem witness_hash : ([Instr.hins (fu 1 2 3 1 1), .hprobe (fu 1 2 3 1 1), .hins (fu 1 2 4 1 1)].all (go (tExp 0 0))) = true ∧
    windowFault (place (tExp 0 0)) (tExp 0 0) (· ≤ 1) 0xFFFFFE0000000000 = none ∧
    (windowFault (place (tExp 0 0)) (tExp 0 0) (· ≤ 1) 0).isSome = true ∧
    windowLoc (place t0) t0.core 0 0xFFFFFE0000000000 = some (.scr 0 0) ∧
    (let s := { place t0 with wgs := (place t0).wgs.map fun x => (x.1, { x.2 with scr := Store.write [] 0 (List.replicate 8 0xFF#8) }) }
     scrWord s 0 0 4 = 0xFFFFFFFF ∧ scrWord s 0 4 4 = 0xFFFFFFFF) := by decide +kernel
/-- A probe of a table of two words, not made and made: lane 3's key 7. -/
def hashFlight (done : Bool) : Flight :=
  let a : LaneAcc := { lane := 3, reg := 9, data := 7, old := if done then 1 else 0 }
  { id := 1, split := 0, path := 3, kind := .hash true 1 0,
    runs := [{ loc := .scr 0 0, bytes := 4, accs := [a, { a with reg := 257 }], done := done }] }
theorem witness_hash_steps : (let t := { tExp 0 0 with flights := [hashFlight false] }
     let f := hashFlight false
     let r := f.runs.headD { loc := .mem 0, bytes := 0, accs := [] }
     let s := { place t with nextId := 2 }
     goesIn s (.homeWrite 0 1 0) = true ∧ runFree t f 0 r = true ∧ goneRun s t.wg r = false ∧ hashOut s f r = false ∧
     rereadHeld s t.core [(r.loc, r.bytes)] = false ∧ f.matFree s t 0 = true ∧ r.accs.length = 2) ∧
    (let t := { tExp 0 0 with flights := [hashFlight true] }
     goesIn (place t) (.atomicComplete 0) = true ∧ t.flights.find? (fun g => g.path == 3) = some (hashFlight true) ∧
     (hashFlight true).runs.map (·.accs) = [[{ lane := 3, reg := 9, data := 7, old := 1 }, { lane := 3, reg := 256 + 1, data := 7, old := 1 }]]) := by
  decide +kernel
theorem witness_fetch : let t := { tLay with s := [(3, 0#64)], v := [(2 * 1024 + 1, 9#32)] }
    let i := Instr.fetch (fu 8 2 3 0x11 0)
    rdIn (recState t) t i = true ∧ goesIn (recState t) i = true ∧
    (let c := src (recState t) 0 t (front t) i
     (match c.fetchCheck (some rec0) 0 (t.hdl 1) (t.lay 1) 1 1 with | .ok r => r == rec0 | _ => false) = true ∧
     c.unreach 1 = false ∧ (c.misses [(0, 0x10400)]) = [] ∧
     (match c.checkVa 4 0 (kindReaches c.s 3) 0x10400 with | .ok y => y == ⟨.mem 0x10400, false⟩ | _ => false) = true) := by
  decide +kernel

/-! Steps of the memory system and of the engines. -/

/-- The split parked, with a second split behind it. -/
def tPark (k : Park) : Team := { t0 with splits := [{ front t0 with park := some k, mask := 0xF }, { front t0 with id := 5, mask := 0xF0 }] }
/-- Two splits at a NOP. -/
def tNop : Team := { tTwo with timer := 2048, splits := tTwo.splits.map fun p => { p with pc := 1 } }
def twoState : State := { place tNop with mem := (place tNop).mem.write (probeBase + 4) (leBytes 4 0x10000006) }
theorem witness_waits : goesIn (place (tPark (.release 4 9))) (.releaseFenceComplete 0 0) = true ∧
    goesIn (place (tPark (.walk [0x10000, 0x20000]))) (.walkComplete t0.core 0 0x10000) = true ∧
    [Instr.grottoSpillDone 0 0, .grottoReloadDone 0 0].all (fun i => goesIn (place { t0 with splits := [{ front t0 with grotto := true }] }) i) = true ∧
    goesIn (barState (tPark (.waitw (.scr 0 0) 8 0 5 2 none)) 5 0 0) (.monitorWake 0 0) = true ∧
    stopsIn (barState (tPark (.waitw (.scr 0 0) 8 0 5 2 none)) 6 0 0) (.monitorWake 0 0) = true ∧
    goesIn { place { t0 with splits := [{ front t0 with resv := some { flight := 0, pending := [], granules := [], clocks := [(0, 9)], count := 1 } }] } with clocks := [2009, 9, 9, 9] }
      (.reservationTimeout 0 0) = true ∧
    (goesIn twoState (.fairnessRotate 0) = true ∧ stopsIn { twoState with teams := [(0, { tNop with timer := 2047 })] } (.fairnessRotate 0) = true ∧
      tNop.rotate = false ∧ holdsPipe { tNop with rotate := true } (front tNop) = false ∧ (front tNop).holds twoState = false) ∧
    (let t := { tNop with splits := { front tNop with resv := some { flight := 0, pending := [], granules := [], clocks := [], count := 1 } } :: tNop.splits.drop 1 }
     (front t).holds { twoState with teams := [(0, t)] } = true) ∧
    (let t := { t0 with splits := [{ front t0 with park := some (.fifo true 0 0 [7] (fullMask 8) 0 2 none) }] }
     goesIn (fifoState t) (.fifoServe 0 0) = true ∧ (fifoState t).teamsOf 0 = [(0, t)]) := by decide +kernel
/-- A load of a team of partition 1 waits on partition 0's channel of near memory. -/
def stealState : State :=
  { place (tFly { flight0 (.load 4) 0 false (.mem 0x10400) with since := [0, 0, 0, 0] }) with
    wgs := (place t0).wgs.map fun e => (e.1, { e.2 with pid := 1 })
    clocks := [4000, 4000, 4000, 4000] }
theorem witness_phase : goesIn stealState (.phaseSteal 0 (0x10400 / 2048 % 64)) = true ∧ isLocal stealState 0x10400 = true ∧
    expanderDown stealState 0x10400 = false ∧ channelOf stealState 0x10400 = some (0, 32) ∧ thirdKind stealState 1 0 0x10400 = true := by
  decide +kernel
/-- An operation of context 0 from h1 to h2 under l4, or of 32 elements of a tile to h2. -/
def opFrom (a : Nat) (o : EngOp) : Team :=
  { tLay with eng := setAt t0.eng 0 [{ o with dstH := hnd 3 0x10800, dstL := img 0 [(32, 1, 0)], srcH := hnd 3 a, srcL := img 0 [(32, 1, 0)] }] }
def opT (o : EngOp) : Team := opFrom 0x10400 o
def nextOp (o : EngOp) : Option Bool := match ((opT o).ops 0).head? with
  | some x => (match x.advance (place (opT o)) 0 (opT o) with | .ok _ => some true | .error _ => some false)
  | none => none
/-- An operation to 128 bytes at the scratchpad's start. -/
def opScr (o : EngOp) : EngOp :=
  { o with started := true, dstH := hnd 1 0xFFFFFE0000000000, dstL := img 0 [(32, 1, 0)], srcH := hnd 3 0x10400, srcL := img 0 [(32, 1, 0)] }
def placedAt (s : State) (t : Team) (h : Hdl) (l : Lay) (access : Nat) (loc : Nat → Loc) (i : Nat) : Bool :=
  match enginePlace s t h access l.width (locate h l i) with | .ok x => x == [(loc i, l.width)] | .error _ => false
/-- The premises of the concrete chunks: one chunk of 32 elements, read at 0x10400, written at the scratchpad's start. -/
def scrChunk (k : EngKind) : Bool :=
  let o := opScr (op0 k)
  let t := { tLay with eng := setAt t0.eng 0 [o] }
  let s := place t
  decide (((t.ops 0).head?).any (· == o) = true) && engineFree t 0 o && o.applied == [] && o.expo == none && !o.dst.2.scaled &&
  (o.chunks[o.chunk]?).any (fun c => c == (0xFFFFFE0000000000 / 128, (List.range 32).map fun i => (0, i))) && (s.wgs.at? 0).isSome &&
  (List.range 32).all (fun i => ((locate o.dst.1 o.dst.2 i).lines o.dst.2.width).length == 1 &&
    placedAt s t o.dst.1 o.dst.2 1 (fun i => .scr 0 (4 * i)) i && placedAt s t o.src.1 o.src.2 0 (fun i => .mem (0x10400 + 4 * i)) i) &&
  (if k.copies then o.moves && goesIn s (.copyChunk 0 0) else drainTurn s t.core 0 0 && goesIn s (.drainChunk 0 0))
theorem witness_chunks : scrChunk .copy = true ∧ scrChunk (.drain false) = true := by decide +kernel
theorem witness_engine_steps : goesIn (place (opT (op0 .copy))) (.copyEngineStart t0.core) = true ∧
    [0x10400, 0x50000].all (fun a => goesIn (place (opFrom a { op0 .copy with started := true })) (.copyChunk 0 0)) = true ∧
    nextOp { op0 .copy with started := true } = some true ∧
    goesIn (place (opT (op0 (.drain false)))) (.drainChunk 0 0) = true ∧
    drainTurn (place (opT (op0 (.drain false)))) t0.core 0 0 = true ∧
    [(EngKind.copy, Instr.copyComplete 0 0), (.drain false, .drainOperationComplete 0 0)].all (fun x =>
      let o := { op0 x.1 with started := true, chunk := 1 }
      goesIn (place (opT o)) x.2 && ((opT o).ops 0).all (fun y => y.written && y.acked (place (opT o)) t0.core) &&
      (opT o).tlc.length == 4 && (opT o).eng.length == 5) = true := by decide +kernel
theorem witness_bank_change : let t := { t0 with splits := [{ front t0 with park := some (.bankcfg 0 2 1) }] }
    goesIn (place t) (.bankcfgChangeComplete 0 0) = true ∧
    (match (place t).wgs.at? 0 with | some w => bankReady (place t) w 0 0 | none => false) = true ∧ fifoParked (place t) 0 0 = false := by
  decide +kernel

/-! Steps of the scheduler. -/

theorem witness_preempt : goesIn (place { t0 with preempt := true }) (.preemptDelivery 0) = true ∧
    goesIn (place { t0 with preempt := true, splits := [{ front t0 with pc := 1, rep := some ⟨0, 1, 1, 1, 0, 0, 0⟩ }] }) (.preemptDelivery 0) = true ∧
    privRoom (place { t0 with preempt := true }) t0 = true ∧ corrHeld (place t0) t0 = false ∧ corrFault (place t0) t0 = none := by
  decide +kernel
/-- A trap that waits for its entry. -/
def tPend (cause : Nat) : Team :=
  let r : TrapRec := { cause := cause, team := cause != 0x80, order := 1, len := 1 }
  { tHand with splits := [{ front tHand with park := some (if cause = 0x80 then .lodge else .trap), pend := [r] }] }
theorem witness_waiting_traps : [0x80, 0x11, 0x13, 0x9F].all (fun k => goesIn (hdrState (tPend k)) (.trapEntry 0 0)) = true ∧
    handlerIndex (hdrState (tPend 0x80)) (tPend 0x80) = some 2 ∧ mayEnter (hdrState (tPend 0x80)) 0 (tPend 0x80) 1 = true ∧
    corrFault (hdrState (tPend 0x80)) (tPend 0x80) = none ∧ corrHeld (hdrState (tPend 0x80)) (tPend 0x80) = false ∧ (tPend 0x80).pathsBusy = false := by decide +kernel
/-- Partition 0's control block at host 0x1000: a fault queue of 16 slots at host 0x2000, an enabled launch queue 0 of
16 records at host 0x3000, its tail 1. -/
def ctlState (s : State) (tail : Nat) : State :=
  let h := 0x8000_0000_0000
  { s with
    dev := { s.dev with bringup := 9 }
    qtbase := [(0, 0x1001#64)]
    mem := ((s.mem.write (h + 0x1000) (leBytes 8 0x2000 ++ leBytes 1 4)).write (h + 0x1100)
      (leBytes 8 0x3000 ++ leBytes 8 0 ++ leBytes 1 4 ++ leBytes 1 3 ++ leBytes 1 1)).write (h + 0x1140) (leBytes 8 tail) }
def freq0 : FaultReq :=
  { team := 0, core := t0.core, pid := 0, grid := 0, split := 0, va := 0x50000, tpc := 0, cause := 0x10, access := 0, lanes := fullMask 8 }
def tFault : Team := { t0 with stop := true, splits := [{ front t0 with park := some (.fault 1) }] }
/-- Its entry's RESUME is r. -/
def resumeState (r : Nat) : State :=
  { place tFault with
    mem := (place tFault).mem.write (0x8000_0000_2000 + 56) (leBytes 8 r)
    faultQ := [{ team := 0, split := 0, pid := 0, seq := 1, slotPa := 0x8000_0000_2000, cause := 0x10, grid := 0, lanes := fullMask 8 }] }
theorem witness_faults : (let s := { ctlState (place tFault) 1 with faultReq := [freq0] }
     goesIn s (.faultQueueWrite 0) = true ∧ (match faultQueueOf s 0 with | some q => slotFree s q | none => false) = true) ∧
    (let s := { place tFault with faultReq := [freq0] }
     goesIn s (.faultQueueWrite 0) = true ∧ faultQueueOf s 0 = none) ∧
    [1, 2].all (fun r => goesIn (resumeState r) (.faultResume 0) && quadAt (resumeState r) (0x8000_0000_2000 + 56) == r) = true := by
  decide +kernel
theorem witness_requests : (let t := { t0 with splits := [{ front t0 with park := some (.claim 8 1) }] }
     let s := { place t with cores := [(coreKey t0.core, { claims := [(0, 0, 8)] })] }
     goesIn s (.claimGrant t0.core) = true ∧ slabsOf 72 4 8 3 - t.slabs ≤ freeSlabs s t0.core) ∧
    (let t := { tMig false 0 with splits := [{ front (tMig false 0) with park := some .migrate }] }
     let s := { mapState t with migs := [(0, [{ team := 0, split := 0, toL := false, pred := some 1, entry := ⟨3, absent, 0, 0, []⟩ }])] }
     goesIn s (.migrationServe 0 0) = true ∧ (migTarget s t false).isSome = true ∧ (targetBody s t ⟨3, absent, 0, 0, []⟩ false).isSome = true ∧
     (let t1 := { t with xfer := some { dest := ⟨0, 0, 1⟩, slot := 0, body := { t.body with kind := .nativeD }, entry := ⟨3, absent, 0, 0, []⟩, pred := some 1 } }
      goesIn (mapState t1) (.migrationComplete 0) = true)) ∧
    goesIn (place { t0 with splits := [{ front t0 with park := some .launch }] }) (.launchRetry 0 0) = true := by decide +kernel
/-- Launch queue 0 read, its tail line held, a record at its HEAD. -/
def queueState (tail : Nat) : State :=
  let s := ctlState (place t0) tail
  { s with queues := [(0, { ring := 0x3000, ptbase := 0, logn := 4, prio := 3, en := true, bad := false, ovfl := false })],
           watched := if tail = 0 then [0x8000_0000_1100] else [0x8000_0000_1100, 0x8000_0000_1140], grids := [] }
def childRec : ChildRec := { lrec := List.replicate 16 0, gid := 7, parent := 0, team := 0 }
theorem witness_queues : goesIn { queueState 1 with queues := [], watched := [] } (.descriptorReread 0 0) = true ∧
    goesIn (queueState 0) (.queueMonitorWake 0 0) = true ∧
    (goesIn (queueState 1) (.takeRecord 0 0 0) = true ∧ lineHeld (queueState 1) 0x8000_0000_1100 = true ∧ lineHeld (queueState 1) 0x8000_0000_1140 = true ∧
      queueLen (queueState 1) 0x8000_0000_1100 = 1 ∧ coresOf (queueState 1) 0 0 ≠ [] ∧
      (recordDetail (recordAt (queueState 1) (hostPa (queueState 1) 0x3000)) 0).isSome = true) ∧
    descOf (queueState 1) 0 0 = some 0x8000_0000_1100 ∧
    ([(true, []), (false, []), (true, [0x8000_0000_1100])].all fun x =>
      let s := { queueState 1 with queues := (queueState 1).queues.map (fun e => (e.1, { e.2 with ovfl := true, written := x.1 })), watched := x.2 }
      lineHeld s 0x8000_0000_1100 == !x.2.isEmpty && goesIn s (.descriptorReread 0 0) == x.2.isEmpty) = true ∧
    [GState.dispatched, .failing].all (fun x => let g : Grid := { probeGrid with st := x, fail := some (failed 1 0) }
      goesIn { queueState 1 with grids := [g], dqueues := [(0, [childRec])] } (.takeChildRecord 0 0)) = true := by decide +kernel
/-- A grid with one dependence word at 0x10408, threshold 5, and a completion word at 0x10410. -/
def depGrid (st : GState) (w : Option Quad) : Grid :=
  { probeGrid with st := st, fail := w, parent := some (9, 0),
                   lrec := [0x30000, 0, 0, 0x100001000001, 0x40000061, 0, 0x10410, 77, 0x10408, 5, 0, 0, 0, 0, 0, 0] }
def depMem (g : Grid) (v : Nat) : State :=
  let s := kernelMem (place { t0 with children := 1 })
  { s with grids := [g], wgs := [], mem := s.mem.write 0x10408 (leBytes 8 v) }
/-- A TAKEN grid whose kernel object lies in another package whose route trains, or whose record fails a check. -/
def takenGrid (ako : Nat) (teams : Nat) : Grid :=
  { probeGrid with st := .taken, lrec := [BitVec.ofNat 64 ako, 0, 0, 0x100001000001, BitVec.ofNat 64 (teams + 3 * 32)] ++ List.replicate 11 0 }
def takenState (g : Grid) : State :=
  let s := kernelMem (place t0)
  { s with grids := [g], mem := s.mem.write 0x20000 (leBytes 8 (3 * 2 ^ 48 + 0x1F)),
           dev := { s.dev with links := [(16, { state := 1 })], routes := [(3, 0x80000000#32)] } }
theorem witness_checks_wait :
    (match checkRecord (takenState (takenGrid 0x30000 1)) 0 0 (takenGrid 0x30000 1).lrec with | .error 0 => true | _ => false) = true ∧
    (match checkRecord (takenState (takenGrid 0x30000 0)) 0 0 (takenGrid 0x30000 0).lrec with | .error k => decide (0 < k) | _ => false) = true ∧
    stopsIn (takenState (takenGrid 0x30000 1)) (.dependenceWake 0) = true ∧
    goesIn (takenState (takenGrid 0x30000 0)) (.dependenceWake 0) = true := by decide +kernel
theorem witness_grids : [5, 2 ^ 63 + 9].all (fun v => goesIn (depMem (depGrid .waiting none) v) (.dependenceWake 0)) = true ∧
    (depState (depMem (depGrid .waiting none) 5) (depGrid .waiting none) = (none, true) ∧
      depState (depMem (depGrid .waiting none) 4) (depGrid .waiting none) = (none, false) ∧
      (depState (depMem (depGrid .waiting none) (2 ^ 63)) (depGrid .waiting none)).1.isSome = true) ∧
    [GState.eligible, .dispatched, .retiring].all (fun x => goesIn { place t0 with grids := [{ probeGrid with st := x, fail := some (failed 1 0) }] }
      (.gridFailure 0)) = true ∧
    [(none, GState.retiring), (some (failed 1 0), .failed)].all (fun x =>
      goesIn (depMem (depGrid x.2 x.1) 0) (.gridRetire 0) && mayRetire (depMem (depGrid x.2 x.1) 0) (depGrid x.2 x.1)) = true ∧
    devTranslate (depMem (depGrid .failed none) 0) 0 0 0x10410 1 = .ok 0x10410 := by decide +kernel
/-- An eligible grid of PRIO 7, offered on die 0, its record and kernel object in memory; a resident workgroup of PRIO 0. -/
def newGrid : Grid :=
  { probeGrid with gid := 5, st := .eligible, next := 0, prio := 7, ages := [(0, 0)], parent := some (0, 0),
                   lrec := [0x30000, 0, 0, 0x100001000001, 0x61] ++ List.replicate 11 0 }
def schedState (t : Team) : State :=
  let s := kernelMem (place t)
  { s with grids := [probeGrid, newGrid], dev := { s.dev with bringup := 9 } }
def tChild : Team := { t0 with splits := [{ front t0 with park := some (.waitchild 1) }] }
theorem witness_placing : (let s := schedState t0
     goesIn s (.placeWorkgroup 0 5) = true ∧ mayPlace s 0 0 (.grid 5) = true ∧ (pickCore s newGrid 0).isSome = true ∧
     (pickBody s newGrid true).isSome = true ∧ lrTeams newGrid.lrec = 1) ∧
    (let s := { schedState t0 with teams := [], savedTeams := [(0, t0)], wgs := (place t0).wgs.map fun e => (e.1, { e.2 with st := .saved, blocks := [] }),
                                   grids := [probeGrid] }
     goesIn s (.restoreWorkgroup 0) = true ∧ mayPlace s 0 0 (.wg 0) = true ∧ (restored s 0).isSome = true) := by decide +kernel
theorem witness_scheduling : (let s := schedState tChild
     firstInLevel s 0 newGrid = true ∧ goesIn s (.gridBlocking 0 5) = true ∧ goesIn s (.childRescuePreempt 0 5) = true ∧
     waitsChildren s 0 = true ∧
     (let b := fun since => { s with grids := [probeGrid, { newGrid with blocked := [(0, since)] }], blocking := [(0, 5)], clocks := List.replicate 4 200000 }
      goesIn (b 150000) (.priorityPreempt 0 5) = true ∧ stopsIn (b 150001) (.priorityPreempt 0 5) = true) ∧
     goesIn s (.partitionTurn 3) = true) := by decide +kernel
def body0 (d : List Byte) : TransBody := { ptbase := 0, ako := 0, kindL := true, digest := d, words := [], eq := [], corr := [], live := [] }
/-- The kernel object with an empty portable body, and the request for a body of it. -/
def ako0 : Ako := { (probeGrid.ako.getD ⟨0, 0, 0, 0, 0, 0, 0, 0, 0, 0, 0, 0, 0, 0, 0, 0, 0, 0⟩) with pLen := 0 }
def treq0 : TransReq := { die := 0, ptbase := 0, ako := ako0, kindL := true, begun := true }
theorem witness_bodies : goesIn { place t0 with reqTrans := [body0 []], transReq := [treq0] } .translatedBodyInstall = true ∧
    treq0.builds { place t0 with reqTrans := [], transReq := [treq0] } (body0 []) = true ∧
    portableBytes (place t0) 0 0 ako0 = some [] ∧ transUsed (place t0) 0 = 0 := by decide +kernel
/-- A grid whose kernel object has an empty portable body, and one installed body, its digest the digest of no byte. -/
def digestGrid : Grid := { probeGrid with ako := probeGrid.ako.map fun a => { a with pLen := 0 } }
def digestState : State :=
  { place t0 with grids := [digestGrid], trans := [(7, { body := body0 (sha384 []), die := 0, used := 7 })] }
theorem witness_digest : digestState.gridOf digestGrid.gid = some digestGrid ∧
    (digestGrid.ako.bind fun a => portableBytes digestState 0 0 a) = some [] ∧
    goesIn digestState (.digestCheck digestGrid.gid true) = true := ⟨rfl, by decide +kernel, by decide +kernel⟩

/-! Steps of the device. -/

/-- The device ready, nothing running, the points of R16 as the cap allows. -/
def upDev (b : Nat) : State := { State.reset with dev := { State.reset.dev with bringup := b, replica := false, stepping := 0, opp := 0 } }
def mbox (b op : Nat) (bmc : Bool) (payload : List Byte) : State := { upDev b with reqMbox := [⟨bmc, BitVec.ofNat 16 op, payload⟩] }
/-- A command with its payload in a ready device is answered. -/
def serves (i : Instr) (op : Nat) (payload : List Byte) : Bool := goesIn (mbox 9 op false payload) i
theorem witness_commands : (commands.all fun x => goesIn (mbox 9 x.2.1 true []) x.1 && goesIn (mbox 5 x.2.1 false []) x.1 &&
      goesIn { mbox 2 x.2.1 false [] with dev := { (upDev 2).dev with recovery := true } } x.1 && goesIn (mbox 9 x.2.1 false [1]) x.1) = true ∧
    [0xBFFF, 0xC00D].all (fun o => goesIn (mbox 9 o false []) .mailboxUnsupported) = true := by decide +kernel
theorem witness_reports : serves .state 0xC000 [] = true ∧ [0, 1, 15, 16].all (fun n => serves .preport 0xC004 (leBytes 4 n)) = true ∧
    [0, 5, 6, 16, 51, 52, 71, 256, 327, 512].all (fun n => serves .linkst 0xC005 (leBytes 4 n)) = true ∧
    serves .measure 0xC009 (List.replicate 32 0) = true ∧
    [0, 4, 5].all (fun n => serves .errcnt 0xC00B (leBytes 16 n)) = true ∧ serves .event 0xC00C [] = true ∧
    goesIn { mbox 9 0xC00C false [] with dev := { (upDev 9).dev with events := [⟨1, 2, 3, 4⟩] } } .event = true := by decide +kernel
/-- A descriptor: partition 1 of cluster 0, point 0, one virtual channel, lease 9. -/
def desc1 : Nat := 1 + 1 * 2 ^ 64 + 1 * 2 ^ 72 + 9 * 2 ^ 76
def withPart (s : State) : State := { s with parts := [(0, {}), (1, { clusters := 1, vcs := [0] })] }
theorem witness_changes : [1599, 1600, 2800, 2801, 1601].all (fun n => serves .capset 0xC001 (leBytes 4 n)) = true ∧
    [desc1, 1].all (fun n => serves .pcreate 0xC002 (leBytes 16 n)) = true ∧
    (createStatus (upDev 9) (PDesc.read desc1) = 0 ∧ createStatus (upDev 9) (PDesc.read 1) ≠ 0) ∧
    [0, 1, 15, 16].all (fun n => goesIn (withPart (mbox 9 0xC003 false (leBytes 4 n))) .premove) = true ∧
    goesIn { withPart (mbox 9 0xC003 false (leBytes 4 1)) with grids := [{ probeGrid with pid := 1 }] } .premove = true ∧
    [0, 35, 36].all (fun n => serves .retrain 0xC006 (leBytes 4 n)) = true ∧
    [511, 512, 2 ^ 31, 2 ^ 16 * 35 + 2 ^ 24 * 63].all (fun n => serves .routewr 0xC007 (leBytes 4 n)) = true ∧
    [511, 512].all (fun n => serves .pkgnum 0xC008 (leBytes 4 n)) = true ∧
    [0, 1, 2].all (fun k => serves .fwload 0xC00A (leBytes 4 0 ++ leBytes 4 (if k = 1 then 4096 else 0) ++ leBytes 4 k ++ leBytes 4 0 ++
      List.replicate 4096 0xFF#8)) = true := by decide +kernel
theorem witness_caps : powerSum (mbox 9 0xC001 false (leBytes 4 2800)) 3 + 560 ≤ 2800 := by decide +kernel
def regW (off : Nat) (v : Quad) : State := { withPart (upDev 9) with reqRegs := [(off, v)] }
theorem witness_registers : [1, 2].all (fun p => goesIn (regW (0x1000 + 8 * p) 0x1001#64) .qtbaseWrite && goesIn (regW (0x1100 + 16 * p) 8#64) .pctlHold &&
      goesIn (regW (0x1100 + 16 * p) 1#64) .pctlGo && goesIn (regW (0x1108 + 16 * p) 1#64) .registerWrite &&
      goesIn (regW (0x1200 + 8 * p) 1#64) .registerWrite) = true ∧ goesIn (regW 0x1110 7#64) .pctlGo = true ∧
    goesIn { regW 0x1110 1#64 with pctl := [(1, 1#64)] } .pctlGo = true ∧ bits 7#64 2 1 = 3 ∧ bits 1#64 2 1 = 0 := by decide +kernel
def hostS (r : List HostReq) (f : List FabReq) : State := { upDev 9 with reqHost := r, reqFab := f, hostLines := [0x8000_0000_0040] }
theorem witness_outside : goesIn (hostS [.read 0x10040 64] []) .hostMemRead = true ∧ goesIn (hostS [.write 0x1007F [1#8]] []) .hostMemWrite = true ∧
    [false, true].all (fun b => goesIn (hostS [.snoop 0x40 b] []) .hostSnoop) = true ∧
    [Access.read 8, .write [1, 2], .atomic 0 4 5 0].all (fun a => goesIn (hostS [] [⟨3, 0, 0x10040, a⟩]) .fabricRequest &&
      servable (upDev 9) 0x10040 (accessBytes a) && !hostMayHold (upDev 9) (ownPa (upDev 9) 0x10040) (accessBytes a)) = true ∧
    siteTakes (upDev 9) 0x10040 0 4 = true ∧ servable (upDev 9) 0x7000_0000_0000 8 = false ∧
    goesIn (hostS [] [⟨3, 14, 0x7000_0000_0000, .read 8⟩]) .fabricRequest = true ∧
    (let d := { (upDev 9).dev with expanders := [(0, 16)], links := [(64, {})] }
     goesIn { hostS [] [⟨3, 0, 0x1000_0000_0000, .read 8⟩] with dev := d } .fabricRequest = true ∧
     servable { upDev 9 with dev := d } 0x1000_0000_0000 8 = true ∧ expanderDown { upDev 9 with dev := d } 0x1000_0000_0000 = true) ∧
    goesIn { upDev 9 with fabReqs := [(4, ⟨0, 0, 0, 0, 3, 0⟩)] } (.fabricCompletion 4) = true ∧
    goesIn { upDev 9 with remote := [(4, 0, 5, 0)], clocks := [6, 6, 6, 6] } (.fabricCompletion 4) = true ∧
    stopsIn { upDev 9 with remote := [(4, 0, 5, 0)], clocks := [5, 5, 5, 5] } (.fabricCompletion 4) = true ∧
    spaceOf (upDev 9) 0x10040 = .near 0 ∧ hostPa (upDev 9) 0x40 / 64 * 64 = 0x8000_0000_0040 := by decide +kernel
def find0 : StepFinding :=
  { boundaries := [56, 56, 56, 56, 8, 8], lanesUsed := [], retired := [], lpddrGB := 3072, expanderGB := [], lanes := [], ports := List.replicate 36 4 }
theorem witness_bringup : goesIn (upDev 9) .powerOn = true ∧
    (List.range 8).all (fun b => goesIn { upDev (b + 1) with findings := [find0] } .bringupStepDone) = true ∧
    [1, 2, 3, 4, 5, 6, 7].all (fun b => goesIn { upDev b with findings := [find0] } .bringupStepTimeout) = true ∧
    goesIn (upDev 4) .hostLinkRetry = true ∧ goesIn { upDev 2 with dev := { (upDev 2).dev with recovery := true } } .hostLinkRetry = true ∧
    finding6Ok find0 = true := by decide +kernel
/-- A link of a selector. -/
def linkS (sel : Nat) (l : Link) : State := { upDev 9 with dev := { (upDev 9).dev with links := [(sel, l)] } }
theorem witness_links : [0, 5, 16, 51, 64, 71].all (fun k => goesIn (linkS k { state := 2 }) (.flitCrcFail k) &&
      goesIn (linkS k { state := 2, replay := true }) (.flitReplayResult k true ⟨0, 0⟩)) = true ∧
    [0, 5].all (fun k => goesIn (linkS k { state := 2, replay := true, used := [(7, 3)], sparelane := 1 }) (.flitReplayResult k false ⟨7, 67⟩) &&
      goesIn (linkS k { state := 2, paused := true }) (.modulePauseEnd k)) = true ∧
    [16, 51].all (fun k => goesIn (linkS k { state := 2, replay := true, active := 2 }) (.flitReplayResult k false ⟨0, 3⟩) &&
      goesIn (linkS k { state := 1 }) (.retrainComplete (k - 16) 4) && goesIn (linkS k { state := 1 }) (.retrainComplete (k - 16) 0) &&
      goesIn (linkS k { state := 1 }) (.portNoPartner (k - 16))) = true ∧
    [64, 71].all (fun k => goesIn (linkS k { state := 2 }) (.expanderFail (k - 64))) = true ∧
    (let s := { place (tFly (flight0 (.load 4) 0 false (.mem (3 * 2 ^ 48 + 0x400)))) with dev := { (linkS 16 { state := 1 }).dev with routes := [(3, 0x80000000#32)] } }
     let held := fun e => namesPort 0 e && !entryCarries s e
     goesIn s (.portHoldTimeout 0) = true ∧ 3 ∈ packagesUsed s ∧ (routeOf s 3).getLsbD 31 = false ∧
     (s.teams.all fun e => (List.range 512).all fun q => teamLost s q held true e == (q == 3)) = true ∧ s.grids.all (fun g =>
       (List.range 512).all fun q => !gridHeld s q g) = true) := by
  decide +kernel
theorem witness_heat : [0, 3].all (fun d => goesIn (upDev 9) (.tempHigh d) && goesIn (upDev 9) (.thermalTrip d 110)) = true ∧
    goesIn { upDev 9 with dev := { (upDev 9).dev with lowered := [(63, 1#8)] } } (.islandRaise 63) = true ∧
    loweredBy { upDev 9 with dev := { (upDev 9).dev with lowered := [(63, 1#8)] } } 63 ≠ 0 ∧
    goesIn (upDev 9) (.eccUncorrectable (.near 0x10000)) = true ∧
    [false, true].all (fun b => goesIn { upDev 9 with dev := { (upDev 9).dev with rereads := [.near 0x10000] } } (.eccRereadResult b)) = true ∧
    goesIn { upDev 9 with orangery := [(0, { counters := [(0, 9#8)] })] } (.orangeryDecay 0 0) = true := by decide +kernel

/-! Exits, changes of body, records, refused operands, the matrix unit. -/

/-- EXIT issues and is not stopped by a park. -/
def exitOk (t : Team) : Bool := go t (.exit (sh 0 0)) && (front t).park.isNone && !t.ended
theorem witness_exits : [t0, { t0 with flights := [flight0 .store 1 false (.mem 0x10400)] }, tJoin 1 false, tJoin 2 false].all exitOk = true ∧
    (others (cx t0 (.exit (sh 0 0))) = [] ∧ t0.joins = [] ∧ (∀ e ∈ (place t0).cores, e.2.claims = []) ∧
      (∀ x, (place t0).wgs.at? 0 = some x → x.st = .resident)) ∧
    (∀ n ∈ [1, 2], (tJoin n false).joins.all (fun r => r.pend.isEmpty && !r.spilled) = true ∧ (front (tJoin n false)).parent = some 9) ∧
    (let t := { tLvl 1 with splits := (tLvl 1).splits ++ [{ front t0 with id := 5, mask := 0xF0 }] }
     exitOk t = true ∧ (match t.uframe.bind (·.split) with | some q => q.parent.isNone && q.id == 0 | none => false) = true ∧
     ((t.splits.filter fun x => x.lvl != 1).filter fun x => x.id != 0) ≠ []) := by decide +kernel

/-- An EQPT of a portable body, its continuation on the L-core native; the word after it no MIGRATE at 1, a MIGRATE at 2. -/
def tPort (pc : Nat) (m : List MatOp) : Team :=
  { t0 with body := { t0.body with kind := .portable }, mat := m, splits := [{ front t0 with pc := pc }] }
theorem witness_body_changes : ([(1, false, []), (1, false, [accz0 false]), (2, true, [])].all fun x =>
      let t := tPort x.1 x.2.2
      let c := src (mapState t) 0 t (front t) (.eqpt (sh 0 3))
      rdIn (mapState t) t (.eqpt (sh 0 3)) && goesIn (mapState t) (.eqpt (sh 0 3)) &&
      (match smapEntry (mapState t) t 3 with | .ok (some m) => (c.better m).isSome | _ => false) &&
      (match migrateNext c.s c.t x.1 1 with | .ok b => b == x.2.1 | .error _ => false)) = true := by decide +kernel
/-- At the MIGRATE with D-cores to move to, its queue empty or with a request. -/
def migState (n : Nat) : State :=
  let s := mapState (tMig false 0)
  { s with migs := if n = 0 then [] else [(0, [{ team := 7, split := 0, toL := true, pred := none, entry := ⟨3, 0, 0, 0, []⟩ }])]
           cores := if n = 2 then (List.range 6).map fun i => (i, { claims := [(9, 0, 1)] }) else [] }
theorem witness_migration_queue : ([(0, 1), (0, 3), (1, 3), (1, 1), (2, 1), (2, 3)].all fun x =>
      rdIn (migState x.1) (tMig false 0) (.migrate (sh (x.2 / 2) x.2)) && goesIn (migState x.1) (.migrate (sh (x.2 / 2) x.2))) = true ∧
    quiet (tMig false 0) (.migrate (sh 0 1)) false = some 3 ∧ kindCores (tMig false 0).core false ≠ [] ∧
    (migTarget (migState 0) (tMig false 0) false).isSome = true ∧ (migTarget (migState 2) (tMig false 0) false).isNone = true ∧
    (targetBody (migState 0) (tMig false 0) ⟨3, 0, 0, 0, []⟩ false).isSome = true := by decide +kernel

theorem witness_fifo_acquire : let t := { tMem with s := [(5, 0#64)] }
    rdIn (fifoState t) t (.qpop (fu 3 5 0 0 0x30)) = true ∧ goesIn (fifoState t) (.qpop (fu 3 5 0 0 0x30)) = true := by decide +kernel
theorem witness_refused_entries : go tLay (.ltrans (fu 1 3 20 0 0)) = true ∧
    (ltransOf (tLay.lay 3) ((cx tLay (.ltrans (fu 1 3 20 0 0))).rdS 20)).isNone = true := by decide +kernel
theorem witness_banks : [Instr.bankcfg (gu (fu 0 20 0 0 1) 1), .bankcfg (fu 0 16 0 0 1)].all (go tLay) = true ∧
    (cx tLay (.bankcfg (gu (fu 0 20 0 0 1) 1))).guarded (gu (fu 0 20 0 0 1) 1) = false ∧
    (match (place tLay).wgOf tLay with | some g => decide (g.blocks.length ≤ 0x10400) | none => false) = true := by decide +kernel

/-- rec0 of a field and its permissions and valid bit as given. -/
def recV (perm valid : Nat) : BRec := BitVec.ofNat 320 (0x10400 + 4 * 2 ^ 64 + (5 * 2 ^ 6 + perm * 2 ^ 25 + valid * 2 ^ 28) * 2 ^ 128)
def recS (l : List BRec) (t : Team) : State := { place t with wgs := (place t).wgs.map fun e => (e.1, { e.2 with brecs := l }) }
/-- Accesses through record 0 of lanes with indexes 0 and 4, the last beyond its extent. -/
def tRec : Team := { tMem with v := [(2 * 1024 + 1, 4#32)] }
def recOk (l : List BRec) (i : Instr) : Bool := rdIn (recS l tRec) tRec i && goesIn (recS l tRec) i
theorem witness_refused_records : ([[], [recV 7 0], [recV 0 1], [recV 4 1]].all fun l =>
      [Instr.ld (mw 8 2 0 0 1), .st (mw 8 2 0 0 1), .atomAdd (mw 8 2 0 0 1)].all (recOk l)) = true ∧
    ([Instr.ld (mw 8 2 0 0 5), .st (mw 8 2 0 0 5), .atomAdd (mw 8 2 0 0 5)].all (recOk [rec0])) = true ∧
    ([1, 2, 5].all fun n => (recFault [rec0] 0 n).isNone) = true ∧ BRec.nf rec0 = 1 ∧ (mw 8 2 0 0 5).size = 1 ∧
    recAtomSize rec0 0 ≠ none := by decide +kernel
theorem witness_record_accesses : ([(0, Instr.ld (mw 8 2 0 0 1)), (1, .st (mw 8 2 0 0 1)), (2, .atomAdd (mw 8 2 0 0 1))].all fun x =>
      let s := recS [rec0] tRec
      let c := src s 0 tRec (front tRec) x.2
      let w := mw 8 2 0 0 1
      recOk [rec0] x.2 && (recMore (records c) (recordNo c w) (16 + x.1) 0 w).isEmpty && recordNo c w == 0 &&
      (records c)[0]? == some rec0 && (recordPairs c w rec0).length == 7 &&
      reachesB c 4 x.1 (recordPairs c w rec0) (fun _ => memTr 0 0)) = true ∧
    recOk [rec0] (.atomFadd (mw 8 2 0 0 1)) = true ∧ recAtomSize rec0 8 = none ∧
    atomAccepts ((cx tRec (.atomAdd (mw 8 2 0 0 1))).rowOf (memTr 0 0).loc) (nearLoc (memTr 0 0).loc) 0 ((recAtomSize rec0 0).getD 0) = true := by
  decide +kernel

/-- An odd D where the record's elements are of 64 bits. -/
def rec8 : BRec := BitVec.ofNat 320 (0x10400 + 4 * 2 ^ 64 + (6 * 2 ^ 6 + 7 * 2 ^ 25 + 2 ^ 28) * 2 ^ 128)
theorem witness_odd_pairs : ([Instr.ld (mw 9 2 0 0 1), .st (mw 9 2 0 0 1), .atomAdd (mw 9 2 0 0 1), .ld (mw 8 2 0 0 1)].all (recOk [rec8])) = true ∧
    BRec.elem rec8 = 8 ∧ recFault [rec8] 0 1 = none ∧ recFault [rec8] 0 2 = none ∧ recFault [rec8] 0 5 = none ∧ (mw 9 2 0 0 1).size - 1 < BRec.nf rec8 ∧
    recAtomSize rec8 0 ≠ none ∧ recOdd [rec8] 0 16 0 (mw 9 2 0 0 1) = true ∧ recOdd [rec8] 0 16 0 (mw 8 2 0 0 1) = false := by decide +kernel

/-- Records that SPLITLD refuses: N = 0, another width, an entry of a lane outside the team. -/
def badRecs : List (List Nat) :=
  [savedRec.set 0 0, savedRec.set 1 16, savedRec.set 15 1, savedRec.set 28 0x1FF]
theorem witness_refused_records_of_splits : badRecs.all (fun r =>
      let s := { splitState with mem := (place t0).mem.write 0x10400 (r.flatMap (leBytes 8)) }
      rdIn s (recTeam 0x10400) (.splitld (sh 0 5)) && goesIn s (.splitld (sh 0 5)) &&
      (match rdQuads s (recTeam 0x10400) 0x10400 16 with | .ok h => h == r.take 16 | .error _ => false)) = true := by decide +kernel

theorem allOk_const {α : Type} {f : Nat → Except EFault α} {x : α} (h : ∀ i, f i = .ok x) (l : List Nat) :
    allOk f l = .ok (l.map fun _ => x) := by
  induction l with
  | nil => rfl
  | cons a l ih => simp [allOk, h, ih]
/-- An f32 layout of one element, at a handle's base. -/
def lOne : BitVec 512 := img 0 []
theorem lOne_place (b : Nat) (i : Nat) : locate { kind := 3, base := b, dieset := 0, dstride := 0, scale := 0 } (Lay.read lOne) i = .va (wrap64 b) := by
  have hm : (Lay.read lOne).modes = [] := by decide +kernel
  have ho : (Lay.read lOne).origin = 0 := by decide +kernel
  have hz : (ofInt 64 0).toInt = 0 := by decide +kernel
  simp only [locate, Lay.eval, hm, ho, evalModes, hz, Int.zero_mul, Int.add_zero]
/-- Every element of an operand at h1 under that layout is read, of either plane. -/
theorem witness_planes (n opn : Nat) (sc : Int) : ∃ a,
    readPlane (place t0) t0 (Hdl.read (hnd 3 0x10400)) (Lay.read lOne) n opn sc = .ok a := by
  have hh : Hdl.read (hnd 3 0x10400) = { kind := 3, base := 0x10400, dieset := 0, dstride := 0, scale := 0 } := by decide +kernel
  have hs : (Lay.read lOne).scaled = false := by decide +kernel
  have hp : ∀ i, enginePlace (place t0) t0 (Hdl.read (hnd 3 0x10400)) 0 (Lay.read lOne).width
      (locate (Hdl.read (hnd 3 0x10400)) (Lay.read lOne) i) = .ok [(.mem 0x10400, 4)] := by
    intro i; rw [hh, lOne_place]; decide +kernel
  simp only [readPlane, hs, Bool.not_false, if_true, allOk_const hp]
  exact ⟨_, rfl⟩
/-- Instructions whose operands are those, at the head of the queue of a free unit. -/
def opAt (fn : Nat × Nat) (started : Bool) : MatOp :=
  { accz0 started with fn := fn, fmt := 0, hA := hnd 3 0x10400, hB := hnd 3 0x10400, lA := lOne, lB := lOne }
def unitFree (t : Team) (m : MatOp) : Bool :=
  !(place t).dev.tripped && !m.started && !m.held && !arrayBusy (place t) t.core && !tregWait t m && (m.earlier (place t) t).isEmpty &&
  (partnerOf t.core).isNone
theorem witness_matrix_starts : ([(22, 0), (22, 1), (22, 2), (22, 3), (22, 4), (23, 11), (23, 12)].all fun fn =>
      unitFree { t0 with mat := [opAt fn false] } (opAt fn false)) = true ∧
    planeHdl (Hdl.read (hnd 3 0x10400)) 1 = Hdl.read (hnd 3 0x10400) ∧ mmaK 0 = 32 := by decide +kernel
theorem witness_matrix_completes : ([(22, 0), (22, 1), (22, 2), (22, 3), (23, 11)].all fun fn =>
      [{ opAt fn true with trap := some (0x30, [1]) }, { opAt fn true with flags := 1 }].all fun m =>
        let t := { t0 with mat := [m], flags := 0x100 }
        goesIn (place t) (.matrixComplete 0) && (m.trap.isSome || enabledFlags t m.flags != 0) &&
        (t.splits.find? fun q => q.lvl == 0 && q.mask &&& m.mask != 0).isSome) = true := by decide +kernel

/-- Conditions beside those above: tables at hand, no body in use, no host line, no team waiting for the host, pool records held. -/
theorem witness_side_conditions : placementHeld (schedState t0) newGrid = false ∧ transBody digestState digestGrid true = none ∧
    bodyFits (lrRegs digestGrid.lrec) (lrMoms digestGrid.lrec) [] = true ∧
    hostMayHold (depMem (depGrid .failed none) 0) 0x10410 8 = false ∧ isLocal (depMem (depGrid .failed none) 0) 0x10410 = true ∧
    t0.waitsHost (place t0) = false ∧ (∀ w, (place tFault).wgs.at? 0 = some w → w.ready = true) ∧
    goneRun (place t0) 0 { loc := .scr 0 72, bytes := 4, accs := [] } = false := by decide +kernel

/-! The step, and the worked examples of the spec. -/

/-- A portable body of the probe's words: word 1 starts an instruction and so does word 2 (R76). -/
def portState : State :=
  { place t0 with
    dev := State.reset.dev
    grids := [{ probeGrid with ako := probeGrid.ako.map fun a => { a with pOff := probeBase, pLen := 4, bitmap := 0x10100 } }]
    mem := ((place t0).mem.write (probeBase + 4) (leBytes 4 0x10000006 ++ leBytes 4 0x10000006)).write (probeBase + 0x100) [7#8] }
/-- NOP at word 1 of a native clause, and of a portable body. -/
def tNative : Team := { t0 with splits := [{ front t0 with pc := 1, clause := some ⟨0, 1, 7, false, 0⟩ }] }
def tPortable : Team := { t0 with body := { t0.body with kind := .portable }, splits := [{ front t0 with pc := 1 }] }
/-- What StepRunsTheDecodedInstruction asks before its last premise. -/
def stepReady (s : State) (t : Team) : Bool :=
  splitFree s t (front t) && (front t).goal.isNone && (front t).rep.isNone && decide ((front t).pc + 1 < t.body.len) &&
  (breakAt s t (front t)).isNone && (match codeWord s t 1, codeWord s t 2 with
    | .ok a, .ok b => a == 0x10000006#32 && decodeWords a (some b) == .ok (.nop (sh 0 0)) && !xOf a
    | _, _ => false) &&
  (Instr.nop (sh 0 0)).wf && operandsFree s t (front t) (form (.nop (sh 0 0)))
def stepNext (s : State) : Bool := match step s with | .next x => x.mem.wf | _ => false
theorem witness_step : (let s := { portState with grids := [probeGrid], teams := [(0, tNative)], agenda := [.issue 0 0], cur := none };
      stepReady s tNative = true ∧ stepNext s = true ∧ (turnFor { noteReady s with agenda := [] } 0 0).isSome = true ∧ s.mem.wf = true ∧ tNative.body.kind.native = true ∧ isL tNative.core = true ∧
      (form (.nop (sh 0 0))).classOk 7 = true) ∧
    (let s := { portState with teams := [(0, tPortable)], agenda := [.issue 0 0], cur := none };
      stepReady s tPortable = true ∧ stepNext s = true ∧ (turnFor { noteReady s with agenda := [] } 0 0).isSome = true ∧ startBit s tPortable 2 = .ok true) := by decide +kernel

/-- The team after one instruction. -/
def teamIn (s : State) (i : Instr) : Team := ((after s i).teams.at? 0).getD t0
def teamAfter (t : Team) (i : Instr) : Team := teamIn (place t) i

/-- The digest of "abc" (R58): FIPS 180-4's example. -/
theorem test_sha384 : sha384 [0x61, 0x62, 0x63] = beBytes 48
    0xcb00753f45a35e8bb5a03d699ac65007272c32ab0eded1631a8b605a43ff5bed8086072ba1e7cc2358baeca134c825a7 := by decide +kernel
/-- R59: the curve's base point lies on it, as RFC 5639 gives them. -/
theorem test_curve : ecBase.2 * ecBase.2 % ecField = (ecBase.1 ^ 3 + ecCoefA * ecBase.1 + ecCoefB) % ecField := by decide +kernel
/-- R344: SADD wraps at 64 bits; SADD.sat.s32 clamps. -/
theorem test_sadd : (teamAfter { t0 with s := [(2, BitVec.allOnes 64), (3, 2#64)] } (.sadd (fu 1 2 3 0 0))).rdS 0 1 = 1#64 := by
  decide +kernel
/-- R349: RED.add.i32 over the lanes 1, 3, 5, 7 of v2 = l sums to 16 (the fragment of chapter 17). -/
theorem test_red : (teamAfter { t0 with v := (List.range 8).map fun l => (2 * 1024 + l, BitVec.ofNat 32 l), splits := [{ front t0 with mask := 0xAA }] }
    (.red (sh 4 2))).rdS 0 4 = 16#64 := by decide +kernel
/-- R245: three ranked lanes under a guard, the fourth of k = 4 filled. -/
theorem test_topk : let t := { t0 with s := [(4, 4#64)], p := [(1, 7#1024)],
                                       v := [(3 * 1024, 5#32), (3 * 1024 + 1, 9#32), (3 * 1024 + 2, 9#32), (3 * 1024 + 3, 77#32)] }
    let u := teamAfter t (.topk (gu (fu 6 3 4 0 2) 1))
    (List.range 4).map (fun j => ((u.rdV 0 6 j).toNat, (u.rdV 0 7 j).toNat)) = [(1, 9), (2, 9), (0, 5), (0xFFFFFFFF, 0)] := by decide +kernel
/-- The scan of chapter 18, with lane 2 guarded off. -/
theorem test_scan : (List.range 5).map (fun l => ((teamAfter
      { t0 with
        v := (List.range 8).map fun l => (5 * 1024 + l, if l = 0 then 0x3F800000#32 else 0x33800000#32)
        p := [(1, 0xFB#1024)] } (.scan (gu (fu 6 5 0 0 0x10) 1))).rdV 0 6 l).toNat) =
    [0x3F800000, 0x3F800000, 0, 0x3F800001, 0x3F800002] := by decide +kernel
/-- R240: one rounding per block of 16 products 2^−24. -/
theorem test_block_sums : (List.range 4).map (fun n => (dotBlocks 16 (List.replicate 64 (.fin false 1 (-12) false, .fin false 1 (-12) false))
    (n + 1) (0x3F800000, 0)).1) = [0x3F800008, 0x3F800010, 0x3F800018, 0x3F800020] := by decide +kernel
/-- The elements of one tile scaled by 2^−3, in q8p4, RNE and RZ (chapter 11). -/
theorem test_quantising : (fmtOf 0x13).map (fun f => [roundTo f (.fin false 125 0 false) 0 false, roundTo f (.fin true 3 (-3) false) 0 false,
      roundTo f (scaleF (decodeF fmtF32 0x3C23D70A) (-3)) 0 false, roundTo f (.fin false 125 0 false) 1 false].map (·.1)) =
    some [0x78, 0xB4, 0x01, 0x77] := by decide +kernel
/-- R203, R204: the images of the column read, their degrees without and with the swizzle (chapter 10). -/
theorem test_column_read : let h := Hdl.read (hnd 1 0xFFFFFE0000000000)
    let word := fun (x : BitVec 512) k => bits x (32 * k + 31) (32 * k)
    let ly2 := img 0 [(32, 32, 0)]
    let sw := Lay.image { Lay.read ly2 with swz := [⟨5, 2, 7⟩] }
    [word ly2 0, word ly2 1, word ly2 4, word ly2 5] = [0x40, 0, 0x0200001F, 0] ∧
    [word sw 0, word sw 1, word sw 4, word sw 5] = [0x40, 0x715, 0x0200001F, 0] ∧
    [word (img 0 [(32, 1, 1)]) 4, word (img 0 [(32, 1, 1)]) 5] = [0x0010001F, 0x1000] ∧
    [ly2, sw].map (fun x => degreeAt h (Lay.read x) (List.range 32)) = [32, 1] := by decide +kernel
/-- R209: Chain of the padded matrix and its blocks (chapter 10), and the two rejections. -/
theorem test_chain : let a := Lay.read (img 2 [(16, 1, 0), (16, 24, 0)])
    let c := lchainOf a (Lay.read (img 2 [(4, 1, 0), (4, 16, 0), (4, 4, 0), (4, 64, 0)]))
    (match c with | .ok l => l.modes.map (fun m => (m.ext, m.step)) == [(4, 1), (4, 24), (4, 4), (4, 96)] && (l.eval 0x56).elem == 126 | _ => false) = true ∧
    (match lchainOf a (Lay.read (img 2 [(4, 1, 0), (4, 16, 0), (4, 3, 0)])) with | .error _ => true | _ => false) = true := by decide +kernel
/-- R160: one block, three homes (chapter 08). -/
theorem test_homes : let pa := 0x0012_3456_0040
    let s0 : State := { State.reset with parts := [(0, {})] }
    let one := fun near : List Nat => { State.reset with parts := [(0, {}), (1, { clusters := 4, near := near, nearBase := [72, 0, 0, 0] })] }
    [homeSlice s0 pa, homeSlice (one [0, 0, 0, 0]) pa, homeSlice (one [2, 0, 0, 0]) pa] = [some 5, some 11, some 8] := by decide +kernel
/-- R11, R16, R25: the power sums of the admission example. -/
theorem test_power : let p : Nat → Nat → Part := fun die opp => { clusters := BitVec.ofNat 64 (0xFFFF * 2 ^ (16 * die)), opp := opp }
    let s := fun l : List (Nat × Part) => powerSum { State.reset with parts := (0, {}) :: l } 3
    [s [(1, p 1 0)], s [(1, p 1 0), (2, p 2 0)], s [(1, p 1 0), (2, p 2 0), (3, p 3 0)], s [(1, p 1 0), (2, p 2 0), (3, p 3 1)],
     s [(1, p 1 0), (2, p 2 0), (3, p 3 2)], budget 220, budget 215] = [1136, 1504, 1872, 1744, 1616, 1640, 1590] := by decide +kernel
/-- R125: the slabs of the accounting example, step by step. -/
theorem test_slabs : [64, 48, 72].map (fun a => slabsOf a 4 64 6) = [18, 14, 20] := by decide +kernel
/-- R127, R128: RREL 16 lowers A to 48 (POOL's ALLOC and HELD at step 2). -/
theorem test_rrel : let t := { t0 with core := ⟨0, 0, 0⟩, width := 64, twlog := 6, splits := [{ front t0 with mask := fullMask 64 }] }
    let u := teamAfter t (.rrel (fu 0 16 0 0 0))
    (u.regs, u.slabs) = (48, 14) := by decide +kernel
/-- R248, R249, R259, R260: the calibration of chapter 12, trapping and clamped, and the MRELU that is exact. -/
theorem test_moments : let r := momLin 1 3 ⟨0, 0x41100000⟩ ⟨0, 0x3E800000⟩ 0x40A00000
    (nvCheck false r).bad = some 0xBF400000 ∧ (nvCheck false r).m = ⟨0, 0x7FC00000⟩ ∧ (nvCheck true r).m = ⟨0, 0⟩ ∧
    (momNonlin 0 ⟨0x42000000, 0x41100000⟩).1 = ⟨0x42000000, 0x41100000⟩ ∧ (momNonlin 0 ⟨0, 0⟩).1 = ⟨0, 0⟩ := by decide +kernel
/-- R116, R117: after a divergence at a BRC with H = 0 the fall-through is in front; the record and two splits are entries. -/
theorem test_divergence : let u := teamIn (hdrState tDiv) (.brc ⟨0, 1, false, false, 1, 1, 0⟩)
    (u.splits.map (·.mask), u.entries) = ([0xF0, 0x0F], 3) := by decide +kernel
/-- R265: TCAUSE holds cause, RESUME N and the slot; FLATTEN_NONCONTIGUOUS names the condition (chapter 23). -/
theorem test_trap_record : let t := { tHand with ly := [(6, img 0 [(4, 1, 0), (4, 4, 0), (2, 16, 3)])], splits := [{ front tHand with clause := some ⟨1, 3, 4, false, 0⟩ }] }
    let u := teamIn { hdrState t with nextId := 2 } (.lflat (fu 6 6 0 0 1))
    (u.uframe.map fun f => (f.trap.cause, f.trap.resume, f.trap.slot, f.trap.info)) = some (0x21, 0, 1, [1, 2, 0, 0]) := by decide +kernel

end Sys2Proof.Tests
end

section
/-! PROOF. Format I (R297, R345, R359): what the immediate forms write. Issuing first (R315), then what one register write
changes in a team, then the uniform and the lane forms. -/

namespace Sys2Proof.Immediates

open Machine Stated Laws

/-! Issuing. -/

/-- The agenda's split is the one whose meaning runs. -/
theorem withCtx_of_issues {s : State} {tid : Nat} {t : Team} {p : Split} (h : Issues s tid t p) (k : Ctx → Out) :
    withCtx s k = k { s := s, tid := tid, t := t, sp := p } := by
  obtain ⟨hcur, hteam, hsplit⟩ := h
  simp only [withCtx, hcur, hteam, hsplit]

/-- Counting the window of a reservation leaves the repeat prefix (R103, R306). -/
@[simp] theorem window_rep (c : Ctx) : c.window.sp.rep = c.sp.rep := by
  unfold Ctx.window
  split
  · dsimp only; split <;> rfl
  · rfl

@[simp] theorem start_rep (s : State) (tid : Nat) (t : Team) (p : Split) : (start s tid t p).sp.rep = p.rep :=
  window_rep _

/-- Stage 8 finds nothing for an instruction that is ready (R304). -/
theorem tooEarly_of_ready {s : State} {tid : Nat} {t : Team} {p : Split} {i : Instr} (h : Ready s tid t p i) :
    (start s tid t p).tooEarly (form i) = none := by
  obtain ⟨-, -, hpass, -⟩ := h
  simp only [Stated.passes, Bool.and_eq_true, Option.isNone_iff_eq_none] at hpass
  exact hpass.2

/-! Writes of one register in a team. -/

/-- A write of a uniform register sets it and nothing else. -/
theorem setsS_wrS (t : Team) (lvl d : Nat) (x : Quad) : SetsS t (t.wrS lvl d x) lvl d x :=
  ⟨fun r => rdS_wrS t lvl d r x, fun r l => rdV_wrS t lvl d r l x, wrS_frame t lvl d x⟩

/-- A write of a vector register in several lanes leaves the uniform registers alone. -/
theorem rdS_wrVs (l : List (Nat × Word)) (t : Team) (lvl d r : Nat) : (t.wrVs lvl d l).rdS lvl r = t.rdS lvl r := by
  unfold Team.wrVs
  induction l generalizing t with
  | nil => rfl
  | cons e l ih => rw [List.foldl_cons, ih, rdS_wrV]

/-- A write of a vector register in several lanes changes only the vector registers and the frames. -/
theorem wrVs_frame (l : List (Nat × Word)) (t : Team) (lvl d : Nat) :
    t.wrVs lvl d l =
      { t with v := (t.wrVs lvl d l).v, uframe := (t.wrVs lvl d l).uframe, kframe := (t.wrVs lvl d l).kframe } := by
  unfold Team.wrVs
  induction l generalizing t with
  | nil => rfl
  | cons e l ih => rw [List.foldl_cons, ih, wrV_frame]

/-- Among values listed by their lanes, the last one of lane k is lane k's value. -/
theorem find_lane_value {α : Type} (l : List Nat) (f : Nat → α) (k : Nat) :
    ((l.map fun j => (j, f j)).reverse.find? fun e => e.1 == k) = if k ∈ l then some (k, f k) else none := by
  induction l with
  | nil => rfl
  | cons j l ih =>
    simp only [List.map_cons, List.reverse_cons, List.find?_append, ih, List.mem_cons]
    by_cases hk : k ∈ l
    · simp [hk]
    · by_cases hj : k = j
      · subst hj; simp [hk]
      · simp [hk, hj, Ne.symm hj]

/-- The lanes of a mask are those below the width whose bit is set. -/
theorem mem_maskLanes (m : Mask) (n k : Nat) : k ∈ maskLanes m n ↔ m.getLsbD k = true ∧ k < n := by
  simp [maskLanes, and_comm]

/-- A write of a vector register in the lanes of a mask sets it there and nothing else. -/
theorem setsV_wrVs (c : Ctx) (lvl d : Nat) (m : Mask) (val : Nat → Word) :
    SetsV c.t (c.t.wrVs lvl d ((c.lanes m).map fun l => (l, val l))) lvl d (inLanes c m) val := by
  have lanesSmall : ∀ e ∈ (c.lanes m).map fun l => (l, val l), e.1 < 1024 := by
    intro e he
    obtain ⟨l, hl, rfl⟩ := List.mem_map.mp he
    exact BitVec.lt_of_getLsbD ((mem_maskLanes m _ l).mp hl).1
  have inLanes_iff : ∀ l, inLanes c m l = true ↔ l ∈ c.lanes m := fun l => by
    simp [inLanes, Ctx.lanes, mem_maskLanes]
  refine ⟨fun r l hl => ?_, fun r => rdS_wrVs _ _ _ _ _, wrVs_frame _ _ _ _⟩
  rw [rdV_wrVs _ _ _ _ _ _ hl lanesSmall, find_lane_value]
  by_cases hr : r = d
  · by_cases hm : l ∈ c.lanes m <;> simp [hr, hm, inLanes_iff]
  · simp [hr]

/-! The uniform forms, SMOVI and SADDI (R345). -/

/-- A uniform immediate form that is ready writes its result to s[D] and nothing else. -/
theorem uniformImmediate_sets {s : State} {tid : Nat} {t : Team} {p : Split} {i : Instr} {d a : Nat} {eff : Quad → Quad}
    (h : Ready s tid t p i) (hexec : exec i s = issueIS (form i) d a (form i).len s eff) :
    let c := src s tid t p i
    ∃ t1, Completes i s c t1 ∧ SetsS c.t t1 c.sp.lvl d (eff (c.rdS a)) := by
  refine ⟨_, ?_, setsS_wrS _ _ _ _⟩
  have hearly : (Ctx.window { s := s, tid := tid, t := t, sp := p }).tooEarly (form i) = none := tooEarly_of_ready h
  unfold Completes
  rw [hexec, issueIS, withCtx_of_issues h.1]
  simp only [hearly]
  rfl

/-! The lane forms, MOVI and IADDI (R359). -/

/-- Without a repeat prefix the repetitions are one write in the active lanes, from the sources as the form reads them. -/
theorem immReps_single (mk : Nat → Nat → Form) (eff : Word → Word) (d a : Nat) (c : Ctx) :
    immReps mk eff [(d, a)] c [] =
      let c1 := c.early (mk d a)
      { c1 with t := c1.t.wrVs c1.sp.lvl d ((c1.lanes c1.active).map fun l => (l, eff (c1.rdV a l))), ov := [] } := by
  simp [immReps]

/-- A lane immediate form that is ready and stands under no repeat prefix writes its result to v[D] in every active lane
and nothing else. `hpasses` says what stage 7 asks of the form (R126). -/
theorem laneImmediate_sets {s : State} {tid : Nat} {t : Team} {p : Split} {i : Instr} {mk : Nat → Nat → Form}
    {useA : Bool} {d a : Nat} {eff : Word → Word} (h : Ready s tid t p i) (hrep : p.rep = none)
    (hexec : exec i s = issueIV mk useA d a (form i).len s eff) (hmk : mk d a = form i)
    (hpasses : ∀ c, Stated.passes c (form i) =
      ((allotted c d && (!useA || allotted c a)) && (c.tooEarly (form i)).isNone)) :
    let c := src s tid t p i
    ∃ t1, Completes i s c t1 ∧ SetsV c.t t1 c.sp.lvl d (inLanes c c.active) fun l => eff (c.rdV a l) := by
  refine ⟨_, ?_, setsV_wrVs _ _ _ _ _⟩
  have hearly : (start s tid t p).tooEarly (form i) = none := tooEarly_of_ready h
  obtain ⟨hissues, -, hpass, -⟩ := h
  simp only [hpasses, Bool.and_eq_true, Bool.or_eq_true, Bool.not_eq_true', allotted, Option.isNone_iff_eq_none] at hpass
  obtain ⟨⟨hD, hA⟩, -⟩ := hpass
  have hforms : immForms (start s tid t p).sp useA d a = [(d, a)] := by simp [immForms, hrep]
  have hA' : (if useA then Fld.outside .v (start s tid t p).t.regs 0 0 ((start s tid t p).sp.lvl != 0) a else none) =
      none := by
    cases useA with
    | false => rfl
    | true => simpa using hA
  unfold Completes
  rw [hexec, issueIV, withCtx_of_issues hissues, ← start]
  simp only [hforms, List.findSome?_cons, List.findSome?_nil, hD, hA', hmk, hearly, Option.or_none, immReps_single]
  rfl

/-! The eight words of format I. -/

theorem exec_smovi (w : OpI7) (s : State) : exec (.smovi w) s =
    issueIS (form (.smovi w)) w.d.toNat w.a.toNat (form (.smovi w)).len s fun _ => w.imm.signExtend 64 := rfl
theorem exec_smoviImm30 (w : OpI30) (s : State) : exec (.smoviImm30 w) s =
    issueIS (form (.smoviImm30 w)) w.d.toNat w.a.toNat (form (.smoviImm30 w)).len s fun _ => w.imm.signExtend 64 := rfl
theorem exec_saddi (w : OpI7) (s : State) : exec (.saddi w) s =
    issueIS (form (.saddi w)) w.d.toNat w.a.toNat (form (.saddi w)).len s fun x => x + w.imm.signExtend 64 := rfl
theorem exec_saddiImm30 (w : OpI30) (s : State) : exec (.saddiImm30 w) s =
    issueIS (form (.saddiImm30 w)) w.d.toNat w.a.toNat (form (.saddiImm30 w)).len s
      fun x => x + w.imm.signExtend 64 := rfl

/-- A one-word lane form with D and A as a repetition steps them (R306). -/
def steppedI7 (op : Nat) (w : OpI7) (useA : Bool) (d a : Nat) : Form :=
  .i7 op { w with d := BitVec.ofNat 8 d, a := BitVec.ofNat 8 a } true useA
/-- A two-word lane form with D and A as a repetition steps them (R306). -/
def steppedI30 (op : Nat) (w : OpI30) (useA : Bool) (d a : Nat) : Form :=
  .i30 op { w with d := BitVec.ofNat 8 d, a := BitVec.ofNat 8 a } true useA

theorem steppedI7_own (op : Nat) (w : OpI7) (useA : Bool) :
    steppedI7 op w useA w.d.toNat w.a.toNat = .i7 op w true useA := by simp [steppedI7]
theorem steppedI30_own (op : Nat) (w : OpI30) (useA : Bool) :
    steppedI30 op w useA w.d.toNat w.a.toNat = .i30 op w true useA := by simp [steppedI30]

theorem exec_movi (w : OpI7) (s : State) : exec (.movi w) s =
    issueIV (steppedI7 12 w false) false w.d.toNat w.a.toNat (form (.movi w)).len s fun _ => w.imm.signExtend 32 := rfl
theorem exec_moviImm30 (w : OpI30) (s : State) : exec (.moviImm30 w) s =
    issueIV (steppedI30 12 w false) false w.d.toNat w.a.toNat (form (.moviImm30 w)).len s
      fun _ => w.imm.signExtend 32 := rfl
theorem exec_iaddi (w : OpI7) (s : State) : exec (.iaddi w) s =
    issueIV (steppedI7 11 w true) true w.d.toNat w.a.toNat (form (.iaddi w)).len s fun x => x + w.imm.signExtend 32 := rfl
theorem exec_iaddiImm30 (w : OpI30) (s : State) : exec (.iaddiImm30 w) s =
    issueIV (steppedI30 11 w true) true w.d.toNat w.a.toNat (form (.iaddiImm30 w)).len s
      fun x => x + w.imm.signExtend 32 := rfl

/-- Settles O10: each word is an instance of the uniform or of the lane immediate form. -/
theorem immediateResults : Obligations.ImmediateResults := by
  unfold Obligations.ImmediateResults
  intro s tid t p
  constructor
  · rintro i d a x add c h
      (⟨w, rfl, rfl, rfl, rfl, rfl⟩ | ⟨w, rfl, rfl, rfl, rfl, rfl⟩ |
        ⟨w, rfl, rfl, rfl, rfl, rfl⟩ | ⟨w, rfl, rfl, rfl, rfl, rfl⟩)
    · exact uniformImmediate_sets h (exec_smovi w s)
    · exact uniformImmediate_sets h (exec_smoviImm30 w s)
    · exact uniformImmediate_sets h (exec_saddi w s)
    · exact uniformImmediate_sets h (exec_saddiImm30 w s)
  · rintro i d a x add c h hrep
      (⟨w, rfl, rfl, rfl, rfl, rfl⟩ | ⟨w, rfl, rfl, rfl, rfl, rfl⟩ |
        ⟨w, rfl, rfl, rfl, rfl, rfl⟩ | ⟨w, rfl, rfl, rfl, rfl, rfl⟩)
    · exact laneImmediate_sets h hrep (exec_movi w s) (steppedI7_own 12 w false) fun _ => rfl
    · exact laneImmediate_sets h hrep (exec_moviImm30 w s) (steppedI30_own 12 w false) fun _ => rfl
    · exact laneImmediate_sets h hrep (exec_iaddi w s) (steppedI7_own 11 w true) fun _ => rfl
    · exact laneImmediate_sets h hrep (exec_iaddiImm30 w s) (steppedI30_own 11 w true) fun _ => rfl

end Sys2Proof.Immediates
end

section
/-! PROOF. LSET, LGET, HSET and HGET (R390, R391): images between the uniform registers and the layout and handle
registers. Issuing under a true guard first (R330), then runs of uniform registers and images cut into quadwords, then the
four instructions. -/

namespace Sys2Proof.LayoutRegisters

open Machine Stated Laws Immediates

/-! Issuing. -/

/-- A uniform instruction that is ready and whose guard is true in a lane comes to its own effect (R315, R330). -/
theorem issueU_of_ready {s : State} {tid : Nat} {t : Team} {p : Split} {i : Instr} {op fn : Nat} {w : OpA} {g : Sig}
    (h : Ready s tid t p i) (hform : form i = .a op fn w g) (hguard : (src s tid t p i).guarded w = true)
    (k : Ctx → Out) : issueU op fn g w s k = k (src s tid t p i) := by
  have hearly := tooEarly_of_ready h
  obtain ⟨hissues, -, hpass, -⟩ := h
  simp only [hform, Stated.passes, Bool.and_eq_true, Option.isNone_iff_eq_none] at hpass hearly
  unfold src at hguard ⊢
  rw [hform] at hguard ⊢
  unfold issueU issueA issueK issueKR
  rw [withCtx_of_issues hissues, ← start]
  simp only [hpass.1, hearly, Option.or_none, hguard, if_true]

/-! Runs of uniform registers. -/

/-- The team with uniform registers d to d + n - 1 written from `f`, the lowest first. -/
def wrRun (t : Team) (lvl d n : Nat) (f : Nat → Quad) : Team :=
  (List.range n).foldl (fun t j => t.wrS lvl (d + j) (f j)) t

theorem wrRun_succ (t : Team) (lvl d n : Nat) (f : Nat → Quad) :
    wrRun t lvl d (n + 1) f = (wrRun t lvl d n f).wrS lvl (d + n) (f n) := by
  simp [wrRun, List.range_succ]

theorem rdS_wrRun (t : Team) (lvl d n r : Nat) (f : Nat → Quad) :
    (wrRun t lvl d n f).rdS lvl r = if d ≤ r ∧ r < d + n then f (r - d) else t.rdS lvl r := by
  induction n with
  | zero => rw [if_neg (by omega)]; rfl
  | succ n ih =>
    rw [wrRun_succ, rdS_wrS, ih]
    by_cases hlast : r = d + n
    · subst hlast; simp
    · rw [if_neg hlast]
      exact if_congr (by omega) rfl rfl

/-- A run of writes changes only the uniform registers and the frames. -/
theorem wrRun_frame (t : Team) (lvl d n : Nat) (f : Nat → Quad) :
    wrRun t lvl d n f = { t with s := (wrRun t lvl d n f).s, uframe := (wrRun t lvl d n f).uframe,
                                 kframe := (wrRun t lvl d n f).kframe } := by
  induction n with
  | zero => rfl
  | succ n ih => rw [wrRun_succ, wrS_frame, ih]

/-! Images in quadwords. -/

/-- Quadword j of an image. -/
abbrev quadword {n : Nat} (x : BitVec n) (j : Nat) : Quad := x.extractLsb' (64 * j) 64

/-- The lowest quadwords of an image, each at its weight, sum to its low bits. -/
theorem sum_quadwords {n : Nat} (x : BitVec n) (k : Nat) :
    (List.range k).foldl (fun a j => a + (quadword x j).toNat * 2 ^ (64 * j)) 0 = x.toNat % 2 ^ (64 * k) := by
  induction k with
  | zero => simp [Nat.mod_one]
  | succ k ih =>
    rw [List.range_succ, List.foldl_append, ih, Nat.mul_succ, Nat.pow_add, Nat.mod_mul]
    simp [BitVec.extractLsb'_toNat, Nat.shiftRight_eq_div_pow, Nat.mul_comm]

/-- The image that LSET puts together from registers (R390) is the one whose quadwords they hold. -/
theorem assembled_eq_of_quadwords {x : BitVec 512} {q : Nat → Quad} (h : ∀ j, j < 8 → quadword x j = q j) :
    BitVec.ofNat 512 ((List.range 8).foldl (fun a j => a + (q j).toNat * 2 ^ (64 * j)) 0) = x := by
  have hsum : (List.range 8).foldl (fun a j => a + (q j).toNat * 2 ^ (64 * j)) 0 = x.toNat % 2 ^ 512 := by
    rw [← sum_quadwords x 8]
    exact List.foldl_ext _ _ _ fun a j hj => by rw [h j (List.mem_range.mp hj)]
  rw [hsum, Nat.mod_eq_of_lt x.isLt, BitVec.ofNat_toNat, BitVec.setWidth_eq]

/-! The four instructions: what each comes to when it is ready and its guard true. -/

/-- The layout constants of the split's workgroup, as read at placement (R79). -/
abbrev layoutConstants (c : Ctx) : List (BitVec 512) := ((c.s.wgOf c.t).map (·.lconsts)).getD []

/-- LSET's source gives image x: layout constant A, or the eight registers from s[A] (R390). -/
def LsetReads (c : Ctx) (w : OpA) (x : BitVec 512) : Prop :=
  if w.md 0 0 = 1 then (layoutConstants c)[w.aN]? = some x else ∀ j, j < 8 → quadword x j = c.rdS (w.aN + j)

section
variable {s : State} {tid : Nat} {t : Team} {p : Split} {w : OpA}

/-- LSET of an image from either source offers it to l[D], with n or 0xFFFF_FFFF for TINFO1 (R390). -/
theorem exec_lset_of_reads (h : Ready s tid t p (.lset w)) (hg : (src s tid t p (.lset w)).guarded w = true)
    {x : BitVec 512} (hx : LsetReads (src s tid t p (.lset w)) w x) :
    exec (.lset w) s =
      (src s tid t p (.lset w)).setLy w.dN x (if w.md 0 0 = 1 then w.aN else 0xFFFFFFFF) (lenA w) := by
  change execLset w s = _
  rw [execLset, issueU_of_ready h rfl hg]
  unfold LsetReads at hx
  by_cases hk : w.md 0 0 = 1
  · simp only [hk, if_true] at hx
    simp only [hk, beq_self_eq_true, if_true, hx]
  · simp only [hk, if_false] at hx
    simp only [hk, beq_iff_eq, if_false, assembled_eq_of_quadwords hx]

/-- LSET of a well-formed image (R204) sets l[D]; another raises OPERAND_FORMAT. -/
theorem lset_sets_or_traps {c : Ctx} {x : BitVec 512} {n : Nat} (h : exec (.lset w) s = c.setLy w.dN x n (lenA w)) :
    if imageOk x = true then ∃ t1, Completes (.lset w) s c t1 ∧ t1 = { c.t with ly := t1.ly } ∧
        ∀ k, t1.ly.get k = if k = w.dN then x else c.t.ly.get k
    else Traps (.lset w) s c 0x23 [w.dN, n] := by
  unfold Ctx.setLy at h
  split
  · next hok =>
    rw [if_pos hok] at h
    exact ⟨_, h, rfl, fun k => store_get_set_if _ _ _ _⟩
  · next hok =>
    rw [if_neg hok] at h
    exact h

/-- LSET of a constant number at or above NLCONST raises OPERAND_FORMAT (R390). -/
theorem lset_traps_of_no_constant (h : Ready s tid t p (.lset w))
    (hg : (src s tid t p (.lset w)).guarded w = true) (hk : w.md 0 0 = 1)
    (hlen : (layoutConstants (src s tid t p (.lset w))).length ≤ w.aN) :
    Traps (.lset w) s (src s tid t p (.lset w)) 0x23 [w.dN, w.aN] := by
  change execLset w s = _
  rw [execLset, issueU_of_ready h rfl hg]
  simp only [hk, beq_self_eq_true, if_true, List.getElem?_eq_none hlen]
  rfl

/-- LGET writes the eight quadwords of l[A] to a run of registers. -/
theorem lget_completes (h : Ready s tid t p (.lget w)) (hg : (src s tid t p (.lget w)).guarded w = true) :
    let c := src s tid t p (.lget w)
    Completes (.lget w) s c (wrRun c.t c.sp.lvl w.dN 8 (quadword (c.t.ly.get w.aN))) := by
  change execLget w s = _
  rw [execLget, issueU_of_ready h rfl hg]
  rfl

/-- HSET of an accepted handle sets its register; a refused one raises OPERAND_FORMAT (R211, R391). -/
theorem hset_sets_or_traps (h : Ready s tid t p (.hset w)) (hg : (src s tid t p (.hset w)).guarded w = true) :
    let c := src s tid t p (.hset w)
    let x : BitVec 128 := c.rdS (w.aN + 1) ++ c.rdS w.aN
    if handleOk x = true then ∃ t1, Completes (.hset w) s c t1 ∧ t1 = { c.t with h := t1.h } ∧
        ∀ k, t1.h.get k = if k = w.dN then x else c.t.h.get k
    else Traps (.hset w) s c 0x23 [w.dN] := by
  intro c x
  have hexec : exec (.hset w) s = if handleOk x then c.done { c.t with h := c.t.h.set w.dN x } (lenA w)
      else c.trap cFormat [w.dN] (lenA w) := by
    change execHset w s = _
    rw [execHset, issueU_of_ready h rfl hg]
  split
  · next hok =>
    rw [if_pos hok] at hexec
    exact ⟨_, hexec, rfl, fun k => store_get_set_if _ _ _ _⟩
  · next hok =>
    rw [if_neg hok] at hexec
    exact hexec

/-- HGET writes the two quadwords of h[A] to a pair of registers (R391). -/
theorem hget_completes (h : Ready s tid t p (.hget w)) (hg : (src s tid t p (.hget w)).guarded w = true) :
    let c := src s tid t p (.hget w)
    Completes (.hget w) s c (wrRun c.t c.sp.lvl w.dN 2 (quadword (c.t.h.get w.aN))) := by
  change execHget w s = _
  rw [execHget, issueU_of_ready h rfl hg]
  rfl

end

/-- Settles O34: LSET and HSET by the check of the image they put together, LGET and HGET as runs of register writes. -/
theorem layoutAndHandleRegisters : Obligations.LayoutAndHandleRegisters := by
  unfold Obligations.LayoutAndHandleRegisters
  intro s tid t p w
  refine ⟨?lset, ?noConstant, ?lget, ?hset, ?hget⟩
  case lset =>
    intro c consts x h hg hx
    exact lset_sets_or_traps (exec_lset_of_reads h hg hx)
  case noConstant =>
    intro c consts h hg hk hlen
    exact lset_traps_of_no_constant h hg hk hlen
  case lget =>
    intro c h hg
    exact ⟨_, lget_completes h hg, wrRun_frame _ _ _ _ _, fun r => rdS_wrRun _ _ _ _ r _⟩
  case hset =>
    intro c x h hg
    exact hset_sets_or_traps h hg
  case hget =>
    intro c h hg
    exact ⟨_, hget_completes h hg, wrRun_frame _ _ _ _ _, fun r => rdS_wrRun _ _ _ _ r _⟩

end Sys2Proof.LayoutRegisters
end
